-- ==== Sys2Proof/Word.lean ====
section
/-! DEFINITION. The word types of the FBP (00_scope R10): bytes, command words, registers. -/

namespace Sys2Proof

/-- One byte of a byte space (20_memory R80). -/
abbrev Byte := BitVec 8

/-- A byte sequence, element 0 first (00_scope R12). -/
abbrev Bytes := List Byte

/-- A command word (30_encoding R110), a host address (20_memory R86), a 32-bit record field (R92 to R95). -/
abbrev Word32 := BitVec 32

/-- A register (10_state R30) or a timestamp (00_scope R10). -/
abbrev Word64 := BitVec 64

end Sys2Proof
end

