-- ==== Sys2Proof/Syntax.lean ====
section
/-! DEFINITION. The commands of the FBP: one constructor per row of spec/opcode_table.json
(30_encoding R116, R117), with the fields a legal word of the row carries. -/

namespace Sys2Proof

/-- The space selector SP of a region operand (30_encoding R112, 20_memory R84). The reserved values
3 to 15 are no value of this type. -/
inductive RegionSel where
  | inp   -- SP = 0, region (IN, ARG0, ARG1)
  | rbsp  -- SP = 1, region (RBSP, ARG0, ARG1)
  | dt    -- SP = 2, the region that DT entry ARG0 names
  deriving DecidableEq, Repr

/-- The 25 commands. -/
inductive Instr where
  | nop
  | reset
  | trackReset
  | brInit (sp : RegionSel)
  | readBits (n : BitVec 6)
  | skipBits (n : BitVec 16)
  | readUe
  | skipUe
  | readSe
  | skipSe
  | skipScalingList (size : BitVec 8)
  | splitAnnexb (sp : RegionSel) (endDelim : Bool)
  | splitLenpfx (sp : RegionSel) (width : BitVec 3)
  | epbRemove (sp : RegionSel)
  | avcSpsParse (sp : RegionSel)
  | hevcSpsParse (sp : RegionSel)
  | avccParse (sp : RegionSel)
  | hvccParse (sp : RegionSel)
  | aacAscParse (sp : RegionSel)
  | adtsParse (sp : RegionSel)
  | mpaHdrParse (sp : RegionSel)
  | mpaScan (sp : RegionSel)
  | tsDemux (disc contig : Bool)
  | tsFlush
  | flvDemux (disc contig : Bool)
  deriving DecidableEq, Repr

end Sys2Proof
end

