-- ==== Sys2Proof/WellFormed.lean ====
section
/-! DEFINITION. Which terms of `Instr` are commands: the value checks of 30_encoding R117's last
column. The other checks of that table are carried by the types of the fields. -/

namespace Sys2Proof

/-- READ_BITS takes 0 to 32 bits, SPLIT_LENPFX a prefix of 1 to 4 bytes (30_encoding R114, R122). -/
def Instr.wellFormed : Instr → Bool
  | .readBits n => decide (n.toNat ≤ 32)
  | .splitLenpfx _ w => decide (1 ≤ w.toNat ∧ w.toNat ≤ 4)
  | .nop => true
  | .reset => true
  | .trackReset => true
  | .brInit _ => true
  | .skipBits _ => true
  | .readUe => true
  | .skipUe => true
  | .readSe => true
  | .skipSe => true
  | .skipScalingList _ => true
  | .splitAnnexb _ _ => true
  | .epbRemove _ => true
  | .avcSpsParse _ => true
  | .hevcSpsParse _ => true
  | .avccParse _ => true
  | .hvccParse _ => true
  | .aacAscParse _ => true
  | .adtsParse _ => true
  | .mpaHdrParse _ => true
  | .mpaScan _ => true
  | .tsDemux _ _ => true
  | .tsFlush => true
  | .flvDemux _ _ => true

end Sys2Proof
end

