-- ==== Sys2Proof/Decode.lean ====
section
/-! DEFINITION. The command decoder (30_encoding R110 to R124) and, after it, the encoder. -/

namespace Sys2Proof

/-- OPC, bits [31:24] of a command word (R110). -/
def opcField (w : Word32) : BitVec 8 := w.extractLsb' 24 8

/-- SP, bits [23:20] (R110). -/
def spField (w : Word32) : BitVec 4 := w.extractLsb' 20 4

/-- FL, bits [19:16] (R110). -/
def flField (w : Word32) : BitVec 4 := w.extractLsb' 16 4

/-- IMM, bits [15:0] (R110). -/
def immField (w : Word32) : BitVec 16 := w.extractLsb' 0 16

/-- `w[19:0]`, what ERR_INFO reports of a reserved flag or immediate (R118, R122). -/
def lowField (w : Word32) : BitVec 20 := w.extractLsb' 0 20

/-- Why a command word is illegal (R120, R121, R122). -/
inductive DecodeError where
  | undefinedOpcode (opc : BitVec 8)   -- R120
  | reservedSpace (sp : BitVec 4)      -- R121
  | reservedField (low : BitVec 20)    -- R122: a flag or immediate bit, or an immediate out of range
  deriving DecidableEq, Repr

/-- The ERR_INFO value of an illegal word (R118, 60_exceptions R451). -/
def illegalInfo : DecodeError → Nat
  | .undefinedOpcode opc => opc.toNat
  | .reservedSpace sp => sp.toNat
  | .reservedField low => low.toNat

/-- One row of R117's table: the opcode, the largest legal SP, the mask and match of
spec/opcode_table.json, and the command that a word of the row stands for. -/
structure OpRow where
  opc : BitVec 8
  maxSp : Nat
  pattern : Word32
  mask : Word32
  build : Word32 → Instr

/-- The region selector of a word whose SP is at most 2 (R112). -/
def selOf (w : Word32) : RegionSel :=
  if spField w = 0 then .inp else if spField w = 1 then .rbsp else .dt

/-- Bit `k` of FL (R113). -/
def flag (w : Word32) (k : Nat) : Bool := (flField w).getLsbD k

/-- R116 and R117, row by row. -/
def opRows : List OpRow :=
  [ ⟨0x00, 0, 0x00000000, 0xFFFFFFFF, fun _ => .nop⟩
  , ⟨0x01, 0, 0x01000000, 0xFFFFFFFF, fun _ => .reset⟩
  , ⟨0x02, 0, 0x02000000, 0xFFFFFFFF, fun _ => .trackReset⟩
  , ⟨0x10, 2, 0x10000000, 0xFF0FFFFF, fun w => .brInit (selOf w)⟩
  , ⟨0x11, 0, 0x11000000, 0xFFFFFFC0, fun w => .readBits ((immField w).setWidth 6)⟩
  , ⟨0x12, 0, 0x12000000, 0xFFFF0000, fun w => .skipBits (immField w)⟩
  , ⟨0x13, 0, 0x13000000, 0xFFFFFFFF, fun _ => .readUe⟩
  , ⟨0x14, 0, 0x14000000, 0xFFFFFFFF, fun _ => .skipUe⟩
  , ⟨0x15, 0, 0x15000000, 0xFFFFFFFF, fun _ => .readSe⟩
  , ⟨0x16, 0, 0x16000000, 0xFFFFFFFF, fun _ => .skipSe⟩
  , ⟨0x17, 0, 0x17000000, 0xFFFFFF00, fun w => .skipScalingList ((immField w).setWidth 8)⟩
  , ⟨0x20, 2, 0x20000000, 0xFF0EFFFF, fun w => .splitAnnexb (selOf w) (flag w 0)⟩
  , ⟨0x21, 2, 0x21000000, 0xFF0FFFF8, fun w => .splitLenpfx (selOf w) ((immField w).setWidth 3)⟩
  , ⟨0x22, 2, 0x22000000, 0xFF0FFFFF, fun w => .epbRemove (selOf w)⟩
  , ⟨0x30, 2, 0x30000000, 0xFF0FFFFF, fun w => .avcSpsParse (selOf w)⟩
  , ⟨0x31, 2, 0x31000000, 0xFF0FFFFF, fun w => .hevcSpsParse (selOf w)⟩
  , ⟨0x32, 2, 0x32000000, 0xFF0FFFFF, fun w => .avccParse (selOf w)⟩
  , ⟨0x33, 2, 0x33000000, 0xFF0FFFFF, fun w => .hvccParse (selOf w)⟩
  , ⟨0x40, 2, 0x40000000, 0xFF0FFFFF, fun w => .aacAscParse (selOf w)⟩
  , ⟨0x41, 2, 0x41000000, 0xFF0FFFFF, fun w => .adtsParse (selOf w)⟩
  , ⟨0x42, 2, 0x42000000, 0xFF0FFFFF, fun w => .mpaHdrParse (selOf w)⟩
  , ⟨0x43, 2, 0x43000000, 0xFF0FFFFF, fun w => .mpaScan (selOf w)⟩
  , ⟨0x50, 0, 0x50000000, 0xFFFCFFFF, fun w => .tsDemux (flag w 0) (flag w 1)⟩
  , ⟨0x51, 0, 0x51000000, 0xFFFFFFFF, fun _ => .tsFlush⟩
  , ⟨0x52, 0, 0x52000000, 0xFFFCFFFF, fun w => .flvDemux (flag w 0) (flag w 1)⟩ ]

/-- Decoding of a command word, the checks in R118's order. -/
def decode (w : Word32) : Except DecodeError Instr :=
  match opRows.find? (fun r => r.opc == opcField w) with
  | none => .error (.undefinedOpcode (opcField w))
  | some r =>
    if r.maxSp < (spField w).toNat then .error (.reservedSpace (spField w))
    else if w &&& r.mask ≠ r.pattern then .error (.reservedField (lowField w))
    else if (r.build w).wellFormed then .ok (r.build w)
    else .error (.reservedField (lowField w))

/-- The instruction read from the first `nbits` bits `w` of a table row; a command is one 32-bit word
(R124), and bits above `nbits` are 0. -/
def decodeTableWord (nbits w : Nat) : Option Instr :=
  (decode (BitVec.ofNat 32 (w % 2 ^ nbits))).toOption

/-- The SP field of a region selector (R112). -/
def selCode : RegionSel → BitVec 4
  | .inp => 0
  | .rbsp => 1
  | .dt => 2

/-- A command word from its four fields (R110). -/
def mkWord (opc : BitVec 8) (sp : BitVec 4) (fl : BitVec 4) (imm : BitVec 16) : Word32 :=
  opc ++ sp ++ fl ++ imm

/-- FL from its two lowest bits (R113). -/
def mkFlags (b1 b0 : Bool) : BitVec 4 := (0 : BitVec 2) ++ BitVec.ofBool b1 ++ BitVec.ofBool b0

/-- The word of a command (R110 to R117). -/
def encode : Instr → Word32
  | .nop => mkWord 0x00 0 0 0
  | .reset => mkWord 0x01 0 0 0
  | .trackReset => mkWord 0x02 0 0 0
  | .brInit sp => mkWord 0x10 (selCode sp) 0 0
  | .readBits n => mkWord 0x11 0 0 (n.setWidth 16)
  | .skipBits n => mkWord 0x12 0 0 n
  | .readUe => mkWord 0x13 0 0 0
  | .skipUe => mkWord 0x14 0 0 0
  | .readSe => mkWord 0x15 0 0 0
  | .skipSe => mkWord 0x16 0 0 0
  | .skipScalingList size => mkWord 0x17 0 0 (size.setWidth 16)
  | .splitAnnexb sp endDelim => mkWord 0x20 (selCode sp) (mkFlags false endDelim) 0
  | .splitLenpfx sp width => mkWord 0x21 (selCode sp) 0 (width.setWidth 16)
  | .epbRemove sp => mkWord 0x22 (selCode sp) 0 0
  | .avcSpsParse sp => mkWord 0x30 (selCode sp) 0 0
  | .hevcSpsParse sp => mkWord 0x31 (selCode sp) 0 0
  | .avccParse sp => mkWord 0x32 (selCode sp) 0 0
  | .hvccParse sp => mkWord 0x33 (selCode sp) 0 0
  | .aacAscParse sp => mkWord 0x40 (selCode sp) 0 0
  | .adtsParse sp => mkWord 0x41 (selCode sp) 0 0
  | .mpaHdrParse sp => mkWord 0x42 (selCode sp) 0 0
  | .mpaScan sp => mkWord 0x43 (selCode sp) 0 0
  | .tsDemux disc contig => mkWord 0x50 0 (mkFlags contig disc) 0
  | .tsFlush => mkWord 0x51 0 0 0
  | .flvDemux disc contig => mkWord 0x52 0 (mkFlags contig disc) 0

end Sys2Proof
end

