-- ==== Sys2Proof/Config.lean ====
section
/-! DEFINITION. What an implementation of the FBP fixes: the capacity parameters (00_scope R9) and
their legal range, the identity (10_state R44), and the free values the spec leaves open. -/

namespace Sys2Proof.Config

/-- The capacity parameters of 00_scope R9, in the order of the constant registers 81 to 94
(10_state R33, R44). State holds one value of this type, which no step writes (DESIGN CHOICE, log 3). -/
structure Caps where
  inCap : Nat
  rbspCap : Nat
  dtCap : Nat
  pendCap : Nat
  fifoCap : Nat
  openCap : Nat
  openUnitsCap : Nat
  remCap : Nat
  vsqCap : Nat
  vutCap : Nat
  asqCap : Nat
  sdataCap : Nat
  cfgCap : Nat
  psCap : Nat
  deriving DecidableEq, Repr

/-- The values `FBP-1` takes (00_scope R9, value column). -/
def fbp1 : Caps :=
  { inCap := 16777216, rbspCap := 1048576, dtCap := 4096, pendCap := 4194304, fifoCap := 1024
    openCap := 4194304, openUnitsCap := 1024, remCap := 16777231, vsqCap := 4096
    vutCap := 65536, asqCap := 8192, sdataCap := 16777216, cfgCap := 65536, psCap := 64 }

/-- Bytes of the audio part of the configuration store: fixed at 256 by the CFG window layout
(00_scope R9, 20_memory R95). -/
def acfgCap : Nat := 256

/-- The parameter values the spec admits: at least the minimum of 00_scope R9, and small enough for
the windows of 20_memory R86 and the table of R95. -/
structure Caps.Legal (c : Caps) : Prop where
  inMin : 188 ≤ c.inCap
  rbspMin : 64 ≤ c.rbspCap
  dtMin : 16 ≤ c.dtCap
  pendMin : 188 ≤ c.pendCap
  openMin : 188 ≤ c.openCap
  openUnitsMin : 1 ≤ c.openUnitsCap
  remMin : 15 ≤ c.remCap
  vsqMin : 1 ≤ c.vsqCap
  vutMin : 1 ≤ c.vutCap
  asqMin : 1 ≤ c.asqCap
  sdataMin : 188 ≤ c.sdataCap
  psMin : 3 ≤ c.psCap
  cfgMin : 64 ≤ c.cfgCap
  inFits : c.inCap ≤ 2 ^ 24
  rbspFits : c.rbspCap ≤ 2 ^ 24
  sdataFits : c.sdataCap ≤ 2 ^ 24
  dtFits : c.dtCap ≤ 2 ^ 19
  vsqFits : c.vsqCap ≤ 2 ^ 19
  asqFits : c.asqCap ≤ 2 ^ 19
  vutFits : c.vutCap ≤ 2 ^ 21
  cfgFits : c.cfgCap ≤ 2 ^ 24 - 2 ^ 16
  psFits : c.psCap ≤ 256

/-- The `ID` register: ASCII "FBP", then the spec version 1 (10_state R44). -/
def idWord : Word64 := 0x4642500000000001#64

/-- IN_INIT, the power-on contents of IN, a byte for every offset (20_memory R89, 93 U2). The spec
leaves it unspecified and forbids a fixed value, so it has no body: a free value
(DESIGN CHOICE, log 2). -/
opaque inInit : Nat → Byte

/-- Which capacity an append to the open sample reports when it exceeds both: true for
`OPEN_UNITS_CAP` (87), false for `OPEN_CAP` (86). 46_ts_demux R401 names both indices and no order, and
R454 orders only different operations: a free value of the sample's new byte and unit totals
(DESIGN CHOICE, log 4). -/
opaque openOverflowByUnits (bytes units : Nat) : Bool

end Sys2Proof.Config
end

