-- ==== Sys2Proof/Machine/State.lean ====
section
/-! DEFINITION. The state of the FBP (10_state), the error values a command can raise (60_exceptions
R450), the two stop types, and the state after power-on (70_reset_and_hazards R490). -/

namespace Sys2Proof.Machine

/-- A machine fault. The FBP has none: every error is a completion code of the command that raises it
(60_exceptions R455, R460), and no access traps (20_memory R87, R88). The type has no value (DEDUCED, log 10). -/
inductive Fault where
  deriving DecidableEq, Repr

/-- A refusal. -/
inductive Refusal where
  /-- Raised only by an arm of `exec` whose command has no meaning yet; no arm is such an arm. Safe. -/
  | notModelled (mnemonic : String)
  deriving DecidableEq, Repr

/-! ### Errors of commands -/

/-- The completion codes other than OK (60_exceptions R450). -/
inductive ErrCode where
  | truncatedBitstream
  | truncatedInput
  | fatalFormat
  | illegalCommand
  | regionOutOfBounds
  | capacityExceeded
  | egOverflow
  | syntaxInvalid
  | faulted
  deriving DecidableEq, Repr

/-- What a command raises: `raise E(info)` (00_scope R17). -/
structure Err where
  code : ErrCode
  info : Nat
  deriving DecidableEq, Repr

/-! ### The host bus -/

/-- The width of a host access: 1, 2, 4 or 8 bytes (20_memory R87). -/
inductive AccessWidth where
  | b1 | b2 | b4 | b8
  deriving DecidableEq, Repr

/-- One access of the host on the 32-bit bus (20_memory R86). A write carries its data in the low
bytes of `value`. -/
inductive HostAccess where
  | read (addr : Word32) (width : AccessWidth)
  | write (addr : Word32) (width : AccessWidth) (value : Word64)
  deriving DecidableEq, Repr

/-! ### Byte spaces and tables -/

/-- The two byte spaces that carry a code: 0 IN, 1 RBSP (20_memory R80). -/
inductive ByteSpace where
  | inp
  | rbsp
  deriving DecidableEq, Repr

/-- The bytes of IN that the host has written since power-on, addresses strictly rising (DESIGN CHOICE, log 14). -/
abbrev Memory := List Host.Cell

/-- An entry of the descriptor table (10_state R40). -/
structure DtEntry where
  pts : Word64
  off : Word32
  len : Word32
  aux : Word32
  space : ByteSpace
  deriving DecidableEq, Repr

/-- An entry of the video sample queue (20_memory R93). -/
structure VideoSample where
  pts : Word64
  dts : Word64
  firstUnit : Word32
  nunits : Word32
  key : Bool
  deriving DecidableEq, Repr

/-- An entry of the video unit table (20_memory R93). -/
structure VideoUnit where
  off : Word32
  len : Word32
  deriving DecidableEq, Repr

/-- An entry of the audio sample queue (20_memory R94). -/
structure AudioSample where
  pts : Word64
  off : Word32
  len : Word32
  nsamples : Word32
  deriving DecidableEq, Repr

/-- The outputs of the last demux call (10_state R48): VSQ, VUT, ASQ and SDATA. Their counts are the
lengths of the lists. -/
structure Outputs where
  vsq : List VideoSample
  vut : List VideoUnit
  asq : List AudioSample
  sdata : Bytes
  deriving DecidableEq, Repr

/-- The kinds of parameter sets in the configuration store: 0 SPS, 1 PPS, 2 VPS (20_memory R95). -/
inductive PsKind where
  | sps
  | pps
  | vps
  deriving DecidableEq, Repr

/-- A parameter-set entry of the configuration store: a whole escaped NAL unit (20_memory R95). -/
structure PsEntry where
  kind : PsKind
  bytes : Bytes
  deriving DecidableEq, Repr

/-! ### Register groups -/

/-- The stored fields of STATUS (10_state R35). V_EXISTS, A_EXISTS, FLV_HDR and OPEN stand with the
track state, which a track reset clears as a whole. -/
structure Status where
  err : Byte
  fault : Bool
  broken : Bool
  contig : Bool
  deriving DecidableEq, Repr

/-- The bit-reader registers (10_state R39). -/
structure BitReader where
  src : ByteSpace
  off : Word64
  nbits : Word64
  pos : Word64
  deriving DecidableEq, Repr

/-- The framing results (10_state R42). -/
structure FramingRegs where
  leadLen : Word64
  resOff : Word64
  resLen : Word64
  lensize : Word64
  deriving DecidableEq, Repr

/-- The six registers that SPS_* (10_state R43) and V_* (R46) share. -/
structure Geometry where
  width : Word64
  height : Word64
  sarNum : Word64
  sarDen : Word64
  codec0 : Word64
  codec1 : Word64
  deriving DecidableEq, Repr

/-- The seven SPS_* registers (10_state R43). -/
structure SpsRegs where
  geo : Geometry
  chroma : Word64
  deriving DecidableEq, Repr

/-- The eight AUD_* registers (10_state R45). -/
structure AudRegs where
  codec : Word64
  rate : Word64
  channels : Word64
  info : Word64
  frameLen : Word64
  nsamples : Word64
  bitrate : Word64
  asc : Word64
  deriving DecidableEq, Repr

/-! ### Track state -/

/-- MODE: 0 none, 1 transport stream, 2 FLV (00_scope R22). -/
inductive Mode where
  | none
  | ts
  | flv
  deriving DecidableEq, Repr

/-- V_CODEC: 0 none, 1 AVC, 2 HEVC (00_scope R22). -/
inductive VCodec where
  | none
  | avc
  | hevc
  deriving DecidableEq, Repr

/-- A_CODEC: 0 none, 1 AAC, 2 MPEG audio (00_scope R22). -/
inductive ACodec where
  | none
  | aac
  | mpeg
  deriving DecidableEq, Repr

/-- PMT_PID: [12:0] the PID, [16] KNOWN, [17] PARSED (10_state R46). -/
structure PmtPid where
  pid : BitVec 13
  known : Bool
  parsed : Bool
  deriving DecidableEq, Repr

/-- V_PID and A_PID: [12:0] the PID, [16] KNOWN (10_state R46). -/
structure EsPid where
  pid : BitVec 13
  known : Bool
  deriving DecidableEq, Repr

/-- The timestamps of a video sample, 64-bit signed (10_state R64, R65). -/
structure Stamp where
  pts : Word64
  dts : Word64
  deriving DecidableEq, Repr

/-- The open video sample (10_state R64). `stamp` is absent exactly when the sample `lacks` a pts. -/
structure OpenSample where
  stamp : Option Stamp
  key : Bool
  units : List Bytes
  deriving DecidableEq, Repr

/-- The six counters (10_state R47), each wrapping modulo 2^64. -/
structure Counters where
  dropped : Word64
  missCfg : Word64
  badPes : Word64
  aBroken : Word64
  unresDrop : Word64
  cfgFail : Word64
  deriving DecidableEq, Repr

/-- Everything a track reset clears (40_control R146): the track registers (10_state R46), the
counters (R47), the hidden state (R60 to R68) and four flags of STATUS (R35). -/
structure Track where
  pmtPid : PmtPid
  vPid : EsPid
  aPid : EsPid
  vCodec : VCodec
  aCodec : ACodec
  vGeo : Geometry
  vLensize : Word64
  aRate : Word64
  aChannels : Word64
  aInfo : Word64
  psets : List PsEntry
  acfg : Bytes
  haveSps : Bool
  havePps : Bool
  haveVps : Bool
  vExists : Bool
  aExists : Bool
  flvHdr : Bool
  tsRem : Bytes
  flvRem : Bytes
  pendV : Option Bytes
  pendA : Option Bytes
  fifo : List Bytes
  opened : Option OpenSample
  lastV : Option Stamp
  aNext : Option Word64
  cnt : Counters
  deriving DecidableEq, Repr

/-- The machine. `bus` and `busData` are the model's own (DESIGN CHOICE, log 1); every other field is named by the
spec (INVENTORY.md, State). -/
structure State where
  /-- host accesses still to be served, oldest first -/
  bus : List HostAccess
  /-- the data the last host read returned -/
  busData : Word64
  /-- the capacity registers 81 to 94; no step writes them -/
  caps : Config.Caps
  inMem : Memory
  arg0 : Word64
  arg1 : Word64
  arg2 : Word64
  arg3 : Word64
  status : Status
  errInfo : Word64
  errCmd : Word64
  val : Word64
  br : BitReader
  rbsp : Bytes
  epbCnt : Word64
  dt : List DtEntry
  frm : FramingRegs
  sps : SpsRegs
  aud : AudRegs
  mode : Mode
  trk : Track
  out : Outputs
  deriving DecidableEq, Repr

/-! ### Power-on values -/

/-- A geometry of zeros (10_state R33). -/
def Geometry.zero : Geometry :=
  { width := 0, height := 0, sarNum := 0, sarDen := 0, codec0 := 0, codec1 := 0 }

/-- The track state after reset and after a track reset (40_control R146, 70 R492). -/
def Track.reset : Track :=
  { pmtPid := { pid := 0, known := false, parsed := false }
    vPid := { pid := 0, known := false }
    aPid := { pid := 0, known := false }
    vCodec := .none, aCodec := .none
    vGeo := Geometry.zero, vLensize := 0
    aRate := 0, aChannels := 0, aInfo := 0
    psets := [], acfg := []
    haveSps := false, havePps := false, haveVps := false
    vExists := false, aExists := false, flvHdr := false
    tsRem := [], flvRem := [], pendV := none, pendA := none, fifo := []
    opened := none, lastV := none, aNext := none
    cnt := { dropped := 0, missCfg := 0, badPes := 0, aBroken := 0, unresDrop := 0, cfgFail := 0 } }

/-- Empty output queues (10_state R48). -/
def Outputs.empty : Outputs := { vsq := [], vut := [], asq := [], sdata := [] }

/-- The power-on state (70_reset_and_hazards R490, R492), with the capacities of FBP-1. -/
def State.reset : State :=
  { bus := [], busData := 0
    caps := Config.fbp1
    inMem := []
    arg0 := 0, arg1 := 0, arg2 := 0, arg3 := 0
    status := { err := 0, fault := false, broken := false, contig := false }
    errInfo := 0, errCmd := 0, val := 0
    br := { src := .inp, off := 0, nbits := 0, pos := 0 }
    rbsp := [], epbCnt := 0, dt := []
    frm := { leadLen := 0, resOff := 0, resLen := 0, lensize := 0 }
    sps := { geo := Geometry.zero, chroma := 0 }
    aud := { codec := 0, rate := 0, channels := 0, info := 0, frameLen := 0, nsamples := 0,
             bitrate := 0, asc := 0 }
    mode := .none
    trk := Track.reset
    out := Outputs.empty }

end Sys2Proof.Machine
end

