-- ==== Sys2Proof/Machine/Flags.lean ====
section
/-! DEFINITION. The codes and the STATUS word: completion codes (60_exceptions R450), the encodings of
small enumerations in registers (00_scope R22), the packed registers of 10_state R35 and R46. -/

namespace Sys2Proof.Machine

/-- The completion code in STATUS.ERR (60_exceptions R450). -/
def errByte : ErrCode → Byte
  | .truncatedBitstream => 0x01
  | .truncatedInput => 0x02
  | .fatalFormat => 0x03
  | .illegalCommand => 0x10
  | .regionOutOfBounds => 0x11
  | .capacityExceeded => 0x12
  | .egOverflow => 0x13
  | .syntaxInvalid => 0x14
  | .faulted => 0x15

/-- MODE as a number (00_scope R22). -/
def modeCode : Mode → Nat
  | .none => 0
  | .ts => 1
  | .flv => 2

/-- CLOCK is a function of MODE (40_control R151). -/
def clockOf : Mode → Nat
  | .none => 0
  | .ts => 90000
  | .flv => 1000

/-- V_CODEC as a number (00_scope R22). -/
def vCodecCode : VCodec → Nat
  | .none => 0
  | .avc => 1
  | .hevc => 2

/-- A_CODEC as a number (00_scope R22). -/
def aCodecCode : ACodec → Nat
  | .none => 0
  | .aac => 1
  | .mpeg => 2

/-- The space code of a byte space (20_memory R80). -/
def spaceCode : ByteSpace → Nat
  | .inp => 0
  | .rbsp => 1

/-- The kind number of a parameter-set entry (20_memory R95). -/
def psKindCode : PsKind → Nat
  | .sps => 0
  | .pps => 1
  | .vps => 2

/-- STATUS.OPEN is 1 exactly when an open sample is present (10_state R64). -/
def statusOpen (s : State) : Bool := s.trk.opened.isSome

/-- The sample was opened without a pts (10_state R64). -/
def OpenSample.lacks (o : OpenSample) : Bool := o.stamp.isNone

/-- The STATUS register (10_state R35), bits [63:15] 0. -/
def statusWord (s : State) : Word64 :=
  (0 : BitVec 49) ++ BitVec.ofBool (statusOpen s) ++ BitVec.ofBool s.status.contig
    ++ BitVec.ofBool s.trk.flvHdr ++ BitVec.ofBool s.trk.aExists ++ BitVec.ofBool s.trk.vExists
    ++ BitVec.ofBool s.status.broken ++ BitVec.ofBool s.status.fault ++ s.status.err

/-- The PMT_PID register (10_state R46). -/
def pmtPidWord (p : PmtPid) : Word64 :=
  (0 : BitVec 46) ++ BitVec.ofBool p.parsed ++ BitVec.ofBool p.known ++ (0 : BitVec 3) ++ p.pid

/-- The V_PID and A_PID registers (10_state R46). -/
def esPidWord (p : EsPid) : Word64 :=
  (0 : BitVec 47) ++ BitVec.ofBool p.known ++ (0 : BitVec 3) ++ p.pid

end Sys2Proof.Machine
end

