-- ==== Sys2Proof/Machine/Ops.lean ====
section
/-! DEFINITION. The shared operations: how a command ends (40_control R140, 60_exceptions R455), the
byte spaces (20_memory R80, R83, R89), big-endian fields (00_scope R12), the track reset and the
demux-call preamble (40_control R146, R149). -/

namespace Sys2Proof.Machine

/-! ### The end of a command -/

/-- `complete()` of 40_control R140, for the command word `w`. -/
def complete (w : Word32) (s : State) : State :=
  { s with status := { s.status with err := 0 }, errInfo := 0, errCmd := w.setWidth 64 }

/-- The error path of 60_exceptions R455, for the command word `w`: this is all a failing command
writes. FATAL_FORMAT, and only it, sets the sticky FAULT (R458). -/
def errorPath (w : Word32) (e : Err) (s : State) : State :=
  { s with
    status := { s.status with
      err := errByte e.code
      fault := s.status.fault || decide (e.code = .fatalFormat) }
    errInfo := BitVec.ofNat 64 e.info
    errCmd := w.setWidth 64 }

/-- How a command other than NOP ends: with the state its rule gives, or, when it raised, with the
state it found and the error path (60_exceptions R456, R457). Nothing is returned from: the host's
next access follows either way (R461). The word ERR_CMD takes is the one the command encodes to (DEDUCED, log 7). -/
def finish (i : Instr) (s : State) (r : Except Err State) : Host.Outcome State Fault Refusal :=
  match r with
  | .ok s' => .next (complete (encode i) s')
  | .error e => .next (errorPath (encode i) e s)

/-- `raise E(info)` unless the condition holds. -/
def check (ok : Bool) (code : ErrCode) (info : Nat) : Except Err Unit :=
  if ok then .ok () else .error { code, info }

/-- Step 3 of 60_exceptions R453: the track commands are refused in the fault state. -/
def checkFault (s : State) : Except Err Unit := check (!s.status.fault) .faulted 0

/-- Step 4 of 60_exceptions R453: a demux call of the other container is refused (40_control R148). -/
def checkMode (wanted : Mode) (s : State) : Except Err Unit :=
  check (s.mode = .none || s.mode = wanted) .illegalCommand (modeCode s.mode)

/-! ### Byte spaces -/

/-- The byte listed at an address, if any. -/
def memLookup : Memory → Nat → Option Byte
  | [], _ => none
  | (k, b) :: rest, a => if k = a then some b else memLookup rest a

/-- One byte of IN: what the host wrote last, else IN_INIT (20_memory R89). -/
def memByte (m : Memory) (a : Nat) : Byte := (memLookup m a).getD (Config.inInit a)

/-- `n` bytes from address `a` of a memory whose listed addresses are rising and at least `a`. -/
def memFrom : Memory → Nat → Nat → Bytes
  | _, _, 0 => []
  | [], a, n + 1 => Config.inInit a :: memFrom [] (a + 1) n
  | (k, b) :: rest, a, n + 1 =>
    if k = a then b :: memFrom rest (a + 1) n
    else Config.inInit a :: memFrom ((k, b) :: rest) (a + 1) n

/-- The bytes IN[a .. a+n) (00_scope R15), in one pass over the listed bytes. -/
def memRange (m : Memory) (a n : Nat) : Bytes := memFrom (m.dropWhile (fun c => c.1 < a)) a n

/-- The host's write of one byte of IN. -/
def memWrite : Memory → Nat → Byte → Memory
  | [], a, b => [(a, b)]
  | (k, c) :: rest, a, b =>
    if a < k then (a, b) :: (k, c) :: rest
    else if a = k then (a, b) :: rest
    else (k, c) :: memWrite rest a b

/-- The canonical form: addresses strictly rising (DESIGN CHOICE, log 14). -/
abbrev Memory.wf (m : Memory) : Prop := m.Pairwise (fun x y => x.1 < y.1)

/-- The current size of a byte space (20_memory R80). -/
def spaceSize (s : State) : ByteSpace → Nat
  | .inp => s.caps.inCap
  | .rbsp => s.rbsp.length

/-- `MemRead(space, off, n)` (00_scope R15), for `off + n` at most the space's size. -/
def memRead (s : State) : ByteSpace → Nat → Nat → Bytes
  | .inp, off, n => memRange s.inMem off n
  | .rbsp, off, n => (s.rbsp.drop off).take n

/-! ### Byte sequences -/

/-- Byte `i` of a sequence as a number (00_scope R12); the parsers read only within the sequence
(DESIGN CHOICE beyond it, log 9). -/
def byteAt (b : Bytes) (i : Nat) : Nat := (b.getD i 0).toNat

/-- `BE_n` of a whole sequence (00_scope R12). -/
def beNat (b : Bytes) : Nat := b.foldl (fun acc x => acc * 256 + x.toNat) 0

/-- `B[i .. i+n)` (00_scope R12). -/
def slice (b : Bytes) (i n : Nat) : Bytes := (b.drop i).take n

/-- `BE_n(B[i .. i+n))`. -/
def beAt (b : Bytes) (i n : Nat) : Nat := beNat (slice b i n)

/-- The `n` bytes of a number, least significant first: the host's byte order (20_memory R82). -/
def leBytes : Nat → Nat → Bytes
  | 0, _ => []
  | n + 1, v => BitVec.ofNat 8 v :: leBytes n (v / 256)

/-- The number whose bytes are given least significant first (20_memory R82). -/
def leNat : Bytes → Nat
  | [] => 0
  | b :: rest => b.toNat + 256 * leNat rest

/-! ### Track reset and preamble -/

/-- `track_reset()` (40_control R146); what it keeps is R147. -/
def trackReset (s : State) : State := { s with trk := Track.reset }

/-- The part of `preamble(kind, DISC, CONTIG)` that both containers and TS_FLUSH share: the mode
latch, the track reset on DISC, and the clearing of the output queues (40_control R149). CLOCK follows
MODE (R151). -/
def preamble (kind : Mode) (disc contig : Bool) (s : State) : State :=
  let s := if disc then trackReset s else s
  { s with mode := kind, status := { s.status with contig := contig }, out := Outputs.empty }

end Sys2Proof.Machine
end

