-- ==== Sys2Proof/Machine/Bits.lean ====
section
/-! DEFINITION. The bit-level primitives of 41_bitreader section 1 (R170 to R175): u, skip, ue, se and
scaling_list, over a byte sequence with a bit cursor. -/

namespace Sys2Proof.Machine

/-- A byte sequence, its length in bits and a bit cursor (00_scope R16). -/
structure Cursor where
  bytes : Bytes
  nbits : Nat
  pos : Nat
  deriving DecidableEq, Repr

/-- A bit-level parser: it moves the cursor, and may raise (41_bitreader R175). -/
abbrev BitP := StateT Cursor (Except Err)

/-- Stream bit `q` of a byte sequence: `S[q div 8][7 - (q mod 8)]` (00_scope R11). -/
def bitAt (s : Bytes) (q : Nat) : Bool := (s.getD (q / 8) 0).getMsbD (q % 8)

/-- The big-endian value of the `n` bits from bit `p` (R170). -/
def bitsVal (s : Bytes) (p : Nat) : Nat → Nat
  | 0 => 0
  | n + 1 => 2 * bitsVal s p n + (bitAt s (p + n)).toNat

/-- `u(n)` (R170), and `f(n)`, the same read. -/
def u (n : Nat) : BitP Nat := fun c =>
  if c.nbits < c.pos + n then .error { code := .truncatedBitstream, info := c.pos }
  else .ok (bitsVal c.bytes c.pos n, { c with pos := c.pos + n })

/-- `skip(n)` (R171). -/
def skip (n : Nat) : BitP Unit := fun c =>
  if c.nbits < c.pos + n then .error { code := .truncatedBitstream, info := c.pos }
  else .ok ((), { c with pos := c.pos + n })

/-- The loop of `ue()` (R172): the number of zeros before the first one bit from bit `p`, `z` of them
already counted, with at most `fuel` more before EG_OVERFLOW. `start` is the cursor at which the code
began. -/
def zeroRun (c : Cursor) (start : Nat) : Nat → Nat → Nat → Except Err Nat
  | 0, _, _ => .error { code := .egOverflow, info := start }
  | fuel + 1, p, z =>
    if c.nbits ≤ p then .error { code := .truncatedBitstream, info := start }
    else if bitAt c.bytes p then .ok z
    else zeroRun c start fuel (p + 1) (z + 1)

/-- `ue()` (R172): at most 31 leading zeros. -/
def ue : BitP Nat := fun c =>
  match zeroRun c c.pos 32 c.pos 0 with
  | .error e => .error e
  | .ok z =>
    if c.nbits < c.pos + z + 1 + z then .error { code := .truncatedBitstream, info := c.pos }
    else .ok (2 ^ z - 1 + bitsVal c.bytes (c.pos + z + 1) z, { c with pos := c.pos + z + 1 + z })

/-- The signed value of an unsigned code: odd codes positive (R173). -/
def seOf (k : Nat) : Int := if k % 2 = 1 then (k + 1) / 2 else -((k : Int) / 2)

/-- `se()` (R173). -/
def se : BitP Int := do
  let k ← ue
  return seOf k

/-- The loop of `scaling_list` (R174), with `n` entries left. -/
def scalingFrom : Nat → Int → Int → BitP Unit
  | 0, _, _ => pure ()
  | n + 1, last, next =>
    if next = 0 then scalingFrom n last next
    else do
      let delta ← se
      let next' := (last + delta + 256) % 256
      scalingFrom n (if next' = 0 then last else next') next'

/-- `scaling_list(size)` (R174): only the cursor moves. -/
def scalingList (size : Nat) : BitP Unit := scalingFrom size 8 8

/-- A field that is coded only when the condition holds, and the value it takes otherwise. -/
def codedIf {α : Type} (coded : Bool) (p : BitP α) (absent : α) : BitP α :=
  if coded then p else pure absent

/-- `p`, `n` times. -/
def times : Nat → BitP Unit → BitP Unit
  | 0, _ => pure ()
  | n + 1, p => do p; times n p

/-- `raise SYNTAX_INVALID(info)` unless the condition holds. -/
def demand (ok : Bool) (info : Nat) : BitP Unit := fun c =>
  if ok then .ok ((), c) else .error { code := .syntaxInvalid, info }

/-- Runs a parser over a whole byte sequence with a private cursor at bit 0 (00_scope R16). -/
def parseBytes {α : Type} (p : BitP α) (s : Bytes) : Except Err α :=
  match p { bytes := s, nbits := 8 * s.length, pos := 0 } with
  | .ok (a, _) => .ok a
  | .error e => .error e

end Sys2Proof.Machine
end

