-- ==== Sys2Proof/Machine/Operands.lean ====
section
/-! DEFINITION. The operand forms: region operands (20_memory R84, R85), the bit reader's slice
(41_bitreader section 2), the operand registers (10_state R34, 30_encoding R115). -/

namespace Sys2Proof.Machine

/-- A resolved region (20_memory R84). -/
structure Region where
  space : ByteSpace
  off : Nat
  len : Nat
  deriving DecidableEq, Repr

/-- An operand register read as a signed integer (10_state R34). -/
def signedArg (v : Word64) : Int := v.toInt

/-- The region that SP, ARG0 and ARG1 name, before the bounds check; absent for a DT index at or
beyond DT_CNT (20_memory R85). -/
def namedRegion (sel : RegionSel) (s : State) : Option Region :=
  match sel with
  | .inp => some { space := .inp, off := s.arg0.toNat, len := s.arg1.toNat }
  | .rbsp => some { space := .rbsp, off := s.arg0.toNat, len := s.arg1.toNat }
  | .dt => s.dt[s.arg0.toNat]?.map fun e =>
      { space := e.space, off := e.off.toNat, len := e.len.toNat }

/-- `resolve_region()` (20_memory R85): step 5 of 60_exceptions R453. -/
def resolveRegion (sel : RegionSel) (s : State) : Except Err Region :=
  match namedRegion sel s with
  | none => .error { code := .regionOutOfBounds, info := s.arg0.toNat }
  | some r =>
    if r.off + r.len ≤ spaceSize s r.space then .ok r
    else .error { code := .regionOutOfBounds, info := s.arg0.toNat }

/-- The bytes of a resolved region. -/
def regionBytes (s : State) (r : Region) : Bytes := memRead s r.space r.off r.len

/-- `br_slice()` (41_bitreader section 2): the bytes of the bit reader's slice, read when the command
executes. -/
def brSlice (s : State) : Except Err Bytes :=
  if s.br.off.toNat + s.br.nbits.toNat / 8 ≤ spaceSize s s.br.src then
    .ok (memRead s s.br.src s.br.off.toNat (s.br.nbits.toNat / 8))
  else .error { code := .regionOutOfBounds, info := s.br.off.toNat }

end Sys2Proof.Machine
end

