-- ==== Sys2Proof/Machine/Nal.lean ====
section
/-! DEFINITION. NAL-unit framing and emulation prevention (42_nal R190 to R204). -/

namespace Sys2Proof.Machine

/-- A start code: its first byte's offset, and its length, 3 or 4 (R190). -/
structure StartCode where
  at_ : Nat
  len : Nat
  deriving DecidableEq, Repr

/-- A unit found by a framing scan: its offset and length in the scanned bytes, and the length of the
start code or length prefix before it (R191, R202). -/
structure NalUnit where
  start : Nat
  len : Nat
  pfx : Nat
  deriving DecidableEq, Repr

/-- What `annexb_units` returns (R191). -/
structure AnnexB where
  units : List NalUnit
  lead : Nat
  resStart : Nat
  deriving DecidableEq, Repr

/-- The scan of R190 at offset `i`, over the bytes from there. `zeroBefore` says that the byte before
offset `i` exists and is 0: the lookback of one byte. -/
def startCodesFrom (zeroBefore : Bool) (i : Nat) : Bytes → List StartCode
  | a :: b :: c :: rest =>
    if a = 0 ∧ b = 0 ∧ c = 1 then
      (if zeroBefore then { at_ := i - 1, len := 4 } else { at_ := i, len := 3 })
        :: startCodesFrom false (i + 3) rest
    else startCodesFrom (a = 0) (i + 1) (b :: c :: rest)
  | _ => []

/-- `start_codes(B)` (R190). -/
def startCodes (b : Bytes) : List StartCode := startCodesFrom false 0 b

/-- The units between start codes, the last one only in ENDDELIM mode; `total` is `len(B)` (R191). -/
def unitsOf (total : Nat) (endDelim : Bool) : List StartCode → List NalUnit
  | [] => []
  | [c] =>
    if endDelim then [{ start := c.at_ + c.len, len := total - (c.at_ + c.len), pfx := c.len }] else []
  | c :: d :: rest =>
    { start := c.at_ + c.len, len := d.at_ - (c.at_ + c.len), pfx := c.len }
      :: unitsOf total endDelim (d :: rest)

/-- `annexb_units(B, enddelim)` (R191, R192). -/
def annexbUnits (b : Bytes) (endDelim : Bool) : AnnexB :=
  let scs := startCodes b
  match scs.head?, scs.getLast? with
  | some first, some last =>
    { units := unitsOf b.length endDelim scs
      lead := first.at_
      resStart := if endDelim then b.length else last.at_ }
  | _, _ => { units := [], lead := b.length, resStart := b.length }

/-- `epb_remove` after `z` kept zero bytes (R200): the kept bytes and the number dropped. -/
def epbFrom (z : Nat) : Bytes → Bytes × Nat
  | [] => ([], 0)
  | b :: rest =>
    if 2 ≤ z ∧ b = 0x03 then
      let r := epbFrom 0 rest
      (r.1, r.2 + 1)
    else
      let r := epbFrom (if b = 0 then z + 1 else 0) rest
      (b :: r.1, r.2)

/-- `epb_remove(B)` (R200). -/
def epbRemove (b : Bytes) : Bytes × Nat := epbFrom 0 b

/-- The scan of R202 at offset `p`, over the bytes from there. Each round consumes at least `w`
bytes, so `fuel` above the number of bytes never runs out for `w` at least 1. -/
def lenpfxFrom (w : Nat) : Nat → Nat → Bytes → List NalUnit × Nat
  | 0, p, _ => ([], p)
  | fuel + 1, p, rest =>
    if rest.length < w then ([], p)
    else
      let n := beNat (rest.take w)
      if n = 0 then lenpfxFrom w fuel (p + w) (rest.drop w)
      else if rest.length < w + n then ([], p)
      else
        let r := lenpfxFrom w fuel (p + w + n) (rest.drop (w + n))
        ({ start := p + w, len := n, pfx := w } :: r.1, r.2)

/-- `lenpfx_units(B, w)` (R202): the units, and where the residue starts. -/
def lenpfxUnits (b : Bytes) (w : Nat) : List NalUnit × Nat := lenpfxFrom w (b.length + 1) 0 b

/-- The DT entries of framed units in a region: pts 0, aux the prefix length (R194, R203). -/
def unitEntries (r : Region) (units : List NalUnit) : List DtEntry :=
  units.map fun x =>
    { pts := 0, off := BitVec.ofNat 32 (r.off + x.start), len := BitVec.ofNat 32 x.len
      aux := BitVec.ofNat 32 x.pfx, space := r.space }

/-- SPLIT_ANNEXB (R194). -/
def execSplitAnnexb (sp : RegionSel) (endDelim : Bool) (s : State) :
    Host.Outcome State Fault Refusal :=
  finish (.splitAnnexb sp endDelim) s do
    let r ← resolveRegion sp s
    let x := annexbUnits (regionBytes s r) endDelim
    check (x.units.length ≤ s.caps.dtCap) .capacityExceeded x.units.length
    return { s with
      dt := unitEntries r x.units
      frm := { s.frm with
        leadLen := BitVec.ofNat 64 x.lead
        resOff := BitVec.ofNat 64 (r.off + x.resStart)
        resLen := BitVec.ofNat 64 (r.len - x.resStart) } }

/-- SPLIT_LENPFX #w (R203). -/
def execSplitLenpfx (sp : RegionSel) (width : BitVec 3) (s : State) :
    Host.Outcome State Fault Refusal :=
  finish (.splitLenpfx sp width) s do
    let r ← resolveRegion sp s
    let x := lenpfxUnits (regionBytes s r) width.toNat
    check (x.1.length ≤ s.caps.dtCap) .capacityExceeded x.1.length
    return { s with
      dt := unitEntries r x.1
      frm := { s.frm with
        resOff := BitVec.ofNat 64 (r.off + x.2)
        resLen := BitVec.ofNat 64 (r.len - x.2) } }

/-- EPB_REMOVE (R201). -/
def execEpbRemove (sp : RegionSel) (s : State) : Host.Outcome State Fault Refusal :=
  finish (.epbRemove sp) s do
    let r ← resolveRegion sp s
    let x := epbRemove (regionBytes s r)
    check (x.1.length ≤ s.caps.rbspCap) .capacityExceeded x.1.length
    return { s with rbsp := x.1, epbCnt := BitVec.ofNat 64 x.2 }

end Sys2Proof.Machine
end

