-- ==== Sys2Proof/Machine/Audio.lean ====
section
/-! DEFINITION. Audio header parsers (45_audio R300 to R326). -/

namespace Sys2Proof.Machine

/-! ### AAC -/

/-- AAC_RATES (R300); 0 for an index beyond 12, which no parser uses. -/
def aacRate (index : Nat) : Nat :=
  [96000, 88200, 64000, 48000, 44100, 32000, 24000, 22050, 16000, 12000, 11025, 8000, 7350].getD index 0

/-- `chan_map(c)` (R304). -/
def chanMap (c : Nat) : Nat :=
  if 1 ≤ c ∧ c ≤ 6 then c else if c = 7 then 8 else 0

/-- What `asc(R)` returns (R301). -/
structure AscInfo where
  objectType : Nat
  rate : Nat
  channels : Nat
  deriving DecidableEq, Repr

/-- `audioObjectType` (R301): 5 bits, or 32 plus 6 more bits after the escape value 31. -/
def ascObjectType : BitP Nat := do
  let aot ← u 5
  if aot = 31 then (do let ext ← u 6; pure (32 + ext)) else pure aot

/-- The sampling rate (R301): a 4-bit index into R300's table, or 24 explicit bits after index 15. -/
def ascRate : BitP Nat := do
  let index ← u 4
  if index = 15 then u 24
  else do
    demand (index < 13) 0x31
    pure (aacRate index)

/-- The bit syntax of `asc(R)` (R301). -/
def ascBits : BitP AscInfo := do
  let objectType ← ascObjectType
  let rate ← ascRate
  demand (rate ≠ 0) 0x32
  let config ← u 4
  return { objectType, rate, channels := chanMap config }

/-- `asc(R)` (R301). -/
def asc (r : Bytes) : Except Err AscInfo := parseBytes ascBits r

/-- A frame of an elementary stream: its payload's offset and length in the scanned bytes, its pts and
its number of samples (R311, R325). -/
structure Frame where
  off : Nat
  len : Nat
  pts : Int
  ns : Nat
  deriving DecidableEq, Repr

/-- What a frame scan returns, `η` the type of a header (R311, R325). -/
structure Scan (η : Type) where
  frames : List Frame
  broken : Bool
  first : Option η
  deriving DecidableEq, Repr

/-- The fields of an ADTS header that the parser uses (R310). -/
structure AdtsHdr where
  aot : Nat
  sfi : Nat
  ch : Nat
  flen : Nat
  hl : Nat
  deriving DecidableEq, Repr

/-- An ADTS sync position: twelve 1 bits and layer 00 (R310). -/
def adtsSync (a b : Byte) : Bool := a = 0xFF && (b &&& 0xF6) = 0xF0

/-- `adts_hdr` at the start of the bytes (R310). -/
def adtsHdr (b : Bytes) : AdtsHdr :=
  { aot := byteAt b 2 / 64 + 1
    sfi := byteAt b 2 / 4 % 16
    ch := byteAt b 2 % 2 * 4 + byteAt b 3 / 64
    flen := byteAt b 3 % 4 * 2048 + byteAt b 4 * 8 + byteAt b 5 / 32
    hl := if byteAt b 1 % 2 = 1 then 7 else 9 }

/-- The scan of `adts_frames` (R311) at offset `o`, over the bytes from there, with `n` frames found
before and `first` the first of their headers. Each round moves `o` by at least 1, so `fuel` at least
the number of bytes never runs out. -/
def adtsFrom (pts0 : Int) (ts : Nat) :
    (fuel o n : Nat) → (first : Option AdtsHdr) → Bytes → Scan AdtsHdr
  | fuel + 1, o, n, first, a :: b :: rest =>
    let all := a :: b :: rest
    if !adtsSync a b then adtsFrom pts0 ts fuel (o + 1) n first (b :: rest)
    else if all.length < 7 then { frames := [], broken := true, first }
    else
      let h := adtsHdr all
      if 12 < h.sfi ∨ h.flen < h.hl then adtsFrom pts0 ts fuel (o + 1) n first (b :: rest)
      else if all.length < h.flen then { frames := [], broken := true, first }
      else
        let f := first.getD h
        let x := adtsFrom pts0 ts fuel (o + h.flen) (n + 1) (some f) (all.drop h.flen)
        { x with frames :=
            { off := o + h.hl, len := h.flen - h.hl
              pts := pts0 + (n * 1024 * ts / aacRate f.sfi : Nat), ns := 1024 } :: x.frames }
  | _, _, _, first, _ => { frames := [], broken := false, first }

/-- `adts_frames(R, pts0, ts)` (R311, R312). -/
def adtsFrames (r : Bytes) (pts0 : Int) (ts : Nat) : Scan AdtsHdr :=
  adtsFrom pts0 ts r.length 0 0 none r

/-- The two AudioSpecificConfig bytes synthesized from an ADTS header (R313). -/
def adtsAsc (h : AdtsHdr) : Nat × Nat := (h.aot * 8 + h.sfi / 2, h.sfi % 2 * 128 + h.ch * 8)

/-- The eight AUD_* registers of an ADTS stream, from its first header (R314). -/
def adtsAudRegs (h : AdtsHdr) : AudRegs :=
  { codec := 1
    rate := BitVec.ofNat 64 (aacRate h.sfi)
    channels := BitVec.ofNat 64 (chanMap h.ch)
    info := BitVec.ofNat 64 h.aot
    frameLen := BitVec.ofNat 64 h.flen
    nsamples := 1024
    bitrate := 0
    asc := BitVec.ofNat 64 ((adtsAsc h).1 * 256 + (adtsAsc h).2) }

/-! ### MPEG audio -/

/-- What `mpa_hdr` returns (R323). -/
structure MpaHdr where
  bitrate : Nat
  rate : Nat
  channels : Nat
  info : Nat
  flen : Nat
  ns : Nat
  deriving DecidableEq, Repr

/-- An MPEG audio sync position: eleven 1 bits and layer bits that are not 00 (R320). -/
def mpaSync (a b : Byte) : Bool := a = 0xFF && (b &&& 0xE0) = 0xE0 && (b &&& 0x06) ≠ 0

/-- The columns of R321's bitrate table, kbit/s, for bitrate_index 1 to 14. -/
def mpaV1L1 : List Nat := [32, 64, 96, 128, 160, 192, 224, 256, 288, 320, 352, 384, 416, 448]
/-- MPEG-1 Layer II (R321). -/
def mpaV1L2 : List Nat := [32, 48, 56, 64, 80, 96, 112, 128, 160, 192, 224, 256, 320, 384]
/-- MPEG-1 Layer III (R321). -/
def mpaV1L3 : List Nat := [32, 40, 48, 56, 64, 80, 96, 112, 128, 160, 192, 224, 256, 320]
/-- MPEG-2 and 2.5 Layer I (R321). -/
def mpaV2L1 : List Nat := [32, 48, 56, 64, 80, 96, 112, 128, 144, 160, 176, 192, 224, 256]
/-- MPEG-2 and 2.5 Layers II and III (R321). -/
def mpaV2L23 : List Nat := [8, 16, 24, 32, 40, 48, 56, 64, 80, 96, 112, 128, 144, 160]

/-- The column of a version and layer: version 3 is MPEG-1; layer 3 is Layer I, 2 Layer II, 1 Layer III
(R320, R321). -/
def mpaColumn (version layer : Nat) : List Nat :=
  if version = 3 then
    (if layer = 3 then mpaV1L1 else if layer = 2 then mpaV1L2 else mpaV1L3)
  else (if layer = 3 then mpaV2L1 else mpaV2L23)

/-- The sample-rate table (R321), by version (3, 2, 0) and index 0 to 2. -/
def mpaRate (version sri : Nat) : Nat :=
  if version = 3 then [44100, 48000, 32000].getD sri 0
  else if version = 2 then [22050, 24000, 16000].getD sri 0
  else [11025, 12000, 8000].getD sri 0

/-- Coefficient, bytes per slot and samples per frame (R322). -/
def mpaShape (version layer : Nat) : Nat × Nat × Nat :=
  if layer = 3 then (12, 4, 384)
  else if layer = 2 then (144, 1, 1152)
  else if version = 3 then (144, 1, 1152)
  else (72, 1, 576)

/-- `mpa_hdr` at the start of the bytes (R323). -/
def mpaHdr (b : Bytes) : Except Err MpaHdr := do
  check (4 ≤ b.length) .truncatedInput b.length
  check (mpaSync (b.getD 0 0) (b.getD 1 0)) .syntaxInvalid 0x41
  let version := byteAt b 1 / 8 % 4
  let layer := byteAt b 1 / 2 % 4
  let prot := byteAt b 1 % 2
  let bri := byteAt b 2 / 16
  let sri := byteAt b 2 / 4 % 4
  let pad := byteAt b 2 / 2 % 2
  let mode := byteAt b 3 / 64
  check (version ≠ 1) .syntaxInvalid 0x42
  check (bri ≠ 0 ∧ bri ≠ 15) .syntaxInvalid 0x43
  check (sri ≠ 3) .syntaxInvalid 0x44
  let bitrate := 1000 * (mpaColumn version layer).getD (bri - 1) 0
  let rate := mpaRate version sri
  let (coefficient, slot, ns) := mpaShape version layer
  return { bitrate, rate
           channels := if mode = 3 then 1 else 2
           info := layer ||| (version <<< 2) ||| (mode <<< 4) ||| (pad <<< 6) ||| (prot <<< 7)
             ||| (bri <<< 8) ||| (sri <<< 12)
           flen := (coefficient * bitrate / rate + pad) * slot
           ns }

/-- The scan of `mpa_scan` (R325) at offset `o`, over the bytes from there, with `samples` samples
counted before. -/
def mpaFrom (pts0 : Int) (ts : Nat) :
    (fuel o samples : Nat) → (first : Option MpaHdr) → Bytes → Scan MpaHdr
  | fuel + 1, o, samples, first, a :: b :: rest =>
    let all := a :: b :: rest
    if !mpaSync a b then mpaFrom pts0 ts fuel (o + 1) samples first (b :: rest)
    else if all.length < 4 then { frames := [], broken := true, first }
    else
      match mpaHdr all with
      | .error _ => mpaFrom pts0 ts fuel (o + 1) samples first (b :: rest)
      | .ok h =>
        if all.length < h.flen then { frames := [], broken := true, first }
        else
          let f := first.getD h
          let x := mpaFrom pts0 ts fuel (o + h.flen) (samples + h.ns) (some f) (all.drop h.flen)
          { x with frames :=
              { off := o, len := h.flen
                pts := pts0 + (samples * ts / f.rate : Nat), ns := h.ns } :: x.frames }
  | _, _, _, first, _ => { frames := [], broken := false, first }

/-- `mpa_scan(R, pts0, ts)` (R325). -/
def mpaFrames (r : Bytes) (pts0 : Int) (ts : Nat) : Scan MpaHdr :=
  mpaFrom pts0 ts r.length 0 0 none r

/-- The eight AUD_* registers of an MPEG audio header (R324). -/
def mpaAudRegs (h : MpaHdr) : AudRegs :=
  { codec := 2
    rate := BitVec.ofNat 64 h.rate
    channels := BitVec.ofNat 64 h.channels
    info := BitVec.ofNat 64 h.info
    frameLen := BitVec.ofNat 64 h.flen
    nsamples := BitVec.ofNat 64 h.ns
    bitrate := BitVec.ofNat 64 h.bitrate
    asc := 0 }

/-! ### Commands -/

/-- The DT entries of scanned frames: aux the samples of the frame (R314, R326). -/
def frameEntries (r : Region) (frames : List Frame) : List DtEntry :=
  frames.map fun f =>
    { pts := BitVec.ofInt 64 f.pts, off := BitVec.ofNat 32 (r.off + f.off)
      len := BitVec.ofNat 32 f.len, aux := BitVec.ofNat 32 f.ns, space := r.space }

/-- The common tail of ADTS_PARSE and MPA_SCAN: the capacity check and the commit; the AUD_* registers
change only when a frame was found (R314, R326). -/
def commitScan {η : Type} (r : Region) (x : Scan η) (regs : η → AudRegs) (s : State) :
    Except Err State := do
  check (x.frames.length ≤ s.caps.dtCap) .capacityExceeded x.frames.length
  return { s with
    dt := frameEntries r x.frames
    status := { s.status with broken := x.broken }
    aud := match x.first with
      | some h => regs h
      | none => s.aud }

/-- AAC_ASC_PARSE (R305). -/
def execAacAscParse (sp : RegionSel) (s : State) : Host.Outcome State Fault Refusal :=
  finish (.aacAscParse sp) s do
    let r ← resolveRegion sp s
    let a ← asc (regionBytes s r)
    return { s with aud :=
      { codec := 1, rate := BitVec.ofNat 64 a.rate, channels := BitVec.ofNat 64 a.channels
        info := BitVec.ofNat 64 a.objectType, frameLen := 0, nsamples := 1024, bitrate := 0
        asc := 0 } }

/-- ADTS_PARSE (R314): ARG2 the first pts, signed; ARG3 the timescale. -/
def execAdtsParse (sp : RegionSel) (s : State) : Host.Outcome State Fault Refusal :=
  finish (.adtsParse sp) s do
    let r ← resolveRegion sp s
    commitScan r (adtsFrames (regionBytes s r) (signedArg s.arg2) s.arg3.toNat) adtsAudRegs s

/-- MPA_HDR_PARSE (R324). -/
def execMpaHdrParse (sp : RegionSel) (s : State) : Host.Outcome State Fault Refusal :=
  finish (.mpaHdrParse sp) s do
    let r ← resolveRegion sp s
    let h ← mpaHdr (regionBytes s r)
    return { s with aud := mpaAudRegs h }

/-- MPA_SCAN (R326): ARG2 the first pts, signed; ARG3 the timescale. -/
def execMpaScan (sp : RegionSel) (s : State) : Host.Outcome State Fault Refusal :=
  finish (.mpaScan sp) s do
    let r ← resolveRegion sp s
    commitScan r (mpaFrames (regionBytes s r) (signedArg s.arg2) s.arg3.toNat) mpaAudRegs s

end Sys2Proof.Machine
end

