-- ==== Sys2Proof/Machine/Avc.lean ====
section
/-! DEFINITION. AVC parameter sets and the avcC record (43_avc_paramsets R220 to R241). The SAR table
and the aspect-ratio reader serve HEVC too (44_hevc_paramsets R268). -/

namespace Sys2Proof.Machine

/-- What an SPS parser returns, as the contents of the seven SPS_* registers (10_state R43). -/
structure SpsInfo where
  width : Nat
  height : Nat
  sarNum : Nat
  sarDen : Nat
  codec0 : Nat
  codec1 : Nat
  chroma : Nat
  deriving DecidableEq, Repr

/-- The registers that take the parsed geometry: SPS_* and V_* (10_state R43, R46). -/
def geometryOf (g : SpsInfo) : Geometry :=
  { width := BitVec.ofNat 64 g.width, height := BitVec.ofNat 64 g.height
    sarNum := BitVec.ofNat 64 g.sarNum, sarDen := BitVec.ofNat 64 g.sarDen
    codec0 := BitVec.ofNat 64 g.codec0, codec1 := BitVec.ofNat 64 g.codec1 }

/-- The seven SPS_* registers (R230, 44 R269). -/
def spsRegsOf (g : SpsInfo) : SpsRegs :=
  { geo := geometryOf g, chroma := BitVec.ofNat 64 g.chroma }

/-- SAR_TABLE (R226): the ratio of an `aspect_ratio_idc` in 1 to 16. -/
def sarTable : Nat → Option (Nat × Nat)
  | 1 => some (1, 1)
  | 2 => some (12, 11)
  | 3 => some (10, 11)
  | 4 => some (16, 11)
  | 5 => some (40, 33)
  | 6 => some (24, 11)
  | 7 => some (20, 11)
  | 8 => some (32, 11)
  | 9 => some (80, 33)
  | 10 => some (18, 11)
  | 11 => some (15, 11)
  | 12 => some (64, 33)
  | 13 => some (160, 99)
  | 14 => some (4, 3)
  | 15 => some (3, 2)
  | 16 => some (2, 1)
  | _ => none

/-- `vui_sar()` (R225). -/
def vuiSar : BitP (Nat × Nat) := do
  let vuiPresent ← u 1
  if vuiPresent = 0 then return (1, 1)
  else
    let infoPresent ← u 1
    if infoPresent = 0 then return (1, 1)
    else
      let idc ← u 8
      if idc = 255 then
        let w ← u 16
        let h ← u 16
        return (w, h)
      else return (sarTable idc).getD (1, 1)

/-- HIGH_PROFILES (R222). -/
def highProfiles : List Nat := [100, 110, 122, 244, 44, 83, 86, 118, 128, 138, 139, 134, 135]

/-- The scaling matrix of an AVC SPS: list `i` of `count`, from `i` on (R221). -/
def avcScalingLists : Nat → Nat → BitP Unit
  | 0, _ => pure ()
  | n + 1, i => do
    let present ← u 1
    codedIf (present = 1) (scalingList (if i < 6 then 16 else 64)) ()
    avcScalingLists n (i + 1)

/-- The chroma and scaling-matrix fields of a high profile (R221): chroma_format_idc and
separate_colour_plane_flag. -/
def avcChroma : BitP (Nat × Nat) := do
  let chroma ← ue
  demand (chroma ≤ 3) 0x02
  let separate ← codedIf (chroma = 3) (u 1) 0
  let _ ← ue  -- bit_depth_luma_minus8
  let _ ← ue  -- bit_depth_chroma_minus8
  let _ ← u 1 -- qpprime_y_zero_transform_bypass_flag
  let matrix ← u 1
  codedIf (matrix = 1) (avcScalingLists (if chroma = 3 then 12 else 8) 0) ()
  return (chroma, separate)

/-- The picture-order-count fields (R221, R223). -/
def avcPicOrder : BitP Unit := do
  let ty ← ue
  if ty = 0 then
    let _ ← ue  -- log2_max_pic_order_cnt_lsb_minus4
    pure ()
  else if ty = 1 then
    let _ ← u 1 -- delta_pic_order_always_zero_flag
    let _ ← se  -- offset_for_non_ref_pic
    let _ ← se  -- offset_for_top_to_bottom_field
    let n ← ue  -- num_ref_frames_in_pic_order_cnt_cycle
    demand (n ≤ 255) 0x04
    times n (do let _ ← se; pure ())
  else demand (ty = 2) 0x03

/-- The four crop offsets (left, right, top, bottom), zero when the flag is 0 (R221, 44 R261). -/
def cropOffsets : BitP (Nat × Nat × Nat × Nat) := do
  let flag ← u 1
  if flag = 1 then
    let l ← ue
    let r ← ue
    let t ← ue
    let b ← ue
    return (l, r, t, b)
  else return (0, 0, 0, 0)

/-- The pixel size, or SYNTAX_INVALID(info) when it is not positive (R224, 44 R266). -/
def positiveDims (width height : Int) (info : Nat) : BitP (Nat × Nat) := do
  demand (0 < width ∧ 0 < height) info
  return (width.toNat, height.toNat)

/-- CropUnitX and CropUnitY (R224). -/
def avcCropUnits (chroma separate frameMbsOnly : Nat) : Nat × Nat :=
  let arrayType := if separate = 1 then 0 else chroma
  if arrayType = 0 then (1, 2 - frameMbsOnly)
  else (if arrayType = 3 then 1 else 2, (if arrayType = 1 then 2 else 1) * (2 - frameMbsOnly))

/-- `avc_sps(U)` over the unescaped unit (R221), with the descriptor of R232. -/
def avcSpsBits : BitP SpsInfo := do
  let _ ← u 1 -- forbidden_zero_bit
  let _ ← u 2 -- nal_ref_idc
  let nalType ← u 5
  demand (nalType = 7) 0x01
  let profile ← u 8
  let constraints ← u 8
  let level ← u 8
  let _ ← ue  -- seq_parameter_set_id
  let (chroma, separate) ← codedIf (profile ∈ highProfiles) avcChroma (1, 0)
  let _ ← ue  -- log2_max_frame_num_minus4
  avcPicOrder
  let _ ← ue  -- max_num_ref_frames
  let _ ← u 1 -- gaps_in_frame_num_value_allowed_flag
  let widthMbs ← ue
  let heightMaps ← ue
  let frameMbsOnly ← u 1
  let _ ← codedIf (frameMbsOnly = 0) (u 1) 0 -- mb_adaptive_frame_field_flag
  let _ ← u 1 -- direct_8x8_inference_flag
  let (cl, cr, ct, cb) ← cropOffsets
  let (sarNum, sarDen) ← vuiSar
  let (unitX, unitY) := avcCropUnits chroma separate frameMbsOnly
  let (width, height) ← positiveDims
    (((widthMbs + 1) * 16 : Nat) - (unitX * (cl + cr) : Nat))
    (((2 - frameMbsOnly) * (heightMaps + 1) * 16 : Nat) - (unitY * (ct + cb) : Nat)) 0x05
  return { width, height, sarNum, sarDen
           codec0 := (1 <<< 60) ||| (profile <<< 16) ||| (constraints <<< 8) ||| level
           codec1 := 0, chroma }

/-- `avc_sps(U)` (R221): emulation prevention removed, then parsed. -/
def avcSps (unit : Bytes) : Except Err SpsInfo := parseBytes avcSpsBits (epbRemove unit).1

/-- A listed parameter set of a decoder configuration record: its kind, and its offset and length in
the record (R240, 44 R280). -/
structure RecordEntry where
  kind : PsKind
  start : Nat
  len : Nat
  deriving DecidableEq, Repr

/-- What a decoder configuration record gives (R240, 44 R280). -/
structure RecordInfo where
  lensize : Nat
  ents : List RecordEntry
  sps : SpsInfo
  deriving DecidableEq, Repr

/-- `raise TRUNCATED_INPUT(at)` unless `need` bytes end within the record (R240). -/
def needInput (need total at_ : Nat) : Except Err Unit :=
  check (need ≤ total) .truncatedInput at_

/-- `n` two-byte-length-prefixed entries of one kind from offset `p` of a record, and the offset after
them (R240). An entry of no kind is walked and not listed (44 R280). -/
def recordEntries (r : Bytes) (kind : Option PsKind) : Nat → Nat → Except Err (List RecordEntry × Nat)
  | 0, p => .ok ([], p)
  | k + 1, p => do
    needInput (p + 2) r.length p
    let n := beAt r p 2
    needInput (p + 2 + n) r.length p
    let (rest, q) ← recordEntries r kind k (p + 2 + n)
    match kind with
    | some kd => return ({ kind := kd, start := p + 2, len := n } :: rest, q)
    | none => return (rest, q)

/-- The first SPS of a record, parsed; no SPS is SYNTAX_INVALID(0x21) (R240, 44 R280). -/
def firstSps (parse : Bytes → Except Err SpsInfo) (r : Bytes) (ents : List RecordEntry) :
    Except Err SpsInfo :=
  match ents.find? (fun e => e.kind = .sps) with
  | none => .error { code := .syntaxInvalid, info := 0x21 }
  | some e => parse (slice r e.start e.len)

/-- `avcc(R)` (R240). -/
def avcc (r : Bytes) : Except Err RecordInfo := do
  needInput 7 r.length r.length
  let lensize := byteAt r 4 % 4 + 1
  let (sps, p) ← recordEntries r (some .sps) (byteAt r 5 % 32) 6
  needInput (p + 1) r.length p
  let (pps, _) ← recordEntries r (some .pps) (byteAt r p) (p + 1)
  let g ← firstSps avcSps r (sps ++ pps)
  return { lensize, ents := sps ++ pps, sps := g }

/-- The `aux` value of a record's DT entry: the kind number (R241, 44 R281). -/
def recordDt (r : Region) (ents : List RecordEntry) : List DtEntry :=
  ents.map fun e =>
    { pts := 0, off := BitVec.ofNat 32 (r.off + e.start), len := BitVec.ofNat 32 e.len
      aux := BitVec.ofNat 32 (psKindCode e.kind), space := r.space }

/-- The common tail of AVCC_PARSE and HVCC_PARSE: the capacity check and the commit (R241, 44 R281). -/
def commitRecord (r : Region) (x : RecordInfo) (s : State) : Except Err State := do
  check (x.ents.length ≤ s.caps.dtCap) .capacityExceeded x.ents.length
  return { s with
    dt := recordDt r x.ents
    frm := { s.frm with lensize := BitVec.ofNat 64 x.lensize }
    sps := spsRegsOf x.sps }

/-- AVC_SPS_PARSE (R230). -/
def execAvcSpsParse (sp : RegionSel) (s : State) : Host.Outcome State Fault Refusal :=
  finish (.avcSpsParse sp) s do
    let r ← resolveRegion sp s
    let g ← avcSps (regionBytes s r)
    return { s with sps := spsRegsOf g }

/-- AVCC_PARSE (R241). -/
def execAvccParse (sp : RegionSel) (s : State) : Host.Outcome State Fault Refusal :=
  finish (.avccParse sp) s do
    let r ← resolveRegion sp s
    let x ← avcc (regionBytes s r)
    commitRecord r x s

end Sys2Proof.Machine
end

