-- ==== Sys2Proof/Machine/BitReader.lean ====
section
/-! DEFINITION. The bit-reader commands (41_bitreader R160 to R168). -/

namespace Sys2Proof.Machine

/-- Runs a primitive at BR_POS over the bit reader's slice (R160): the value, and the state with the
cursor moved. -/
def withReader {α : Type} (p : BitP α) (s : State) : Except Err (α × State) := do
  let b ← brSlice s
  let (v, c) ← p { bytes := b, nbits := s.br.nbits.toNat, pos := s.br.pos.toNat }
  return (v, { s with br := { s.br with pos := BitVec.ofNat 64 c.pos } })

/-- BR_INIT (R161). -/
def execBrInit (sp : RegionSel) (s : State) : Host.Outcome State Fault Refusal :=
  finish (.brInit sp) s do
    let r ← resolveRegion sp s
    return { s with br := { src := r.space, off := BitVec.ofNat 64 r.off
                            nbits := BitVec.ofNat 64 (8 * r.len), pos := 0 } }

/-- READ_BITS #n (R162). -/
def execReadBits (n : BitVec 6) (s : State) : Host.Outcome State Fault Refusal :=
  finish (.readBits n) s do
    let (v, s') ← withReader (u n.toNat) s
    return { s' with val := BitVec.ofNat 64 v }

/-- SKIP_BITS #n (R163). -/
def execSkipBits (n : BitVec 16) (s : State) : Host.Outcome State Fault Refusal :=
  finish (.skipBits n) s do
    let (_, s') ← withReader (skip n.toNat) s
    return s'

/-- READ_UE (R164). -/
def execReadUe (s : State) : Host.Outcome State Fault Refusal :=
  finish .readUe s do
    let (v, s') ← withReader ue s
    return { s' with val := BitVec.ofNat 64 v }

/-- SKIP_UE (R165). -/
def execSkipUe (s : State) : Host.Outcome State Fault Refusal :=
  finish .skipUe s do
    let (_, s') ← withReader ue s
    return s'

/-- READ_SE (R166): VAL holds the value sign-extended. -/
def execReadSe (s : State) : Host.Outcome State Fault Refusal :=
  finish .readSe s do
    let (v, s') ← withReader se s
    return { s' with val := BitVec.ofInt 64 v }

/-- SKIP_SE (R167). -/
def execSkipSe (s : State) : Host.Outcome State Fault Refusal :=
  finish .skipSe s do
    let (_, s') ← withReader se s
    return s'

/-- SKIP_SCALING_LIST #size (R168). -/
def execSkipScalingList (size : BitVec 8) (s : State) : Host.Outcome State Fault Refusal :=
  finish (.skipScalingList size) s do
    let (_, s') ← withReader (scalingList size.toNat) s
    return s'

end Sys2Proof.Machine
end

