-- ==== Sys2Proof/Machine/Control.lean ====
section
/-! DEFINITION. The control commands (40_control): NOP, RESET, TRACK_RESET. -/

namespace Sys2Proof.Machine

/-- NOP changes nothing, the error registers included (R141). -/
def execNop (s : State) : Host.Outcome State Fault Refusal := .next s

/-- What RESET leaves (R142, 70 R491): the power-on state, but for IN and the constant registers, which
it keeps, and for the host's own pending accesses (DESIGN CHOICE, log 1). -/
def resetState (s : State) : State :=
  { State.reset with bus := s.bus, busData := s.busData, caps := s.caps, inMem := s.inMem }

/-- RESET (R142). It executes in every state, also in the fault state. -/
def execReset (s : State) : Host.Outcome State Fault Refusal :=
  finish .reset s (.ok (resetState s))

/-- TRACK_RESET (R143). -/
def execTrackReset (s : State) : Host.Outcome State Fault Refusal :=
  finish .trackReset s do
    checkFault s
    return trackReset s

end Sys2Proof.Machine
end

