-- ==== Sys2Proof/Machine/Hevc.lean ====
section
/-! DEFINITION. HEVC parameter sets and the hvcC record (44_hevc_paramsets R260 to R281). -/

namespace Sys2Proof.Machine

/-- The general fields of profile_tier_level (R262). -/
structure ProfileTierLevel where
  space : Nat
  tier : Nat
  profile : Nat
  compat : Nat
  constraints : Nat
  level : Nat
  deriving DecidableEq, Repr

/-- The presence flags of `n` sub-layers (R262). -/
def subLayerFlags : Nat → BitP (List (Nat × Nat))
  | 0 => pure []
  | n + 1 => do
    let profilePresent ← u 1
    let levelPresent ← u 1
    let rest ← subLayerFlags n
    return (profilePresent, levelPresent) :: rest

/-- The sub-layer fields that the flags announce (R262). -/
def subLayerFields : List (Nat × Nat) → BitP Unit
  | [] => pure ()
  | (profilePresent, levelPresent) :: rest => do
    codedIf (profilePresent = 1) (skip 88) ()
    codedIf (levelPresent = 1) (skip 8) ()
    subLayerFields rest

/-- `profile_tier_level(msl)` (R262). -/
def profileTierLevel (msl : Nat) : BitP ProfileTierLevel := do
  let space ← u 2
  let tier ← u 1
  let profile ← u 5
  let compat ← u 32
  let constraints ← u 48
  let level ← u 8
  let flags ← subLayerFlags msl
  codedIf (0 < msl) (times (8 - msl) (do let _ ← u 2; pure ())) ()
  subLayerFields flags
  return { space, tier, profile, compat, constraints, level }

/-- One matrix of `scaling_list_data()` (R263). -/
def scalingMatrix (sizeId : Nat) : BitP Unit := do
  let predMode ← u 1
  if predMode = 0 then
    let _ ← ue -- scaling_list_pred_matrix_id_delta
    pure ()
  else
    let _ ← codedIf (1 < sizeId) se 0 -- scaling_list_dc_coef_minus8
    times (min 64 (1 <<< (4 + (sizeId <<< 1)))) (do let _ ← se; pure ())

/-- `scaling_list_data()` (R263): 6 matrices for sizeId 0 to 2, 2 for sizeId 3. -/
def scalingListData : BitP Unit := do
  times 6 (scalingMatrix 0)
  times 6 (scalingMatrix 1)
  times 6 (scalingMatrix 2)
  times 2 (scalingMatrix 3)

/-- The lists DeltaPocS0 and DeltaPocS1 of a short-term reference picture set (R264). -/
structure RefPicSet where
  s0 : List Int
  s1 : List Int
  deriving DecidableEq, Repr

/-- `use_delta_flag` for `n` entries: 1, or the coded flag when `used_by_curr_pic_flag` is 0 (R264). -/
def useDeltaFlags : Nat → BitP (List Bool)
  | 0 => pure []
  | n + 1 => do
    let used ← u 1
    let useDelta ← codedIf (used = 0) (u 1) 1
    let rest ← useDeltaFlags n
    return decide (useDelta = 1) :: rest

/-- The entries of a list moved by `delta`, kept where flagged and `keep` holds (R264). -/
def movedPocs (keep : Int → Bool) (delta : Int) (pocs : List (Int × Bool)) : List Int :=
  pocs.filterMap fun (poc, useIt) => if useIt && keep (poc + delta) then some (poc + delta) else none

/-- The two lists of an inter-predicted set, from the reference set and the flags (R264). -/
def interRps (ref : RefPicSet) (delta : Int) (flags : List Bool) : RefPicSet :=
  let f0 := ref.s0.zip flags
  let f1 := ref.s1.zip (flags.drop ref.s0.length)
  let own := flags.getD (ref.s0.length + ref.s1.length) false
  let neg := fun d : Int => decide (d < 0)
  let pos := fun d : Int => decide (0 < d)
  { s0 := movedPocs neg delta f1.reverse ++ (if neg delta && own then [delta] else [])
      ++ movedPocs neg delta f0
    s1 := movedPocs pos delta f0.reverse ++ (if pos delta && own then [delta] else [])
      ++ movedPocs pos delta f1 }

/-- `n` explicit entries: `prev` moves by `sign * (delta_poc_minus1 + 1)` each (R264). -/
def explicitPocs (sign : Int) : Nat → Int → BitP (List Int)
  | 0, _ => pure []
  | n + 1, prev => do
    let d ← ue
    let _ ← u 1 -- used_by_curr_pic flag
    let poc := prev + sign * (d + 1)
    let rest ← explicitPocs sign n poc
    return poc :: rest

/-- An explicit set (R264). -/
def explicitRps : BitP RefPicSet := do
  let nn ← ue
  let np ← ue
  demand (nn ≤ 16 ∧ np ≤ 16) 0x15
  let s0 ← explicitPocs (-1) nn 0
  let s1 ← explicitPocs 1 np 0
  return { s0, s1 }

/-- `st_ref_pic_set(idx)` (R264), given set `idx - 1` when `idx` is not 0. -/
def stRefPicSet (prev : Option RefPicSet) : BitP RefPicSet := do
  match prev with
  | none => explicitRps
  | some ref =>
    let inter ← u 1
    if inter = 1 then
      let sign ← u 1
      let absMinus1 ← ue
      let delta := (1 - 2 * (sign : Int)) * (absMinus1 + 1)
      let flags ← useDeltaFlags (ref.s0.length + ref.s1.length + 1)
      return interRps ref delta flags
    else explicitRps

/-- `n` short-term reference picture sets (R261, R264). -/
def stRefPicSets : Nat → Option RefPicSet → BitP Unit
  | 0, _ => pure ()
  | n + 1, prev => do
    let set ← stRefPicSet prev
    stRefPicSets n (some set)

/-- The sub-layer ordering info (R261): three codes for each `i` from 0, or only for `msl`. -/
def subLayerOrdering (msl : Nat) : BitP Unit := do
  let flag ← u 1
  times (if flag = 1 then msl + 1 else 1) (do
    let _ ← ue
    let _ ← ue
    let _ ← ue
    pure ())

/-- The scaling-list fields (R261). -/
def hevcScaling : BitP Unit := do
  let enabled ← u 1
  if enabled = 1 then
    let present ← u 1
    if present = 1 then scalingListData else pure ()
  else pure ()

/-- The PCM fields (R261). -/
def hevcPcm : BitP Unit := do
  let enabled ← u 1
  if enabled = 1 then
    let _ ← u 4 -- pcm_sample_bit_depth_luma_minus1
    let _ ← u 4 -- pcm_sample_bit_depth_chroma_minus1
    let _ ← ue  -- log2_min_pcm_luma_coding_block_size_minus3
    let _ ← ue  -- log2_diff_max_min_pcm_luma_coding_block_size
    let _ ← u 1 -- pcm_loop_filter_disabled_flag
    pure ()
  else pure ()

/-- The long-term reference pictures, `lsbBits` bits each (R265). -/
def longTermPics (lsbBits : Nat) : BitP Unit := do
  let present ← u 1
  if present = 1 then
    let n ← ue
    demand (n ≤ 32) 0x16
    times n (do
      let _ ← u lsbBits
      let _ ← u 1
      pure ())
  else pure ()

/-- SubWidthC and SubHeightC (R266). -/
def hevcSubSampling (chroma : Nat) : Nat × Nat :=
  if chroma = 1 then (2, 2) else if chroma = 2 then (2, 1) else (1, 1)

/-- The HEVC codec descriptor word 0 (R270). -/
def hevcCodec0 (t : ProfileTierLevel) : Nat :=
  (2 <<< 60) ||| (t.compat <<< 16) ||| (t.space <<< 14) ||| (t.tier <<< 13) ||| (t.profile <<< 8)
    ||| t.level

/-- `hevc_sps(U)` over the unescaped unit (R261), with the descriptor of R270. -/
def hevcSpsBits : BitP SpsInfo := do
  let _ ← u 1 -- forbidden_zero_bit
  let nalType ← u 6
  let layer ← u 6
  let _ ← u 3 -- nuh_temporal_id_plus1
  demand (nalType = 33 ∧ layer = 0) 0x11
  let _ ← u 4 -- sps_video_parameter_set_id
  let msl ← u 3
  let _ ← u 1 -- sps_temporal_id_nesting_flag
  let ptl ← profileTierLevel msl
  let _ ← ue  -- sps_seq_parameter_set_id
  let chroma ← ue
  demand (chroma ≤ 3) 0x12
  let _ ← codedIf (chroma = 3) (u 1) 0 -- separate_colour_plane_flag
  let lumaWidth ← ue
  let lumaHeight ← ue
  let (cl, cr, ct, cb) ← cropOffsets
  let _ ← ue  -- bit_depth_luma_minus8
  let _ ← ue  -- bit_depth_chroma_minus8
  let lsbMinus4 ← ue
  demand (lsbMinus4 ≤ 12) 0x13
  subLayerOrdering msl
  times 6 (do let _ ← ue; pure ()) -- the two coding and two transform block sizes, the two depths
  hevcScaling
  let _ ← u 1 -- amp_enabled_flag
  let _ ← u 1 -- sample_adaptive_offset_enabled_flag
  hevcPcm
  let numSets ← ue
  demand (numSets ≤ 64) 0x14
  stRefPicSets numSets none
  longTermPics (lsbMinus4 + 4)
  let _ ← u 1 -- sps_temporal_mvp_enabled_flag
  let _ ← u 1 -- strong_intra_smoothing_enabled_flag
  let (sarNum, sarDen) ← vuiSar
  let (subW, subH) := hevcSubSampling chroma
  let (width, height) ← positiveDims
    ((lumaWidth : Int) - (subW * (cl + cr) : Nat)) ((lumaHeight : Int) - (subH * (ct + cb) : Nat)) 0x17
  return { width, height, sarNum, sarDen
           codec0 := hevcCodec0 ptl, codec1 := ptl.constraints, chroma }

/-- `hevc_sps(U)` (R261): emulation prevention removed, then parsed. -/
def hevcSps (unit : Bytes) : Except Err SpsInfo := parseBytes hevcSpsBits (epbRemove unit).1

/-- The kind of the entries of an hvcC array, by its NAL_unit_type (R280). -/
def hevcKind (nalType : Nat) : Option PsKind :=
  if nalType = 32 then some .vps
  else if nalType = 33 then some .sps
  else if nalType = 34 then some .pps
  else none

/-- `n` arrays of an hvcC record from offset `p` (R280). -/
def hvccArrays (r : Bytes) : Nat → Nat → Except Err (List RecordEntry)
  | 0, _ => .ok []
  | k + 1, p => do
    needInput (p + 3) r.length p
    let (ents, q) ← recordEntries r (hevcKind (byteAt r p % 64)) (beAt r (p + 1) 2) (p + 3)
    let rest ← hvccArrays r k q
    return ents ++ rest

/-- `hvcc(R)` (R280). -/
def hvcc (r : Bytes) : Except Err RecordInfo := do
  needInput 23 r.length r.length
  let lensize := byteAt r 21 % 4 + 1
  let ents ← hvccArrays r (byteAt r 22) 23
  let g ← firstSps hevcSps r ents
  return { lensize, ents, sps := g }

/-- HEVC_SPS_PARSE (R269). -/
def execHevcSpsParse (sp : RegionSel) (s : State) : Host.Outcome State Fault Refusal :=
  finish (.hevcSpsParse sp) s do
    let r ← resolveRegion sp s
    let g ← hevcSps (regionBytes s r)
    return { s with sps := spsRegsOf g }

/-- HVCC_PARSE (R281). -/
def execHvccParse (sp : RegionSel) (s : State) : Host.Outcome State Fault Refusal :=
  finish (.hvccParse sp) s do
    let r ← resolveRegion sp s
    let x ← hvcc (regionBytes s r)
    commitRecord r x s

end Sys2Proof.Machine
end

