-- ==== Sys2Proof/Machine/Demux.lean ====
section
/-! DEFINITION. What the two demuxers share: the working state of a call, the emission of samples
(46_ts_demux R390, R391) with its capacities (R401, 47_flv_demux R440), and the commit of a call. -/

namespace Sys2Proof.Machine

/-- The part of the state that a demux call works on: the track and the output queues. The call runs
on a copy, which is kept only when it succeeds (60_exceptions R457). -/
structure Dmx where
  trk : Track
  out : Outputs
  deriving DecidableEq, Repr

/-- `raise CAPACITY_EXCEEDED(index)` unless `need` is within the capacity; the index is that of the
capacity's register (46_ts_demux R401). -/
def checkCap (need cap index : Nat) : Except Err Unit := check (need ≤ cap) .capacityExceeded index

/-- Appends the units of a video sample to VUT and SDATA (R390). -/
def emitUnits (c : Config.Caps) : List Bytes → Outputs → Except Err Outputs
  | [], o => .ok o
  | b :: rest, o => do
    checkCap (o.vut.length + 1) c.vutCap 90
    checkCap (o.sdata.length + b.length) c.sdataCap 92
    emitUnits c rest
      { o with
        vut := o.vut ++ [{ off := BitVec.ofNat 32 o.sdata.length, len := BitVec.ofNat 32 b.length }]
        sdata := o.sdata ++ b }

/-- `emit_video(o)` (R390): one VSQ entry, then the units. -/
def emitVideo (c : Config.Caps) (stamp : Stamp) (key : Bool) (units : List Bytes) (o : Outputs) :
    Except Err Outputs := do
  checkCap (o.vsq.length + 1) c.vsqCap 89
  emitUnits c units
    { o with vsq := o.vsq ++
        [{ pts := stamp.pts, dts := stamp.dts, firstUnit := BitVec.ofNat 32 o.vut.length
           nunits := BitVec.ofNat 32 units.length, key }] }

/-- `emit_audio(pts, bytes, ns)` (R391). -/
def emitAudio (c : Config.Caps) (pts : Word64) (bytes : Bytes) (ns : Nat) (o : Outputs) :
    Except Err Outputs := do
  checkCap (o.asq.length + 1) c.asqCap 91
  checkCap (o.sdata.length + bytes.length) c.sdataCap 92
  return { o with
    asq := o.asq ++
      [{ pts, off := BitVec.ofNat 32 o.sdata.length, len := BitVec.ofNat 32 bytes.length
         nsamples := BitVec.ofNat 32 ns }]
    sdata := o.sdata ++ bytes }

/-- The bytes of the stored parameter sets, in table order (20_memory R95). -/
def psBytes (ps : List PsEntry) : Bytes := ps.flatMap (·.bytes)

/-! ### Counters (10_state R47): `count(C)` adds 1 modulo 2^64 (00_scope R17) -/

/-- Adds `n` to CNT_DROPPED. -/
def countDropped (n : Nat) (d : Dmx) : Dmx :=
  { d with trk := { d.trk with cnt := { d.trk.cnt with
      dropped := d.trk.cnt.dropped + BitVec.ofNat 64 n } } }

/-- `count(CNT_MISSCFG)`. -/
def countMissCfg (d : Dmx) : Dmx :=
  { d with trk := { d.trk with cnt := { d.trk.cnt with missCfg := d.trk.cnt.missCfg + 1 } } }

/-- `count(CNT_BADPES)`. -/
def countBadPes (d : Dmx) : Dmx :=
  { d with trk := { d.trk with cnt := { d.trk.cnt with badPes := d.trk.cnt.badPes + 1 } } }

/-- `count(CNT_ABROKEN)`. -/
def countABroken (d : Dmx) : Dmx :=
  { d with trk := { d.trk with cnt := { d.trk.cnt with aBroken := d.trk.cnt.aBroken + 1 } } }

/-- `count(CNT_UNRES_DROP)`. -/
def countUnresDrop (d : Dmx) : Dmx :=
  { d with trk := { d.trk with cnt := { d.trk.cnt with unresDrop := d.trk.cnt.unresDrop + 1 } } }

/-- `count(CNT_CFGFAIL)`. -/
def countCfgFail (d : Dmx) : Dmx :=
  { d with trk := { d.trk with cnt := { d.trk.cnt with cfgFail := d.trk.cnt.cfgFail + 1 } } }

/-- The working state of a call. -/
def dmxOf (s : State) : Dmx := { trk := s.trk, out := s.out }

/-- The state with a call's results in it. -/
def withDmx (s : State) (d : Dmx) : State := { s with trk := d.trk, out := d.out }

end Sys2Proof.Machine
end

