-- ==== Sys2Proof/Machine/Flv.lean ====
section
/-! DEFINITION. The FLV demuxer (47_flv_demux R410 to R444). -/

namespace Sys2Proof.Machine

/-! ### The file header -/

/-- The signature: FLV and version 1 (R411). -/
def flvSignature : Bytes := [0x46, 0x4C, 0x56, 0x01]

/-- The offset of the first byte that differs from the signature, as far as both reach (R411). -/
def firstMismatch : Nat → Bytes → Bytes → Option Nat
  | i, a :: sig, b :: d => if a = b then firstMismatch (i + 1) sig d else some i
  | _, _, _ => none

/-- `validate(d)` (R411). -/
def validateFlv (d : Bytes) : Except Err Unit :=
  match firstMismatch 0 flvSignature d with
  | some i => .error { code := .fatalFormat, info := i }
  | none => check (d.length < 9 || 9 ≤ beAt d 5 4) .fatalFormat 5

/-- The header is validated only while it has not been seen (R410). -/
def validateStart (seen : Bool) (d : Bytes) : Except Err Unit := if seen then .ok () else validateFlv d

/-! ### Audio tags -/

/-- `audio_config(C)` (R421, R424). -/
def flvAudioConfig (cfg : Bytes) (d : Dmx) : Dmx :=
  if d.trk.aExists then d
  else
    match asc cfg with
    | .error _ => countCfgFail d
    | .ok a =>
      if Config.acfgCap < cfg.length then countCfgFail d
      else { d with trk := { d.trk with
        aCodec := .aac
        aRate := BitVec.ofNat 64 a.rate
        aChannels := BitVec.ofNat 64 a.channels
        aInfo := BitVec.ofNat 64 a.objectType
        acfg := cfg
        aExists := true } }

/-- `audio_frame(ts, F)` (R425). -/
def flvAudioFrame (c : Config.Caps) (ts : Nat) (f : Bytes) (d : Dmx) : Except Err Dmx :=
  if d.trk.aExists then do
    let out ← emitAudio c (BitVec.ofNat 64 ts) f 1024 d.out
    return { d with out }
  else .ok (countMissCfg d)

/-- `audio_tag(ts, P)` (R420). -/
def flvAudioTag (c : Config.Caps) (ts : Nat) (p : Bytes) (d : Dmx) : Except Err Dmx :=
  if p.length < 2 ∨ byteAt p 0 / 16 ≠ 10 then .ok d
  else if byteAt p 1 = 0 then .ok (flvAudioConfig (p.drop 2) d)
  else if byteAt p 1 = 1 then flvAudioFrame c ts (p.drop 2) d
  else .ok d

/-! ### Video tags -/

/-- The family of a CodecID (R427). -/
def flvFamily (cid : Nat) : VCodec := if cid = 7 then .avc else if cid = 12 then .hevc else .none

/-- `sext_24` (00_scope R13). -/
def sext24 (v : Nat) : Int := if v < 2 ^ 23 then v else (v : Int) - 2 ^ 24

/-- The parameter sets of a record with their bytes (R428). -/
def recordPs (cfg : Bytes) (ents : List RecordEntry) : List PsEntry :=
  ents.map fun e => { kind := e.kind, bytes := slice cfg e.start e.len }

/-- The sum of the entry lengths of a record (R428). -/
def recordLen (ents : List RecordEntry) : Nat := (ents.map (·.len)).sum

/-- `video_config(fam, C)` (R428, R429). -/
def flvVideoConfig (c : Config.Caps) (fam : VCodec) (cfg : Bytes) (d : Dmx) : Dmx :=
  if d.trk.vExists then d
  else
    match (if fam = .avc then avcc cfg else hvcc cfg) with
    | .error _ => countCfgFail d
    | .ok x =>
      if c.psCap < x.ents.length ∨ c.cfgCap < recordLen x.ents then countCfgFail d
      else { d with trk := { d.trk with
        vCodec := fam
        vLensize := BitVec.ofNat 64 x.lensize
        vGeo := geometryOf x.sps
        psets := recordPs cfg x.ents
        haveSps := x.ents.any (fun e => e.kind = .sps)
        havePps := x.ents.any (fun e => e.kind = .pps)
        haveVps := x.ents.any (fun e => e.kind = .vps)
        vExists := true } }

/-- `video_frame(ts, cts, ft, N)` (R430). -/
def flvVideoFrame (c : Config.Caps) (ts : Nat) (cts : Int) (ft : Nat) (n : Bytes) (d : Dmx) :
    Except Err Dmx :=
  if d.trk.vExists then
    let units := (lenpfxUnits n d.trk.vLensize.toNat).1
    if units = [] then .ok d
    else do
      let out ← emitVideo c { pts := BitVec.ofInt 64 (ts + cts), dts := BitVec.ofNat 64 ts } (ft = 1)
        (units.map fun x => slice n x.start x.len) d.out
      return { d with out }
  else .ok (countMissCfg d)

/-- `video_tag(ts, P)` (R426). -/
def flvVideoTag (c : Config.Caps) (ts : Nat) (p : Bytes) (d : Dmx) : Except Err Dmx :=
  let fam := flvFamily (byteAt p 0 % 16)
  if p.length < 5 then .ok d
  else if fam = .none then .ok d
  else if d.trk.vCodec ≠ .none ∧ fam ≠ d.trk.vCodec then .ok d
  else if byteAt p 1 = 0 then .ok (flvVideoConfig c fam (p.drop 5) d)
  else if byteAt p 1 = 1 then
    flvVideoFrame c ts (sext24 (beAt p 2 3)) (byteAt p 0 / 16) (p.drop 5) d
  else .ok d

/-! ### Tags -/

/-- The timestamp of a tag (R414). -/
def flvTimestamp (t : Bytes) : Nat := byteAt t 7 * 2 ^ 24 + beAt t 4 3

/-- `tag(T)` (R414, R415), the trailer excluded. -/
def flvTag (c : Config.Caps) (t : Bytes) (d : Dmx) : Except Err Dmx :=
  if byteAt t 0 = 8 then flvAudioTag c (flvTimestamp t) (t.drop 11) d
  else if byteAt t 0 = 9 then flvVideoTag c (flvTimestamp t) (t.drop 11) d
  else .ok d

/-- The tag scan of R410 and R413 over the bytes left: the bytes from the first incomplete tag on.
Each round consumes at least 15 bytes, so `fuel` at least the number of bytes never runs out. -/
def flvTags (c : Config.Caps) : Nat → Bytes → Dmx → Except Err (Bytes × Dmx)
  | 0, b, d => .ok (b, d)
  | fuel + 1, b, d =>
    if b.length < 11 then .ok (b, d)
    else
      let size := beAt b 1 3
      if b.length < 11 + size + 4 then .ok (b, d)
      else do
        let d ← flvTag c (b.take (11 + size)) d
        flvTags c fuel (b.drop (11 + size + 4)) d

/-- A call with everything after the header skip `pos` (R410). -/
def flvFrom (c : Config.Caps) (pos : Nat) (b : Bytes) (d : Dmx) : Except Err (Bytes × Dmx) :=
  flvTags c b.length (b.drop pos) { d with trk := { d.trk with flvHdr := true } }

/-- The body of the call over its bytes, after the preamble (R410, R412): the bytes held back and the
working state. -/
def flvBody (c : Config.Caps) (b : Bytes) (d : Dmx) : Except Err (Bytes × Dmx) :=
  if d.trk.flvHdr then flvFrom c 0 b d
  else if b.length < 9 then .ok (b, d)
  else if b.length < beAt b 5 4 + 4 then .ok (b, d)
  else flvFrom c (beAt b 5 4 + 4) b d

/-- The bytes an FLV_DEMUX call works on (R410). -/
def flvInput (disc : Bool) (s : State) (b : Bytes) : Bytes := (if disc then [] else s.trk.flvRem) ++ b

/-- FLV_DEMUX (R410). -/
def execFlvDemux (disc contig : Bool) (s : State) : Host.Outcome State Fault Refusal :=
  finish (.flvDemux disc contig) s do
    checkFault s
    checkMode .flv s
    let r ← resolveRegion .inp s
    let b := flvInput disc s (regionBytes s r)
    validateStart (s.trk.flvHdr && !disc) b
    let s := preamble .flv disc contig s
    let (rest, x) ← flvBody s.caps b (dmxOf s)
    checkCap rest.length s.caps.remCap 88
    return withDmx s { x with trk := { x.trk with flvRem := rest } }

end Sys2Proof.Machine
end

