-- ==== Sys2Proof/Machine/Ts.lean ====
section
/-! DEFINITION. The transport-stream demuxer (46_ts_demux R350 to R406). -/

namespace Sys2Proof.Machine

/-! ### Packets -/

/-- payload_unit_start_indicator (R353). -/
def pktPusi (k : Bytes) : Bool := byteAt k 1 / 64 % 2 = 1

/-- The 13-bit PID (R353). -/
def pktPid (k : Bytes) : Nat := byteAt k 1 % 32 * 256 + byteAt k 2

/-- adaptation_field_control (R353). -/
def pktAfc (k : Bytes) : Nat := byteAt k 3 / 16 % 4

/-- The payload of a packet, for an adaptation_field_control of 1 to 3 (R354). -/
def pktPayload (k : Bytes) : Bytes :=
  if pktAfc k = 1 then k.drop 4
  else if pktAfc k = 2 then []
  else k.drop (min (5 + byteAt k 4) 188)

/-- The first `n` whole packets of a byte sequence (R350). -/
def packets : Nat → Bytes → List Bytes
  | 0, _ => []
  | n + 1, d => d.take 188 :: packets n (d.drop 188)

/-- `validate(d, np)` over the packets, `k` before them checked (R351). -/
def validatePackets : Nat → List Bytes → Except Err Unit
  | _, [] => .ok ()
  | k, p :: rest =>
    if byteAt p 0 = 0x47 then validatePackets (k + 1) rest
    else .error { code := .fatalFormat, info := k }

/-! ### Program-specific information -/

/-- `section(pl, tid)` (R365): where the section starts and where its content ends. -/
def psiSection (pl : Bytes) (tid : Nat) : Option (Nat × Nat) :=
  if pl.length < 1 then none
  else
    let p := 1 + byteAt pl 0
    if pl.length < p + 3 ∨ byteAt pl p ≠ tid then none
    else
      let sl := byteAt pl (p + 1) % 16 * 256 + byteAt pl (p + 2)
      some (p, min (p + 3 + sl - 4) pl.length)

/-- The program loop of the PAT from byte `q` (R366), with at most `fuel` entries. -/
def patLoop (pl : Bytes) (end_ : Nat) : Nat → Nat → Option Nat
  | 0, _ => none
  | fuel + 1, q =>
    if end_ < q + 4 then none
    else if byteAt pl q * 256 + byteAt pl (q + 1) ≠ 0 then
      some (byteAt pl (q + 2) % 32 * 256 + byteAt pl (q + 3))
    else patLoop pl end_ fuel (q + 4)

/-- `parse_pat(pl)` (R366): the PMT PID. -/
def parsePat (pl : Bytes) : Option Nat :=
  match psiSection pl 0x00 with
  | none => none
  | some (p, end_) => patLoop pl end_ pl.length (p + 8)

/-- The elementary-stream loop of the PMT from byte `q` (R367): the stream types and PIDs. -/
def pmtLoop (pl : Bytes) (end_ : Nat) : Nat → Nat → List (Nat × Nat)
  | 0, _ => []
  | fuel + 1, q =>
    if end_ < q + 5 then []
    else
      (byteAt pl q, byteAt pl (q + 1) % 32 * 256 + byteAt pl (q + 2))
        :: pmtLoop pl end_ fuel (q + 5 + (byteAt pl (q + 3) % 16 * 256 + byteAt pl (q + 4)))

/-- `parse_pmt(pl)` (R367): the streams to classify, or none when the header does not fit. -/
def parsePmt (pl : Bytes) : Option (List (Nat × Nat)) :=
  match psiSection pl 0x02 with
  | none => none
  | some (p, end_) =>
    if pl.length < p + 12 then none
    else
      some (pmtLoop pl end_ pl.length
        (p + 12 + (byteAt pl (p + 10) % 16 * 256 + byteAt pl (p + 11))))

/-- `classify(st, epid)` (R368): the first stream of each kind wins. -/
def classify (t : Track) (stream : Nat × Nat) : Track :=
  let (st, epid) := stream
  if (st = 0x1B ∨ st = 0x24) ∧ !t.vPid.known then
    { t with vPid := { pid := BitVec.ofNat 13 epid, known := true }
             vCodec := if st = 0x1B then .avc else .hevc }
  else if (st = 0x0F ∨ st = 0x03 ∨ st = 0x04) ∧ !t.aPid.known then
    { t with aPid := { pid := BitVec.ofNat 13 epid, known := true }
             aCodec := if st = 0x0F then .aac else .mpeg }
  else t

/-! ### Parameter-set capture -/

/-- `vtype(u)` for the current codec (R383). -/
def unitType (codec : VCodec) (unit : Bytes) : Nat :=
  if codec = .avc then byteAt unit 0 % 32 else byteAt unit 0 / 2 % 64

/-- `is_aud(t)` (R383). -/
def isAud (codec : VCodec) (t : Nat) : Bool := if codec = .avc then t = 9 else t = 35

/-- `is_key(t)` (R382). -/
def isKey (codec : VCodec) (t : Nat) : Bool :=
  if codec = .avc then t = 5 else 16 ≤ t ∧ t ≤ 23

/-- The parameter-set kind of a unit type (R385). -/
def paramKind (codec : VCodec) (t : Nat) : Option PsKind :=
  if codec = .avc then
    (if t = 7 then some .sps else if t = 8 then some .pps else none)
  else hevcKind t

/-- `store(kind, u)` (R386): absent when the entry does not fit. -/
def storePs (c : Config.Caps) (kind : PsKind) (unit : Bytes) (t : Track) : Option Track :=
  if c.psCap < t.psets.length + 1 ∨ c.cfgCap < (psBytes t.psets).length + unit.length then none
  else some { t with psets := t.psets ++ [{ kind, bytes := unit }] }

/-- `update_v_exists()` (R387). -/
def updateVExists (t : Track) : Track :=
  { t with vExists := t.haveSps && t.havePps && (t.vCodec = .avc || t.haveVps) }

/-- Stores a unit and marks its kind as held, or counts CNT_CFGFAIL (R385). -/
def storeOrCount (c : Config.Caps) (kind : PsKind) (unit : Bytes) (mark : Track → Track) (d : Dmx) :
    Dmx :=
  match storePs c kind unit d.trk with
  | some t => { d with trk := mark t }
  | none => countCfgFail d

/-- Recomputes STATUS.V_EXISTS. -/
def refreshVExists (d : Dmx) : Dmx := { d with trk := updateVExists d.trk }

/-- `capture(t, u)` (R385). An SPS that fails to parse or does not fit ends the capture there. -/
def capture (c : Config.Caps) (t : Nat) (unit : Bytes) (d : Dmx) : Dmx :=
  match paramKind d.trk.vCodec t with
  | none => d
  | some .sps =>
    if d.trk.haveSps then refreshVExists d
    else
      match (if d.trk.vCodec = .avc then avcSps unit else hevcSps unit) with
      | .error _ => countCfgFail d
      | .ok g =>
        match storePs c .sps unit d.trk with
        | none => countCfgFail d
        | some t => refreshVExists { d with trk := { t with haveSps := true, vGeo := geometryOf g } }
  | some .pps =>
    if d.trk.havePps then refreshVExists d
    else refreshVExists (storeOrCount c .pps unit (fun t => { t with havePps := true }) d)
  | some .vps =>
    if d.trk.haveVps then refreshVExists d
    else refreshVExists (storeOrCount c .vps unit (fun t => { t with haveVps := true }) d)

/-! ### Video -/

/-- Closing a sample whose timestamps are known: LAST_V, then emission or CNT_MISSCFG (R389). -/
def closeStamped (c : Config.Caps) (stamp : Stamp) (o : OpenSample) (d : Dmx) : Except Err Dmx :=
  let d := { d with trk := { d.trk with lastV := some stamp } }
  if d.trk.vExists then do
    let out ← emitVideo c stamp o.key o.units d.out
    return { d with out }
  else .ok (countMissCfg d)

/-- `close_open()` (R389). -/
def closeOpen (c : Config.Caps) (d : Dmx) : Except Err Dmx :=
  match d.trk.opened with
  | none => .ok d
  | some o =>
    let d := { d with trk := { d.trk with opened := none } }
    match o.stamp with
    | some stamp => closeStamped c stamp o d
    | none =>
      let d := countDropped 1 d
      match d.trk.lastV with
      | none => .ok d
      | some stamp => closeStamped c stamp o d

/-- The bytes of the open sample's units together (10_state R64). -/
def unitsBytes (units : List Bytes) : Nat := (units.map List.length).sum

/-- The capacities of the open sample (R401). When both are exceeded at once, the index is a free
value (DESIGN CHOICE, log 4). -/
def checkOpen (c : Config.Caps) (units : List Bytes) : Except Err Unit :=
  if unitsBytes units ≤ c.openCap then checkCap units.length c.openUnitsCap 87
  else if units.length ≤ c.openUnitsCap then checkCap (unitsBytes units) c.openCap 86
  else .error { code := .capacityExceeded
                info := if Config.openOverflowByUnits (unitsBytes units) units.length then 87 else 86 }

/-- Appends a unit to the open sample, a key unit marking it (R380, R382). -/
def appendUnit (c : Config.Caps) (key : Bool) (unit : Bytes) (d : Dmx) : Except Err Dmx :=
  match d.trk.opened with
  | none => .ok d
  | some o => do
    let units := o.units ++ [unit]
    checkOpen c units
    return { d with trk := { d.trk with opened := some { o with key := o.key || key, units } } }

/-- A new, empty open sample with the timestamps given (R380). -/
def startSample (stamp : Option Stamp) (d : Dmx) : Dmx :=
  { d with trk := { d.trk with opened := some { stamp, key := false, units := [] } } }

/-- The length of a NAL header in bytes (R380). -/
def headerLen (codec : VCodec) : Nat := if codec = .avc then 1 else 2

/-- Whether a unit starts a new sample (R381). -/
def opensSample (t : Track) (ty : Nat) (firstWithPts : Bool) : Bool :=
  isAud t.vCodec ty || firstWithPts || t.opened.isNone

/-- At a boundary the open sample closes and a new one opens (R380, R381). -/
def beginSample (c : Config.Caps) (opens : Bool) (stamp : Option Stamp) (d : Dmx) : Except Err Dmx :=
  if opens then do
    let d ← closeOpen c d
    return startSample stamp d
  else .ok d

/-- One unit of a video PES, of type `ty`, that holds a NAL header (R380). -/
def videoUnit (c : Config.Caps) (opens : Bool) (stamp : Option Stamp) (ty : Nat) (unit : Bytes)
    (d : Dmx) : Except Err Dmx := do
  let d ← beginSample c opens stamp d
  appendUnit c (isKey d.trk.vCodec ty) unit (capture c ty unit d)

/-- The loop of `video_pes` (R380) over the units of a PES payload. `avail` and `first` are the loop's
variables; `has` and `stamp` come from the PES header. -/
def videoUnits (c : Config.Caps) (has : Bool) (stamp : Stamp) (pl : Bytes) :
    List NalUnit → (avail first : Bool) → Dmx → Except Err Dmx
  | [], _, _, d => .ok d
  | x :: rest, avail, first, d =>
    if x.len < headerLen d.trk.vCodec then videoUnits c has stamp pl rest avail first d
    else
      let unit := slice pl x.start x.len
      let ty := unitType d.trk.vCodec unit
      let opens := opensSample d.trk ty (first && has)
      do
        let d ← videoUnit c opens (if avail then some stamp else none) ty unit d
        videoUnits c has stamp pl rest (avail && !opens) false d

/-- `video_pes(has, pts, dts, pl)` (R380). -/
def videoPes (c : Config.Caps) (has : Bool) (pts dts : Nat) (pl : Bytes) (d : Dmx) : Except Err Dmx :=
  videoUnits c has { pts := BitVec.ofNat 64 pts, dts := BitVec.ofNat 64 dts } pl
    (annexbUnits pl true).units has true d

/-! ### Audio -/

/-- The frames of an audio PES, emitted with the cumulative timestamps of R395; `samples` counts the
samples of the frames before. -/
def emitFrames (c : Config.Caps) (p0 : Int) (rate : Nat) (pl : Bytes) :
    List Frame → (samples : Nat) → Outputs → Except Err (Outputs × Nat)
  | [], samples, o => .ok (o, samples)
  | f :: rest, samples, o => do
    let o ← emitAudio c (BitVec.ofInt 64 (p0 + (samples * 90000 / rate : Nat))) (slice pl f.off f.len) f.ns o
    emitFrames c p0 rate pl rest (samples + f.ns) o

/-- `configure_audio(h)` for an ADTS header (R396). -/
def configureAdts (h : AdtsHdr) (t : Track) : Track :=
  { t with
    aRate := BitVec.ofNat 64 (aacRate h.sfi)
    aChannels := BitVec.ofNat 64 (chanMap h.ch)
    aInfo := BitVec.ofNat 64 h.aot
    acfg := [BitVec.ofNat 8 (adtsAsc h).1, BitVec.ofNat 8 (adtsAsc h).2]
    aExists := true }

/-- `configure_audio(h)` for an MPEG audio header (R396). -/
def configureMpa (h : MpaHdr) (t : Track) : Track :=
  { t with
    aRate := BitVec.ofNat 64 h.rate
    aChannels := BitVec.ofNat 64 h.channels
    aInfo := BitVec.ofNat 64 h.info
    acfg := []
    aExists := true }

/-- The frames of an audio payload and whether the last is broken, with the configuration the first
one gives (R395, R396). -/
def scanAudio (pl : Bytes) (t : Track) : List Frame × Bool × (Track → Track) :=
  if t.aCodec = .aac then
    let x := adtsFrames pl 0 0
    (x.frames, x.broken, match x.first with | some h => configureAdts h | none => id)
  else
    let x := mpaFrames pl 0 0
    (x.frames, x.broken, match x.first with | some h => configureMpa h | none => id)

/-- What an audio PES does before its frames come out: the first frame's configuration, taken once, and the
count of a broken last frame (R395, R396). -/
def noteAudio (broken : Bool) (configure : Track → Track) (d : Dmx) : Dmx :=
  let d := if d.trk.aExists then d else { d with trk := configure d.trk }
  if broken then countABroken d else d

/-- The frames of an audio PES from timestamp `p0`, or dropped when there is none; A_NEXT moves past them
(R395). -/
def emitAudioPes (c : Config.Caps) (p0 : Option Int) (frames : List Frame) (pl : Bytes) (d : Dmx) :
    Except Err Dmx :=
  match p0 with
  | none => .ok (countDropped frames.length d)
  | some p0 => do
    let (out, samples) ← emitFrames c p0 d.trk.aRate.toNat pl frames 0 d.out
    let aNext :=
      if frames = [] then d.trk.aNext
      else some (BitVec.ofInt 64 (p0 + (samples * 90000 / d.trk.aRate.toNat : Nat)))
    return { trk := { d.trk with aNext }, out }

/-- `audio_pes(has, pts, pl)` (R395). -/
def audioPes (c : Config.Caps) (has : Bool) (pts : Nat) (pl : Bytes) (d : Dmx) : Except Err Dmx :=
  let p0 : Option Int := if has then some (pts : Int) else d.trk.aNext.map (·.toInt)
  let (frames, broken, configure) := scanAudio pl d.trk
  emitAudioPes c p0 frames pl (noteAudio broken configure d)

/-! ### PES packets -/

/-- A parsed PES packet (R375). -/
structure Pes where
  has : Bool
  pts : Nat
  dts : Nat
  payload : Bytes
  deriving DecidableEq, Repr

/-- `ts5(P, o)` (R377). -/
def ts5 (p : Bytes) (o : Nat) : Nat :=
  ((byteAt p o &&& 0x0E) <<< 29) ||| (byteAt p (o + 1) <<< 22) ||| ((byteAt p (o + 2) &&& 0xFE) <<< 14)
    ||| (byteAt p (o + 3) <<< 7) ||| (byteAt p (o + 4) >>> 1)

/-- `clamp(pts, dts)` (R376): 60 seconds at 90 kHz. -/
def clampPts (pts dts : Nat) : Nat := if (pts : Int) - dts > 5400000 then dts else pts

/-- `pes(P)` (R375); absent for a bad PES. -/
def parsePes (p : Bytes) : Option Pes :=
  if p.length < 9 ∨ p.take 3 ≠ [0, 0, 1] then none
  else
    let fl := byteAt p 7 / 64
    let hdl := byteAt p 8
    if p.length < 9 + hdl then none
    else
      let payload := p.drop (9 + hdl)
      if fl < 2 then some { has := false, pts := 0, dts := 0, payload }
      else if hdl < 5 then none
      else if fl = 2 then some { has := true, pts := ts5 p 9, dts := ts5 p 9, payload }
      else if hdl < 10 then none
      else some { has := true, pts := clampPts (ts5 p 9) (ts5 p 14), dts := ts5 p 14, payload }

/-- The two elementary streams. -/
inductive Stream where
  | video
  | audio
  deriving DecidableEq, Repr

/-- `flush(st, P)` (R379), a bad PES counted and dropped (R378). -/
def flushPes (c : Config.Caps) (st : Stream) (p : Bytes) (d : Dmx) : Except Err Dmx :=
  match parsePes p with
  | none => .ok (countBadPes d)
  | some x =>
    match st with
    | .video => videoPes c x.has x.pts x.dts x.payload d
    | .audio => audioPes c x.has x.pts x.payload d

/-- The pending buffer of a stream (10_state R62). -/
def pending (st : Stream) (d : Dmx) : Option Bytes :=
  match st with
  | .video => d.trk.pendV
  | .audio => d.trk.pendA

/-- The state with a stream's pending buffer set. -/
def setPending (st : Stream) (p : Option Bytes) (d : Dmx) : Dmx :=
  match st with
  | .video => { d with trk := { d.trk with pendV := p } }
  | .audio => { d with trk := { d.trk with pendA := p } }

/-- Flushes a stream's pending buffer when it holds bytes (R370, R400). -/
def flushPending (c : Config.Caps) (st : Stream) (d : Dmx) : Except Err Dmx :=
  match pending st d with
  | none => .ok d
  | some p => if p = [] then .ok d else flushPes c st p d

/-- `es(st, pusi, pl)` (R370), the buffer checked each time it is set or extended (R371). -/
def esPacket (c : Config.Caps) (st : Stream) (pusi : Bool) (pl : Bytes) (d : Dmx) : Except Err Dmx :=
  if pusi then do
    let d ← flushPending c st d
    checkCap pl.length c.pendCap 84
    return setPending st (some pl) d
  else
    match pending st d with
    | none => .ok d
    | some p => do
      checkCap (p ++ pl).length c.pendCap 84
      return setPending st (some (p ++ pl)) d

/-! ### The dispatcher -/

/-- `fifo_push(K)` (R360, R362). -/
def fifoPush (c : Config.Caps) (k : Bytes) (d : Dmx) : Dmx :=
  if d.trk.fifo.length < c.fifoCap then { d with trk := { d.trk with fifo := d.trk.fifo ++ [k] } }
  else countUnresDrop d

/-- `dispatch(K)` (R355), its redispatch a parameter. -/
def dispatchWith (redispatch : Dmx → Except Err Dmx) (c : Config.Caps) (k : Bytes) (d : Dmx) :
    Except Err Dmx :=
  let pl := pktPayload k
  let pid := pktPid k
  let pmt := d.trk.pmtPid
  if pktAfc k = 0 then .ok d
  else if pid = 0x1FFF then .ok d
  else if pid = 0 then
    if pktPusi k && !pmt.known then
      match parsePat pl with
      | none => .ok d
      | some x =>
        redispatch { d with trk := { d.trk with
          pmtPid := { pid := BitVec.ofNat 13 x, known := true, parsed := false } } }
    else .ok d
  else if pmt.known && pid = pmt.pid.toNat then
    if pktPusi k && !pmt.parsed then
      match parsePmt pl with
      | none => .ok d
      | some streams =>
        let t := streams.foldl classify d.trk
        redispatch { d with trk := { t with pmtPid := { t.pmtPid with parsed := true } } }
    else .ok d
  else if pmt.parsed then
    if d.trk.vPid.known && pid = d.trk.vPid.pid.toNat then esPacket c .video (pktPusi k) pl d
    else if d.trk.aPid.known && pid = d.trk.aPid.pid.toNat then esPacket c .audio (pktPusi k) pl d
    else .ok d
  else .ok (fifoPush c k d)

/-- `redispatch()` (R361), each packet through `f`. -/
def redispatchWith (f : Bytes → Dmx → Except Err Dmx) (d : Dmx) : Except Err Dmx :=
  d.trk.fifo.foldlM (fun d k => f k d) { d with trk := { d.trk with fifo := [] } }

/-- `dispatch` once the PMT is parsed: it never redispatches (DEDUCED, log 8). -/
def dispatchParsed (c : Config.Caps) (k : Bytes) (d : Dmx) : Except Err Dmx :=
  dispatchWith .ok c k d

/-- `dispatch` once the PMT PID is known: a parsed PMT redispatches once (DEDUCED, log 8). -/
def dispatchKnown (c : Config.Caps) (k : Bytes) (d : Dmx) : Except Err Dmx :=
  dispatchWith (redispatchWith (dispatchParsed c)) c k d

/-- `dispatch(K)` (R355): a redispatch nests at most twice, once for the PAT and once for the PMT
(DEDUCED, log 8). -/
def dispatch (c : Config.Caps) (k : Bytes) (d : Dmx) : Except Err Dmx :=
  dispatchWith (redispatchWith (dispatchKnown c)) c k d

/-- The packets of a call, in order (R350). -/
def dispatchAll (c : Config.Caps) (ks : List Bytes) (d : Dmx) : Except Err Dmx :=
  ks.foldlM (fun d k => dispatch c k d) d

/-! ### Commands -/

/-- The bytes a TS_DEMUX call works on: the remainder, unless DISC drops it, then the input (R352). -/
def tsInput (disc : Bool) (s : State) (b : Bytes) : Bytes := (if disc then [] else s.trk.tsRem) ++ b

/-- TS_DEMUX (R350). -/
def execTsDemux (disc contig : Bool) (s : State) : Host.Outcome State Fault Refusal :=
  finish (.tsDemux disc contig) s do
    checkFault s
    checkMode .ts s
    let r ← resolveRegion .inp s
    let d := tsInput disc s (regionBytes s r)
    let ks := packets (d.length / 188) d
    validatePackets 0 ks
    let s := preamble .ts disc contig s
    let x ← dispatchAll s.caps ks (dmxOf s)
    return withDmx s { x with trk := { x.trk with tsRem := d.drop (188 * (d.length / 188)) } }

/-- The end of a stream's pending buffer in TS_FLUSH (R400). -/
def drainPending (c : Config.Caps) (st : Stream) (d : Dmx) : Except Err Dmx := do
  let d ← flushPending c st d
  return setPending st none d

/-- TS_FLUSH (R400): video first, then audio, then the open sample. -/
def execTsFlush (s : State) : Host.Outcome State Fault Refusal :=
  finish .tsFlush s do
    checkFault s
    checkMode .ts s
    let s := preamble .ts false s.status.contig s
    let x ← drainPending s.caps .video (dmxOf s)
    let x ← drainPending s.caps .audio x
    let x ← closeOpen s.caps x
    return withDmx s x

end Sys2Proof.Machine
end

