-- ==== Sys2Proof/Machine/Dispatch.lean ====
section
/-! DEFINITION. One arm per command (30_encoding R116). -/

namespace Sys2Proof.Machine

def exec (i : Instr) (s : State) : Host.Outcome State Fault Refusal :=
  match i with
  | .nop => Sys2Proof.Machine.execNop s
  | .reset => Sys2Proof.Machine.execReset s
  | .trackReset => Sys2Proof.Machine.execTrackReset s
  | .brInit sp => Sys2Proof.Machine.execBrInit sp s
  | .readBits n => Sys2Proof.Machine.execReadBits n s
  | .skipBits n => Sys2Proof.Machine.execSkipBits n s
  | .readUe => Sys2Proof.Machine.execReadUe s
  | .skipUe => Sys2Proof.Machine.execSkipUe s
  | .readSe => Sys2Proof.Machine.execReadSe s
  | .skipSe => Sys2Proof.Machine.execSkipSe s
  | .skipScalingList size => Sys2Proof.Machine.execSkipScalingList size s
  | .splitAnnexb sp endDelim => Sys2Proof.Machine.execSplitAnnexb sp endDelim s
  | .splitLenpfx sp width => Sys2Proof.Machine.execSplitLenpfx sp width s
  | .epbRemove sp => Sys2Proof.Machine.execEpbRemove sp s
  | .avcSpsParse sp => Sys2Proof.Machine.execAvcSpsParse sp s
  | .hevcSpsParse sp => Sys2Proof.Machine.execHevcSpsParse sp s
  | .avccParse sp => Sys2Proof.Machine.execAvccParse sp s
  | .hvccParse sp => Sys2Proof.Machine.execHvccParse sp s
  | .aacAscParse sp => Sys2Proof.Machine.execAacAscParse sp s
  | .adtsParse sp => Sys2Proof.Machine.execAdtsParse sp s
  | .mpaHdrParse sp => Sys2Proof.Machine.execMpaHdrParse sp s
  | .mpaScan sp => Sys2Proof.Machine.execMpaScan sp s
  | .tsDemux disc contig => Sys2Proof.Machine.execTsDemux disc contig s
  | .tsFlush => Sys2Proof.Machine.execTsFlush s
  | .flvDemux disc contig => Sys2Proof.Machine.execFlvDemux disc contig s

end Sys2Proof.Machine
end

