-- ==== Sys2Proof/Machine/RegFile.lean ====
section
/-! DEFINITION. The register file as the host reads and writes it (10_state R30 to R49). -/

namespace Sys2Proof.Machine

/-- A count or a length as a register value. -/
def regNat (n : Nat) : Word64 := BitVec.ofNat 64 n

/-- A flag-like number of a sequence that may be absent: its length, or 0 (10_state R49). -/
def pendLen (p : Option Bytes) : Nat := (p.getD []).length

/-- Register `i` as the host reads it (10_state R33). A register that is write-only or reserved reads
0 (R32). -/
def regRead (s : State) (i : Nat) : Word64 :=
  match i with
  | 1 => s.arg0
  | 2 => s.arg1
  | 3 => s.arg2
  | 4 => s.arg3
  | 5 => statusWord s
  | 6 => s.errInfo
  | 7 => s.errCmd
  | 8 => s.val
  | 9 => regNat (spaceCode s.br.src)
  | 10 => s.br.off
  | 11 => s.br.nbits
  | 12 => s.br.pos
  | 13 => regNat s.rbsp.length
  | 14 => s.epbCnt
  | 15 => regNat s.dt.length
  | 16 => s.frm.leadLen
  | 17 => s.frm.resOff
  | 18 => s.frm.resLen
  | 19 => s.frm.lensize
  | 20 => s.sps.geo.width
  | 21 => s.sps.geo.height
  | 22 => s.sps.geo.sarNum
  | 23 => s.sps.geo.sarDen
  | 24 => s.sps.geo.codec0
  | 25 => s.sps.geo.codec1
  | 26 => s.sps.chroma
  | 28 => s.aud.codec
  | 29 => s.aud.rate
  | 30 => s.aud.channels
  | 31 => s.aud.info
  | 32 => s.aud.frameLen
  | 33 => s.aud.nsamples
  | 34 => s.aud.bitrate
  | 35 => s.aud.asc
  | 40 => regNat (modeCode s.mode)
  | 41 => pmtPidWord s.trk.pmtPid
  | 42 => esPidWord s.trk.vPid
  | 43 => esPidWord s.trk.aPid
  | 44 => regNat (vCodecCode s.trk.vCodec)
  | 45 => regNat (aCodecCode s.trk.aCodec)
  | 46 => s.trk.vGeo.width
  | 47 => s.trk.vGeo.height
  | 48 => s.trk.vGeo.sarNum
  | 49 => s.trk.vGeo.sarDen
  | 50 => s.trk.vGeo.codec0
  | 51 => s.trk.vGeo.codec1
  | 52 => s.trk.vLensize
  | 53 => regNat s.trk.psets.length
  | 54 => s.trk.aRate
  | 55 => s.trk.aChannels
  | 56 => s.trk.aInfo
  | 57 => regNat s.trk.acfg.length
  | 58 => regNat (clockOf s.mode)
  | 59 => regNat s.trk.tsRem.length
  | 60 => regNat s.trk.flvRem.length
  | 61 => regNat (pendLen s.trk.pendV)
  | 62 => regNat (pendLen s.trk.pendA)
  | 63 => regNat s.trk.fifo.length
  | 64 => s.trk.cnt.dropped
  | 65 => s.trk.cnt.missCfg
  | 66 => s.trk.cnt.badPes
  | 67 => s.trk.cnt.aBroken
  | 68 => s.trk.cnt.unresDrop
  | 69 => s.trk.cnt.cfgFail
  | 72 => regNat s.out.vsq.length
  | 73 => regNat s.out.vut.length
  | 74 => regNat s.out.asq.length
  | 75 => regNat s.out.sdata.length
  | 80 => Config.idWord
  | 81 => regNat s.caps.inCap
  | 82 => regNat s.caps.rbspCap
  | 83 => regNat s.caps.dtCap
  | 84 => regNat s.caps.pendCap
  | 85 => regNat s.caps.fifoCap
  | 86 => regNat s.caps.openCap
  | 87 => regNat s.caps.openUnitsCap
  | 88 => regNat s.caps.remCap
  | 89 => regNat s.caps.vsqCap
  | 90 => regNat s.caps.vutCap
  | 91 => regNat s.caps.asqCap
  | 92 => regNat s.caps.sdataCap
  | 93 => regNat s.caps.cfgCap
  | 94 => regNat s.caps.psCap
  | _ => 0

/-- A host write of register `i` other than CMD: only ARG0 to ARG3 change (10_state R32, R34). -/
def regWrite (s : State) (i : Nat) (v : Word64) : State :=
  match i with
  | 1 => { s with arg0 := v }
  | 2 => { s with arg1 := v }
  | 3 => { s with arg2 := v }
  | 4 => { s with arg3 := v }
  | _ => s

end Sys2Proof.Machine
end

