-- ==== Sys2Proof/Machine/Windows.lean ====
section
/-! DEFINITION. The memory windows of the host bus (20_memory R82, R86 to R89) and the record layouts in
them (R92 to R95). -/

namespace Sys2Proof.Machine

/-- The number of bytes of an access (20_memory R87). -/
def widthBytes : AccessWidth → Nat
  | .b1 => 1
  | .b2 => 2
  | .b4 => 4
  | .b8 => 8

/-- Bytes of zeros at the end of a record. -/
def pad (n : Nat) : Bytes := List.replicate n 0

/-- The 32 bytes of a DT entry (R92). -/
def dtBytes (e : DtEntry) : Bytes :=
  leBytes 8 e.pts.toNat ++ leBytes 4 e.off.toNat ++ leBytes 4 e.len.toNat ++ leBytes 4 e.aux.toNat
    ++ leBytes 1 (spaceCode e.space) ++ pad 11

/-- The 32 bytes of a VSQ entry (R93). -/
def vsqBytes (e : VideoSample) : Bytes :=
  leBytes 8 e.pts.toNat ++ leBytes 8 e.dts.toNat ++ leBytes 4 e.firstUnit.toNat
    ++ leBytes 4 e.nunits.toNat ++ leBytes 1 e.key.toNat ++ pad 7

/-- The 8 bytes of a VUT entry (R93). -/
def vutBytes (e : VideoUnit) : Bytes := leBytes 4 e.off.toNat ++ leBytes 4 e.len.toNat

/-- The 32 bytes of an ASQ entry (R94). -/
def asqBytes (e : AudioSample) : Bytes :=
  leBytes 8 e.pts.toNat ++ leBytes 4 e.off.toNat ++ leBytes 4 e.len.toNat
    ++ leBytes 4 e.nsamples.toNat ++ pad 12

/-- The parameter-set table of the CFG window (R95), `off` bytes of parameter sets standing before the
first entry. -/
def psTable (off : Nat) : List PsEntry → Bytes
  | [] => []
  | e :: rest =>
    leBytes 4 (psKindCode e.kind) ++ leBytes 4 off ++ leBytes 4 e.bytes.length ++ pad 4
      ++ psTable (off + e.bytes.length) rest

/-- Byte `off` of a window of records of `size` bytes each; 0 beyond the last (R88). -/
def recordByte {α : Type} (size : Nat) (layout : α → Bytes) (entries : List α) (off : Nat) : Byte :=
  match entries[off / size]? with
  | some e => (layout e).getD (off % size) 0
  | none => 0

/-- Byte `off` of the CFG window (R95). -/
def cfgByte (t : Track) (off : Nat) : Byte :=
  if off < 0x1000 then (psTable 0 t.psets).getD off 0
  else if off < 0x10000 then t.acfg.getD (off - 0x1000) 0
  else (psBytes t.psets).getD (off - 0x10000) 0

/-- The byte at a host address, REG excepted: 0 where there is no valid data (R86, R88). A byte of REG
is no aligned 8-byte access and reads 0 (R87). -/
def windowByte (s : State) (addr : Nat) : Byte :=
  let off := addr % 2 ^ 24
  match addr / 2 ^ 24 with
  | 1 => if off < s.caps.inCap then memByte s.inMem off else 0
  | 2 => s.rbsp.getD off 0
  | 3 => recordByte 32 dtBytes s.dt off
  | 4 => recordByte 32 vsqBytes s.out.vsq off
  | 5 => recordByte 8 vutBytes s.out.vut off
  | 6 => recordByte 32 asqBytes s.out.asq off
  | 7 => s.out.sdata.getD off 0
  | 8 => cfgByte s.trk off
  | _ => 0

/-- The `n` byte addresses of an access, on the 32-bit bus (R86, R87; DEDUCED, log 15). -/
def accessAddrs (addr : Word32) (n : Nat) : List Nat :=
  (List.range n).map fun k => (addr + BitVec.ofNat 32 k).toNat

/-- The REG window holds the first 2^24 addresses (R86). An access belongs to it by its first byte (DEDUCED, log 5). -/
def inReg (addr : Word32) : Bool := addr.toNat < 2 ^ 24

/-- The register an access reaches: only a naturally aligned 8-byte access reaches one (R87). -/
def regIndex (addr : Word32) (w : AccessWidth) : Option Nat :=
  if w = .b8 ∧ addr.toNat % 8 = 0 then some (addr.toNat / 8) else none

/-- What a host read returns (R87, R88), zero-extended. The bytes of an access that runs past a memory window's end
are those of the next window (DEDUCED, log 5). -/
def busRead (s : State) (addr : Word32) (w : AccessWidth) : Word64 :=
  if inReg addr then
    match regIndex addr w with
    | some i => regRead s i
    | none => 0
  else BitVec.ofNat 64 (leNat ((accessAddrs addr (widthBytes w)).map (windowByte s)))

/-- The host's write of one byte at an address: only IN takes it (R88, R89). -/
def writeWindowByte (s : State) (addr : Nat) (b : Byte) : State :=
  if addr / 2 ^ 24 = 1 ∧ addr % 2 ^ 24 < s.caps.inCap then
    { s with inMem := memWrite s.inMem (addr % 2 ^ 24) b }
  else s

/-- A host write outside the REG window, split into byte writes in rising order (R87). -/
def writeWindow (s : State) (addr : Word32) (w : AccessWidth) (v : Word64) : State :=
  ((accessAddrs addr (widthBytes w)).zip (leBytes (widthBytes w) v.toNat)).foldl
    (fun s ab => writeWindowByte s ab.1 ab.2) s

end Sys2Proof.Machine
end

