-- ==== Sys2Proof/Machine/Bus.lean ====
section
/-! DEFINITION. The host bus: a write to CMD runs a command to completion (10_state R34, 20_memory R90),
every other access is served by the windows; and the assembler's host operations (30_encoding R130 to
R132) as lists of accesses. -/

namespace Sys2Proof.Machine

/-- A command word, decoded and executed; an illegal word takes the error path (30_encoding R118,
60_exceptions R453). -/
def runWord (w : Word32) (s : State) : Host.Outcome State Fault Refusal :=
  match decode w with
  | .ok i => exec i s
  | .error e => .next (errorPath w { code := .illegalCommand, info := illegalInfo e } s)

/-- One host access (20_memory R87, R88, R96). Only a write to CMD, register 0, has a side effect; its
bits [63:32] are ignored (10_state R34). -/
def serve (a : HostAccess) (s : State) : Host.Outcome State Fault Refusal :=
  match a with
  | .read addr w => .next { s with busData := busRead s addr w }
  | .write addr w v =>
    if inReg addr then
      match regIndex addr w with
      | some 0 => runWord (v.setWidth 32) s
      | some i => .next (regWrite s i v)
      | none => .next s
    else .next (writeWindow s addr w v)

/-! ### The assembler's host operations (30_encoding R130 to R132) -/

/-- The host address of register `i` (10_state R30). -/
def regAddr (i : Nat) : Word32 := BitVec.ofNat 32 (8 * i)

/-- `wr`: a write of register `i` (R131). -/
def wrReg (i : Nat) (v : Word64) : HostAccess := .write (regAddr i) .b8 v

/-- `rd`: a read of register `i` (R131). -/
def rdReg (i : Nat) : HostAccess := .read (regAddr i) .b8

/-- `wrb IN+off`: byte writes at consecutive addresses (R131). -/
def wrbIn (off : Nat) (bytes : Bytes) : List HostAccess :=
  bytes.mapIdx fun k b => .write (BitVec.ofNat 32 (0x01000000 + off + k)) .b1 (b.setWidth 64)

/-- `rdb` at a host address: byte reads at consecutive addresses (R131). -/
def rdb (addr n : Nat) : List HostAccess :=
  (List.range n).map fun k => .read (BitVec.ofNat 32 (addr + k)) .b1

/-- The write of a command word to CMD (10_state R34). -/
def cmdWrite (w : Word32) : HostAccess := wrReg 0 (w.setWidth 64)

/-- A command line: its arguments to ARG0, ARG1, ..., then the word to CMD (R130). -/
def commandLine (i : Instr) (args : List Word64) : List HostAccess :=
  (args.mapIdx fun k v => wrReg (k + 1) v) ++ [cmdWrite (encode i)]

/-- READ_FLAG, READ_BYTE, READ_U16, READ_U32, SKIP_BYTE, SKIP_SCALING_4X4, SKIP_SCALING_8X8,
SPLIT_AVCC and FLUSH (R132). -/
def readFlag : Instr := .readBits 1
/-- READ_BYTE (R132). -/
def readByte : Instr := .readBits 8
/-- READ_U16 (R132). -/
def readU16 : Instr := .readBits 16
/-- READ_U32 (R132). -/
def readU32 : Instr := .readBits 32
/-- SKIP_BYTE (R132). -/
def skipByte : Instr := .skipBits 8
/-- SKIP_SCALING_4X4 (R132). -/
def skipScaling4x4 : Instr := .skipScalingList 16
/-- SKIP_SCALING_8X8 (R132). -/
def skipScaling8x8 : Instr := .skipScalingList 64
/-- SPLIT_AVCC (R132). -/
def splitAvcc : Instr := .splitLenpfx .inp 4
/-- FLUSH (R132). -/
def flush : Instr := .tsFlush

end Sys2Proof.Machine
end

