-- ==== Sys2Proof/Machine/Step.lean ====
section
/-! DEFINITION. The step: the oldest pending host access is served (20_memory R90). -/

namespace Sys2Proof.Machine

/-- One step: the oldest pending access of the host is served, a write to CMD running its command to
completion (00_scope R18, 20_memory R90). With no access pending the FBP is idle and keeps all its state
(60_exceptions R476; DEDUCED, log 13). -/
def step (s : State) : Host.Outcome State Fault Refusal :=
  match s.bus with
  | [] => .next s
  | a :: rest => serve a { s with bus := rest }

/-- The state in which the next access is the host's write of the command word `w mod 2^nbits` to CMD,
before the accesses already pending (DESIGN CHOICE, log 1). -/
def State.withFetchWord (s : State) (nbits w : Nat) : State :=
  { s with bus := cmdWrite (BitVec.ofNat 32 (w % 2 ^ nbits)) :: s.bus }

end Sys2Proof.Machine
end

