-- ==== Sys2Proof/Safety.lean ====
section
/-! DEFINITION. What counts as a legal state of the FBP: every capacity and length bound of the spec, the
canonical form of IN, the legal values of the registers, and the separation of the two containers. A
safe run is one whose states are all legal. -/

namespace Sys2Proof.Machine

/-- The output queues are within their capacities (46_ts_demux R401), and every record names only units
and bytes that are there (20_memory R93, R94). -/
structure Outputs.Ok (c : Config.Caps) (o : Outputs) : Prop where
  vsqCap : o.vsq.length ≤ c.vsqCap
  vutCap : o.vut.length ≤ c.vutCap
  asqCap : o.asq.length ≤ c.asqCap
  sdataCap : o.sdata.length ≤ c.sdataCap
  vsqUnits : ∀ e ∈ o.vsq, 1 ≤ e.nunits.toNat ∧ e.firstUnit.toNat + e.nunits.toNat ≤ o.vut.length
  vutBytes : ∀ x ∈ o.vut, x.off.toNat + x.len.toNat ≤ o.sdata.length
  asqBytes : ∀ x ∈ o.asq, x.off.toNat + x.len.toNat ≤ o.sdata.length

/-- The track state is within its capacities (10_state R60 to R68), and its flags say what the
configuration store holds (R67). -/
structure Track.Ok (c : Config.Caps) (t : Track) : Prop where
  tsRem : t.tsRem.length < 188
  flvRem : t.flvRem.length ≤ c.remCap
  pendV : ∀ p, t.pendV = some p → p.length ≤ c.pendCap
  pendA : ∀ p, t.pendA = some p → p.length ≤ c.pendCap
  fifoLen : t.fifo.length ≤ c.fifoCap
  fifoPackets : ∀ k ∈ t.fifo, k.length = 188
  openBytes : ∀ o, t.opened = some o → unitsBytes o.units ≤ c.openCap
  openUnits : ∀ o, t.opened = some o → o.units.length ≤ c.openUnitsCap ∧ o.units ≠ []
  psLen : t.psets.length ≤ c.psCap
  psBytes : (psBytes t.psets).length ≤ c.cfgCap
  acfg : t.acfg.length ≤ Config.acfgCap
  haveSps : t.haveSps = t.psets.any (fun e => e.kind = .sps)
  havePps : t.havePps = t.psets.any (fun e => e.kind = .pps)
  haveVps : t.haveVps = t.psets.any (fun e => e.kind = .vps)
  rate : t.aExists = true → t.aRate ≠ 0

/-- The state that only FLV_DEMUX writes is at its reset value (47_flv_demux R410). -/
structure Track.FlvIdle (t : Track) : Prop where
  flvHdr : t.flvHdr = false
  flvRem : t.flvRem = []
  vLensize : t.vLensize = 0

/-- The state that FLV_DEMUX never writes is at its reset value (47_flv_demux R410). -/
structure Track.TsIdle (t : Track) : Prop where
  pmtPid : t.pmtPid = Track.reset.pmtPid
  vPid : t.vPid = Track.reset.vPid
  aPid : t.aPid = Track.reset.aPid
  tsRem : t.tsRem = []
  pendV : t.pendV = none
  pendA : t.pendA = none
  fifo : t.fifo = []
  opened : t.opened = none
  lastV : t.lastV = none
  aNext : t.aNext = none
  dropped : t.cnt.dropped = 0
  badPes : t.cnt.badPes = 0
  aBroken : t.cnt.aBroken = 0
  unresDrop : t.cnt.unresDrop = 0

/-- The track in transport-stream mode: V_EXISTS follows the captured parameter sets (46_ts_demux R387),
and before the video PID is known nothing is pending or captured for it (R368, R370). -/
structure Track.TsMode (t : Track) : Prop where
  idle : t.FlvIdle
  exists_ : t.vExists = (t.haveSps && t.havePps && (decide (t.vCodec = .avc) || t.haveVps))
  early : t.vPid.known = false →
    t.pendV = none ∧ t.haveSps = false ∧ t.havePps = false ∧ t.haveVps = false

/-- The track in FLV mode: a configured video track has a length-prefix width of 1 to 4 (10_state R46). -/
structure Track.FlvMode (t : Track) : Prop where
  idle : t.TsIdle
  width : t.vExists = true → 1 ≤ t.vLensize.toNat ∧ t.vLensize.toNat ≤ 4

/-- What MODE says of the track and the queues (40_control R148): before the first demux call both are
as after reset. -/
def ModeOk (m : Mode) (t : Track) (o : Outputs) : Prop :=
  match m with
  | .none => t = Track.reset ∧ o = Outputs.empty
  | .ts => t.TsMode
  | .flv => t.FlvMode

/-- A legal state. -/
structure State.Inv (s : State) : Prop where
  caps : s.caps.Legal
  memWf : s.inMem.wf
  memBound : ∀ x ∈ s.inMem, x.1 < s.caps.inCap
  errCode : s.status.err = 0 ∨ ∃ k, s.status.err = errByte k
  cursor : s.br.pos.toNat ≤ s.br.nbits.toNat
  slice : s.br.nbits.toNat % 8 = 0 ∧ s.br.nbits.toNat ≤ 8 * 2 ^ 24
  rbsp : s.rbsp.length ≤ s.caps.rbspCap
  dt : s.dt.length ≤ s.caps.dtCap
  lensize : s.frm.lensize.toNat ≤ 4
  trk : s.trk.Ok s.caps
  out : s.out.Ok s.caps
  mode : ModeOk s.mode s.trk s.out

/-- A command completed: the error registers say OK (40_control R140). -/
def Completed (i : Instr) (t : State) : Prop :=
  t.status.err = 0 ∧ t.errInfo = 0 ∧ t.errCmd = (encode i).setWidth 64

/-- A command failed with a code and an info value, and changed nothing but the error registers
(60_exceptions R455, R456). -/
def Failed (i : Instr) (code : ErrCode) (info : Nat) (s t : State) : Prop :=
  t = errorPath (encode i) { code, info } s

end Sys2Proof.Machine
end

