-- ==== Sys2Proof/Written.lean ====
section
/-! DEFINITION. The vocabulary of the statements: what a host or an encoder writes, given field by field from
the spec's formats, and which state a command may write. The machine uses nothing of this file. -/

namespace Sys2Proof.Machine

/-! ### Commands -/

/-- The state in which the next host access writes the word `w` to CMD (10_state R34). -/
def issue (w : Word32) (s : State) : State := { s with bus := cmdWrite w :: s.bus }

/-- The region selector of a command with a region operand that SP selects (30_encoding R112, R117). -/
def regionOf : Instr → Option RegionSel
  | .brInit sp | .splitAnnexb sp _ | .splitLenpfx sp _ | .epbRemove sp | .avcSpsParse sp
  | .hevcSpsParse sp | .avccParse sp | .hvccParse sp | .aacAscParse sp | .adtsParse sp
  | .mpaHdrParse sp | .mpaScan sp => some sp
  | .nop | .reset | .trackReset | .readBits _ | .skipBits _ | .readUe | .skipUe | .readSe | .skipSe
  | .skipScalingList _ | .tsDemux _ _ | .tsFlush | .flvDemux _ _ => none

/-- The container of a demux call (40_control R148). -/
def callMode : Instr → Option Mode
  | .tsDemux _ _ | .tsFlush => some .ts
  | .flvDemux _ _ => some .flv
  | .nop | .reset | .trackReset | .brInit _ | .readBits _ | .skipBits _ | .readUe | .skipUe | .readSe
  | .skipSe | .skipScalingList _ | .splitAnnexb _ _ | .splitLenpfx _ _ | .epbRemove _ | .avcSpsParse _
  | .hevcSpsParse _ | .avccParse _ | .hvccParse _ | .aacAscParse _ | .adtsParse _ | .mpaHdrParse _
  | .mpaScan _ => none

/-- The commands that use the track state, and that the fault state refuses (60_exceptions R458). -/
def isTrackCommand (i : Instr) : Bool := i = .trackReset || (callMode i).isSome

/-- The read and skip commands of 41_bitreader section 2. -/
def isReader : Instr → Bool
  | .readBits _ | .skipBits _ | .readUe | .skipUe | .readSe | .skipSe | .skipScalingList _ => true
  | .nop | .reset | .trackReset | .brInit _ | .splitAnnexb _ _ | .splitLenpfx _ _ | .epbRemove _
  | .avcSpsParse _ | .hevcSpsParse _ | .avccParse _ | .hvccParse _ | .aacAscParse _ | .adtsParse _
  | .mpaHdrParse _ | .mpaScan _ | .tsDemux _ _ | .tsFlush | .flvDemux _ _ => false

/-- The undefined opcodes (30_encoding R120). -/
def undefinedOpcode (n : Nat) : Bool :=
  (0x03 ≤ n && n ≤ 0x0F) || (0x18 ≤ n && n ≤ 0x1F) || (0x23 ≤ n && n ≤ 0x2F)
    || (0x34 ≤ n && n ≤ 0x3F) || (0x44 ≤ n && n ≤ 0x4F) || (0x53 ≤ n && n ≤ 0xFF)

/-- The region a command takes its bytes from, in bounds (20_memory R84, R85). -/
abbrev RegionIs (sp : RegionSel) (s : State) (r : Region) : Prop :=
  namedRegion sp s = some r ∧ r.off + r.len ≤ spaceSize s r.space

/-- `STATUS.CONTIG` set to a value. -/
def State.withContig (s : State) (b : Bool) : State := { s with status := { s.status with contig := b } }

/-! ### Which command writes what (10_state R38 to R48) -/

/-- VAL (R38). -/
def writesVal : Instr → Bool
  | .readBits _ | .readUe | .readSe => true
  | _ => false

/-- The bit-reader registers (R39). -/
def writesReader (i : Instr) : Bool := isReader i || (match i with | .brInit _ => true | _ => false)

/-- DT (R40): six commands. -/
def writesDt : Instr → Bool
  | .splitAnnexb _ _ | .splitLenpfx _ _ | .avccParse _ | .hvccParse _ | .adtsParse _ | .mpaScan _ => true
  | _ => false

/-- RBSP and EPB_CNT (R41). -/
def writesRbsp : Instr → Bool
  | .epbRemove _ => true
  | _ => false

/-- LEAD_LEN (R42). -/
def writesLead : Instr → Bool
  | .splitAnnexb _ _ => true
  | _ => false

/-- RES_OFF and RES_LEN (R42). -/
def writesResidue : Instr → Bool
  | .splitAnnexb _ _ | .splitLenpfx _ _ => true
  | _ => false

/-- LENSIZE (R42). -/
def writesLensize : Instr → Bool
  | .avccParse _ | .hvccParse _ => true
  | _ => false

/-- The SPS_* registers (R43). -/
def writesSps : Instr → Bool
  | .avcSpsParse _ | .hevcSpsParse _ | .avccParse _ | .hvccParse _ => true
  | _ => false

/-- The AUD_* registers (R45). -/
def writesAud : Instr → Bool
  | .aacAscParse _ | .adtsParse _ | .mpaHdrParse _ | .mpaScan _ => true
  | _ => false

/-- STATUS.BROKEN (R35). -/
def writesBroken : Instr → Bool
  | .adtsParse _ | .mpaScan _ => true
  | _ => false

/-! ### Bits (00_scope R11) -/

/-- The `n` bits of a number, most significant first. -/
def natBits (n v : Nat) : List Bool := (List.range n).map fun k => v.testBit (n - 1 - k)

/-- The unsigned Exp-Golomb code of a value: `z` zeros, a one, a `z`-bit suffix, with the value
`2^z - 1 + suffix` (41_bitreader R172). -/
def ueBits (v : Nat) : List Bool :=
  List.replicate (Nat.log2 (v + 1)) false
    ++ true :: natBits (Nat.log2 (v + 1)) (v + 1 - 2 ^ Nat.log2 (v + 1))

/-- The unsigned code that stands for a signed value: odd codes are positive (41_bitreader R173). -/
def seCode (v : Int) : Nat := if 0 < v then (2 * v - 1).toNat else (-2 * v).toNat

/-- The signed Exp-Golomb code of a value. -/
def seBits (v : Int) : List Bool := ueBits (seCode v)

/-- The values `ue()` can return (41_bitreader R172). -/
abbrev UeRange (v : Nat) : Prop := v ≤ 2 ^ 32 - 2

/-- The values `se()` can return (41_bitreader R173). -/
abbrev SeRange (v : Int) : Prop := -(2 ^ 31 - 1) ≤ v ∧ v ≤ 2 ^ 31 - 1

/-- The `n` bits of a byte sequence from bit `p` on. -/
def bitString (s : Bytes) (p n : Nat) : List Bool := (List.range n).map fun k => bitAt s (p + k)

/-- The bits stand at bit `p`. -/
abbrev BitsAt (s : Bytes) (p : Nat) (bs : List Bool) : Prop := bitString s p bs.length = bs

/-- The byte sequence starts with the bits. -/
abbrev StartsWith (s : Bytes) (bs : List Bool) : Prop := bs.length ≤ 8 * s.length ∧ BitsAt s 0 bs

/-- The bit reader's slice is within its space (41_bitreader section 2). -/
abbrev SliceIn (s : State) : Prop := s.br.off.toNat + s.br.nbits.toNat / 8 ≤ spaceSize s s.br.src

/-- The bytes of the bit reader's slice. -/
def sliceBytes (s : State) : Bytes := memRead s s.br.src s.br.off.toNat (s.br.nbits.toNat / 8)

/-- The bit reader has the bits at BR_POS, within its slice. -/
abbrev ReaderHas (s : State) (bs : List Bool) : Prop :=
  SliceIn s ∧ s.br.pos.toNat + bs.length ≤ s.br.nbits.toNat ∧ BitsAt (sliceBytes s) s.br.pos.toNat bs

/-- BR_POS moved forward. -/
def advance (n : Nat) (s : State) : State :=
  { s with br := { s.br with pos := s.br.pos + BitVec.ofNat 64 n } }

/-- The `delta_scale` values coded for a scaling list of `size` entries (41_bitreader R174): after `k` of them
the running entry is `8` plus their sum, modulo 256, and an entry of 0 ends the list early. -/
abbrev ScalingCode (size : Nat) (ds : List Int) : Prop :=
  (∀ d ∈ ds, SeRange d) ∧ ds.length ≤ size ∧
    (∀ k < ds.length, 0 < k → (8 + (ds.take k).sum) % 256 ≠ 0) ∧
    (ds.length = size ∨ (ds ≠ [] ∧ (8 + ds.sum) % 256 = 0))

/-! ### Bytes -/

/-- The `n` bytes of a number, most significant first (00_scope R12). -/
def beBytes : Nat → Nat → Bytes
  | 0, _ => []
  | n + 1, v => beBytes n (v / 256) ++ [BitVec.ofNat 8 v]

/-- A NAL unit behind its length (42_nal R202). -/
def lengthPrefixed (w : Nat) (unit : Bytes) : Bytes := beBytes w unit.length ++ unit

/-- The start code, the unit of an Annex B scan, and the bytes they stand for (42_nal R193). -/
def withStartCode (b : Bytes) (x : NalUnit) : Bytes :=
  slice b (x.start - x.pfx) x.pfx ++ slice b x.start x.len

/-- Emulation prevention as an encoder applies it: after two zero bytes, a `03` before any byte up to `03`
(the escaping that 42_nal R200 undoes); `z` zero bytes stand before. -/
def epbEscape (z : Nat) : Bytes → Bytes
  | [] => []
  | b :: rest =>
    if 2 ≤ z ∧ b.toNat ≤ 3 then 0x03 :: b :: epbEscape (if b = 0 then 1 else 0) rest
    else b :: epbEscape (if b = 0 then z + 1 else 0) rest

/-! ### Parameter sets -/

/-- The coded forms of the sample aspect ratio (43_avc_paramsets R225). -/
inductive SarCode where
  | noVui
  | noInfo
  | idc (i : BitVec 8)
  | extended (w h : BitVec 16)
  deriving DecidableEq, Repr

/-- The bits of `vui_sar()`. -/
def SarCode.bits : SarCode → List Bool
  | .noVui => [false]
  | .noInfo => [true, false]
  | .idc i => [true, true] ++ natBits 8 i.toNat
  | .extended w h => [true, true] ++ natBits 8 255 ++ natBits 16 w.toNat ++ natBits 16 h.toNat

/-- The sixteen ratios of 43_avc_paramsets R226, for aspect_ratio_idc 1 to 16. -/
def sarRatios : List (Nat × Nat) :=
  [ (1, 1), (12, 11), (10, 11), (16, 11), (40, 33), (24, 11), (20, 11), (32, 11)
  , (80, 33), (18, 11), (15, 11), (64, 33), (160, 99), (4, 3), (3, 2), (2, 1) ]

/-- The ratio the code gives: an idc outside the table gives 1:1 (43_avc_paramsets R225, R226). -/
def SarCode.ratio : SarCode → Nat × Nat
  | .noVui | .noInfo => (1, 1)
  | .idc i => if i = 0 then (1, 1) else sarRatios.getD (i.toNat - 1) (1, 1)
  | .extended w h => (w.toNat, h.toNat)

/-- The idc 255 announces the extended form. -/
abbrev SarCode.Valid (x : SarCode) : Prop := x ≠ .idc 255

/-- The crop or conformance-window offsets: left, right, top, bottom; absent when the flag is 0. -/
abbrev CropCode := Option (Nat × Nat × Nat × Nat)

/-- The bits of the crop fields. -/
def cropBits : CropCode → List Bool
  | none => [false]
  | some (l, r, t, b) => true :: (ueBits l ++ ueBits r ++ ueBits t ++ ueBits b)

/-- The four offsets. -/
def cropValues (x : CropCode) : Nat × Nat × Nat × Nat := x.getD (0, 0, 0, 0)

abbrev CropValid (x : CropCode) : Prop :=
  UeRange (cropValues x).1 ∧ UeRange (cropValues x).2.1 ∧ UeRange (cropValues x).2.2.1 ∧
    UeRange (cropValues x).2.2.2

/-- The picture-order-count fields of an AVC SPS (43_avc_paramsets R221, R223). -/
inductive PocCode where
  | lsb (log2Lsb : Nat)
  | cycle (alwaysZero : Bool) (nonRef topBottom : Int) (offsets : List Int)
  | absent

/-- Their bits. -/
def PocCode.bits : PocCode → List Bool
  | .lsb n => ueBits 0 ++ ueBits n
  | .cycle z a b os =>
    ueBits 1 ++ [z] ++ seBits a ++ seBits b ++ ueBits os.length ++ os.flatMap seBits
  | .absent => ueBits 2

/-- The values they can hold. -/
def PocCode.Valid : PocCode → Prop
  | .lsb n => UeRange n
  | .cycle _ a b os => SeRange a ∧ SeRange b ∧ os.length ≤ 255 ∧ ∀ d ∈ os, SeRange d
  | .absent => True

/-- The chroma and scaling-matrix fields of a high profile (43_avc_paramsets R221): a list of the matrix is
absent or its coded deltas. -/
structure AvcHighCode where
  chroma : Nat
  separate : Bool
  depthLuma : Nat
  depthChroma : Nat
  bypass : Bool
  matrix : Option (List (Option (List Int)))

/-- The bits of one list of the matrix. -/
def scalingBits : Option (List Int) → List Bool
  | none => [false]
  | some ds => true :: ds.flatMap seBits

/-- The bits of the high-profile fields. -/
def AvcHighCode.bits (x : AvcHighCode) : List Bool :=
  ueBits x.chroma ++ (if x.chroma = 3 then [x.separate] else []) ++ ueBits x.depthLuma
    ++ ueBits x.depthChroma ++ [x.bypass]
    ++ (match x.matrix with
      | none => [false]
      | some ls => true :: ls.flatMap scalingBits)

/-- The lists of a matrix from list `i` on are scaling lists of 16 entries, from list 6 on of 64. -/
def MatrixValid : Nat → List (Option (List Int)) → Prop
  | _, [] => True
  | i, l :: rest =>
    (match l with
      | none => True
      | some ds => ScalingCode (if i < 6 then 16 else 64) ds) ∧ MatrixValid (i + 1) rest

/-- The values the high-profile fields can hold. -/
def AvcHighCode.Valid (x : AvcHighCode) : Prop :=
  x.chroma ≤ 3 ∧ UeRange x.depthLuma ∧ UeRange x.depthChroma ∧
    (match x.matrix with
      | none => True
      | some ls => ls.length = (if x.chroma = 3 then 12 else 8) ∧ MatrixValid 0 ls)

/-- An AVC SPS, field by field (43_avc_paramsets R221); `high` is coded for the profiles of R222 only. -/
structure AvcSpsCode where
  forbidden : Bool
  refIdc : BitVec 2
  profile : BitVec 8
  constraints : BitVec 8
  level : BitVec 8
  spsId : Nat
  high : AvcHighCode
  log2FrameNum : Nat
  poc : PocCode
  refFrames : Nat
  gaps : Bool
  widthMbs : Nat
  heightMaps : Nat
  frameMbsOnly : Bool
  mbaff : Bool
  direct : Bool
  crop : CropCode
  sar : SarCode

/-- The profiles that code the chroma and scaling-matrix fields (43_avc_paramsets R222). -/
def AvcSpsCode.isHigh (x : AvcSpsCode) : Bool :=
  x.profile.toNat ∈ [100, 110, 122, 244, 44, 83, 86, 118, 128, 138, 139, 134, 135]

/-- The bits of the SPS, up to the aspect ratio. -/
def AvcSpsCode.bits (x : AvcSpsCode) : List Bool :=
  [x.forbidden] ++ natBits 2 x.refIdc.toNat ++ natBits 5 7 ++ natBits 8 x.profile.toNat
    ++ natBits 8 x.constraints.toNat ++ natBits 8 x.level.toNat ++ ueBits x.spsId
    ++ (if x.isHigh then x.high.bits else []) ++ ueBits x.log2FrameNum ++ x.poc.bits
    ++ ueBits x.refFrames ++ [x.gaps] ++ ueBits x.widthMbs ++ ueBits x.heightMaps
    ++ [x.frameMbsOnly] ++ (if x.frameMbsOnly then [] else [x.mbaff]) ++ [x.direct]
    ++ cropBits x.crop ++ x.sar.bits

/-- chroma_format_idc: 1 where the profile does not code it. -/
def AvcSpsCode.chroma (x : AvcSpsCode) : Nat := if x.isHigh then x.high.chroma else 1

/-- ChromaArrayType (43_avc_paramsets R224). -/
def AvcSpsCode.arrayType (x : AvcSpsCode) : Nat :=
  if x.isHigh && decide (x.high.chroma = 3) && x.high.separate then 0 else x.chroma

/-- 1 for frame coding, 2 for field coding. -/
def AvcSpsCode.fields (x : AvcSpsCode) : Nat := if x.frameMbsOnly then 1 else 2

/-- The final width (43_avc_paramsets R224). -/
def AvcSpsCode.width (x : AvcSpsCode) : Int :=
  (x.widthMbs + 1) * 16 - (if x.arrayType = 1 ∨ x.arrayType = 2 then 2 else 1)
    * ((cropValues x.crop).1 + (cropValues x.crop).2.1)

/-- The final height (43_avc_paramsets R224). -/
def AvcSpsCode.height (x : AvcSpsCode) : Int :=
  x.fields * (x.heightMaps + 1) * 16 - (if x.arrayType = 1 then 2 else 1) * x.fields
    * ((cropValues x.crop).2.2.1 + (cropValues x.crop).2.2.2)

/-- The values the fields can hold, and a picture that is not empty. -/
structure AvcSpsCode.Valid (x : AvcSpsCode) : Prop where
  spsId : UeRange x.spsId
  high : x.isHigh = true → x.high.Valid
  log2FrameNum : UeRange x.log2FrameNum
  poc : x.poc.Valid
  refFrames : UeRange x.refFrames
  widthMbs : UeRange x.widthMbs
  heightMaps : UeRange x.heightMaps
  crop : CropValid x.crop
  sar : x.sar.Valid
  size : 0 < x.width ∧ 0 < x.height

/-- The seven SPS_* registers that the SPS gives (43_avc_paramsets R230, R232). -/
def AvcSpsCode.regs (x : AvcSpsCode) : SpsRegs :=
  { geo :=
      { width := BitVec.ofInt 64 x.width
        height := BitVec.ofInt 64 x.height
        sarNum := BitVec.ofNat 64 x.sar.ratio.1
        sarDen := BitVec.ofNat 64 x.sar.ratio.2
        codec0 := BitVec.ofNat 64
          (2 ^ 60 + x.profile.toNat * 2 ^ 16 + x.constraints.toNat * 2 ^ 8 + x.level.toNat)
        codec1 := 0 }
    chroma := BitVec.ofNat 64 x.chroma }

/-- A sub-layer of profile_tier_level: its 88 profile bits and its level, each present or absent
(44_hevc_paramsets R262). -/
structure SubLayerCode where
  profile : Option (Vector Bool 88)
  level : Option (BitVec 8)

/-- The bits of the sub-layers: the presence flags of all, the bits that pad them to eight, the fields. -/
def subLayerBits (xs : List SubLayerCode) (padding : List Bool) : List Bool :=
  (xs.flatMap fun x => [x.profile.isSome, x.level.isSome]) ++ padding
    ++ xs.flatMap fun x =>
      (match x.profile with
        | some bits => bits.toList
        | none => [])
      ++ (match x.level with
        | some v => natBits 8 v.toNat
        | none => [])

/-- A matrix of scaling_list_data(): predicted from another, or coded, with a DC coefficient from sizeId 2 on
(44_hevc_paramsets R263). -/
inductive MatrixCode where
  | predicted (delta : Nat)
  | coded (dc : Int) (deltas : List Int)

/-- Its bits. -/
def MatrixCode.bits (sizeId : Nat) : MatrixCode → List Bool
  | .predicted d => false :: ueBits d
  | .coded dc ds => true :: ((if 1 < sizeId then seBits dc else []) ++ ds.flatMap seBits)

/-- The values it can hold: 16 coefficients for sizeId 0, 64 for the others. -/
def MatrixCode.Valid (sizeId : Nat) : MatrixCode → Prop
  | .predicted d => UeRange d
  | .coded dc ds => SeRange dc ∧ ds.length = (if sizeId = 0 then 16 else 64) ∧ ∀ d ∈ ds, SeRange d

/-- The sizeId of each matrix: six of 0, 1 and 2, two of 3. -/
def matrixSizes : List Nat :=
  [0, 0, 0, 0, 0, 0, 1, 1, 1, 1, 1, 1, 2, 2, 2, 2, 2, 2, 3, 3]

/-- The scaling-list fields: disabled, enabled with the default lists, or with coded ones
(44_hevc_paramsets R261). -/
inductive HevcScaling where
  | disabled
  | default
  | coded (matrices : List MatrixCode)

/-- Their bits. -/
def HevcScaling.bits : HevcScaling → List Bool
  | .disabled => [false]
  | .default => [true, false]
  | .coded ms => [true, true] ++ (matrixSizes.zip ms).flatMap fun x => x.2.bits x.1

/-- The matrices are 20. -/
def HevcScaling.Valid : HevcScaling → Prop
  | .disabled | .default => True
  | .coded ms => ms.length = 20 ∧ ∀ x ∈ matrixSizes.zip ms, x.2.Valid x.1

/-- A short-term reference picture set (44_hevc_paramsets R264): explicit, the negative and the positive pictures
each a delta_poc_minus1 and a used flag; or predicted from the set before, a sign, abs_delta_rps_minus1, and a
used flag and a delta flag for each picture of that set and one more. -/
inductive RpsCode where
  | explicit (neg pos : List (Nat × Bool))
  | inter (sign : Bool) (absMinus1 : Nat) (flags : List (Bool × Bool))

/-- The bits of a set after the prediction flag. -/
def RpsCode.bits : RpsCode → List Bool
  | .explicit neg pos =>
    ueBits neg.length ++ ueBits pos.length ++ (neg ++ pos).flatMap fun p => ueBits p.1 ++ [p.2]
  | .inter sign a flags =>
    sign :: (ueBits a ++ flags.flatMap fun f => f.1 :: (if f.1 then [] else [f.2]))

/-- The prediction flag. -/
def RpsCode.predicted : RpsCode → Bool
  | .explicit _ _ => false
  | .inter _ _ _ => true

/-- The bits of the sets of an SPS: every set but the first has a prediction flag. -/
def rpsBits : List RpsCode → List Bool
  | [] => []
  | x :: rest => x.bits ++ rest.flatMap fun y => y.predicted :: y.bits

/-- The running sums of the steps `delta_poc_minus1 + 1`. -/
def pocSums (sign : Int) (xs : List (Nat × Bool)) : List Int :=
  (List.range xs.length).map fun k => sign * ((xs.take (k + 1)).map fun p => (p.1 : Int) + 1).sum

/-- The pictures of a set, before and after, given those of the set before it: a predicted set moves the kept
ones, and the current picture, by its delta, and sorts them out by sign. -/
def RpsCode.pocs (prev : List Int × List Int) : RpsCode → List Int × List Int
  | .explicit neg pos => (pocSums (-1) neg, pocSums 1 pos)
  | .inter sign a flags =>
    let delta : Int := (if sign then -1 else 1) * (a + 1)
    let keep := flags.map fun f => f.1 || f.2
    let before := prev.1.zip keep
    let after := prev.2.zip (keep.drop prev.1.length)
    let own := [((0 : Int), keep.getD (prev.1.length + prev.2.length) false)]
    let moved := fun xs : List (Int × Bool) => (xs.filter (·.2)).map fun x => x.1 + delta
    ((moved (after.reverse ++ own ++ before)).filter fun d => decide (d < 0),
      (moved (before.reverse ++ own ++ after)).filter fun d => decide (0 < d))

/-- The values a set can hold after the set `prev`. -/
def RpsCode.Valid (prev : List Int × List Int) : RpsCode → Prop
  | .explicit neg pos =>
    neg.length ≤ 16 ∧ pos.length ≤ 16 ∧ ∀ p ∈ neg ++ pos, UeRange p.1
  | .inter _ a flags => UeRange a ∧ flags.length = prev.1.length + prev.2.length + 1

/-- The sets of an SPS: each is valid after the one before it. -/
def RpsSets.Valid (prev : List Int × List Int) : List RpsCode → Prop
  | [] => True
  | x :: rest => x.Valid prev ∧ RpsSets.Valid (x.pocs prev) rest

/-- The PCM fields: the two bit depths, the two block sizes, the loop filter flag (44_hevc_paramsets R261). -/
structure PcmCode where
  depthLuma : BitVec 4
  depthChroma : BitVec 4
  log2Min : Nat
  log2Diff : Nat
  loopFilter : Bool

/-- The bits of the PCM fields. -/
def pcmBits : Option PcmCode → List Bool
  | none => [false]
  | some x =>
    true :: (natBits 4 x.depthLuma.toNat ++ natBits 4 x.depthChroma.toNat ++ ueBits x.log2Min
      ++ ueBits x.log2Diff ++ [x.loopFilter])

/-- An HEVC SPS, field by field (44_hevc_paramsets R261, R262); `subLayers` are those below the highest. -/
structure HevcSpsCode where
  forbidden : Bool
  temporalId : BitVec 3
  vpsId : BitVec 4
  nesting : Bool
  space : BitVec 2
  tier : Bool
  profile : BitVec 5
  compat : BitVec 32
  constraints : BitVec 48
  level : BitVec 8
  subLayers : List SubLayerCode
  padding : List Bool
  spsId : Nat
  chroma : Nat
  separate : Bool
  lumaWidth : Nat
  lumaHeight : Nat
  window : CropCode
  depthLuma : Nat
  depthChroma : Nat
  log2Lsb : Nat
  orderingPresent : Bool
  ordering : List (Nat × Nat × Nat)
  blocks : Nat × Nat × Nat × Nat × Nat × Nat
  scaling : HevcScaling
  amp : Bool
  sao : Bool
  pcm : Option PcmCode
  sets : List RpsCode
  longTerm : Option (List (Nat × Bool))
  mvp : Bool
  smoothing : Bool
  sar : SarCode

/-- The bits of the long-term pictures, each POC of `n` bits (44_hevc_paramsets R265). -/
def longTermBits (n : Nat) : Option (List (Nat × Bool)) → List Bool
  | none => [false]
  | some ps => true :: (ueBits ps.length ++ ps.flatMap fun p => natBits n p.1 ++ [p.2])

/-- The bits of the SPS, up to the aspect ratio. -/
def HevcSpsCode.bits (x : HevcSpsCode) : List Bool :=
  [x.forbidden] ++ natBits 6 33 ++ natBits 6 0 ++ natBits 3 x.temporalId.toNat
    ++ natBits 4 x.vpsId.toNat ++ natBits 3 x.subLayers.length ++ [x.nesting]
    ++ natBits 2 x.space.toNat ++ [x.tier] ++ natBits 5 x.profile.toNat ++ natBits 32 x.compat.toNat
    ++ natBits 48 x.constraints.toNat ++ natBits 8 x.level.toNat ++ subLayerBits x.subLayers x.padding
    ++ ueBits x.spsId ++ ueBits x.chroma ++ (if x.chroma = 3 then [x.separate] else [])
    ++ ueBits x.lumaWidth ++ ueBits x.lumaHeight ++ cropBits x.window
    ++ ueBits x.depthLuma ++ ueBits x.depthChroma ++ ueBits x.log2Lsb
    ++ [x.orderingPresent] ++ (x.ordering.flatMap fun o => ueBits o.1 ++ ueBits o.2.1 ++ ueBits o.2.2)
    ++ ueBits x.blocks.1 ++ ueBits x.blocks.2.1 ++ ueBits x.blocks.2.2.1 ++ ueBits x.blocks.2.2.2.1
    ++ ueBits x.blocks.2.2.2.2.1 ++ ueBits x.blocks.2.2.2.2.2
    ++ x.scaling.bits ++ [x.amp] ++ [x.sao] ++ pcmBits x.pcm
    ++ ueBits x.sets.length ++ rpsBits x.sets ++ longTermBits (x.log2Lsb + 4) x.longTerm
    ++ [x.mvp] ++ [x.smoothing] ++ x.sar.bits

/-- The final width (44_hevc_paramsets R266). -/
def HevcSpsCode.width (x : HevcSpsCode) : Int :=
  x.lumaWidth - (if x.chroma = 1 ∨ x.chroma = 2 then 2 else 1)
    * ((cropValues x.window).1 + (cropValues x.window).2.1)

/-- The final height (44_hevc_paramsets R266). -/
def HevcSpsCode.height (x : HevcSpsCode) : Int :=
  x.lumaHeight - (if x.chroma = 1 then 2 else 1)
    * ((cropValues x.window).2.2.1 + (cropValues x.window).2.2.2)

/-- The values the fields can hold, and a picture that is not empty. -/
structure HevcSpsCode.Valid (x : HevcSpsCode) : Prop where
  spsId : UeRange x.spsId
  chroma : x.chroma ≤ 3
  luma : UeRange x.lumaWidth ∧ UeRange x.lumaHeight
  window : CropValid x.window
  depth : UeRange x.depthLuma ∧ UeRange x.depthChroma
  log2Lsb : x.log2Lsb ≤ 12
  subLayers : x.subLayers.length ≤ 7 ∧
    x.padding.length = (if x.subLayers.length = 0 then 0 else 2 * (8 - x.subLayers.length))
  ordering : x.ordering.length = (if x.orderingPresent then x.subLayers.length + 1 else 1) ∧
    ∀ o ∈ x.ordering, UeRange o.1 ∧ UeRange o.2.1 ∧ UeRange o.2.2
  scaling : x.scaling.Valid
  blocks : UeRange x.blocks.1 ∧ UeRange x.blocks.2.1 ∧ UeRange x.blocks.2.2.1 ∧
    UeRange x.blocks.2.2.2.1 ∧ UeRange x.blocks.2.2.2.2.1 ∧ UeRange x.blocks.2.2.2.2.2
  pcm : ∀ y, x.pcm = some y → UeRange y.log2Min ∧ UeRange y.log2Diff
  sets : x.sets.length ≤ 64 ∧ x.sets.head?.all (fun y => !y.predicted) ∧ RpsSets.Valid ([], []) x.sets
  longTerm : ∀ ps, x.longTerm = some ps → ps.length ≤ 32 ∧ ∀ p ∈ ps, p.1 < 2 ^ (x.log2Lsb + 4)
  sar : x.sar.Valid
  size : 0 < x.width ∧ 0 < x.height

/-- The seven SPS_* registers that the SPS gives (44_hevc_paramsets R269, R270). -/
def HevcSpsCode.regs (x : HevcSpsCode) : SpsRegs :=
  { geo :=
      { width := BitVec.ofInt 64 x.width
        height := BitVec.ofInt 64 x.height
        sarNum := BitVec.ofNat 64 x.sar.ratio.1
        sarDen := BitVec.ofNat 64 x.sar.ratio.2
        codec0 := BitVec.ofNat 64 (2 * 2 ^ 60 + x.compat.toNat * 2 ^ 16 + x.space.toNat * 2 ^ 14
          + x.tier.toNat * 2 ^ 13 + x.profile.toNat * 2 ^ 8 + x.level.toNat)
        codec1 := BitVec.ofNat 64 x.constraints.toNat }
    chroma := BitVec.ofNat 64 x.chroma }

/-! ### Decoder configuration records -/

/-- A list of parameter sets, each behind its two-byte length (43_avc_paramsets R240). -/
def listedUnits (units : List Bytes) : Bytes := units.flatMap (lengthPrefixed 2)

/-- The entries of a list that starts at offset `p` of the record. -/
def listedEntries (kind : PsKind) : Nat → List Bytes → List RecordEntry
  | _, [] => []
  | p, u :: rest =>
    { kind, start := p + 2, len := u.length } :: listedEntries kind (p + 2 + u.length) rest

/-- An avcC record (43_avc_paramsets R240): bytes 0 to 3, the byte with the length size, the byte with the
number of SPS units, the SPS units, the PPS units, and what follows. -/
structure AvcRecord where
  profileBytes : Vector Byte 4
  lengthByte : Byte
  reserved : BitVec 3
  sps : List Bytes
  pps : List Bytes
  tail : Bytes

/-- The bytes of the record. -/
def AvcRecord.bytes (x : AvcRecord) : Bytes :=
  x.profileBytes.toList ++ [x.lengthByte, BitVec.ofNat 8 (x.reserved.toNat * 32 + x.sps.length)]
    ++ listedUnits x.sps ++ [BitVec.ofNat 8 x.pps.length] ++ listedUnits x.pps ++ x.tail

/-- The entries of the record: every SPS and then every PPS. -/
def AvcRecord.entries (x : AvcRecord) : List RecordEntry :=
  listedEntries .sps 6 x.sps ++ listedEntries .pps (7 + (listedUnits x.sps).length) x.pps

/-- The counts and lengths the record can hold. -/
abbrev AvcRecord.Valid (x : AvcRecord) : Prop :=
  x.sps.length < 32 ∧ x.pps.length < 256 ∧ ∀ u ∈ x.sps ++ x.pps, u.length < 2 ^ 16

/-- An array of an hvcC record (44_hevc_paramsets R280): the two bits before the type, the NAL unit type, the
units. -/
structure HevcArray where
  flags : BitVec 2
  nalType : BitVec 6
  units : List Bytes

/-- The bytes of an array. -/
def HevcArray.bytes (x : HevcArray) : Bytes :=
  BitVec.ofNat 8 (x.flags.toNat * 64 + x.nalType.toNat) :: (beBytes 2 x.units.length ++ listedUnits x.units)

/-- The kind of an array's units: VPS for 32, SPS for 33, PPS for 34. -/
def HevcArray.kind (x : HevcArray) : Option PsKind :=
  if x.nalType = 32 then some .vps else if x.nalType = 33 then some .sps
  else if x.nalType = 34 then some .pps else none

/-- An hvcC record (44_hevc_paramsets R280): bytes 0 to 20, the byte with the length size, the arrays, and
what follows. -/
structure HevcRecord where
  header : Vector Byte 21
  lengthByte : Byte
  arrays : List HevcArray
  tail : Bytes

/-- The bytes of the record. -/
def HevcRecord.bytes (x : HevcRecord) : Bytes :=
  x.header.toList ++ [x.lengthByte, BitVec.ofNat 8 x.arrays.length]
    ++ x.arrays.flatMap HevcArray.bytes ++ x.tail

/-- The entries of arrays that start at offset `p`; arrays of other types are walked and not listed. -/
def arrayEntries : Nat → List HevcArray → List RecordEntry
  | _, [] => []
  | p, a :: rest =>
    (match a.kind with
      | some k => listedEntries k (p + 3) a.units
      | none => []) ++ arrayEntries (p + a.bytes.length) rest

/-- The entries of the record, in record order. -/
def HevcRecord.entries (x : HevcRecord) : List RecordEntry := arrayEntries 23 x.arrays

/-- The first SPS that the record lists. -/
def HevcRecord.firstSps (x : HevcRecord) : Option Bytes :=
  ((x.arrays.filter fun a => a.nalType = 33).flatMap HevcArray.units).head?

/-- The counts and lengths the record can hold. -/
abbrev HevcRecord.Valid (x : HevcRecord) : Prop :=
  x.arrays.length < 256 ∧
    ∀ a ∈ x.arrays, a.units.length < 2 ^ 16 ∧ ∀ u ∈ a.units, u.length < 2 ^ 16

/-! ### Audio -/

/-- An AudioSpecificConfig up to the channel configuration (45_audio R301). -/
structure AscCode where
  objectType : Nat
  rate : BitVec 4 ⊕ BitVec 24
  channels : BitVec 4

/-- Its bits: object types from 32 on are coded after the escape value 31, an explicit rate after index 15. -/
def AscCode.bits (x : AscCode) : List Bool :=
  (if x.objectType < 31 then natBits 5 x.objectType
    else natBits 5 31 ++ natBits 6 (x.objectType - 32))
    ++ (match x.rate with
      | .inl index => natBits 4 index.toNat
      | .inr hz => natBits 4 15 ++ natBits 24 hz.toNat)
    ++ natBits 4 x.channels.toNat

/-- The sampling frequencies of 45_audio R300. -/
def aacRates : List Nat :=
  [96000, 88200, 64000, 48000, 44100, 32000, 24000, 22050, 16000, 12000, 11025, 8000, 7350]

/-- The sample rate in Hz. -/
def AscCode.hz (x : AscCode) : Nat :=
  match x.rate with
  | .inl index => aacRates.getD index.toNat 0
  | .inr hz => hz.toNat

/-- The channel count of a channel configuration (45_audio R304). -/
def channelCount (c : Nat) : Nat := [0, 1, 2, 3, 4, 5, 6, 8, 0, 0, 0, 0, 0, 0, 0, 0].getD c 0

/-- The object types that have a code, a rate index that is not reserved, and a rate that is not 0. -/
abbrev AscCode.Valid (x : AscCode) : Prop :=
  (x.objectType < 31 ∨ (32 ≤ x.objectType ∧ x.objectType < 96)) ∧
    (∀ index, x.rate = .inl index → index.toNat < 13) ∧ x.hz ≠ 0

/-- An ADTS frame (45_audio R310): its header fields, the CRC bytes (two, or none when protection is absent),
and the payload. -/
structure AdtsCode where
  id : Bool
  protectionAbsent : Bool
  profile : BitVec 2
  rateIndex : BitVec 4
  private_ : Bool
  channels : BitVec 3
  flags : BitVec 4
  fullness : BitVec 11
  blocks : BitVec 2
  crc : Bytes
  payload : Bytes

/-- aac_frame_length: header, CRC and payload. -/
def AdtsCode.flen (x : AdtsCode) : Nat := 7 + x.crc.length + x.payload.length

/-- The bytes of the frame. -/
def AdtsCode.bytes (x : AdtsCode) : Bytes :=
  [ 0xFF
  , BitVec.ofNat 8 (0xF0 + x.id.toNat * 8 + x.protectionAbsent.toNat)
  , BitVec.ofNat 8 (x.profile.toNat * 64 + x.rateIndex.toNat * 4 + x.private_.toNat * 2
      + x.channels.toNat / 4)
  , BitVec.ofNat 8 (x.channels.toNat % 4 * 64 + x.flags.toNat * 4 + x.flen / 2048)
  , BitVec.ofNat 8 (x.flen / 8 % 256)
  , BitVec.ofNat 8 (x.flen % 8 * 32 + x.fullness.toNat / 64)
  , BitVec.ofNat 8 (x.fullness.toNat % 64 * 4 + x.blocks.toNat) ] ++ x.crc ++ x.payload

/-- A rate index that is not reserved, and a length that fits its 13 bits. -/
abbrev AdtsCode.Valid (x : AdtsCode) : Prop :=
  x.rateIndex.toNat < 13 ∧ x.crc.length = (if x.protectionAbsent then 0 else 2) ∧ x.flen < 2 ^ 13

/-- The DT entries of consecutive frames (45_audio R312, R314): frame `k`, at offset `p` of the region, starts
`k * 1024` samples after the first, at the first frame's rate. -/
def adtsEntries (r : Region) (pts0 : Int) (ts rate : Nat) : Nat → Nat → List AdtsCode → List DtEntry
  | _, _, [] => []
  | k, p, x :: rest =>
    { pts := BitVec.ofInt 64 (pts0 + (k * 1024 * ts / rate : Nat))
      off := BitVec.ofNat 32 (r.off + p + 7 + x.crc.length), len := BitVec.ofNat 32 x.payload.length
      aux := 1024, space := r.space } :: adtsEntries r pts0 ts rate (k + 1) (p + x.flen) rest

/-- The AUD_* registers of an ADTS stream whose first frame is `x` (45_audio R313, R314). -/
def AdtsCode.regs (x : AdtsCode) : AudRegs :=
  { codec := 1
    rate := BitVec.ofNat 64 (aacRates.getD x.rateIndex.toNat 0)
    channels := BitVec.ofNat 64 (channelCount x.channels.toNat)
    info := BitVec.ofNat 64 (x.profile.toNat + 1)
    frameLen := BitVec.ofNat 64 x.flen
    nsamples := 1024
    bitrate := 0
    asc := BitVec.ofNat 64 ((x.profile.toNat + 1) * 2048 + x.rateIndex.toNat * 128 + x.channels.toNat * 8) }

/-- The bitrate table of 45_audio R321, row by row, in kbit/s. -/
def mpaBitrates : List (List Nat) :=
  [ [32, 32, 32, 32, 8], [64, 48, 40, 48, 16], [96, 56, 48, 56, 24], [128, 64, 56, 64, 32]
  , [160, 80, 64, 80, 40], [192, 96, 80, 96, 48], [224, 112, 96, 112, 56], [256, 128, 112, 128, 64]
  , [288, 160, 128, 144, 80], [320, 192, 160, 160, 96], [352, 224, 192, 176, 112]
  , [384, 256, 224, 192, 128], [416, 320, 256, 224, 144], [448, 384, 320, 256, 160] ]

/-- The header fields of an MPEG audio frame (45_audio R320); `low` is the six bits after the mode. -/
structure MpaCode where
  version : BitVec 2
  layer : BitVec 2
  protection : Bool
  bitrateIndex : BitVec 4
  rateIndex : BitVec 2
  padding : Bool
  private_ : Bool
  mode : BitVec 2
  low : BitVec 6

/-- The four bytes of the header. -/
def MpaCode.bytes (x : MpaCode) : Bytes :=
  [ 0xFF
  , BitVec.ofNat 8 (0xE0 + x.version.toNat * 8 + x.layer.toNat * 2 + x.protection.toNat)
  , BitVec.ofNat 8 (x.bitrateIndex.toNat * 16 + x.rateIndex.toNat * 4 + x.padding.toNat * 2
      + x.private_.toNat)
  , BitVec.ofNat 8 (x.mode.toNat * 64 + x.low.toNat) ]

/-- The column of the bitrate table. -/
def MpaCode.column (x : MpaCode) : Nat :=
  if x.version = 3 then 3 - x.layer.toNat else if x.layer = 3 then 3 else 4

/-- The bitrate in bit/s (45_audio R321). -/
def MpaCode.bitrate (x : MpaCode) : Nat :=
  1000 * (mpaBitrates.getD (x.bitrateIndex.toNat - 1) []).getD x.column 0

/-- The sample rate in Hz (45_audio R321): halved for MPEG-2, halved again for MPEG-2.5. -/
def MpaCode.hz (x : MpaCode) : Nat :=
  [44100, 48000, 32000].getD x.rateIndex.toNat 0
    / (if x.version = 3 then 1 else if x.version = 2 then 2 else 4)

/-- Samples per frame (45_audio R322). -/
def MpaCode.samples (x : MpaCode) : Nat :=
  if x.layer = 3 then 384 else if x.layer = 2 ∨ x.version = 3 then 1152 else 576

/-- The frame length in bytes (45_audio R322): samples / 8 bytes at the bitrate, in slots of 4 bytes for
Layer I and of 1 byte for the others. -/
def MpaCode.flen (x : MpaCode) : Nat :=
  if x.layer = 3 then (12 * x.bitrate / x.hz + x.padding.toNat) * 4
  else x.samples / 8 * x.bitrate / x.hz + x.padding.toNat

/-- The header is one that 45_audio R323 accepts. -/
abbrev MpaCode.Valid (x : MpaCode) : Prop :=
  x.layer ≠ 0 ∧ x.version ≠ 1 ∧ x.bitrateIndex ≠ 0 ∧ x.bitrateIndex ≠ 15 ∧ x.rateIndex ≠ 3

/-- The AUD_* registers of the header (45_audio R324, 10_state R45). -/
def MpaCode.regs (x : MpaCode) : AudRegs :=
  { codec := 2
    rate := BitVec.ofNat 64 x.hz
    channels := if x.mode = 3 then 1 else 2
    info := BitVec.ofNat 64 (x.layer.toNat + x.version.toNat * 4 + x.mode.toNat * 16
      + x.padding.toNat * 64 + x.protection.toNat * 128 + x.bitrateIndex.toNat * 256
      + x.rateIndex.toNat * 4096)
    frameLen := BitVec.ofNat 64 x.flen
    nsamples := BitVec.ofNat 64 x.samples
    bitrate := BitVec.ofNat 64 x.bitrate
    asc := 0 }

/-- The DT entries of consecutive frames (45_audio R325, R326): `n` samples stand before the first of them,
which is at offset `p` of the region. -/
def mpaEntries (r : Region) (pts0 : Int) (ts rate : Nat) : Nat → Nat → List MpaCode → List DtEntry
  | _, _, [] => []
  | n, p, x :: rest =>
    { pts := BitVec.ofInt 64 (pts0 + (n * ts / rate : Nat)), off := BitVec.ofNat 32 (r.off + p)
      len := BitVec.ofNat 32 x.flen, aux := BitVec.ofNat 32 x.samples, space := r.space }
      :: mpaEntries r pts0 ts rate (n + x.samples) (p + x.flen) rest

/-! ### Samples -/

/-- The VUT entries of units stored from offset `off` of SDATA on (20_memory R93). -/
def unitTable (off : Nat) : List Bytes → List VideoUnit
  | [] => []
  | b :: rest => { off := BitVec.ofNat 32 off, len := BitVec.ofNat 32 b.length }
      :: unitTable (off + b.length) rest

/-- The queues with one more video sample (46_ts_demux R390). -/
def Outputs.withVideo (o : Outputs) (stamp : Stamp) (key : Bool) (units : List Bytes) : Outputs :=
  { o with
    vsq := o.vsq ++ [{ pts := stamp.pts, dts := stamp.dts, firstUnit := BitVec.ofNat 32 o.vut.length
                       nunits := BitVec.ofNat 32 units.length, key }]
    vut := o.vut ++ unitTable o.sdata.length units
    sdata := o.sdata ++ units.flatten }

/-- There is room for one more video sample (46_ts_demux R401). -/
abbrev VideoFits (c : Config.Caps) (o : Outputs) (units : List Bytes) : Prop :=
  o.vsq.length + 1 ≤ c.vsqCap ∧ o.vut.length + units.length ≤ c.vutCap ∧
    o.sdata.length + units.flatten.length ≤ c.sdataCap

/-- The ASQ entries of audio frames stored from offset `off` of SDATA on: the bytes and the sample count of each,
timed from `p0` by the `n` samples before it (46_ts_demux R391, R395). -/
def audioTable (p0 : Int) (rate : Nat) : (n off : Nat) → List (Bytes × Nat) → List AudioSample
  | _, _, [] => []
  | n, off, f :: rest =>
    { pts := BitVec.ofInt 64 (p0 + (n * 90000 / rate : Nat)), off := BitVec.ofNat 32 off
      len := BitVec.ofNat 32 f.1.length, nsamples := BitVec.ofNat 32 f.2 }
      :: audioTable p0 rate (n + f.2) (off + f.1.length) rest

/-- There is room for more audio samples (46_ts_demux R401). -/
abbrev AudioFits (c : Config.Caps) (o : Outputs) (frames : List (Bytes × Nat)) : Prop :=
  o.asq.length + frames.length ≤ c.asqCap ∧
    o.sdata.length + (frames.flatMap (·.1)).length ≤ c.sdataCap

/-! ### Transport packets -/

/-- What follows the four header bytes of a packet: a payload, an adaptation field alone, or both
(46_ts_demux R354). -/
inductive TsBody where
  | plain (payload : Bytes)
  | field (bytes : Bytes)
  | both (field payload : Bytes)

/-- adaptation_field_control. -/
def TsBody.control : TsBody → Nat
  | .plain _ => 1
  | .field _ => 2
  | .both _ _ => 3

/-- The bytes after the header. -/
def TsBody.bytes : TsBody → Bytes
  | .plain p => p
  | .field f => f
  | .both f p => BitVec.ofNat 8 f.length :: (f ++ p)

/-- The payload. -/
def TsBody.payload : TsBody → Bytes
  | .plain p => p
  | .field _ => []
  | .both _ p => p

/-- A transport packet, field by field (46_ts_demux R353). -/
structure TsPacketCode where
  error : Bool
  start : Bool
  priority : Bool
  pid : BitVec 13
  scrambling : BitVec 2
  counter : BitVec 4
  body : TsBody

/-- The bytes of the packet. -/
def TsPacketCode.bytes (x : TsPacketCode) : Bytes :=
  [ 0x47
  , BitVec.ofNat 8 (x.error.toNat * 128 + x.start.toNat * 64 + x.priority.toNat * 32 + x.pid.toNat / 256)
  , BitVec.ofNat 8 (x.pid.toNat % 256)
  , BitVec.ofNat 8 (x.scrambling.toNat * 64 + x.body.control * 16 + x.counter.toNat) ] ++ x.body.bytes

/-- A packet is 188 bytes long. -/
abbrev TsPacketCode.Valid (x : TsPacketCode) : Prop :=
  x.bytes.length = 188 ∧ ∀ f p, x.body = .both f p → f.length ≤ 183

/-- A section behind its pointer field: the bytes the pointer skips, the table id, the length, the content, the
four bytes of the CRC, and what follows (46_ts_demux R365). -/
def sectionBytes (skipped : Bytes) (tid : Byte) (flags : BitVec 4) (content : Bytes) (crc : BitVec 32)
    (rest : Bytes) : Bytes :=
  BitVec.ofNat 8 skipped.length :: (skipped ++ tid :: beBytes 2 (flags.toNat * 4096 + content.length + 4)
    ++ content ++ beBytes 4 crc.toNat ++ rest)

/-- The content of a PAT: five bytes, then the programs' numbers and PIDs (46_ts_demux R366). -/
def patContent (header : Vector Byte 5) (programs : List (BitVec 16 × BitVec 13)) : Bytes :=
  header.toList ++ programs.flatMap fun x => beBytes 2 x.1.toNat ++ beBytes 2 (0xE000 + x.2.toNat)

/-- An elementary stream of a PMT (46_ts_demux R367). -/
structure EsCode where
  streamType : Byte
  pid : BitVec 13
  descriptors : Bytes

/-- The content of a PMT: five bytes, the PCR PID, the program's descriptors, the streams. -/
def pmtContent (header : Vector Byte 5) (pcr : BitVec 16) (descriptors : Bytes) (streams : List EsCode) : Bytes :=
  header.toList ++ beBytes 2 pcr.toNat ++ beBytes 2 (0xF000 + descriptors.length) ++ descriptors
    ++ streams.flatMap fun x =>
      x.streamType :: (beBytes 2 (0xE000 + x.pid.toNat) ++ beBytes 2 (0xF000 + x.descriptors.length)
        ++ x.descriptors)

/-- The stream types of video (46_ts_demux R368). -/
def isVideoType (st : Byte) : Bool := st = 0x1B || st = 0x24
/-- The stream types of audio (46_ts_demux R368). -/
def isAudioType (st : Byte) : Bool := st = 0x0F || st = 0x03 || st = 0x04

/-- The track once a PMT with these streams is parsed: the first video and the first audio stream count
(46_ts_demux R355, R368). -/
def Track.withPmt (t : Track) (streams : List EsCode) : Track :=
  { t with
    pmtPid := { t.pmtPid with parsed := true }
    vPid := match streams.find? (fun x => isVideoType x.streamType) with
      | some x => { pid := x.pid, known := true }
      | none => t.vPid
    vCodec := match streams.find? (fun x => isVideoType x.streamType) with
      | some x => if x.streamType = 0x1B then .avc else .hevc
      | none => t.vCodec
    aPid := match streams.find? (fun x => isAudioType x.streamType) with
      | some x => { pid := x.pid, known := true }
      | none => t.aPid
    aCodec := match streams.find? (fun x => isAudioType x.streamType) with
      | some x => if x.streamType = 0x0F then .aac else .mpeg
      | none => t.aCodec }

/-- The PID carries the elementary stream: the PMT is parsed, and no earlier branch of the dispatcher takes it
(46_ts_demux R355). -/
def Carries (t : Track) (st : Stream) (pid : BitVec 13) : Prop :=
  t.pmtPid.parsed = true ∧ pid ≠ 0 ∧ pid ≠ 0x1FFF ∧ (t.pmtPid.known = true → pid ≠ t.pmtPid.pid) ∧
    match st with
    | .video => t.vPid = { pid, known := true }
    | .audio => t.aPid = { pid, known := true } ∧ t.vPid ≠ { pid, known := true }

/-! ### PES packets -/

/-- The timestamp field of a PES header: four bits of a prefix, 3, 15 and 15 bits of the value, a marker bit
after each (46_ts_demux R377). -/
def stampBytes (prefix4 : BitVec 4) (v : Nat) : Bytes :=
  [ BitVec.ofNat 8 (prefix4.toNat * 16 + v / 2 ^ 30 * 2 + 1)
  , BitVec.ofNat 8 (v / 2 ^ 22 % 256)
  , BitVec.ofNat 8 (v / 2 ^ 15 % 128 * 2 + 1)
  , BitVec.ofNat 8 (v / 2 ^ 7 % 256)
  , BitVec.ofNat 8 (v % 128 * 2 + 1) ]

/-- The timestamps of a PES header: none (with PTS_DTS_flags 00 or 01), a pts, or a pts and a dts
(46_ts_demux R375). -/
inductive PesStamps where
  | none (forbidden : Bool)
  | pts (prefix4 : BitVec 4) (v : BitVec 33)
  | both (prefix4 : BitVec 4) (pts : BitVec 33) (prefix4' : BitVec 4) (dts : BitVec 33)

/-- PTS_DTS_flags. -/
def PesStamps.flags : PesStamps → Nat
  | .none forbidden => forbidden.toNat
  | .pts _ _ => 2
  | .both _ _ _ _ => 3

/-- The bytes of the timestamps. -/
def PesStamps.bytes : PesStamps → Bytes
  | .none _ => []
  | .pts a v => stampBytes a v.toNat
  | .both a v b w => stampBytes a v.toNat ++ stampBytes b w.toNat

/-- The pts and the dts the PES gives its first sample, if any: a pts more than 60 seconds beyond the dts is taken
for a corrupt one (46_ts_demux R375, R376). -/
def PesStamps.values : PesStamps → Option (Nat × Nat)
  | .none _ => .none
  | .pts _ v => some (v.toNat, v.toNat)
  | .both _ v _ w => some (if w.toNat + 5400000 < v.toNat then w.toNat else v.toNat, w.toNat)

/-- A PES packet, field by field (46_ts_demux R375). -/
structure PesCode where
  streamId : Byte
  lengthField : BitVec 16
  flags : Byte
  otherFlags : BitVec 6
  stamps : PesStamps
  stuffing : Bytes
  payload : Bytes

/-- The bytes of the packet. -/
def PesCode.bytes (x : PesCode) : Bytes :=
  [0, 0, 1, x.streamId] ++ beBytes 2 x.lengthField.toNat
    ++ [ x.flags, BitVec.ofNat 8 (x.stamps.flags * 64 + x.otherFlags.toNat)
       , BitVec.ofNat 8 (x.stamps.bytes.length + x.stuffing.length) ]
    ++ x.stamps.bytes ++ x.stuffing ++ x.payload

/-- The header length fits its byte. -/
abbrev PesCode.Valid (x : PesCode) : Prop := x.stamps.bytes.length + x.stuffing.length < 256

/-- Reassembled bytes that are no PES packet: no start prefix, a header that does not fit, or one too short for
the timestamps it announces (46_ts_demux R375). -/
def BadPes (p : Bytes) : Prop :=
  p.length < 9 ∨ p.take 3 ≠ [0, 0, 1] ∨ p.length < 9 + byteAt p 8 ∨
    (128 ≤ byteAt p 7 ∧ byteAt p 8 < 5) ∨ (192 ≤ byteAt p 7 ∧ byteAt p 8 < 10)

/-! ### Access units -/

/-- The bytes start with a start code, or there are none (42_nal R190). -/
def AtStartCode (b : Bytes) : Prop := b = [] ∨ [0, 0, 1] <+: b ∨ [0, 0, 0, 1] <+: b

/-- The bytes can stand before `rest` without a start code of their own: there is none in them, and no zero byte
of theirs is taken for the first of a following start code (42_nal R190). -/
def NoStartCode (b rest : Bytes) : Prop :=
  ¬ ([0, 0, 1] : Bytes) <:+: b ∧ ([0, 0, 1] <+: rest → b.getLast? ≠ some 0)

/-- The length of a NAL header (46_ts_demux R380). -/
def nalHeaderLength : VCodec → Nat
  | .avc => 1
  | _ => 2

/-- nal_unit_type (46_ts_demux R383). -/
def nalTypeOf (codec : VCodec) (unit : Bytes) : Nat :=
  match codec with
  | .avc => byteAt unit 0 % 32
  | _ => byteAt unit 0 / 2 % 64

/-- An access unit delimiter (46_ts_demux R381). -/
def isDelimiterType (codec : VCodec) (t : Nat) : Bool :=
  match codec with
  | .avc => t = 9
  | _ => t = 35

/-- A unit that makes its sample a key frame (46_ts_demux R382). -/
def isKeyType (codec : VCodec) (t : Nat) : Bool :=
  match codec with
  | .avc => t = 5
  | _ => 16 ≤ t && t ≤ 23

/-- The parameter-set kind of a unit (46_ts_demux R385). -/
def psKindOf (codec : VCodec) (t : Nat) : Option PsKind :=
  match codec with
  | .avc => if t = 7 then some .sps else if t = 8 then some .pps else none
  | _ => if t = 32 then some .vps else if t = 33 then some .sps else if t = 34 then some .pps else none

/-- A sample's units are within the capacities of the open sample (46_ts_demux R401). -/
abbrev OpenFits (c : Config.Caps) (units : List Bytes) : Prop :=
  units.flatten.length ≤ c.openCap ∧ units.length ≤ c.openUnitsCap

/-- The working state with an open sample. -/
def Dmx.withOpen (d : Dmx) (o : OpenSample) : Dmx := { d with trk := { d.trk with opened := some o } }

/-- The working state with V_EXISTS as 46_ts_demux R387 has it. -/
def Dmx.withVExists (d : Dmx) : Dmx :=
  { d with trk := { d.trk with
      vExists := d.trk.haveSps && d.trk.havePps && (d.trk.vCodec = .avc || d.trk.haveVps) } }

/-- The track holds a parameter set of the kind (10_state R67). -/
def Track.holds (t : Track) : PsKind → Bool
  | .sps => t.haveSps
  | .pps => t.havePps
  | .vps => t.haveVps

/-- The track with one more parameter set, of a kind it then holds (46_ts_demux R385, R386). -/
def Track.store (t : Track) (k : PsKind) (unit : Bytes) : Track :=
  { t with
    psets := t.psets ++ [{ kind := k, bytes := unit }]
    haveSps := t.haveSps || decide (k = .sps)
    havePps := t.havePps || decide (k = .pps)
    haveVps := t.haveVps || decide (k = .vps) }

/-- There is room for one more parameter set (46_ts_demux R386). -/
abbrev StoreFits (c : Config.Caps) (t : Track) (unit : Bytes) : Prop :=
  t.psets.length + 1 ≤ c.psCap ∧ (t.psets.flatMap (·.bytes)).length + unit.length ≤ c.cfgCap

/-! ### Audio PES packets -/

/-- The track configured by its first ADTS frame (46_ts_demux R396). -/
def AdtsCode.configured (x : AdtsCode) (t : Track) : Track :=
  { t with
    aRate := BitVec.ofNat 64 (aacRates.getD x.rateIndex.toNat 0)
    aChannels := BitVec.ofNat 64 (channelCount x.channels.toNat)
    aInfo := BitVec.ofNat 64 (x.profile.toNat + 1)
    acfg := beBytes 2 ((x.profile.toNat + 1) * 2048 + x.rateIndex.toNat * 128 + x.channels.toNat * 8)
    aExists := true }

/-- The track configured by its first MPEG audio frame (46_ts_demux R396). -/
def MpaCode.configured (x : MpaCode) (t : Track) : Track :=
  { t with aRate := x.regs.rate, aChannels := x.regs.channels, aInfo := x.regs.info, acfg := [], aExists := true }

/-- The end of a payload after its whole frames: nothing, or a frame cut short (45_audio R311, R325). -/
def CutFrame (whole : Bytes → Prop) (cut : Bytes) : Prop :=
  cut = [] ∨ ∃ b m, whole b ∧ 2 ≤ m ∧ m < b.length ∧ cut = b.take m

/-- What an audio PES leaves of the configured track and the queues: its frames timed from `p0`, and the time after
them; without a time, the frames counted (46_ts_demux R395). `cut` says that the last frame was cut short. -/
def audioPesResult (p0 : Option Int) (frames : List (Bytes × Nat)) (cut : Bool) (d : Dmx) : Dmx :=
  let d := if cut then countABroken d else d
  match p0 with
  | none => countDropped frames.length d
  | some p0 =>
    { trk :=
        if frames = [] then d.trk
        else { d.trk with
          aNext := some (BitVec.ofInt 64 (p0 + ((frames.map (·.2)).sum * 90000 / d.trk.aRate.toNat : Nat))) }
      out := { d.out with
        asq := d.out.asq ++ audioTable p0 d.trk.aRate.toNat 0 d.out.sdata.length frames
        sdata := d.out.sdata ++ frames.flatMap (·.1) } }

/-! ### FLV tags -/

/-- An FLV tag, field by field (47_flv_demux R414). -/
structure FlvTagCode where
  type : Byte
  timestamp : BitVec 32
  streamId : BitVec 24
  payload : Bytes

/-- The bytes of the tag, its trailer excluded: the timestamp's high byte stands after its low 24 bits. -/
def FlvTagCode.bytes (x : FlvTagCode) : Bytes :=
  x.type :: (beBytes 3 x.payload.length ++ beBytes 3 (x.timestamp.toNat % 2 ^ 24)
    ++ [BitVec.ofNat 8 (x.timestamp.toNat / 2 ^ 24)] ++ beBytes 3 x.streamId.toNat ++ x.payload)

/-- The tag with its trailer, whose content counts for nothing (47_flv_demux R413). -/
def FlvTagCode.whole (x : FlvTagCode) (trailer : BitVec 32) : Bytes := x.bytes ++ beBytes 4 trailer.toNat

/-- The size fits its three bytes. -/
abbrev FlvTagCode.Valid (x : FlvTagCode) : Prop := x.payload.length < 2 ^ 24

/-- Bytes too short for a whole tag (47_flv_demux R413). -/
def PartialTag (b : Bytes) : Prop := b.length < 11 ∨ b.length < 11 + beNat (slice b 1 3) + 4

/-- The payload of an AAC tag: format 10 and four bits that count for nothing, the packet type, the body
(47_flv_demux R420). -/
def flvAac (low : BitVec 4) (packetType : Byte) (body : Bytes) : Bytes :=
  BitVec.ofNat 8 (10 * 16 + low.toNat) :: packetType :: body

/-- The payload of a video tag: frame type and codec, packet type, composition offset, body
(47_flv_demux R426). -/
def flvVideo (frameType codecId : BitVec 4) (packetType : Byte) (cts : BitVec 24) (body : Bytes) : Bytes :=
  BitVec.ofNat 8 (frameType.toNat * 16 + codecId.toNat) :: packetType :: (beBytes 3 cts.toNat ++ body)

/-- The CodecID of a family (47_flv_demux R427). -/
def flvCodecId : VCodec → Option (BitVec 4)
  | .avc => some 7
  | .hevc => some 12
  | .none => none

/-- The track configured by a decoder configuration record: its length size, its parameter sets, and the first
SPS's geometry (47_flv_demux R428). -/
def Track.withRecord (t : Track) (codec : VCodec) (lengthByte : Byte) (psets : List PsEntry) (g : SpsInfo) : Track :=
  { t with
    vCodec := codec
    vLensize := BitVec.ofNat 64 (lengthByte.toNat % 4 + 1)
    vGeo := (spsRegsOf g).geo
    psets := psets
    haveSps := psets.any (fun e => e.kind = .sps)
    havePps := psets.any (fun e => e.kind = .pps)
    haveVps := psets.any (fun e => e.kind = .vps)
    vExists := true }

/-- The parameter sets of an avcC record, in record order. -/
def AvcRecord.psets (x : AvcRecord) : List PsEntry :=
  x.sps.map (fun u => { kind := .sps, bytes := u }) ++ x.pps.map (fun u => { kind := .pps, bytes := u })

/-- The parameter sets of an hvcC record, in record order. -/
def HevcRecord.psets (x : HevcRecord) : List PsEntry :=
  x.arrays.flatMap fun a =>
    match a.kind with
    | some k => a.units.map fun u => { kind := k, bytes := u }
    | none => []

/-- The parameter sets fit the configuration store (47_flv_demux R428). -/
abbrev RecordFits (c : Config.Caps) (psets : List PsEntry) : Prop :=
  psets.length ≤ c.psCap ∧ (psets.flatMap (·.bytes)).length ≤ c.cfgCap

/-- What the tag of an AAC payload does, `r` being its outcome (47_flv_demux R420 to R425). -/
structure FlvAudioTagDoes (c : Config.Caps) (ts : BitVec 32) (p : Bytes) (d : Dmx) (r : Except Err Dmx) : Prop where
  /-- other formats, and packet types other than 0 and 1, are ignored -/
  ignored : (p.length < 2 ∨ byteAt p 0 / 16 ≠ 10 ∨ 2 ≤ byteAt p 1) → r = .ok d
  /-- the first sequence header configures the track -/
  configures : ∀ (low : BitVec 4) (x : AscCode) (cfg : Bytes), p = flvAac low 0 cfg → x.Valid →
    StartsWith cfg x.bits → cfg.length ≤ 256 → d.trk.aExists = false →
    r = .ok { d with trk := { d.trk with
      aCodec := .aac
      aRate := BitVec.ofNat 64 x.hz
      aChannels := BitVec.ofNat 64 (channelCount x.channels.toNat)
      aInfo := BitVec.ofNat 64 x.objectType
      acfg := cfg
      aExists := true } }
  /-- one that does not parse or fit is counted -/
  fails : ∀ (low : BitVec 4) (cfg : Bytes), p = flvAac low 0 cfg → d.trk.aExists = false →
    ((∃ e, asc cfg = .error e) ∨ 256 < cfg.length) → r = .ok (countCfgFail d)
  /-- later ones are ignored -/
  repeated : ∀ (low : BitVec 4) (cfg : Bytes), p = flvAac low 0 cfg → d.trk.aExists = true → r = .ok d
  /-- a raw frame is a sample at the tag's time -/
  frame : ∀ (low : BitVec 4) (f : Bytes), p = flvAac low 1 f → d.trk.aExists = true →
    AudioFits c d.out [(f, 1024)] →
    r = .ok { d with out := { d.out with
      asq := d.out.asq ++ [{ pts := ts.setWidth 64, off := BitVec.ofNat 32 d.out.sdata.length
                             len := BitVec.ofNat 32 f.length, nsamples := 1024 }]
      sdata := d.out.sdata ++ f } }
  /-- one before the configuration is counted -/
  early : ∀ (low : BitVec 4) (f : Bytes), p = flvAac low 1 f → d.trk.aExists = false → r = .ok (countMissCfg d)

/-- What the tag of a video payload does, `r` being its outcome (47_flv_demux R426 to R430). -/
structure FlvVideoTagDoes (c : Config.Caps) (ts : BitVec 32) (p : Bytes) (d : Dmx) (r : Except Err Dmx) : Prop where
  /-- short payloads, other codecs, and packet types other than 0 and 1 are ignored -/
  ignored : (p.length < 5 ∨ (byteAt p 0 % 16 ≠ 7 ∧ byteAt p 0 % 16 ≠ 12) ∨ 2 ≤ byteAt p 1) → r = .ok d
  /-- once the family is fixed, the other one is ignored -/
  otherFamily : ((d.trk.vCodec = .avc ∧ byteAt p 0 % 16 = 12) ∨ (d.trk.vCodec = .hevc ∧ byteAt p 0 % 16 = 7)) →
    r = .ok d
  /-- the first avcC record that parses and fits configures the track -/
  avcConfig : ∀ (ft : BitVec 4) (cts : BitVec 24) (x : AvcRecord) (g : SpsInfo), p = flvVideo ft 7 0 cts x.bytes →
    d.trk.vExists = false → (d.trk.vCodec = .none ∨ d.trk.vCodec = .avc) → x.Valid →
    (∃ u, x.sps.head? = some u ∧ avcSps u = .ok g) →
    r = .ok (if RecordFits c x.psets then { d with trk := d.trk.withRecord .avc x.lengthByte x.psets g }
      else countCfgFail d)
  /-- the first hvcC record that parses and fits configures the track -/
  hevcConfig : ∀ (ft : BitVec 4) (cts : BitVec 24) (x : HevcRecord) (g : SpsInfo), p = flvVideo ft 12 0 cts x.bytes →
    d.trk.vExists = false → (d.trk.vCodec = .none ∨ d.trk.vCodec = .hevc) → x.Valid →
    (∃ u, x.firstSps = some u ∧ hevcSps u = .ok g) →
    r = .ok (if RecordFits c x.psets then { d with trk := d.trk.withRecord .hevc x.lengthByte x.psets g }
      else countCfgFail d)
  /-- a record that does not parse is counted -/
  fails : ∀ (codec : VCodec) (id ft : BitVec 4) (cts : BitVec 24) (body : Bytes), flvCodecId codec = some id →
    p = flvVideo ft id 0 cts body → d.trk.vExists = false → (d.trk.vCodec = .none ∨ d.trk.vCodec = codec) →
    (∃ e, (if codec = .avc then avcc body else hvcc body) = .error e) → r = .ok (countCfgFail d)
  /-- later records are ignored -/
  repeated : ∀ (ft id : BitVec 4) (cts : BitVec 24) (body : Bytes), p = flvVideo ft id 0 cts body →
    d.trk.vExists = true → r = .ok d
  /-- a frame of units behind their lengths, empty ones and a rest too short left out, is a sample; a frame with
  no unit is nothing -/
  frame : ∀ (codec : VCodec) (id ft : BitVec 4) (cts : BitVec 24) (us : List Bytes) (rest : Bytes),
    flvCodecId codec = some id →
    p = flvVideo ft id 1 cts (us.flatMap (lengthPrefixed d.trk.vLensize.toNat) ++ rest) →
    d.trk.vExists = true → (d.trk.vCodec = .none ∨ d.trk.vCodec = codec) →
    1 ≤ d.trk.vLensize.toNat → d.trk.vLensize.toNat ≤ 4 →
    (∀ u ∈ us, u.length < 256 ^ d.trk.vLensize.toNat) →
    (rest.length < d.trk.vLensize.toNat ∨
      (beNat (rest.take d.trk.vLensize.toNat) ≠ 0 ∧
        rest.length < d.trk.vLensize.toNat + beNat (rest.take d.trk.vLensize.toNat))) →
    ((us.filter fun u => decide (u ≠ [])) ≠ [] → VideoFits c d.out (us.filter fun u => decide (u ≠ []))) →
    r = .ok (if us.all (fun u => decide (u = [])) then d
      else { d with out := (d.out.withVideo
        { pts := BitVec.ofInt 64 (ts.toNat + cts.toInt), dts := ts.setWidth 64 } (decide (ft = 1))
        (us.filter fun u => decide (u ≠ []))) })
  /-- one before the configuration is counted -/
  early : ∀ (codec : VCodec) (id ft : BitVec 4) (cts : BitVec 24) (body : Bytes), flvCodecId codec = some id →
    p = flvVideo ft id 1 cts body → d.trk.vExists = false → (d.trk.vCodec = .none ∨ d.trk.vCodec = codec) →
    r = .ok (countMissCfg d)

/-! ### Demux calls -/

/-- The error of a capacity, by the index of its register (46_ts_demux R401, 47_flv_demux R440). -/
def capacityError (index : Nat) : Err := { code := .capacityExceeded, info := index }

/-- The queues of two calls one after the other (46_ts_demux R405): the records of the second call name units
and bytes behind those of the first. -/
def Outputs.append (a b : Outputs) : Outputs :=
  { vsq := a.vsq ++ b.vsq.map fun e =>
      { e with firstUnit := BitVec.ofNat 32 a.vut.length + e.firstUnit }
    vut := a.vut ++ b.vut.map fun e => { e with off := BitVec.ofNat 32 a.sdata.length + e.off }
    asq := a.asq ++ b.asq.map fun e => { e with off := BitVec.ofNat 32 a.sdata.length + e.off }
    sdata := a.sdata ++ b.sdata }

/-- The state in which ARG0 and ARG1 name `n` bytes of IN from offset `off` on (20_memory R84). -/
def withRegion (off n : Nat) (s : State) : State :=
  { s with arg0 := BitVec.ofNat 64 off, arg1 := BitVec.ofNat 64 n }

/-- The host feeds consecutive chunks of IN, of the lengths given and from offset `off` on, to calls without
DISC of one container; none fails. The last state, and the queues of all the calls one after the other. -/
inductive Fed (call : Bool → Instr) : Nat → List Nat → State → State → Outputs → Prop
  | done (off : Nat) (s : State) : Fed call off [] s s Outputs.empty
  | chunk (off n : Nat) (rest : List Nat) (contig : Bool) (s t u : State) (o : Outputs)
      (run : exec (call contig) (withRegion off n s) = .next t) (ok : t.status.err = 0)
      (more : Fed call (off + n) rest t u o) :
      Fed call off (n :: rest) s u (t.out.append o)

end Sys2Proof.Machine
end

