-- ==== Sys2Proof/Certificates/Slice0/Obligations.lean ====
section
/-! DEFINITION. The statements about the FBP, for the provers. -/

open Sys2Proof Sys2Proof.Machine

/-! ### Encoding -/

/-- Decoding the word of a command gives the command back, every field included (30_encoding R110 to R118). -/
def Obligations.DecodeOfEncode : Prop :=
  ∀ i : Instr, i.wellFormed = true → decode (encode i) = .ok i

/-- A legal word is the word of the command it decodes to: decoding drops no bit (30_encoding R117, R118). -/
def Obligations.EncodeOfDecode : Prop :=
  ∀ (w : Word32) (i : Instr), decode w = .ok i → encode i = w ∧ i.wellFormed = true

/-- The worked encodings of 30_encoding R133, an inference the spec draws from R110 and R117. -/
def Obligations.WorkedEncodings : Prop :=
  decode 0x11000005 = .ok (.readBits 5) ∧
  decode 0x120003E8 = .ok (.skipBits 1000) ∧
  decode 0x20110000 = .ok (.splitAnnexb .rbsp true) ∧
  decode 0x21200002 = .ok (.splitLenpfx .dt 2) ∧
  decode 0x50030000 = .ok (.tsDemux true true) ∧
  decode 0x52020000 = .ok (.flvDemux false true) ∧
  decode 0x33200000 = .ok (.hvccParse .dt) ∧
  (∀ s, step (issue 0x11000021 s) =
    .next (errorPath 0x11000021 { code := .illegalCommand, info := 0x00021 } s)) ∧
  (∀ s, step (issue 0x20020000 s) =
    .next (errorPath 0x20020000 { code := .illegalCommand, info := 0x20000 } s)) ∧
  (∀ s, step (issue 0x50100000 s) =
    .next (errorPath 0x50100000 { code := .illegalCommand, info := 1 } s)) ∧
  (∀ s, step (issue 0x9A000000 s) =
    .next (errorPath 0x9A000000 { code := .illegalCommand, info := 0x9A } s))

/-- The undefined opcodes are those of no command, and a word with one raises ILLEGAL_COMMAND(OPC)
(30_encoding R120). -/
def Obligations.UndefinedOpcodes : Prop :=
  (∀ opc : BitVec 8, undefinedOpcode opc.toNat = true ↔ ∀ i, opcField (encode i) ≠ opc) ∧
  ∀ (w : Word32) (s : State), undefinedOpcode (opcField w).toNat = true →
    step (issue w s) =
      .next (errorPath w { code := .illegalCommand, info := (opcField w).toNat } s)

/-- A reserved SP raises ILLEGAL_COMMAND(SP): 3 to 15, and any but 0 for a command without a selected region
(30_encoding R121). -/
def Obligations.ReservedSpaces : Prop :=
  ∀ (w : Word32) (s : State) (i : Instr), opcField w = opcField (encode i) →
    (3 ≤ (spField w).toNat ∨ (spField w ≠ 0 ∧ regionOf i = none)) →
    step (issue w s) =
      .next (errorPath w { code := .illegalCommand, info := (spField w).toNat } s)

/-- A word with a defined opcode and a legal SP that is the word of no command has a reserved bit set or an
immediate out of range: it raises ILLEGAL_COMMAND(w[19:0]) (30_encoding R117, R118, R122). -/
def Obligations.ReservedFields : Prop :=
  ∀ (w : Word32) (s : State) (i : Instr), opcField w = opcField (encode i) →
    (spField w = 0 ∨ ((spField w).toNat ≤ 2 ∧ (regionOf i).isSome = true)) →
    (∀ j : Instr, j.wellFormed = true → encode j ≠ w) →
    step (issue w s) =
      .next (errorPath w { code := .illegalCommand, info := (w.extractLsb' 0 20).toNat } s)

/-- A write to CMD runs the command that its low 32 bits decode to, on the state whose next access is the one
after it; no other access runs a command, and with no access pending the state stays
(10_state R34, 20_memory R87, R90). That the state holds the pending accesses is the model's choice (log 1), and
that the idle block stays as it is is read from R476 (log 13). -/
def Obligations.StepRunsDecodedCommand : Prop :=
  (∀ (s : State) (v : Word64) (rest : List HostAccess) (i : Instr),
    s.bus = .write 0 .b8 v :: rest → decode (v.setWidth 32) = .ok i →
      step s = exec i { s with bus := rest }) ∧
  (∀ (s : State) (i : Instr), i.wellFormed = true →
    step (s.withFetchWord 32 (encode i).toNat) = exec i s) ∧
  (∀ (s : State) (a : HostAccess) (rest : List HostAccess), s.bus = a :: rest →
    (∀ v, a ≠ .write 0 .b8 v) →
    ∃ t, step s = .next t ∧ t.bus = rest ∧ t.status = s.status ∧ t.errInfo = s.errInfo ∧
      t.errCmd = s.errCmd ∧ t.trk = s.trk ∧ t.out = s.out ∧ t.dt = s.dt ∧ t.rbsp = s.rbsp) ∧
  (∀ s : State, s.bus = [] → step s = .next s)

/-! ### How a command ends -/

/-- Every command other than NOP either completes or fails, never both; a failing command leaves every other
register, byte space and piece of hidden state as it was (40_control R140, 60_exceptions R455, R457; the spec draws
R456 from these). -/
def Obligations.CommandCompletesOrFails : Prop :=
  ∀ (i : Instr) (s : State), i ≠ .nop → ∃ t, exec i s = .next t ∧
    ((Completed i t ∧ t.status.fault = (s.status.fault && !decide (i = .reset))) ∨
      ((∃ code info, Failed i code info s t) ∧ t.status.err ≠ 0))

/-- No command writes IN, the constant registers or the host's pending accesses, and none but RESET writes the
operand registers (10_state R34, R44, 20_memory R89). That the state holds the pending accesses and the constants
is the model's choice (logs 1, 3). -/
def Obligations.CommandsKeepInputs : Prop :=
  ∀ (i : Instr) (s t : State), exec i s = .next t →
    t.inMem = s.inMem ∧ t.caps = s.caps ∧ t.bus = s.bus ∧ t.busData = s.busData ∧
    (i ≠ .reset → t.arg0 = s.arg0 ∧ t.arg1 = s.arg1 ∧ t.arg2 = s.arg2 ∧ t.arg3 = s.arg3)

/-- Which command writes which result: the frame of every command but RESET (10_state R35, R38 to R48). -/
def Obligations.ResultsWrittenOnlyBy : Prop :=
  ∀ (i : Instr) (s t : State), exec i s = .next t → i ≠ .reset →
    (writesVal i = false → t.val = s.val) ∧
    (writesReader i = false → t.br = s.br) ∧
    (isReader i = true → t.br.src = s.br.src ∧ t.br.off = s.br.off ∧ t.br.nbits = s.br.nbits) ∧
    (writesDt i = false → t.dt = s.dt) ∧
    (writesRbsp i = false → t.rbsp = s.rbsp ∧ t.epbCnt = s.epbCnt) ∧
    (writesLead i = false → t.frm.leadLen = s.frm.leadLen) ∧
    (writesResidue i = false → t.frm.resOff = s.frm.resOff ∧ t.frm.resLen = s.frm.resLen) ∧
    (writesLensize i = false → t.frm.lensize = s.frm.lensize) ∧
    (writesSps i = false → t.sps = s.sps) ∧
    (writesAud i = false → t.aud = s.aud) ∧
    (writesBroken i = false → t.status.broken = s.status.broken) ∧
    (isTrackCommand i = false → t.trk = s.trk) ∧
    (callMode i = none → t.out = s.out ∧ t.mode = s.mode ∧ t.status.contig = s.status.contig)

/-- FATAL_FORMAT sets FAULT, and only it does; only RESET clears it (60_exceptions R458). -/
def Obligations.FaultIsSticky : Prop :=
  ∀ (i : Instr) (s t : State), exec i s = .next t → i ≠ .nop →
    (t.status.fault = true ↔
      (i ≠ .reset ∧ s.status.fault = true) ∨ t.status.err = errByte .fatalFormat) ∧
    (t.status.err = errByte .fatalFormat → (callMode i).isSome = true ∧ i ≠ .tsFlush)

/-- In the fault state the track commands raise FAULTED and do nothing else, whatever else is wrong with them;
NOP and RESET execute, and every other command runs as without the fault (60_exceptions R453, R458). -/
def Obligations.FaultStateRefusesTrackCommands : Prop :=
  ∀ (i : Instr) (s : State), s.status.fault = true →
    (isTrackCommand i = true →
      exec i s = .next (errorPath (encode i) { code := .faulted, info := 0 } s)) ∧
    (isTrackCommand i = false → i ≠ .reset →
      ∀ t, exec i { s with status := { s.status with fault := false } } = .next t →
        exec i s = .next { t with status := { t.status with fault := true } })

/-- A region operand out of bounds raises REGION_OUT_OF_BOUNDS(ARG0): a DT index at or beyond DT_CNT, or a
region that ends beyond its space, the sum unbounded; for TS_DEMUX and FLV_DEMUX, outside the fault state and the
other container's mode, a region that ends beyond IN (20_memory R84, R85, 60_exceptions R453). -/
def Obligations.RegionOutOfBounds : Prop :=
  (∀ (i : Instr) (sp : RegionSel) (s : State), regionOf i = some sp →
    (match sp with
      | .inp => s.caps.inCap < s.arg0.toNat + s.arg1.toNat
      | .rbsp => s.rbsp.length < s.arg0.toNat + s.arg1.toNat
      | .dt => s.dt.length ≤ s.arg0.toNat ∨
          ∃ e, s.dt[s.arg0.toNat]? = some e ∧ spaceSize s e.space < e.off.toNat + e.len.toNat) →
    exec i s = .next (errorPath (encode i) { code := .regionOutOfBounds, info := s.arg0.toNat } s)) ∧
  ∀ (i : Instr) (k : Mode) (s : State), callMode i = some k → i ≠ .tsFlush →
    s.status.fault = false → (s.mode = .none ∨ s.mode = k) →
    s.caps.inCap < s.arg0.toNat + s.arg1.toNat →
    exec i s = .next (errorPath (encode i) { code := .regionOutOfBounds, info := s.arg0.toNat } s)

/-! ### Control -/

/-- NOP changes nothing, in every state; a word with opcode 0 and any other bit set is illegal
(40_control R141). -/
def Obligations.NopChangesNothing : Prop :=
  (∀ s : State, exec .nop s = .next s) ∧ encode .nop = 0 ∧
  ∀ (w : Word32) (s : State), opcField w = 0 → w ≠ 0 →
    ∃ info, step (issue w s) = .next (errorPath w { code := .illegalCommand, info } s)

/-- RESET completes in every state and gives the power-on state, but that ERR_CMD holds the RESET word and that
IN and the constant registers are kept; so every other register reads 0 (40_control R142, 70 R491). -/
def Obligations.ResetGivesPowerOnState : Prop :=
  ∀ s : State, ∃ t, exec .reset s = .next t ∧ Completed .reset t ∧
    t.errCmd = 0x01000000 ∧ t.inMem = s.inMem ∧ t.caps = s.caps ∧
    t.trk = Track.reset ∧ t.out = Outputs.empty ∧ t.dt = [] ∧ t.rbsp = [] ∧
    (∀ k, k ≠ 7 → (k < 80 ∨ 94 < k) → regRead t k = 0) ∧
    (∀ k, 80 ≤ k → k ≤ 94 → regRead t k = regRead s k)

/-- At power-on every register reads 0 but the constant ones, the byte spaces and queues are empty, and the
hidden state is absent or empty (70 R490). What IN holds then is the free parameter IN_INIT (20_memory R89,
log 2). -/
def Obligations.PowerOnRegisters : Prop :=
  (∀ k, (k < 80 ∨ 94 < k) → regRead State.reset k = 0) ∧
  regRead State.reset 80 = 0x4642500000000001 ∧
  State.reset.rbsp = [] ∧ State.reset.dt = [] ∧ State.reset.out = Outputs.empty ∧
  State.reset.trk.tsRem = [] ∧ State.reset.trk.flvRem = [] ∧ State.reset.trk.pendV = none ∧
  State.reset.trk.pendA = none ∧ State.reset.trk.fifo = [] ∧ State.reset.trk.opened = none ∧
  State.reset.trk.lastV = none ∧ State.reset.trk.aNext = none ∧ State.reset.trk.haveSps = false ∧
  State.reset.trk.havePps = false ∧ State.reset.trk.haveVps = false ∧
  State.reset.trk.psets = [] ∧ State.reset.trk.acfg = [] ∧
  (∀ a, memByte State.reset.inMem a = Config.inInit a)

/-- TRACK_RESET outside the fault state clears the track registers, the counters, the flags and the hidden state,
and keeps MODE, CLOCK, FAULT, CONTIG, BROKEN, the queues, DT, RBSP, the bit reader and the standalone results
(40_control R143, R146, R147). -/
def Obligations.TrackResetClearsTrack : Prop :=
  ∀ s : State, s.status.fault = false → ∃ t, exec .trackReset s = .next t ∧ Completed .trackReset t ∧
    (∀ k, 41 ≤ k → k ≤ 57 → regRead t k = 0) ∧ (∀ k, 59 ≤ k → k ≤ 69 → regRead t k = 0) ∧
    t.trk.vExists = false ∧ t.trk.aExists = false ∧ t.trk.flvHdr = false ∧ statusOpen t = false ∧
    t.trk.tsRem = [] ∧ t.trk.flvRem = [] ∧ t.trk.pendV = none ∧ t.trk.pendA = none ∧
    t.trk.fifo = [] ∧ t.trk.opened = none ∧ t.trk.lastV = none ∧ t.trk.aNext = none ∧
    t.trk.haveSps = false ∧ t.trk.havePps = false ∧ t.trk.haveVps = false ∧
    t.trk.psets = [] ∧ t.trk.acfg = [] ∧
    t.mode = s.mode ∧ regRead t 58 = regRead s 58 ∧ t.status.fault = s.status.fault ∧
    t.status.contig = s.status.contig ∧ t.status.broken = s.status.broken ∧ t.out = s.out ∧
    t.dt = s.dt ∧ t.rbsp = s.rbsp ∧ t.br = s.br ∧
    (∀ k, 8 ≤ k → k ≤ 35 → regRead t k = regRead s k)

/-- TRACK_RESET and then a successful demux call without DISC gives the end state of that call with DISC alone,
but for ERR_CMD, which holds the call's own word (the spec draws R143's corner case from R146 and R149). -/
def Obligations.TrackResetThenCall : Prop :=
  ∀ (call : Bool → Bool → Instr) (contig : Bool) (s s' t : State),
    (call = Instr.tsDemux ∨ call = Instr.flvDemux) →
    exec .trackReset s = .next s' → exec (call false contig) s' = .next t → t.status.err = 0 →
    exec (call true contig) s =
      .next { t with errCmd := (encode (call true contig)).setWidth 64 }

/-- The container mode latch: only a successful demux call and RESET write MODE, and a call of the other
container raises ILLEGAL_COMMAND(MODE) before its region is looked at (40_control R148). -/
def Obligations.ModeLatch : Prop :=
  State.reset.mode = .none ∧
  (∀ (i : Instr) (s t : State), exec i s = .next t →
    t.mode = (if i = .reset then Mode.none
      else match callMode i with
        | some k => if t.status.err = 0 then k else s.mode
        | none => s.mode)) ∧
  ∀ (i : Instr) (k : Mode) (s : State), callMode i = some k → s.status.fault = false →
    s.mode ≠ .none → s.mode ≠ k →
    exec i s =
      .next (errorPath (encode i) { code := .illegalCommand, info := modeCode s.mode } s)

/-- STATUS.CONTIG is latched and nothing else: no command reads it, and two calls that differ only in CONTIG
end in states that differ only in it and in ERR_CMD, so they give the same samples (40_control R150). -/
def Obligations.ContigIsOnlyLatched : Prop :=
  (∀ (i : Instr) (s t : State) (b : Bool), exec i s = .next t →
    ∃ c, exec i (s.withContig b) = .next (t.withContig c)) ∧
  ∀ (call : Bool → Bool → Instr) (disc c d : Bool) (s t : State),
    (call = Instr.tsDemux ∨ call = Instr.flvDemux) →
    exec (call disc c) s = .next t → t.status.err = 0 →
    t.status.contig = c ∧
    exec (call disc d) s =
      .next { t.withContig d with errCmd := (encode (call disc d)).setWidth 64 }

/-! ### Bit reader -/

/-- BR_INIT points the reader at the region: BR_NBITS is 8 times its length, BR_POS is 0; nothing else changes
(41_bitreader R161). -/
def Obligations.BrInitPointsReader : Prop :=
  ∀ (sp : RegionSel) (s : State) (r : Region), RegionIs sp s r →
    exec (.brInit sp) s = .next (complete (encode (.brInit sp))
      { s with br := { src := r.space, off := BitVec.ofNat 64 r.off
                       nbits := BitVec.ofNat 64 (8 * r.len), pos := 0 } })

/-- READ_BITS #n reads the `n` bits at BR_POS, most significant first, into VAL; SKIP_BITS #n only moves the
cursor. Either raises TRUNCATED_BITSTREAM(BR_POS) exactly when fewer than `n` bits remain
(41_bitreader R162, R163, R170, R171). -/
def Obligations.ReadAndSkipBits : Prop :=
  (∀ (n : BitVec 6) (v : Nat) (s : State), n.toNat ≤ 32 → v < 2 ^ n.toNat →
    ReaderHas s (natBits n.toNat v) →
    exec (.readBits n) s = .next (complete (encode (.readBits n))
      { advance n.toNat s with val := BitVec.ofNat 64 v })) ∧
  (∀ (n : BitVec 16) (s : State), SliceIn s → s.br.pos.toNat + n.toNat ≤ s.br.nbits.toNat →
    exec (.skipBits n) s = .next (complete (encode (.skipBits n)) (advance n.toNat s))) ∧
  (∀ (n : BitVec 6) (s : State), SliceIn s → s.br.nbits.toNat < s.br.pos.toNat + n.toNat →
    exec (.readBits n) s = .next (errorPath (encode (.readBits n))
      { code := .truncatedBitstream, info := s.br.pos.toNat } s)) ∧
  (∀ (n : BitVec 16) (s : State), SliceIn s → s.br.nbits.toNat < s.br.pos.toNat + n.toNat →
    exec (.skipBits n) s = .next (errorPath (encode (.skipBits n))
      { code := .truncatedBitstream, info := s.br.pos.toNat } s))

/-- Writing a value as an unsigned Exp-Golomb code and reading it with READ_UE gives the value back, for every
value up to 2^32 - 2; SKIP_UE moves over the code and leaves VAL (41_bitreader R164, R165, R172; the spec draws
R169 from R172). -/
def Obligations.UnsignedRoundTrip : Prop :=
  ∀ (v : Nat) (s : State), UeRange v → ReaderHas s (ueBits v) →
    exec .readUe s = .next (complete (encode .readUe)
      { advance (ueBits v).length s with val := BitVec.ofNat 64 v }) ∧
    exec .skipUe s = .next (complete (encode .skipUe) (advance (ueBits v).length s))

/-- Writing a signed value as its Exp-Golomb code and reading it with READ_SE gives the value back,
sign-extended; SKIP_SE moves over the code and leaves VAL (41_bitreader R166, R173; the spec draws R167 from R173
and R165). -/
def Obligations.SignedRoundTrip : Prop :=
  ∀ (v : Int) (s : State), SeRange v → ReaderHas s (seBits v) →
    exec .readSe s = .next (complete (encode .readSe)
      { advance (seBits v).length s with val := BitVec.ofInt 64 v }) ∧
    exec .skipSe s = .next (complete (encode .skipSe) (advance (seBits v).length s))

/-- A code that starts with 32 zeros raises EG_OVERFLOW(BR_POS), whatever follows; a code that runs past the end
raises TRUNCATED_BITSTREAM(BR_POS): the end comes within the zeros, or within the suffix
(41_bitreader R164 to R167, R172). -/
def Obligations.ExpGolombFailures : Prop :=
  ∀ (i : Instr) (s : State), (i = .readUe ∨ i = .skipUe ∨ i = .readSe ∨ i = .skipSe) →
    (ReaderHas s (List.replicate 32 false) →
      exec i s = .next (errorPath (encode i)
        { code := .egOverflow, info := s.br.pos.toNat } s)) ∧
    (∀ z, z < 32 → ReaderHas s (List.replicate z false) →
      s.br.pos.toNat + z = s.br.nbits.toNat →
      exec i s = .next (errorPath (encode i)
        { code := .truncatedBitstream, info := s.br.pos.toNat } s)) ∧
    (∀ z, z < 32 → ReaderHas s (List.replicate z false ++ [true]) →
      s.br.nbits.toNat < s.br.pos.toNat + z + 1 + z →
      exec i s = .next (errorPath (encode i)
        { code := .truncatedBitstream, info := s.br.pos.toNat } s))

/-- SKIP_SCALING_LIST #size moves over the deltas of one scaling list: all `size` of them, or those up to the one
that makes the running entry 0 (41_bitreader R168, R174). -/
def Obligations.ScalingListSkipped : Prop :=
  ∀ (size : BitVec 8) (ds : List Int) (s : State), ScalingCode size.toNat ds →
    ReaderHas s (ds.flatMap seBits) →
    exec (.skipScalingList size) s = .next (complete (encode (.skipScalingList size))
      (advance (ds.flatMap seBits).length s))

/-- A read or skip command whose slice no longer fits its space raises REGION_OUT_OF_BOUNDS(BR_OFF)
(41_bitreader section 2, 60_exceptions R453). -/
def Obligations.StaleSliceRefused : Prop :=
  ∀ (i : Instr) (s : State), isReader i = true → ¬ SliceIn s →
    exec i s = .next (errorPath (encode i)
      { code := .regionOutOfBounds, info := s.br.off.toNat } s)

/-! ### NAL units -/

/-- Annex B round trip: the lead, each unit behind its start code, and the residue concatenate to the input, in
either mode (42_nal R190, R191, from which the spec draws R193). -/
def Obligations.AnnexBRoundTrip : Prop :=
  ∀ (b : Bytes) (endDelim : Bool),
    b.take (annexbUnits b endDelim).lead
      ++ (annexbUnits b endDelim).units.flatMap (withStartCode b)
      ++ b.drop (annexbUnits b endDelim).resStart = b

/-- Every start code is found: no unit and no lead holds `00 00 01`, each unit stands behind a start code of 3 or
4 bytes, and the residue is empty or starts with the last start code, behind which it holds no `00 00 01`
(42_nal R190, R191, R192). -/
def Obligations.AnnexBUnits : Prop :=
  ∀ (b : Bytes) (endDelim : Bool),
    (∀ x ∈ (annexbUnits b endDelim).units,
      ((x.pfx = 3 ∧ slice b (x.start - 3) 3 = [0, 0, 1]) ∨
        (x.pfx = 4 ∧ slice b (x.start - 4) 4 = [0, 0, 0, 1])) ∧
      x.start + x.len ≤ b.length ∧ ¬ ([0, 0, 1] : Bytes) <:+: slice b x.start x.len) ∧
    ¬ ([0, 0, 1] : Bytes) <:+: b.take (annexbUnits b endDelim).lead ∧
    (b.drop (annexbUnits b endDelim).resStart = [] ∨
      ∃ code rest : Bytes, (code = [0, 0, 1] ∨ code = [0, 0, 0, 1]) ∧
        b.drop (annexbUnits b endDelim).resStart = code ++ rest ∧ ¬ ([0, 0, 1] : Bytes) <:+: rest) ∧
    (endDelim = true → b.drop (annexbUnits b endDelim).resStart = [])

/-- SPLIT_ANNEXB writes one DT entry per unit, LEAD_LEN and the residue, and nothing else; more units than DT_CAP
raise CAPACITY_EXCEEDED(count) (42_nal R194). -/
def Obligations.SplitAnnexbResult : Prop :=
  ∀ (sp : RegionSel) (endDelim : Bool) (s : State) (r : Region) (x : AnnexB),
    RegionIs sp s r → annexbUnits (regionBytes s r) endDelim = x →
    (x.units.length ≤ s.caps.dtCap →
      exec (.splitAnnexb sp endDelim) s = .next (complete (encode (.splitAnnexb sp endDelim))
        { s with
          dt := x.units.map fun e =>
            { pts := 0, off := BitVec.ofNat 32 (r.off + e.start), len := BitVec.ofNat 32 e.len
              aux := BitVec.ofNat 32 e.pfx, space := r.space }
          frm := { s.frm with
            leadLen := BitVec.ofNat 64 x.lead
            resOff := BitVec.ofNat 64 (r.off + x.resStart)
            resLen := BitVec.ofNat 64 (r.len - x.resStart) } })) ∧
    (s.caps.dtCap < x.units.length →
      exec (.splitAnnexb sp endDelim) s = .next (errorPath (encode (.splitAnnexb sp endDelim))
        { code := .capacityExceeded, info := x.units.length } s))

/-- SPLIT_LENPFX of written units gives their places: units behind `w`-byte lengths, empty ones skipped, then a
rest too short for a length or for its unit, which is the residue (42_nal R202, R203). -/
def Obligations.SplitLenpfxOfWritten : Prop :=
  ∀ (sp : RegionSel) (width : BitVec 3) (s : State) (r : Region) (us : List Bytes) (rest : Bytes),
    RegionIs sp s r → 1 ≤ width.toNat → width.toNat ≤ 4 → s.inMem.wf →
    (∀ u ∈ us, u.length < 256 ^ width.toNat) →
    (rest.length < width.toNat ∨
      (beNat (rest.take width.toNat) ≠ 0 ∧
        rest.length < width.toNat + beNat (rest.take width.toNat))) →
    regionBytes s r = us.flatMap (lengthPrefixed width.toNat) ++ rest →
    (us.filter fun u => decide (u ≠ [])).length ≤ s.caps.dtCap → spaceSize s r.space < 2 ^ 32 →
    ∃ t, exec (.splitLenpfx sp width) s = .next (complete (encode (.splitLenpfx sp width)) t) ∧
      t = { s with dt := t.dt
                   frm := { s.frm with
                     resOff := BitVec.ofNat 64 (r.off + r.len - rest.length)
                     resLen := BitVec.ofNat 64 rest.length } } ∧
      (t.dt.map fun e => memRead s e.space e.off.toNat e.len.toNat) =
        us.filter (fun u => decide (u ≠ [])) ∧
      ∀ e ∈ t.dt, e.pts = 0 ∧ e.aux = width.setWidth 32 ∧ e.space = r.space

/-- EPB_REMOVE undoes emulation prevention: an escaped region gives the unescaped bytes in RBSP and the number of
bytes dropped (42_nal R200, R201). -/
def Obligations.EpbRemoveUndoesEscaping : Prop :=
  ∀ (sp : RegionSel) (s : State) (r : Region) (b : Bytes), RegionIs sp s r →
    regionBytes s r = epbEscape 0 b → b.length ≤ s.caps.rbspCap →
    exec (.epbRemove sp) s = .next (complete (encode (.epbRemove sp))
      { s with rbsp := b, epbCnt := BitVec.ofNat 64 (r.len - b.length) })

/-! ### Parameter sets -/

/-- AVC_SPS_PARSE of an SPS, written field by field, gives its size, aspect ratio, codec word and chroma format,
and changes nothing else (43_avc_paramsets R221 to R226, R230, R232). -/
def Obligations.AvcSpsOfWritten : Prop :=
  ∀ (sp : RegionSel) (s : State) (r : Region) (x : AvcSpsCode), RegionIs sp s r → x.Valid →
    StartsWith (epbRemove (regionBytes s r)).1 x.bits →
    exec (.avcSpsParse sp) s =
      .next (complete (encode (.avcSpsParse sp)) { s with sps := x.regs })

/-- HEVC_SPS_PARSE of an SPS, written field by field with its sub-layers, scaling lists, explicit and predicted
reference picture sets and long-term pictures, gives its size, aspect ratio, codec words and chroma format, and
changes nothing else (44_hevc_paramsets R261 to R266, R269, R270). -/
def Obligations.HevcSpsOfWritten : Prop :=
  ∀ (sp : RegionSel) (s : State) (r : Region) (x : HevcSpsCode), RegionIs sp s r → x.Valid →
    StartsWith (epbRemove (regionBytes s r)).1 x.bits →
    exec (.hevcSpsParse sp) s =
      .next (complete (encode (.hevcSpsParse sp)) { s with sps := x.regs })

/-- AVCC_PARSE of a record lists every SPS and then every PPS with its place, and gives the length size and the
first SPS's results (43_avc_paramsets R240, R241). -/
def Obligations.AvccOfWritten : Prop :=
  ∀ (sp : RegionSel) (s : State) (r : Region) (x : AvcRecord) (g : SpsInfo), RegionIs sp s r →
    x.Valid → regionBytes s r = x.bytes →
    (∃ u, x.sps.head? = some u ∧ avcSps u = .ok g) → x.entries.length ≤ s.caps.dtCap →
    exec (.avccParse sp) s = .next (complete (encode (.avccParse sp))
      { s with
        dt := x.entries.map fun e =>
          { pts := 0, off := BitVec.ofNat 32 (r.off + e.start), len := BitVec.ofNat 32 e.len
            aux := BitVec.ofNat 32 (psKindCode e.kind), space := r.space }
        frm := { s.frm with lensize := BitVec.ofNat 64 (x.lengthByte.toNat % 4 + 1) }
        sps := spsRegsOf g })

/-- HVCC_PARSE of a record lists the VPS, SPS and PPS units of its arrays in record order, and gives the length
size and the first SPS's results (44_hevc_paramsets R280, R281). -/
def Obligations.HvccOfWritten : Prop :=
  ∀ (sp : RegionSel) (s : State) (r : Region) (x : HevcRecord) (g : SpsInfo), RegionIs sp s r →
    x.Valid → regionBytes s r = x.bytes →
    (∃ u, x.firstSps = some u ∧ hevcSps u = .ok g) → x.entries.length ≤ s.caps.dtCap →
    exec (.hvccParse sp) s = .next (complete (encode (.hvccParse sp))
      { s with
        dt := x.entries.map fun e =>
          { pts := 0, off := BitVec.ofNat 32 (r.off + e.start), len := BitVec.ofNat 32 e.len
            aux := BitVec.ofNat 32 (psKindCode e.kind), space := r.space }
        frm := { s.frm with lensize := BitVec.ofNat 64 (x.lengthByte.toNat % 4 + 1) }
        sps := spsRegsOf g })

/-! ### Audio -/

/-- AAC_ASC_PARSE of a written AudioSpecificConfig gives its object type, rate and channel count
(45_audio R300, R301, R304, R305). -/
def Obligations.AscOfWritten : Prop :=
  ∀ (sp : RegionSel) (s : State) (r : Region) (x : AscCode), RegionIs sp s r → x.Valid →
    StartsWith (regionBytes s r) x.bits →
    exec (.aacAscParse sp) s = .next (complete (encode (.aacAscParse sp))
      { s with aud :=
        { codec := 1, rate := BitVec.ofNat 64 x.hz
          channels := BitVec.ofNat 64 (channelCount x.channels.toNat)
          info := BitVec.ofNat 64 x.objectType, frameLen := 0, nsamples := 1024, bitrate := 0
          asc := 0 } })

/-- ADTS_PARSE of consecutive frames lists each payload with its timestamp, the first at ARG2 (signed) and the
others from the sample count at the first frame's rate and the timescale ARG3, and gives the first header's results
(45_audio R310 to R314). -/
def Obligations.AdtsOfWritten : Prop :=
  ∀ (sp : RegionSel) (s : State) (r : Region) (x : AdtsCode) (xs : List AdtsCode), RegionIs sp s r →
    (∀ y ∈ x :: xs, y.Valid) → regionBytes s r = (x :: xs).flatMap AdtsCode.bytes →
    (x :: xs).length ≤ s.caps.dtCap →
    exec (.adtsParse sp) s = .next (complete (encode (.adtsParse sp))
      { s with
        dt := adtsEntries r s.arg2.toInt s.arg3.toNat (aacRates.getD x.rateIndex.toNat 0) 0 0 (x :: xs)
        status := { s.status with broken := false }
        aud := x.regs })

/-- MPA_HDR_PARSE of a valid header gives the table's bitrate and rate, the frame length and the header fields;
only the first 4 bytes count (45_audio R320 to R324). -/
def Obligations.MpaHeaderOfWritten : Prop :=
  ∀ (sp : RegionSel) (s : State) (r : Region) (x : MpaCode) (rest : Bytes), RegionIs sp s r →
    x.Valid → regionBytes s r = x.bytes ++ rest →
    exec (.mpaHdrParse sp) s =
      .next (complete (encode (.mpaHdrParse sp)) { s with aud := x.regs })

/-- MPA_HDR_PARSE rejects, in this order: fewer than 4 bytes, a reserved version, the bitrate indices 0 and 15,
the rate index 3; no AUD_* register changes (45_audio R323, R324). -/
def Obligations.MpaHeaderRejected : Prop :=
  ∀ (sp : RegionSel) (s : State) (r : Region), RegionIs sp s r →
    (r.len < 4 → exec (.mpaHdrParse sp) s = .next (errorPath (encode (.mpaHdrParse sp))
      { code := .truncatedInput, info := r.len } s)) ∧
    ∀ (x : MpaCode) (rest : Bytes), regionBytes s r = x.bytes ++ rest → x.layer ≠ 0 → ¬ x.Valid →
      exec (.mpaHdrParse sp) s = .next (errorPath (encode (.mpaHdrParse sp))
        { code := .syntaxInvalid
          info := if x.version = 1 then 0x42
            else if x.bitrateIndex = 0 ∨ x.bitrateIndex = 15 then 0x43 else 0x44 } s)

/-- A frame is at least 24 bytes, so it holds its header and a scan always advances; 24 is reached
(45_audio R322). -/
def Obligations.SmallestMpaFrame : Prop :=
  (∀ (b : Bytes) (h : MpaHdr), mpaHdr b = .ok h → 24 ≤ h.flen) ∧
    ∃ (b : Bytes) (h : MpaHdr), mpaHdr b = .ok h ∧ h.flen = 24 ∧ h.bitrate = 8000 ∧ h.rate = 24000

/-- MPA_SCAN of consecutive frames, each a header and its own payload, lists each whole frame with its timestamp,
from the samples before it at the first frame's rate, and gives the first header's results (45_audio R325, R326). -/
def Obligations.MpaScanOfWritten : Prop :=
  ∀ (sp : RegionSel) (s : State) (r : Region) (x : MpaCode × Bytes) (xs : List (MpaCode × Bytes)),
    RegionIs sp s r → (∀ y ∈ x :: xs, y.1.Valid ∧ 4 + y.2.length = y.1.flen) →
    regionBytes s r = (x :: xs).flatMap (fun y => y.1.bytes ++ y.2) →
    (x :: xs).length ≤ s.caps.dtCap →
    exec (.mpaScan sp) s = .next (complete (encode (.mpaScan sp))
      { s with
        dt := mpaEntries r s.arg2.toInt s.arg3.toNat x.1.hz 0 0 ((x :: xs).map (·.1))
        status := { s.status with broken := false }
        aud := x.1.regs })

/-! ### Transport streams -/

/-- TS_DEMUX completes when every whole packet of its input has its sync byte and the packets are dispatched within
the capacities: the state it leaves is that of the dispatch after the preamble, with the bytes after the last whole
packet held back. Less than one packet is held back whole and nothing is dispatched: an empty call with DISC is a
track reset and nothing else (40_control R149, 46_ts_demux R350, R352). A packet that carries an elementary stream
and starts a PES flushes the one pending and starts the next with its payload; one that does not extends the PES
pending, or is discarded when there is none; every other packet is discarded once the PMT is parsed
(46_ts_demux R354, R355, R370, R371). -/
def Obligations.TsDemuxCompletes : Prop :=
  (∀ (disc contig : Bool) (s : State) (r : Region) (d : Bytes), s.status.fault = false →
    (s.mode = .none ∨ s.mode = .ts) → RegionIs .inp s r →
    d = (if disc then [] else s.trk.tsRem) ++ regionBytes s r →
    (∀ x : Dmx, (∀ k < d.length / 188, d[188 * k]? = some 0x47) →
      dispatchAll s.caps ((List.range (d.length / 188)).map fun k => slice d (188 * k) 188)
        { trk := if disc then Track.reset else s.trk, out := Outputs.empty } = .ok x →
      exec (.tsDemux disc contig) s = .next (complete (encode (.tsDemux disc contig))
        { s with
          mode := .ts, status := { s.status with contig := contig }, out := x.out
          trk := { x.trk with tsRem := d.drop (d.length / 188 * 188) } })) ∧
    (d.length < 188 →
      exec (.tsDemux disc contig) s = .next (complete (encode (.tsDemux disc contig))
        { s with
          mode := .ts, status := { s.status with contig := contig }, out := Outputs.empty
          trk := { (if disc then Track.reset else s.trk) with tsRem := d } }))) ∧
  (∀ (c : Config.Caps) (k : TsPacketCode) (st : Stream) (d : Dmx), k.Valid → Carries d.trk st k.pid →
    (∀ d' : Dmx, k.start = true →
      (if (pending st d).getD [] = [] then d' = d else flushPes c st ((pending st d).getD []) d = .ok d') →
      k.body.payload.length ≤ c.pendCap →
      dispatch c k.bytes d = .ok (setPending st (some k.body.payload) d')) ∧
    (∀ p : Bytes, k.start = false → pending st d = some p →
      (p ++ k.body.payload).length ≤ c.pendCap →
      dispatch c k.bytes d = .ok (setPending st (some (p ++ k.body.payload)) d)) ∧
    (k.start = false → pending st d = none → dispatch c k.bytes d = .ok d)) ∧
  ∀ (c : Config.Caps) (k : TsPacketCode) (d : Dmx), k.Valid → d.trk.pmtPid.known = true →
    d.trk.pmtPid.parsed = true → (∀ st, ¬ Carries d.trk st k.pid) → dispatch c k.bytes d = .ok d

/-- The first whole packet without its sync byte fails the call with FATAL_FORMAT(k) and no effect but the error
registers and FAULT (46_ts_demux R351). -/
def Obligations.TsBadSyncIsFatal : Prop :=
  ∀ (disc contig : Bool) (s : State) (r : Region) (d : Bytes) (k : Nat), s.status.fault = false →
    (s.mode = .none ∨ s.mode = .ts) → RegionIs .inp s r →
    d = (if disc then [] else s.trk.tsRem) ++ regionBytes s r → k < d.length / 188 →
    d[188 * k]? ≠ some 0x47 → (∀ j < k, d[188 * j]? = some 0x47) →
    ∃ t, exec (.tsDemux disc contig) s = .next t ∧
      Failed (.tsDemux disc contig) .fatalFormat k s t ∧ t.status.fault = true ∧ t.trk = s.trk ∧
      t.out = s.out ∧ t.mode = s.mode

/-- TS_FLUSH completes when the pending buffers and the open sample come out within the capacities, video first,
then audio, then the open sample; nothing comes out when nothing is pending or open. Then the buffers and the open
sample are absent, and the remainder, the FIFO, the PIDs, the codecs and CONTIG are as before
(46_ts_demux R400). -/
def Obligations.TsFlushCompletes : Prop :=
  (∀ (s : State) (v a x : Dmx), s.status.fault = false → (s.mode = .none ∨ s.mode = .ts) →
    (if s.trk.pendV.getD [] = [] then v = { trk := s.trk, out := Outputs.empty }
      else flushPes s.caps .video (s.trk.pendV.getD []) { trk := s.trk, out := Outputs.empty } = .ok v) →
    (if s.trk.pendA.getD [] = [] then a = v else flushPes s.caps .audio (s.trk.pendA.getD []) v = .ok a) →
    closeOpen s.caps a = .ok x →
    exec .tsFlush s = .next (complete (encode .tsFlush)
      { s with mode := .ts, out := x.out, trk := { x.trk with pendV := none, pendA := none } })) ∧
  (∀ s : State, s.status.fault = false → (s.mode = .none ∨ s.mode = .ts) →
    (s.trk.pendV = none ∨ s.trk.pendV = some []) → (s.trk.pendA = none ∨ s.trk.pendA = some []) →
    s.trk.opened = none →
    exec .tsFlush s = .next (complete (encode .tsFlush)
      { s with mode := .ts, out := Outputs.empty
               trk := { s.trk with pendV := none, pendA := none } })) ∧
  ∀ s t : State, exec .tsFlush s = .next t → t.status.err = 0 →
    t.trk.pendV = none ∧ t.trk.pendA = none ∧ t.trk.opened = none ∧ statusOpen t = false ∧
    t.trk.tsRem = s.trk.tsRem ∧ t.trk.fifo = s.trk.fifo ∧ t.trk.pmtPid = s.trk.pmtPid ∧
    t.trk.vPid = s.trk.vPid ∧ t.trk.aPid = s.trk.aPid ∧ t.trk.vCodec = s.trk.vCodec ∧
    t.trk.aCodec = s.trk.aCodec ∧ t.mode = .ts ∧ t.status.contig = s.status.contig

/-- The errors of a demux call: the only errors a call raises once its checks have passed are capacities, and the
call then ends with them. Each operation that exceeds one capacity alone raises the index of that capacity's
register: 84 a pending buffer, 86 and 87 the bytes and units of the open sample, 88 FLV_REM, 89 VSQ, 90 VUT, 91 ASQ,
92 SDATA. When the open sample exceeds both of its own at once, which one is reported is a free value (log 4)
(10_state R33, 46_ts_demux R371, R401, 47_flv_demux R440, 60_exceptions R451). -/
def Obligations.DemuxErrorsAreCapacities : Prop :=
  (∀ (c : Config.Caps) (ks : List Bytes) (d : Dmx) (e : Err), dispatchAll c ks d = .error e →
    e.code = .capacityExceeded ∧ e.info ∈ [84, 86, 87, 89, 90, 91, 92]) ∧
  (∀ (c : Config.Caps) (b : Bytes) (d : Dmx) (e : Err), flvBody c b d = .error e →
    e.code = .capacityExceeded ∧ e.info ∈ [89, 90, 91, 92]) ∧
  (∀ s t : State, exec .tsFlush s = .next t → s.status.fault = false →
    (s.mode = .none ∨ s.mode = .ts) → t.status.err ≠ 0 →
    t.status.err = errByte .capacityExceeded ∧
      ∃ n ∈ [84, 86, 87, 89, 90, 91, 92], t.errInfo = BitVec.ofNat 64 n) ∧
  (∀ (c : Config.Caps) (st : Stream) (pl : Bytes) (d d' : Dmx), flushPending c st d = .ok d' →
    c.pendCap < pl.length → esPacket c st true pl d = .error (capacityError 84)) ∧
  (∀ (c : Config.Caps) (st : Stream) (p pl : Bytes) (d : Dmx), pending st d = some p →
    c.pendCap < (p ++ pl).length → esPacket c st false pl d = .error (capacityError 84)) ∧
  (∀ (c : Config.Caps) (key : Bool) (u : Bytes) (o : OpenSample) (d : Dmx), d.trk.opened = some o →
    (c.openCap < (o.units ++ [u]).flatten.length → (o.units ++ [u]).length ≤ c.openUnitsCap →
      appendUnit c key u d = .error (capacityError 86)) ∧
    ((o.units ++ [u]).flatten.length ≤ c.openCap → c.openUnitsCap < (o.units ++ [u]).length →
      appendUnit c key u d = .error (capacityError 87)) ∧
    (c.openCap < (o.units ++ [u]).flatten.length → c.openUnitsCap < (o.units ++ [u]).length →
      appendUnit c key u d = .error (capacityError 86) ∨
        appendUnit c key u d = .error (capacityError 87))) ∧
  (∀ (c : Config.Caps) (stamp : Stamp) (key : Bool) (us : List Bytes) (o : Outputs),
    (c.vsqCap < o.vsq.length + 1 → emitVideo c stamp key us o = .error (capacityError 89)) ∧
    (o.vsq.length + 1 ≤ c.vsqCap → c.vutCap < o.vut.length + us.length → us ≠ [] →
      o.sdata.length + us.flatten.length ≤ c.sdataCap →
      emitVideo c stamp key us o = .error (capacityError 90)) ∧
    (o.vsq.length + 1 ≤ c.vsqCap → o.vut.length + us.length ≤ c.vutCap → us ≠ [] →
      c.sdataCap < o.sdata.length + us.flatten.length →
      emitVideo c stamp key us o = .error (capacityError 92))) ∧
  (∀ (c : Config.Caps) (pts : Word64) (b : Bytes) (n : Nat) (o : Outputs),
    (c.asqCap < o.asq.length + 1 → emitAudio c pts b n o = .error (capacityError 91)) ∧
    (o.asq.length + 1 ≤ c.asqCap → c.sdataCap < o.sdata.length + b.length →
      emitAudio c pts b n o = .error (capacityError 92))) ∧
  (∀ (disc contig : Bool) (s : State) (r : Region) (d : Bytes) (e : Err), s.status.fault = false →
    (s.mode = .none ∨ s.mode = .ts) → RegionIs .inp s r →
    d = (if disc then [] else s.trk.tsRem) ++ regionBytes s r →
    (∀ k < d.length / 188, d[188 * k]? = some 0x47) →
    dispatchAll s.caps ((List.range (d.length / 188)).map fun k => slice d (188 * k) 188)
      { trk := if disc then Track.reset else s.trk, out := Outputs.empty } = .error e →
    exec (.tsDemux disc contig) s = .next (errorPath (encode (.tsDemux disc contig)) e s)) ∧
  (∀ (disc contig : Bool) (s : State) (r : Region) (b : Bytes), s.status.fault = false →
    (s.mode = .none ∨ s.mode = .flv) → RegionIs .inp s r →
    b = (if disc then [] else s.trk.flvRem) ++ regionBytes s r →
    ((s.trk.flvHdr = true ∧ disc = false) ∨
      (b.take 4 <+: [0x46, 0x4C, 0x56, 0x01] ∧ (9 ≤ b.length → 9 ≤ beNat (slice b 5 4)))) →
    (∀ e, flvBody s.caps b { trk := if disc then Track.reset else s.trk, out := Outputs.empty } = .error e →
      exec (.flvDemux disc contig) s = .next (errorPath (encode (.flvDemux disc contig)) e s)) ∧
    (∀ (rest : Bytes) (x : Dmx),
      flvBody s.caps b { trk := if disc then Track.reset else s.trk, out := Outputs.empty } = .ok (rest, x) →
      s.caps.remCap < rest.length →
      exec (.flvDemux disc contig) s =
        .next (errorPath (encode (.flvDemux disc contig)) (capacityError 88) s))) ∧
  ∀ s : State,
    [84, 86, 87, 88, 89, 90, 91, 92].map (regRead s) =
      [s.caps.pendCap, s.caps.openCap, s.caps.openUnitsCap, s.caps.remCap, s.caps.vsqCap, s.caps.vutCap,
        s.caps.asqCap, s.caps.sdataCap].map (BitVec.ofNat 64)

/-- Packets before the streams are known. A PAT gives the PMT PID of its first program, entries of number 0
skipped, and a PMT gives the PIDs and the codec families of its first video and audio streams; each then dispatches
the packets of the FIFO again, in order. Any other packet joins the FIFO, or is counted when that is full
(46_ts_demux R353 to R355, R360 to R362, R365 to R368). -/
def Obligations.PatGivesPmtPid : Prop :=
  (∀ (c : Config.Caps) (k : TsPacketCode) (d : Dmx) (skipped rest : Bytes) (flags : BitVec 4)
    (header : Vector Byte 5) (programs : List (BitVec 16 × BitVec 13)) (crc : BitVec 32), k.Valid →
    k.start = true → k.pid = 0 → d.trk.pmtPid.known = false →
    k.body.payload = sectionBytes skipped 0x00 flags (patContent header programs) crc rest →
    dispatch c k.bytes d =
      match programs.find? (fun x => x.1 ≠ 0) with
      | none => .ok d
      | some x => dispatchAll c d.trk.fifo
          { d with trk := { d.trk with pmtPid := { pid := x.2, known := true, parsed := false }, fifo := [] } }) ∧
  (∀ (c : Config.Caps) (k : TsPacketCode) (d : Dmx) (skipped rest : Bytes) (flags : BitVec 4)
    (header : Vector Byte 5) (pcr : BitVec 16) (descriptors : Bytes) (streams : List EsCode) (crc : BitVec 32),
    k.Valid → k.start = true → k.pid ≠ 0 → k.pid ≠ 0x1FFF →
    d.trk.pmtPid = { pid := k.pid, known := true, parsed := false } →
    d.trk.vPid.known = false → d.trk.aPid.known = false →
    k.body.payload = sectionBytes skipped 0x02 flags (pmtContent header pcr descriptors streams) crc rest →
    dispatch c k.bytes d =
      dispatchAll c d.trk.fifo { d with trk := { d.trk.withPmt streams with fifo := [] } }) ∧
  ∀ (c : Config.Caps) (k : TsPacketCode) (d : Dmx), k.Valid → k.pid ≠ 0 → d.trk.pmtPid.parsed = false →
    (k.pid = 0x1FFF → dispatch c k.bytes d = .ok d) ∧
    (k.pid ≠ 0x1FFF → (d.trk.pmtPid.known = true → k.pid ≠ d.trk.pmtPid.pid) →
      dispatch c k.bytes d =
        .ok (if d.trk.fifo.length < c.fifoCap then
          { d with trk := { d.trk with fifo := d.trk.fifo ++ [k.bytes] } } else countUnresDrop d))

/-- The PIDs and codec families, once known, stay through every packet of a call (46_ts_demux R355, R368). -/
def Obligations.PidsStayFixed : Prop :=
  ∀ (c : Config.Caps) (ks : List Bytes) (d d' : Dmx), dispatchAll c ks d = .ok d' →
    (d.trk.pmtPid.known = true → d'.trk.pmtPid.known = true ∧ d'.trk.pmtPid.pid = d.trk.pmtPid.pid) ∧
    (d.trk.pmtPid.parsed = true → d.trk.pmtPid.known = true →
      d'.trk.pmtPid = d.trk.pmtPid ∧ d'.trk.vPid = d.trk.vPid ∧ d'.trk.aPid = d.trk.aPid) ∧
    (d.trk.vPid.known = true → d'.trk.vPid = d.trk.vPid ∧ d'.trk.vCodec = d.trk.vCodec) ∧
    (d.trk.aPid.known = true → d'.trk.aPid = d.trk.aPid ∧ d'.trk.aCodec = d.trk.aCodec)

/-- PES packets. A timestamp written in its 5 bytes is read back; with both stamps a pts more than 60 seconds of
90 kHz beyond the dts becomes the dts. A written PES hands its stamps and its payload to the stream's parser; a bad
one is counted and changes nothing else (46_ts_demux R375 to R379). The frames of an audio payload come out timed
from the PES's pts, or from the end of the frames before, by the samples before each at the rate of the track, which
the first frame configures; without a time they are counted, and a last frame cut short is counted and lost
(46_ts_demux R391, R395, R396). -/
def Obligations.PesTimestamps : Prop :=
  (∀ (p : Bytes) (o : Nat) (prefix4 : BitVec 4) (v : Nat), v < 2 ^ 33 →
    slice p o 5 = stampBytes prefix4 v → ts5 p o = v) ∧
  (∀ pts dts : Nat, (pts ≤ dts + 5400000 → clampPts pts dts = pts) ∧
    (dts + 5400000 < pts → clampPts pts dts = dts)) ∧
  (∀ (c : Config.Caps) (x : PesCode) (d : Dmx), x.Valid →
    (x.stamps.values = none →
      flushPes c .video x.bytes d = videoPes c false 0 0 x.payload d ∧
      flushPes c .audio x.bytes d = audioPes c false 0 x.payload d) ∧
    ∀ pts dts, x.stamps.values = some (pts, dts) →
      flushPes c .video x.bytes d = videoPes c true pts dts x.payload d ∧
      flushPes c .audio x.bytes d = audioPes c true pts x.payload d) ∧
  (∀ (c : Config.Caps) (st : Stream) (p : Bytes) (d : Dmx), BadPes p →
    flushPes c st p d = .ok (countBadPes d)) ∧
  (∀ (c : Config.Caps) (has : Bool) (pts : Nat) (xs : List AdtsCode) (cut : Bytes) (d d' : Dmx)
    (p0 : Option Int), d.trk.aCodec = .aac → (∀ y ∈ xs, y.Valid) →
    CutFrame (fun b => ∃ y : AdtsCode, y.Valid ∧ b = y.bytes) cut →
    d' = { d with trk := match xs.head? with
      | some x => if d.trk.aExists then d.trk else x.configured d.trk
      | none => d.trk } →
    (xs ≠ [] → d'.trk.aRate ≠ 0) → p0 = (if has then some (pts : Int) else d.trk.aNext.map (·.toInt)) →
    (p0 ≠ none → AudioFits c d.out (xs.map fun x => (x.payload, 1024))) →
    audioPes c has pts (xs.flatMap AdtsCode.bytes ++ cut) d =
      .ok (audioPesResult p0 (xs.map fun x => (x.payload, 1024)) (decide (cut ≠ [])) d')) ∧
  ∀ (c : Config.Caps) (has : Bool) (pts : Nat) (xs : List (MpaCode × Bytes)) (cut : Bytes) (d d' : Dmx)
    (p0 : Option Int), d.trk.aCodec = .mpeg → (∀ y ∈ xs, y.1.Valid ∧ 4 + y.2.length = y.1.flen) →
    CutFrame (fun b => ∃ (y : MpaCode) (pl : Bytes), y.Valid ∧ 4 + pl.length = y.flen ∧ b = y.bytes ++ pl) cut →
    d' = { d with trk := match xs.head? with
      | some x => if d.trk.aExists then d.trk else x.1.configured d.trk
      | none => d.trk } →
    (xs ≠ [] → d'.trk.aRate ≠ 0) → p0 = (if has then some (pts : Int) else d.trk.aNext.map (·.toInt)) →
    (p0 ≠ none → AudioFits c d.out (xs.map fun x => (x.1.bytes ++ x.2, x.1.samples))) →
    audioPes c has pts (xs.flatMap (fun x => x.1.bytes ++ x.2) ++ cut) d =
      .ok (audioPesResult p0 (xs.map fun x => (x.1.bytes ++ x.2, x.1.samples)) (decide (cut ≠ [])) d')

/-- Closing the open sample: a sample without a timestamp is counted and takes the last one, or is discarded when
there is none; a sample without a configuration is counted and discarded; every other is emitted with its units
packed behind the bytes before (46_ts_demux R389, R390). Opening and joining: a delimiter, the first unit of a PES
with a pts, and a unit with no sample open close the open sample and open one, the first of a PES with the PES's
timestamps; every other unit joins the open sample; units shorter than a NAL header and bytes before the first start
code are dropped (R380 to R383). Each unit is first looked at for a parameter set: the first valid one of each kind is
stored, an SPS gives the geometry, and V_EXISTS follows; one that does not fit, and an SPS that does not parse, is
counted (R385 to R387). -/
def Obligations.ClosingSamples : Prop :=
  (∀ (c : Config.Caps) (d d' : Dmx) (o : OpenSample), d.trk.opened = some o →
    closeOpen c d = .ok d' →
    d'.trk.opened = none ∧
    d'.trk.cnt.dropped = d.trk.cnt.dropped + (if o.lacks then 1 else 0) ∧
    d'.trk.lastV = (if o.lacks then d.trk.lastV else o.stamp) ∧
    ((d'.trk.lastV = none ∨ d.trk.vExists = false) → d'.out = d.out) ∧
    (d'.trk.lastV ≠ none → d.trk.vExists = false →
      d'.trk.cnt.missCfg = d.trk.cnt.missCfg + 1) ∧
    ∀ stamp, d'.trk.lastV = some stamp → d.trk.vExists = true →
      d'.trk.cnt.missCfg = d.trk.cnt.missCfg ∧
      d'.out.sdata = d.out.sdata ++ o.units.flatten ∧ d'.out.asq = d.out.asq ∧
      d'.out.vsq = d.out.vsq ++
        [{ pts := stamp.pts, dts := stamp.dts, firstUnit := BitVec.ofNat 32 d.out.vut.length
           nunits := BitVec.ofNat 32 o.units.length, key := o.key }] ∧
      d'.out.vut.length = d.out.vut.length + o.units.length) ∧
  (∀ (c : Config.Caps) (has : Bool) (pts dts : Nat) (lead : Bytes) (rest : Bytes) (d : Dmx),
    AtStartCode rest → NoStartCode lead rest →
    videoPes c has pts dts (lead ++ rest) d = videoPes c has pts dts rest d) ∧
  (∀ (c : Config.Caps) (has : Bool) (pts dts : Nat) (d : Dmx), videoPes c has pts dts [] d = .ok d) ∧
  (∀ (c : Config.Caps) (has : Bool) (pts dts : Nat) (code u rest : Bytes) (d : Dmx) (ty : Nat),
    d.trk.vCodec ≠ .none → (code = [0, 0, 1] ∨ code = [0, 0, 0, 1]) → AtStartCode rest → NoStartCode u rest →
    ty = nalTypeOf d.trk.vCodec u →
    (u.length < nalHeaderLength d.trk.vCodec →
      videoPes c has pts dts (code ++ u ++ rest) d = videoPes c has pts dts rest d) ∧
    (∀ d' : Dmx, nalHeaderLength d.trk.vCodec ≤ u.length →
      (isDelimiterType d.trk.vCodec ty = true ∨ has = true ∨ d.trk.opened = none) →
      closeOpen c d = .ok d' → OpenFits c [u] →
      videoPes c has pts dts (code ++ u ++ rest) d =
        videoPes c false 0 0 rest ((capture c ty u d').withOpen
          { stamp := if has then some { pts := BitVec.ofNat 64 pts, dts := BitVec.ofNat 64 dts } else none
            key := isKeyType d.trk.vCodec ty, units := [u] })) ∧
    ∀ o : OpenSample, nalHeaderLength d.trk.vCodec ≤ u.length →
      isDelimiterType d.trk.vCodec ty = false → has = false → d.trk.opened = some o →
      OpenFits c (o.units ++ [u]) →
      videoPes c has pts dts (code ++ u ++ rest) d =
        videoPes c false 0 0 rest ((capture c ty u d).withOpen
          { o with key := o.key || isKeyType d.trk.vCodec ty, units := o.units ++ [u] })) ∧
  ∀ (c : Config.Caps) (ty : Nat) (u : Bytes) (d : Dmx), d.trk.vCodec ≠ .none →
    (psKindOf d.trk.vCodec ty = none → capture c ty u d = d) ∧
    ∀ k, psKindOf d.trk.vCodec ty = some k →
      (d.trk.holds k = true → capture c ty u d = d.withVExists) ∧
      (d.trk.holds k = false → k ≠ .sps →
        (StoreFits c d.trk u → capture c ty u d = { d with trk := d.trk.store k u }.withVExists) ∧
        (¬ StoreFits c d.trk u → capture c ty u d = (countCfgFail d).withVExists)) ∧
      (d.trk.holds k = false → k = .sps →
        (∀ g, (if d.trk.vCodec = .avc then avcSps u else hevcSps u) = .ok g →
          (StoreFits c d.trk u → capture c ty u d =
            { d with trk := { d.trk.store .sps u with vGeo := (spsRegsOf g).geo } }.withVExists) ∧
          (¬ StoreFits c d.trk u → capture c ty u d = countCfgFail d)) ∧
        ∀ e, (if d.trk.vCodec = .avc then avcSps u else hevcSps u) = .error e →
          capture c ty u d = countCfgFail d)

/-- Split invariance: consecutive chunks of a transport stream, cut at any bytes, fed to calls without DISC of
which none fails, give the samples of one call over the whole stream, and the same track
(46_ts_demux R352, R370, from which the spec draws R405). -/
def Obligations.TsSplitInvariance : Prop :=
  ∀ (off : Nat) (ns : List Nat) (contig : Bool) (s t u : State) (o : Outputs), s.Inv →
    off + ns.sum < 2 ^ 64 →
    Fed (fun k => .tsDemux false k) off ns s t o →
    exec (.tsDemux false contig) (withRegion off ns.sum s) = .next u → u.status.err = 0 →
    u.out = o ∧ u.trk = t.trk

/-! ### FLV -/

/-- FLV_DEMUX completes when its header, while it has not been seen, has the signature and a size of at least 9,
and its tags are handled within the capacities. Before the header, fewer than 9 bytes are held back and nothing is
emitted (40_control R149, 47_flv_demux R410, R411). The header is skipped and the tags are handled in order, up to the
first partial one (R412, R413). A sequence header configures the audio track once, and a raw frame is an audio sample
at the tag's time (R420 to R425); a configuration record configures the video track once, and a frame is a video
sample whose pts is the tag's time and the signed composition offset, a key frame for frame type 1 (R426 to R430).
Frames before the configuration, and configurations that do not parse or fit, are counted; every other tag is
ignored (R415, R420, R424, R426, R429). -/
def Obligations.FlvDemuxCompletes : Prop :=
  (∀ (disc contig : Bool) (s : State) (r : Region) (b : Bytes),
    s.status.fault = false → (s.mode = .none ∨ s.mode = .flv) → RegionIs .inp s r →
    b = (if disc then [] else s.trk.flvRem) ++ regionBytes s r →
    ((s.trk.flvHdr = true ∧ disc = false) ∨
      (b.take 4 <+: [0x46, 0x4C, 0x56, 0x01] ∧ (9 ≤ b.length → 9 ≤ beNat (slice b 5 4)))) →
    (∀ (rest : Bytes) (x : Dmx),
      flvBody s.caps b { trk := if disc then Track.reset else s.trk, out := Outputs.empty } =
        .ok (rest, x) →
      rest.length ≤ s.caps.remCap →
      exec (.flvDemux disc contig) s = .next (complete (encode (.flvDemux disc contig))
        { s with
          mode := .flv, status := { s.status with contig := contig }, out := x.out
          trk := { x.trk with flvRem := rest } })) ∧
    ((s.trk.flvHdr = false ∨ disc = true) → b.length < 9 → b.length ≤ s.caps.remCap →
      exec (.flvDemux disc contig) s = .next (complete (encode (.flvDemux disc contig))
        { s with
          mode := .flv, status := { s.status with contig := contig }, out := Outputs.empty
          trk := { (if disc then Track.reset else s.trk) with flvRem := b } }))) ∧
  (∀ (c : Config.Caps) (flags : Byte) (extra b : Bytes) (prev : BitVec 32) (d : Dmx), d.trk.flvHdr = false →
    9 + extra.length < 2 ^ 32 →
    flvBody c ([0x46, 0x4C, 0x56, 0x01, flags] ++ beBytes 4 (9 + extra.length) ++ extra
        ++ beBytes 4 prev.toNat ++ b) d =
      flvBody c b { d with trk := { d.trk with flvHdr := true } }) ∧
  (∀ (c : Config.Caps) (xs : List (FlvTagCode × BitVec 32)) (rest : Bytes) (d : Dmx), d.trk.flvHdr = true →
    (∀ x ∈ xs, x.1.Valid) → PartialTag rest →
    flvBody c (xs.flatMap (fun x => x.1.whole x.2) ++ rest) d =
      (xs.foldlM (fun d x => flvTag c x.1.bytes d) d).map fun d => (rest, d)) ∧
  (∀ (c : Config.Caps) (x : FlvTagCode) (d : Dmx), x.Valid →
    ((x.type ≠ 8 ∧ x.type ≠ 9) → flvTag c x.bytes d = .ok d) ∧
    (x.type = 8 → FlvAudioTagDoes c x.timestamp x.payload d (flvTag c x.bytes d)) ∧
    (x.type = 9 → FlvVideoTagDoes c x.timestamp x.payload d (flvTag c x.bytes d)))

/-- A wrong signature byte fails the call with FATAL_FORMAT(its offset), and a header size below 9 with
FATAL_FORMAT(5), while the header has not been seen (47_flv_demux R411). -/
def Obligations.FlvBadHeaderIsFatal : Prop :=
  ∀ (disc contig : Bool) (s : State) (r : Region) (b : Bytes), s.status.fault = false →
    (s.mode = .none ∨ s.mode = .flv) → RegionIs .inp s r →
    b = (if disc then [] else s.trk.flvRem) ++ regionBytes s r →
    (s.trk.flvHdr = false ∨ disc = true) →
    (∀ k < 4, k < b.length → b[k]? ≠ ([0x46, 0x4C, 0x56, 0x01] : Bytes)[k]? →
      b.take k = ([0x46, 0x4C, 0x56, 0x01] : Bytes).take k →
      exec (.flvDemux disc contig) s = .next (errorPath (encode (.flvDemux disc contig))
        { code := .fatalFormat, info := k } s)) ∧
    (b.take 4 = [0x46, 0x4C, 0x56, 0x01] → 9 ≤ b.length → beNat (slice b 5 4) < 9 →
      exec (.flvDemux disc contig) s = .next (errorPath (encode (.flvDemux disc contig))
        { code := .fatalFormat, info := 5 } s))

/-- Once the header has been seen, what a call holds back is less than one whole tag, at most 2^24 + 14 bytes less
one, so it always fits a REM_CAP of 2^24 + 15 (47_flv_demux R413, R440). -/
def Obligations.FlvPartialTagFits : Prop :=
  ∀ (c : Config.Caps) (b rest : Bytes) (d d' : Dmx), flvBody c b d = .ok (rest, d') →
    d'.trk.flvHdr = true →
    rest <:+ b ∧ rest.length < 2 ^ 24 + 14 ∧
    (rest.length < 11 ∨ rest.length < 11 + beNat (slice rest 1 3) + 4)

/-- Split invariance: consecutive chunks of an FLV file, cut at any bytes, fed to calls without DISC of which none
fails, give the samples of one call over the whole file, and the same track
(47_flv_demux R412, R413, from which the spec draws R442). -/
def Obligations.FlvSplitInvariance : Prop :=
  ∀ (off : Nat) (ns : List Nat) (contig : Bool) (s t u : State) (o : Outputs), s.Inv →
    off + ns.sum < 2 ^ 64 → ns ≠ [] →
    Fed (fun k => .flvDemux false k) off ns s t o →
    exec (.flvDemux false contig) (withRegion off ns.sum s) = .next u → u.status.err = 0 →
    u.out = o ∧ u.trk = t.trk

/-! ### Host bus -/

/-- A read changes no state but the data it returns, which the model keeps in a field of its own (log 1); a write
other than one to CMD is idempotent; a write to the registers other than CMD and ARG0 to ARG3, a misaligned access to
REG, and a write to a read-only window change nothing; CMD and the reserved registers read 0
(10_state R32, R33, R34, 20_memory R87, R88, R96). That an access belongs to REG, as a whole, by its first byte is the
model's reading of R87 and R88 (log 5). -/
def Obligations.HostAccesses : Prop :=
  (∀ (s : State) (addr : Word32) (w : AccessWidth),
    serve (.read addr w) s = .next { s with busData := busRead s addr w }) ∧
  (∀ (s t : State) (addr : Word32) (w : AccessWidth) (v : Word64), ¬ (addr = 0 ∧ w = .b8) →
    serve (.write addr w v) s = .next t → serve (.write addr w v) t = .next t) ∧
  (∀ (s : State) (addr : Word32) (w : AccessWidth) (v : Word64), addr.toNat < 2 ^ 24 →
    (w ≠ .b8 ∨ addr.toNat % 8 ≠ 0 ∨ 40 ≤ addr.toNat) → serve (.write addr w v) s = .next s) ∧
  (∀ (s : State) (addr : Word32) (w : AccessWidth), addr.toNat < 2 ^ 24 →
    (w ≠ .b8 ∨ addr.toNat % 8 ≠ 0 ∨ 4096 ≤ addr.toNat) → busRead s addr w = 0) ∧
  (∀ (s : State) (k : Nat),
    (k = 0 ∨ k = 27 ∨ (36 ≤ k ∧ k ≤ 39) ∨ k = 70 ∨ k = 71 ∨ (76 ≤ k ∧ k ≤ 79) ∨ (95 ≤ k ∧ k ≤ 511)) →
    busRead s (BitVec.ofNat 32 (8 * k)) .b8 = 0) ∧
  (∀ (s : State) (addr : Word32) (w : AccessWidth) (v : Word64), 2 ^ 25 ≤ addr.toNat →
    addr.toNat + 8 ≤ 2 ^ 32 → serve (.write addr w v) s = .next s)

/-- What the host writes to IN it reads back, little-endian, at any alignment, and every other byte of IN is as
before (20_memory R82, R87, R89). -/
def Obligations.InReadsBack : Prop :=
  ∀ (s : State) (off : Nat) (w : AccessWidth) (v : Word64), off + widthBytes w ≤ s.caps.inCap →
    s.caps.inCap ≤ 2 ^ 24 →
    ∃ t, serve (.write (BitVec.ofNat 32 (2 ^ 24 + off)) w v) s = .next t ∧
      t = { s with inMem := t.inMem } ∧
      busRead t (BitVec.ofNat 32 (2 ^ 24 + off)) w = BitVec.ofNat 64 (v.toNat % 256 ^ widthBytes w) ∧
      (∀ k < widthBytes w, memByte t.inMem (off + k) = BitVec.ofNat 8 (v.toNat / 256 ^ k)) ∧
      ∀ a, (a < off ∨ off + widthBytes w ≤ a) → memByte t.inMem a = memByte s.inMem a

/-- The host reads the fields of a DT, VSQ, VUT and ASQ entry at their offsets, the bytes of RBSP and SDATA, and the
configuration store: the table of parameter sets, the audio configuration and the parameter sets' bytes, packed in
table order; at and beyond the last entry or byte of each it reads 0 (20_memory R88, R92 to R95). -/
def Obligations.RecordWindows : Prop :=
  ∀ (s : State), s.Inv → ∀ (k : Nat),
    (∀ e, s.dt[k]? = some e →
      busRead s (BitVec.ofNat 32 (0x03000000 + 32 * k)) .b8 = e.pts ∧
      busRead s (BitVec.ofNat 32 (0x03000000 + 32 * k + 8)) .b4 = e.off.setWidth 64 ∧
      busRead s (BitVec.ofNat 32 (0x03000000 + 32 * k + 12)) .b4 = e.len.setWidth 64 ∧
      busRead s (BitVec.ofNat 32 (0x03000000 + 32 * k + 16)) .b4 = e.aux.setWidth 64 ∧
      busRead s (BitVec.ofNat 32 (0x03000000 + 32 * k + 20)) .b1 = BitVec.ofNat 64 (spaceCode e.space)) ∧
    (∀ e, s.out.vsq[k]? = some e →
      busRead s (BitVec.ofNat 32 (0x04000000 + 32 * k)) .b8 = e.pts ∧
      busRead s (BitVec.ofNat 32 (0x04000000 + 32 * k + 8)) .b8 = e.dts ∧
      busRead s (BitVec.ofNat 32 (0x04000000 + 32 * k + 16)) .b4 = e.firstUnit.setWidth 64 ∧
      busRead s (BitVec.ofNat 32 (0x04000000 + 32 * k + 20)) .b4 = e.nunits.setWidth 64 ∧
      busRead s (BitVec.ofNat 32 (0x04000000 + 32 * k + 24)) .b1 = BitVec.ofNat 64 e.key.toNat) ∧
    (∀ e, s.out.vut[k]? = some e →
      busRead s (BitVec.ofNat 32 (0x05000000 + 8 * k)) .b4 = e.off.setWidth 64 ∧
      busRead s (BitVec.ofNat 32 (0x05000000 + 8 * k + 4)) .b4 = e.len.setWidth 64) ∧
    (∀ e, s.out.asq[k]? = some e →
      busRead s (BitVec.ofNat 32 (0x06000000 + 32 * k)) .b8 = e.pts ∧
      busRead s (BitVec.ofNat 32 (0x06000000 + 32 * k + 8)) .b4 = e.off.setWidth 64 ∧
      busRead s (BitVec.ofNat 32 (0x06000000 + 32 * k + 12)) .b4 = e.len.setWidth 64 ∧
      busRead s (BitVec.ofNat 32 (0x06000000 + 32 * k + 16)) .b4 = e.nsamples.setWidth 64) ∧
    (k < 2 ^ 19 → s.dt.length ≤ k → busRead s (BitVec.ofNat 32 (0x03000000 + 32 * k)) .b8 = 0) ∧
    (k < 2 ^ 19 → s.out.vsq.length ≤ k → busRead s (BitVec.ofNat 32 (0x04000000 + 32 * k)) .b8 = 0) ∧
    (k < 2 ^ 21 → s.out.vut.length ≤ k → busRead s (BitVec.ofNat 32 (0x05000000 + 8 * k)) .b8 = 0) ∧
    (k < 2 ^ 19 → s.out.asq.length ≤ k → busRead s (BitVec.ofNat 32 (0x06000000 + 32 * k)) .b8 = 0) ∧
    (k < 2 ^ 24 →
      busRead s (BitVec.ofNat 32 (0x02000000 + k)) .b1 = ((s.rbsp[k]?).getD 0).setWidth 64 ∧
      busRead s (BitVec.ofNat 32 (0x07000000 + k)) .b1 = ((s.out.sdata[k]?).getD 0).setWidth 64) ∧
    (∀ e, s.trk.psets[k]? = some e →
      busRead s (BitVec.ofNat 32 (0x08000000 + 16 * k)) .b4 =
        (match e.kind with | .sps => 0 | .pps => 1 | .vps => 2) ∧
      busRead s (BitVec.ofNat 32 (0x08000000 + 16 * k + 4)) .b4 =
        BitVec.ofNat 64 ((s.trk.psets.take k).flatMap PsEntry.bytes).length ∧
      busRead s (BitVec.ofNat 32 (0x08000000 + 16 * k + 8)) .b4 = BitVec.ofNat 64 e.bytes.length ∧
      busRead s (BitVec.ofNat 32 (0x08000000 + 16 * k + 12)) .b4 = 0) ∧
    (k < 256 → s.trk.psets.length ≤ k → busRead s (BitVec.ofNat 32 (0x08000000 + 16 * k)) .b8 = 0) ∧
    (k < 0xF000 →
      busRead s (BitVec.ofNat 32 (0x08001000 + k)) .b1 = ((s.trk.acfg[k]?).getD 0).setWidth 64) ∧
    (k < 2 ^ 24 - 2 ^ 16 →
      busRead s (BitVec.ofNat 32 (0x08010000 + k)) .b1 =
        (((s.trk.psets.flatMap PsEntry.bytes)[k]?).getD 0).setWidth 64)

/-! ### Every step -/

/-- A step from a legal state answers a next state, and that state is legal: the capacities, the canonical form of
IN, `BR_POS ≤ BR_NBITS`, the completion code, the modes and the separation of the containers are kept
(10_state R39, R60 to R67, 20_memory R80, 46_ts_demux R387, 47_flv_demux R410). The canonical form of IN and the
capacities in the state are the model's choices (logs 14, 3). -/
def Obligations.StepKeepsLegalState : Prop :=
  ∀ s : State, s.Inv → ∃ t, step s = .next t ∧ t.Inv

/-- The power-on state is legal (00_scope R9, 70 R490), with the capacities of FBP-1 (log 3). -/
def Obligations.PowerOnStateIsLegal : Prop := State.reset.Inv
end

