-- ==== Sys2Proof/Laws/State.lean ====
section
/-! SUPPORT. What each shared update leaves in each field: one lemma a field, true by definition, so that
no later proof unfolds a record update. -/

namespace Sys2Proof.Machine

/-! ### `complete()` (40_control R140) -/

@[simp] theorem complete_bus (w : Word32) (s : State) : (complete w s).bus = s.bus := rfl

@[simp] theorem complete_busData (w : Word32) (s : State) :
    (complete w s).busData = s.busData := rfl

@[simp] theorem complete_caps (w : Word32) (s : State) : (complete w s).caps = s.caps := rfl

@[simp] theorem complete_inMem (w : Word32) (s : State) : (complete w s).inMem = s.inMem := rfl

@[simp] theorem complete_arg0 (w : Word32) (s : State) : (complete w s).arg0 = s.arg0 := rfl

@[simp] theorem complete_arg1 (w : Word32) (s : State) : (complete w s).arg1 = s.arg1 := rfl

@[simp] theorem complete_arg2 (w : Word32) (s : State) : (complete w s).arg2 = s.arg2 := rfl

@[simp] theorem complete_arg3 (w : Word32) (s : State) : (complete w s).arg3 = s.arg3 := rfl

@[simp] theorem complete_status (w : Word32) (s : State) :
    (complete w s).status = { s.status with err := 0 } := rfl

@[simp] theorem complete_errInfo (w : Word32) (s : State) : (complete w s).errInfo = 0 := rfl

@[simp] theorem complete_errCmd (w : Word32) (s : State) :
    (complete w s).errCmd = w.setWidth 64 := rfl

@[simp] theorem complete_val (w : Word32) (s : State) : (complete w s).val = s.val := rfl

@[simp] theorem complete_br (w : Word32) (s : State) : (complete w s).br = s.br := rfl

@[simp] theorem complete_rbsp (w : Word32) (s : State) : (complete w s).rbsp = s.rbsp := rfl

@[simp] theorem complete_epbCnt (w : Word32) (s : State) : (complete w s).epbCnt = s.epbCnt := rfl

@[simp] theorem complete_dt (w : Word32) (s : State) : (complete w s).dt = s.dt := rfl

@[simp] theorem complete_frm (w : Word32) (s : State) : (complete w s).frm = s.frm := rfl

@[simp] theorem complete_sps (w : Word32) (s : State) : (complete w s).sps = s.sps := rfl

@[simp] theorem complete_aud (w : Word32) (s : State) : (complete w s).aud = s.aud := rfl

@[simp] theorem complete_mode (w : Word32) (s : State) : (complete w s).mode = s.mode := rfl

@[simp] theorem complete_trk (w : Word32) (s : State) : (complete w s).trk = s.trk := rfl

@[simp] theorem complete_out (w : Word32) (s : State) : (complete w s).out = s.out := rfl

/-! ### The error path (60_exceptions R455) -/

@[simp] theorem errorPath_bus (w : Word32) (e : Err) (s : State) :
    (errorPath w e s).bus = s.bus := rfl

@[simp] theorem errorPath_busData (w : Word32) (e : Err) (s : State) :
    (errorPath w e s).busData = s.busData := rfl

@[simp] theorem errorPath_caps (w : Word32) (e : Err) (s : State) :
    (errorPath w e s).caps = s.caps := rfl

@[simp] theorem errorPath_inMem (w : Word32) (e : Err) (s : State) :
    (errorPath w e s).inMem = s.inMem := rfl

@[simp] theorem errorPath_arg0 (w : Word32) (e : Err) (s : State) :
    (errorPath w e s).arg0 = s.arg0 := rfl

@[simp] theorem errorPath_arg1 (w : Word32) (e : Err) (s : State) :
    (errorPath w e s).arg1 = s.arg1 := rfl

@[simp] theorem errorPath_arg2 (w : Word32) (e : Err) (s : State) :
    (errorPath w e s).arg2 = s.arg2 := rfl

@[simp] theorem errorPath_arg3 (w : Word32) (e : Err) (s : State) :
    (errorPath w e s).arg3 = s.arg3 := rfl

@[simp] theorem errorPath_status (w : Word32) (e : Err) (s : State) :
    (errorPath w e s).status = { s.status with err := errByte e.code, fault := s.status.fault || decide (e.code = .fatalFormat) } := rfl

@[simp] theorem errorPath_errInfo (w : Word32) (e : Err) (s : State) :
    (errorPath w e s).errInfo = BitVec.ofNat 64 e.info := rfl

@[simp] theorem errorPath_errCmd (w : Word32) (e : Err) (s : State) :
    (errorPath w e s).errCmd = w.setWidth 64 := rfl

@[simp] theorem errorPath_val (w : Word32) (e : Err) (s : State) :
    (errorPath w e s).val = s.val := rfl

@[simp] theorem errorPath_br (w : Word32) (e : Err) (s : State) : (errorPath w e s).br = s.br := rfl

@[simp] theorem errorPath_rbsp (w : Word32) (e : Err) (s : State) :
    (errorPath w e s).rbsp = s.rbsp := rfl

@[simp] theorem errorPath_epbCnt (w : Word32) (e : Err) (s : State) :
    (errorPath w e s).epbCnt = s.epbCnt := rfl

@[simp] theorem errorPath_dt (w : Word32) (e : Err) (s : State) : (errorPath w e s).dt = s.dt := rfl

@[simp] theorem errorPath_frm (w : Word32) (e : Err) (s : State) :
    (errorPath w e s).frm = s.frm := rfl

@[simp] theorem errorPath_sps (w : Word32) (e : Err) (s : State) :
    (errorPath w e s).sps = s.sps := rfl

@[simp] theorem errorPath_aud (w : Word32) (e : Err) (s : State) :
    (errorPath w e s).aud = s.aud := rfl

@[simp] theorem errorPath_mode (w : Word32) (e : Err) (s : State) :
    (errorPath w e s).mode = s.mode := rfl

@[simp] theorem errorPath_trk (w : Word32) (e : Err) (s : State) :
    (errorPath w e s).trk = s.trk := rfl

@[simp] theorem errorPath_out (w : Word32) (e : Err) (s : State) :
    (errorPath w e s).out = s.out := rfl

/-! ### The track reset (40_control R146, R147) -/

@[simp] theorem trackReset_bus (s : State) : (trackReset s).bus = s.bus := rfl

@[simp] theorem trackReset_busData (s : State) : (trackReset s).busData = s.busData := rfl

@[simp] theorem trackReset_caps (s : State) : (trackReset s).caps = s.caps := rfl

@[simp] theorem trackReset_inMem (s : State) : (trackReset s).inMem = s.inMem := rfl

@[simp] theorem trackReset_arg0 (s : State) : (trackReset s).arg0 = s.arg0 := rfl

@[simp] theorem trackReset_arg1 (s : State) : (trackReset s).arg1 = s.arg1 := rfl

@[simp] theorem trackReset_arg2 (s : State) : (trackReset s).arg2 = s.arg2 := rfl

@[simp] theorem trackReset_arg3 (s : State) : (trackReset s).arg3 = s.arg3 := rfl

@[simp] theorem trackReset_status (s : State) : (trackReset s).status = s.status := rfl

@[simp] theorem trackReset_errInfo (s : State) : (trackReset s).errInfo = s.errInfo := rfl

@[simp] theorem trackReset_errCmd (s : State) : (trackReset s).errCmd = s.errCmd := rfl

@[simp] theorem trackReset_val (s : State) : (trackReset s).val = s.val := rfl

@[simp] theorem trackReset_br (s : State) : (trackReset s).br = s.br := rfl

@[simp] theorem trackReset_rbsp (s : State) : (trackReset s).rbsp = s.rbsp := rfl

@[simp] theorem trackReset_epbCnt (s : State) : (trackReset s).epbCnt = s.epbCnt := rfl

@[simp] theorem trackReset_dt (s : State) : (trackReset s).dt = s.dt := rfl

@[simp] theorem trackReset_frm (s : State) : (trackReset s).frm = s.frm := rfl

@[simp] theorem trackReset_sps (s : State) : (trackReset s).sps = s.sps := rfl

@[simp] theorem trackReset_aud (s : State) : (trackReset s).aud = s.aud := rfl

@[simp] theorem trackReset_mode (s : State) : (trackReset s).mode = s.mode := rfl

@[simp] theorem trackReset_trk (s : State) : (trackReset s).trk = Track.reset := rfl

@[simp] theorem trackReset_out (s : State) : (trackReset s).out = s.out := rfl

/-! ### The commit of a demux call (60_exceptions R457) -/

@[simp] theorem withDmx_bus (s : State) (d : Dmx) : (withDmx s d).bus = s.bus := rfl

@[simp] theorem withDmx_busData (s : State) (d : Dmx) : (withDmx s d).busData = s.busData := rfl

@[simp] theorem withDmx_caps (s : State) (d : Dmx) : (withDmx s d).caps = s.caps := rfl

@[simp] theorem withDmx_inMem (s : State) (d : Dmx) : (withDmx s d).inMem = s.inMem := rfl

@[simp] theorem withDmx_arg0 (s : State) (d : Dmx) : (withDmx s d).arg0 = s.arg0 := rfl

@[simp] theorem withDmx_arg1 (s : State) (d : Dmx) : (withDmx s d).arg1 = s.arg1 := rfl

@[simp] theorem withDmx_arg2 (s : State) (d : Dmx) : (withDmx s d).arg2 = s.arg2 := rfl

@[simp] theorem withDmx_arg3 (s : State) (d : Dmx) : (withDmx s d).arg3 = s.arg3 := rfl

@[simp] theorem withDmx_status (s : State) (d : Dmx) : (withDmx s d).status = s.status := rfl

@[simp] theorem withDmx_errInfo (s : State) (d : Dmx) : (withDmx s d).errInfo = s.errInfo := rfl

@[simp] theorem withDmx_errCmd (s : State) (d : Dmx) : (withDmx s d).errCmd = s.errCmd := rfl

@[simp] theorem withDmx_val (s : State) (d : Dmx) : (withDmx s d).val = s.val := rfl

@[simp] theorem withDmx_br (s : State) (d : Dmx) : (withDmx s d).br = s.br := rfl

@[simp] theorem withDmx_rbsp (s : State) (d : Dmx) : (withDmx s d).rbsp = s.rbsp := rfl

@[simp] theorem withDmx_epbCnt (s : State) (d : Dmx) : (withDmx s d).epbCnt = s.epbCnt := rfl

@[simp] theorem withDmx_dt (s : State) (d : Dmx) : (withDmx s d).dt = s.dt := rfl

@[simp] theorem withDmx_frm (s : State) (d : Dmx) : (withDmx s d).frm = s.frm := rfl

@[simp] theorem withDmx_sps (s : State) (d : Dmx) : (withDmx s d).sps = s.sps := rfl

@[simp] theorem withDmx_aud (s : State) (d : Dmx) : (withDmx s d).aud = s.aud := rfl

@[simp] theorem withDmx_mode (s : State) (d : Dmx) : (withDmx s d).mode = s.mode := rfl

@[simp] theorem withDmx_trk (s : State) (d : Dmx) : (withDmx s d).trk = d.trk := rfl

@[simp] theorem withDmx_out (s : State) (d : Dmx) : (withDmx s d).out = d.out := rfl

/-! ### RESET (40_control R142) -/

@[simp] theorem resetState_bus (s : State) : (resetState s).bus = s.bus := rfl

@[simp] theorem resetState_busData (s : State) : (resetState s).busData = s.busData := rfl

@[simp] theorem resetState_caps (s : State) : (resetState s).caps = s.caps := rfl

@[simp] theorem resetState_inMem (s : State) : (resetState s).inMem = s.inMem := rfl

@[simp] theorem resetState_arg0 (s : State) : (resetState s).arg0 = State.reset.arg0 := rfl

@[simp] theorem resetState_arg1 (s : State) : (resetState s).arg1 = State.reset.arg1 := rfl

@[simp] theorem resetState_arg2 (s : State) : (resetState s).arg2 = State.reset.arg2 := rfl

@[simp] theorem resetState_arg3 (s : State) : (resetState s).arg3 = State.reset.arg3 := rfl

@[simp] theorem resetState_status (s : State) : (resetState s).status = State.reset.status := rfl

@[simp] theorem resetState_errInfo (s : State) : (resetState s).errInfo = State.reset.errInfo := rfl

@[simp] theorem resetState_errCmd (s : State) : (resetState s).errCmd = State.reset.errCmd := rfl

@[simp] theorem resetState_val (s : State) : (resetState s).val = State.reset.val := rfl

@[simp] theorem resetState_br (s : State) : (resetState s).br = State.reset.br := rfl

@[simp] theorem resetState_rbsp (s : State) : (resetState s).rbsp = State.reset.rbsp := rfl

@[simp] theorem resetState_epbCnt (s : State) : (resetState s).epbCnt = State.reset.epbCnt := rfl

@[simp] theorem resetState_dt (s : State) : (resetState s).dt = State.reset.dt := rfl

@[simp] theorem resetState_frm (s : State) : (resetState s).frm = State.reset.frm := rfl

@[simp] theorem resetState_sps (s : State) : (resetState s).sps = State.reset.sps := rfl

@[simp] theorem resetState_aud (s : State) : (resetState s).aud = State.reset.aud := rfl

@[simp] theorem resetState_mode (s : State) : (resetState s).mode = State.reset.mode := rfl

@[simp] theorem resetState_trk (s : State) : (resetState s).trk = State.reset.trk := rfl

@[simp] theorem resetState_out (s : State) : (resetState s).out = State.reset.out := rfl

/-! ### The demux-call preamble (40_control R149) -/

@[simp] theorem preamble_bus (k : Mode) (disc contig : Bool) (s : State) :
    (preamble k disc contig s).bus = s.bus := by cases disc <;> rfl

@[simp] theorem preamble_busData (k : Mode) (disc contig : Bool) (s : State) :
    (preamble k disc contig s).busData = s.busData := by cases disc <;> rfl

@[simp] theorem preamble_caps (k : Mode) (disc contig : Bool) (s : State) :
    (preamble k disc contig s).caps = s.caps := by cases disc <;> rfl

@[simp] theorem preamble_inMem (k : Mode) (disc contig : Bool) (s : State) :
    (preamble k disc contig s).inMem = s.inMem := by cases disc <;> rfl

@[simp] theorem preamble_arg0 (k : Mode) (disc contig : Bool) (s : State) :
    (preamble k disc contig s).arg0 = s.arg0 := by cases disc <;> rfl

@[simp] theorem preamble_arg1 (k : Mode) (disc contig : Bool) (s : State) :
    (preamble k disc contig s).arg1 = s.arg1 := by cases disc <;> rfl

@[simp] theorem preamble_arg2 (k : Mode) (disc contig : Bool) (s : State) :
    (preamble k disc contig s).arg2 = s.arg2 := by cases disc <;> rfl

@[simp] theorem preamble_arg3 (k : Mode) (disc contig : Bool) (s : State) :
    (preamble k disc contig s).arg3 = s.arg3 := by cases disc <;> rfl

@[simp] theorem preamble_status (k : Mode) (disc contig : Bool) (s : State) :
    (preamble k disc contig s).status = { s.status with contig := contig } := by cases disc <;> rfl

@[simp] theorem preamble_errInfo (k : Mode) (disc contig : Bool) (s : State) :
    (preamble k disc contig s).errInfo = s.errInfo := by cases disc <;> rfl

@[simp] theorem preamble_errCmd (k : Mode) (disc contig : Bool) (s : State) :
    (preamble k disc contig s).errCmd = s.errCmd := by cases disc <;> rfl

@[simp] theorem preamble_val (k : Mode) (disc contig : Bool) (s : State) :
    (preamble k disc contig s).val = s.val := by cases disc <;> rfl

@[simp] theorem preamble_br (k : Mode) (disc contig : Bool) (s : State) :
    (preamble k disc contig s).br = s.br := by cases disc <;> rfl

@[simp] theorem preamble_rbsp (k : Mode) (disc contig : Bool) (s : State) :
    (preamble k disc contig s).rbsp = s.rbsp := by cases disc <;> rfl

@[simp] theorem preamble_epbCnt (k : Mode) (disc contig : Bool) (s : State) :
    (preamble k disc contig s).epbCnt = s.epbCnt := by cases disc <;> rfl

@[simp] theorem preamble_dt (k : Mode) (disc contig : Bool) (s : State) :
    (preamble k disc contig s).dt = s.dt := by cases disc <;> rfl

@[simp] theorem preamble_frm (k : Mode) (disc contig : Bool) (s : State) :
    (preamble k disc contig s).frm = s.frm := by cases disc <;> rfl

@[simp] theorem preamble_sps (k : Mode) (disc contig : Bool) (s : State) :
    (preamble k disc contig s).sps = s.sps := by cases disc <;> rfl

@[simp] theorem preamble_aud (k : Mode) (disc contig : Bool) (s : State) :
    (preamble k disc contig s).aud = s.aud := by cases disc <;> rfl

@[simp] theorem preamble_mode (k : Mode) (disc contig : Bool) (s : State) :
    (preamble k disc contig s).mode = k := by cases disc <;> rfl

@[simp] theorem preamble_trk (k : Mode) (disc contig : Bool) (s : State) :
    (preamble k disc contig s).trk = if disc then Track.reset else s.trk := by cases disc <;> rfl

@[simp] theorem preamble_out (k : Mode) (disc contig : Bool) (s : State) :
    (preamble k disc contig s).out = Outputs.empty := by cases disc <;> rfl

/-! ### The working state of a demux call (10_state R47, R62, R64) -/

@[simp] theorem countMissCfg_out (d : Dmx) : (countMissCfg d).out = d.out := rfl

@[simp] theorem countMissCfg_trk (d : Dmx) : (countMissCfg d).trk =
    { d.trk with cnt := { d.trk.cnt with missCfg := d.trk.cnt.missCfg + 1 } } := rfl

@[simp] theorem countBadPes_out (d : Dmx) : (countBadPes d).out = d.out := rfl

@[simp] theorem countBadPes_trk (d : Dmx) : (countBadPes d).trk =
    { d.trk with cnt := { d.trk.cnt with badPes := d.trk.cnt.badPes + 1 } } := rfl

@[simp] theorem countABroken_out (d : Dmx) : (countABroken d).out = d.out := rfl

@[simp] theorem countABroken_trk (d : Dmx) : (countABroken d).trk =
    { d.trk with cnt := { d.trk.cnt with aBroken := d.trk.cnt.aBroken + 1 } } := rfl

@[simp] theorem countUnresDrop_out (d : Dmx) : (countUnresDrop d).out = d.out := rfl

@[simp] theorem countUnresDrop_trk (d : Dmx) : (countUnresDrop d).trk =
    { d.trk with cnt := { d.trk.cnt with unresDrop := d.trk.cnt.unresDrop + 1 } } := rfl

@[simp] theorem countCfgFail_out (d : Dmx) : (countCfgFail d).out = d.out := rfl

@[simp] theorem countCfgFail_trk (d : Dmx) : (countCfgFail d).trk =
    { d.trk with cnt := { d.trk.cnt with cfgFail := d.trk.cnt.cfgFail + 1 } } := rfl

@[simp] theorem countDropped_out (n : Nat) (d : Dmx) : (countDropped n d).out = d.out := rfl

@[simp] theorem countDropped_trk (n : Nat) (d : Dmx) : (countDropped n d).trk =
    { d.trk with cnt := { d.trk.cnt with dropped := d.trk.cnt.dropped + BitVec.ofNat 64 n } } := rfl

@[simp] theorem dmxOf_trk (s : State) : (dmxOf s).trk = s.trk := rfl

@[simp] theorem dmxOf_out (s : State) : (dmxOf s).out = s.out := rfl

@[simp] theorem startSample_out (x : Option Stamp) (d : Dmx) : (startSample x d).out = d.out := rfl

@[simp] theorem startSample_trk (x : Option Stamp) (d : Dmx) : (startSample x d).trk =
    { d.trk with opened := some { stamp := x, key := false, units := [] } } := rfl

@[simp] theorem refreshVExists_out (d : Dmx) : (refreshVExists d).out = d.out := rfl

@[simp] theorem refreshVExists_trk (d : Dmx) : (refreshVExists d).trk = updateVExists d.trk := rfl

@[simp] theorem setPending_out (st : Stream) (p : Option Bytes) (d : Dmx) :
    (setPending st p d).out = d.out := by cases st <;> rfl

@[simp] theorem setPending_video_trk (p : Option Bytes) (d : Dmx) :
    (setPending .video p d).trk = { d.trk with pendV := p } := rfl

@[simp] theorem setPending_audio_trk (p : Option Bytes) (d : Dmx) :
    (setPending .audio p d).trk = { d.trk with pendA := p } := rfl

end Sys2Proof.Machine
end

