-- ==== Sys2Proof/Laws/Ops.lean ====
section
/-! SUPPORT. What the shared operations can do: how a command ends, the checks of 60_exceptions R453, the
region operand, the bit reader's slice. -/

namespace Sys2Proof.Machine

/-- A sequence of two computations succeeds exactly when both do. -/
theorem bind_ok {ε α β : Type} {x : Except ε α} {f : α → Except ε β} {b : β} :
    (x >>= f) = .ok b ↔ ∃ a, x = .ok a ∧ f a = .ok b := by
  cases x <;> simp [bind, Except.bind]

/-- A sequence of two computations fails when one of them does. -/
theorem bind_error {ε α β : Type} {x : Except ε α} {f : α → Except ε β} {e : ε} :
    (x >>= f) = .error e ↔ x = .error e ∨ ∃ a, x = .ok a ∧ f a = .error e := by
  cases x <;> simp [bind, Except.bind]

/-! ### The end of a command -/

@[simp] theorem finish_ok (i : Instr) (s s' : State) :
    finish i s (.ok s') = .next (complete (encode i) s') := rfl

@[simp] theorem finish_error (i : Instr) (s : State) (e : Err) :
    finish i s (.error e) = .next (errorPath (encode i) e s) := rfl

/-- The two ways a command ends (40_control R140). -/
theorem finish_cases {i : Instr} {s t : State} {r : Except Err State} (h : finish i s r = .next t) :
    (∃ s', r = .ok s' ∧ t = complete (encode i) s') ∨
      ∃ e, r = .error e ∧ t = errorPath (encode i) e s := by
  cases r with
  | ok s' => exact .inl ⟨s', rfl, by simpa using h.symm⟩
  | error e => exact .inr ⟨e, rfl, by simpa using h.symm⟩

/-- Every completion code but OK is not 0 (60_exceptions R450). -/
theorem errByte_ne_zero (c : ErrCode) : errByte c ≠ 0 := by cases c <;> decide

/-- The completion codes are pairwise different (60_exceptions R450). -/
theorem errByte_injective {c d : ErrCode} (h : errByte c = errByte d) : c = d := by
  revert h; cases c <;> cases d <;> decide

/-! ### Checks -/

theorem check_ok {b : Bool} {c : ErrCode} {n : Nat} {x : Unit} :
    check b c n = .ok x ↔ b = true := by cases b <;> simp [check]

theorem check_error {b : Bool} {c : ErrCode} {n : Nat} {e : Err} :
    check b c n = .error e ↔ b = false ∧ e = { code := c, info := n } := by
  cases b <;> simp [check, eq_comm]

theorem checkCap_ok {need cap index : Nat} {x : Unit} :
    checkCap need cap index = .ok x ↔ need ≤ cap := by simp [checkCap, check_ok]

theorem checkFault_ok {s : State} {x : Unit} :
    checkFault s = .ok x ↔ s.status.fault = false := by simp [checkFault, check_ok]

theorem checkMode_ok {k : Mode} {s : State} {x : Unit} :
    checkMode k s = .ok x ↔ s.mode = .none ∨ s.mode = k := by simp [checkMode, check_ok]

/-! ### Regions -/

/-- `resolve_region()` succeeds exactly with the named region, in bounds (20_memory R85). -/
theorem resolveRegion_ok {sp : RegionSel} {s : State} {r : Region} :
    resolveRegion sp s = .ok r ↔
      namedRegion sp s = some r ∧ r.off + r.len ≤ spaceSize s r.space := by
  unfold resolveRegion
  cases h : namedRegion sp s with
  | none => simp
  | some q =>
    by_cases hb : q.off + q.len ≤ spaceSize s q.space
    · simp only [hb, if_true, Except.ok.injEq, Option.some.injEq]
      constructor
      · rintro rfl; exact ⟨rfl, hb⟩
      · exact fun h => h.1
    · simp only [hb, if_false, Option.some.injEq]
      constructor
      · intro h; cases h
      · rintro ⟨rfl, h⟩; exact absurd h hb

/-- `resolve_region()` fails only with REGION_OUT_OF_BOUNDS(ARG0) (20_memory R85). -/
theorem resolveRegion_error {sp : RegionSel} {s : State} {e : Err} (h : resolveRegion sp s = .error e) :
    e = { code := .regionOutOfBounds, info := s.arg0.toNat } := by
  unfold resolveRegion at h
  split at h
  · simpa using h.symm
  · split at h
    · cases h
    · simpa using h.symm

/-- The slice of the bit reader, in bounds (41_bitreader section 2). -/
theorem brSlice_ok {s : State} {b : Bytes} :
    brSlice s = .ok b ↔ s.br.off.toNat + s.br.nbits.toNat / 8 ≤ spaceSize s s.br.src ∧
      b = memRead s s.br.src s.br.off.toNat (s.br.nbits.toNat / 8) := by
  unfold brSlice
  split <;> rename_i h
  · simp [h, eq_comm]
  · simp [h]

/-- What a bit-reader primitive can do to the state: it moves BR_POS (41_bitreader R160). -/
theorem withReader_ok {α : Type} {p : BitP α} {s s' : State} {v : α} :
    withReader p s = .ok (v, s') ↔ ∃ b c, brSlice s = .ok b ∧
      p { bytes := b, nbits := s.br.nbits.toNat, pos := s.br.pos.toNat } = .ok (v, c) ∧
      s' = { s with br := { s.br with pos := BitVec.ofNat 64 c.pos } } := by
  simp only [withReader, bind_ok]
  constructor
  · rintro ⟨b, hb, ⟨w, c⟩, hc, h⟩
    simp only [pure, Except.pure, Except.ok.injEq, Prod.mk.injEq] at h
    obtain ⟨rfl, rfl⟩ := h
    exact ⟨b, c, hb, hc, rfl⟩
  · rintro ⟨b, c, hb, hc, rfl⟩
    exact ⟨b, hb, (v, c), hc, rfl⟩

end Sys2Proof.Machine
end

