-- ==== Sys2Proof/Laws/Effect.lean ====
section
/-! SUPPORT. Every command at once: what it leaves when it completes, and that a failing one leaves only the
error path. A proof about all commands reads their frames off here and unfolds none. -/

namespace Sys2Proof.Machine

/-- The preamble as one record update (40_control R149). -/
theorem preamble_eq (k : Mode) (disc contig : Bool) (s : State) :
    preamble k disc contig s =
      { s with trk := if disc then Track.reset else s.trk, mode := k
               status := { s.status with contig := contig }, out := Outputs.empty } := by
  cases disc <;> rfl

/-- The commit of AVCC_PARSE and HVCC_PARSE writes DT, LENSIZE and SPS_*. -/
theorem commitRecord_frame {r : Region} {x : RecordInfo} {s s' : State}
    (h : commitRecord r x s = .ok s') :
    s' = { s with dt := s'.dt, frm := { s.frm with lensize := s'.frm.lensize }, sps := s'.sps } := by
  simp only [commitRecord, bind_ok] at h
  obtain ⟨_, -, h⟩ := h
  cases h
  rfl

/-- The commit of ADTS_PARSE and MPA_SCAN writes DT, BROKEN and AUD_*. -/
theorem commitScan_frame {η : Type} {r : Region} {x : Scan η} {f : η → AudRegs} {s s' : State}
    (h : commitScan r x f s = .ok s') :
    s' = { s with dt := s'.dt, status := { s.status with broken := s'.status.broken }
                  aud := s'.aud } := by
  simp only [commitScan, bind_ok] at h
  obtain ⟨_, -, h⟩ := h
  cases h
  rfl

/-- What a command that completes leaves, before `complete()`: the fields it writes, and for the track commands
the conditions under which it gets there. -/
def Effect (i : Instr) (s s' : State) : Prop :=
  match i with
  | .nop => False
  | .reset => s' = resetState s
  | .trackReset => s' = trackReset s ∧ s.status.fault = false
  | .brInit _ => s' = { s with br := s'.br }
  | .readBits _ | .readUe | .readSe =>
    s' = { s with br := { s.br with pos := s'.br.pos }, val := s'.val }
  | .skipBits _ | .skipUe | .skipSe | .skipScalingList _ =>
    s' = { s with br := { s.br with pos := s'.br.pos } }
  | .splitAnnexb _ _ => s' = { s with dt := s'.dt, frm := { s'.frm with lensize := s.frm.lensize } }
  | .splitLenpfx _ _ =>
    s' = { s with dt := s'.dt, frm := { s.frm with resOff := s'.frm.resOff, resLen := s'.frm.resLen } }
  | .epbRemove _ => s' = { s with rbsp := s'.rbsp, epbCnt := s'.epbCnt }
  | .avcSpsParse _ | .hevcSpsParse _ => s' = { s with sps := s'.sps }
  | .avccParse _ | .hvccParse _ =>
    s' = { s with dt := s'.dt, frm := { s.frm with lensize := s'.frm.lensize }, sps := s'.sps }
  | .aacAscParse _ | .mpaHdrParse _ => s' = { s with aud := s'.aud }
  | .adtsParse _ | .mpaScan _ =>
    s' = { s with dt := s'.dt, status := { s.status with broken := s'.status.broken }, aud := s'.aud }
  | .tsDemux _ contig =>
    s' = { s with trk := s'.trk, mode := .ts, status := { s.status with contig := contig }
                  out := s'.out } ∧
      s.status.fault = false ∧ (s.mode = .none ∨ s.mode = .ts)
  | .tsFlush =>
    s' = { s with trk := s'.trk, mode := .ts, out := s'.out } ∧
      s.status.fault = false ∧ (s.mode = .none ∨ s.mode = .ts)
  | .flvDemux _ contig =>
    s' = { s with trk := s'.trk, mode := .flv, status := { s.status with contig := contig }
                  out := s'.out } ∧
      s.status.fault = false ∧ (s.mode = .none ∨ s.mode = .flv)

/-- How every command other than NOP ends (40_control R140, 60_exceptions R455). -/
theorem exec_effect {i : Instr} {s t : State} (h : exec i s = .next t) (hn : i ≠ .nop) :
    (∃ s', Effect i s s' ∧ t = complete (encode i) s') ∨ ∃ e, t = errorPath (encode i) e s := by
  cases i with
  | nop => exact absurd rfl hn
  | reset =>
    rcases finish_cases (s := s) (r := .ok (resetState s)) h with ⟨s', h1, rfl⟩ | ⟨e, h1, rfl⟩
    · cases h1
      exact .inl ⟨_, by rfl, rfl⟩
    · exact .inr ⟨e, rfl⟩
  | trackReset =>
    rcases finish_cases h with ⟨s', h1, rfl⟩ | ⟨e, h1, rfl⟩
    · simp only [bind_ok] at h1
      obtain ⟨_, h2, h3⟩ := h1
      cases h3
      exact .inl ⟨_, ⟨by rfl, checkFault_ok.1 h2⟩, rfl⟩
    · exact .inr ⟨e, rfl⟩
  | readBits _ | skipBits _ | readUe | skipUe | readSe | skipSe | skipScalingList _ =>
    rcases finish_cases h with ⟨s', h1, rfl⟩ | ⟨e, h1, rfl⟩
    · simp only [bind_ok] at h1
      obtain ⟨⟨v, s1⟩, h2, h3⟩ := h1
      cases h3
      refine .inl ⟨_, ?_, rfl⟩
      obtain ⟨b, c, -, -, rfl⟩ := withReader_ok.1 h2
      rfl
    · exact .inr ⟨e, rfl⟩
  | brInit _ =>
    rcases finish_cases h with ⟨s', h1, rfl⟩ | ⟨e, h1, rfl⟩
    · simp only [bind_ok] at h1
      obtain ⟨r, h2, h3⟩ := h1
      cases h3
      exact .inl ⟨_, by rfl, rfl⟩
    · exact .inr ⟨e, rfl⟩
  | splitAnnexb _ _ | splitLenpfx _ _ | epbRemove _ | avcSpsParse _ | hevcSpsParse _ | aacAscParse _
  | mpaHdrParse _ =>
    rcases finish_cases h with ⟨s', h1, rfl⟩ | ⟨e, h1, rfl⟩
    · simp only [bind_ok] at h1
      obtain ⟨r, h2, _, h4, h3⟩ := h1
      cases h3
      exact .inl ⟨_, by rfl, rfl⟩
    · exact .inr ⟨e, rfl⟩
  | avccParse _ | hvccParse _ =>
    rcases finish_cases h with ⟨s', h1, rfl⟩ | ⟨e, h1, rfl⟩
    · simp only [bind_ok] at h1
      obtain ⟨r, h2, _, h4, h3⟩ := h1
      exact .inl ⟨_, by exact commitRecord_frame h3, rfl⟩
    · exact .inr ⟨e, rfl⟩
  | adtsParse _ | mpaScan _ =>
    rcases finish_cases h with ⟨s', h1, rfl⟩ | ⟨e, h1, rfl⟩
    · simp only [bind_ok] at h1
      obtain ⟨r, h2, h3⟩ := h1
      exact .inl ⟨_, by exact commitScan_frame h3, rfl⟩
    · exact .inr ⟨e, rfl⟩
  | tsDemux _ _ =>
    rcases finish_cases h with ⟨s', h1, rfl⟩ | ⟨e, h1, rfl⟩
    · simp only [bind_ok, preamble_eq] at h1
      obtain ⟨_, h2, _, h4, r, _, _, _, x, _, h3⟩ := h1
      cases h3
      exact .inl ⟨_, ⟨by rfl, checkFault_ok.1 h2, checkMode_ok.1 h4⟩, rfl⟩
    · exact .inr ⟨e, rfl⟩
  | flvDemux _ _ =>
    rcases finish_cases h with ⟨s', h1, rfl⟩ | ⟨e, h1, rfl⟩
    · simp only [bind_ok, preamble_eq] at h1
      obtain ⟨_, h2, _, h4, r, _, _, _, x, _, _, _, h3⟩ := h1
      cases h3
      exact .inl ⟨_, ⟨by rfl, checkFault_ok.1 h2, checkMode_ok.1 h4⟩, rfl⟩
    · exact .inr ⟨e, rfl⟩
  | tsFlush =>
    rcases finish_cases h with ⟨s', h1, rfl⟩ | ⟨e, h1, rfl⟩
    · simp only [bind_ok, preamble_eq] at h1
      obtain ⟨_, h2, _, h4, x, _, y, _, z, _, h3⟩ := h1
      cases h3
      exact .inl ⟨_, ⟨by rfl, checkFault_ok.1 h2, checkMode_ok.1 h4⟩, rfl⟩
    · exact .inr ⟨e, rfl⟩

/-- A command ends in a next state, whatever it raises (60_exceptions R455, R460). -/
theorem finish_next (i : Instr) (s : State) (r : Except Err State) : ∃ t, finish i s r = .next t := by
  cases r with
  | ok s' => exact ⟨_, rfl⟩
  | error e => exact ⟨_, rfl⟩

/-- Every command answers a next state (60_exceptions R460). -/
theorem exec_next (i : Instr) (s : State) : ∃ t, exec i s = .next t := by
  cases i with
  | nop | reset => exact ⟨_, rfl⟩
  | _ => exact finish_next _ s _

end Sys2Proof.Machine
end

