-- ==== Sys2Proof/Laws/Emit.lean ====
section
/-! SUPPORT. What emitting a sample can do (46_ts_demux R390, R391), and that it keeps the output queues
legal. -/

namespace Sys2Proof.Machine

@[simp] theorem length_unitTable (off : Nat) (us : List Bytes) : (unitTable off us).length = us.length := by
  induction us generalizing off with
  | nil => rfl
  | cons b rest ih => simp [unitTable, ih]

/-- Everything that appending units to VUT and SDATA can do. -/
theorem emitUnits_ok {c : Config.Caps} {us : List Bytes} {o o' : Outputs} :
    emitUnits c us o = .ok o' ↔
      o' = { o with vut := o.vut ++ unitTable o.sdata.length us, sdata := o.sdata ++ us.flatten } ∧
      (us ≠ [] → o.vut.length + us.length ≤ c.vutCap ∧
        o.sdata.length + us.flatten.length ≤ c.sdataCap) := by
  induction us generalizing o with
  | nil => simp [emitUnits, unitTable, eq_comm]
  | cons b rest ih =>
    simp only [emitUnits, bind_ok, checkCap_ok, exists_and_left, exists_const, ih, unitTable,
      List.length_append, List.length_cons, List.length_nil, List.flatten_cons, List.append_assoc,
      List.cons_append, List.nil_append, ne_eq, reduceCtorEq, not_false_eq_true, forall_const]
    cases rest with
    | nil =>
      simp [unitTable]
      constructor
      · rintro ⟨h1, h2, h3⟩; exact ⟨h3, h1, h2⟩
      · rintro ⟨h3, h1, h2⟩; exact ⟨h1, h2, h3⟩
    | cons b' rest =>
      simp only [List.length_cons, List.flatten_cons, List.length_append, reduceCtorEq,
        not_false_eq_true, forall_const]
      constructor
      · rintro ⟨h1, h2, h3, h4, h5⟩; exact ⟨h3, by omega, by omega⟩
      · rintro ⟨h3, h4, h5⟩; exact ⟨by omega, by omega, h3, by omega, by omega⟩

/-- Everything that emitting a video sample can do (R390). -/
theorem emitVideo_ok {c : Config.Caps} {stamp : Stamp} {key : Bool} {us : List Bytes}
    {o o' : Outputs} :
    emitVideo c stamp key us o = .ok o' ↔
      o' = { o with
        vsq := o.vsq ++ [{ pts := stamp.pts, dts := stamp.dts
                           firstUnit := BitVec.ofNat 32 o.vut.length
                           nunits := BitVec.ofNat 32 us.length, key }]
        vut := o.vut ++ unitTable o.sdata.length us
        sdata := o.sdata ++ us.flatten } ∧
      o.vsq.length + 1 ≤ c.vsqCap ∧
      (us ≠ [] → o.vut.length + us.length ≤ c.vutCap ∧
        o.sdata.length + us.flatten.length ≤ c.sdataCap) := by
  simp only [emitVideo, bind_ok, checkCap_ok, exists_and_left, exists_const, emitUnits_ok]
  constructor
  · rintro ⟨h1, h2, h3⟩; exact ⟨h2, h1, h3⟩
  · rintro ⟨h2, h1, h3⟩; exact ⟨h1, h2, h3⟩

/-- Everything that emitting an audio sample can do (R391). -/
theorem emitAudio_ok {c : Config.Caps} {pts : Word64} {bytes : Bytes} {ns : Nat} {o o' : Outputs} :
    emitAudio c pts bytes ns o = .ok o' ↔
      o' = { o with
        asq := o.asq ++ [{ pts, off := BitVec.ofNat 32 o.sdata.length
                           len := BitVec.ofNat 32 bytes.length, nsamples := BitVec.ofNat 32 ns }]
        sdata := o.sdata ++ bytes } ∧
      o.asq.length + 1 ≤ c.asqCap ∧ o.sdata.length + bytes.length ≤ c.sdataCap := by
  simp only [emitAudio, bind_ok, checkCap_ok, exists_and_left, exists_const, pure, Except.pure,
    Except.ok.injEq]
  constructor
  · rintro ⟨h1, h2, h3⟩; exact ⟨h3.symm, h1, h2⟩
  · rintro ⟨h3, h1, h2⟩; exact ⟨h1, h2, h3.symm⟩

/-- Every entry of a unit table names bytes of the units it was built from. -/
theorem unitTable_bytes {off : Nat} {us : List Bytes} {x : VideoUnit} (h : x ∈ unitTable off us) :
    x.off.toNat + x.len.toNat ≤ off + us.flatten.length := by
  induction us generalizing off with
  | nil => simp [unitTable] at h
  | cons b rest ih =>
    simp only [unitTable, List.mem_cons] at h
    simp only [List.flatten_cons, List.length_append]
    rcases h with rfl | h
    · simp only [BitVec.toNat_ofNat]
      have h1 := Nat.mod_le off (2 ^ 32)
      have h2 := Nat.mod_le b.length (2 ^ 32)
      omega
    · have := ih h
      omega

/-- A video sample with at least one unit keeps the queues legal. -/
theorem emitVideo_outOk {c : Config.Caps} (hc : c.Legal) {stamp : Stamp} {key : Bool}
    {us : List Bytes} (hus : us ≠ []) {o o' : Outputs} (ho : o.Ok c)
    (h : emitVideo c stamp key us o = .ok o') : o'.Ok c := by
  obtain ⟨rfl, hv, hcap⟩ := emitVideo_ok.1 h
  obtain ⟨hu, hs⟩ := hcap hus
  have hpos : 0 < us.length := List.length_pos_iff.2 hus
  have hfit := hc.vutFits
  refine ⟨by simpa using hv, by simpa using hu, ho.asqCap, by simpa using hs, ?_, ?_, ?_⟩
  · intro e he
    simp only [List.mem_append, List.mem_singleton] at he
    simp only [List.length_append, length_unitTable]
    rcases he with he | rfl
    · have := ho.vsqUnits e he
      omega
    · simp only [BitVec.toNat_ofNat]
      rw [Nat.mod_eq_of_lt (by omega), Nat.mod_eq_of_lt (by omega)]
      omega
  · intro x hx
    simp only [List.mem_append] at hx
    simp only [List.length_append]
    rcases hx with hx | hx
    · have := ho.vutBytes x hx
      omega
    · exact unitTable_bytes hx
  · intro x hx
    have := ho.asqBytes x hx
    simp only [List.length_append]
    omega

/-- An audio sample keeps the queues legal. -/
theorem emitAudio_outOk {c : Config.Caps} {pts : Word64} {bytes : Bytes} {ns : Nat} {o o' : Outputs}
    (ho : o.Ok c) (h : emitAudio c pts bytes ns o = .ok o') : o'.Ok c := by
  obtain ⟨rfl, ha, hs⟩ := emitAudio_ok.1 h
  refine ⟨ho.vsqCap, ho.vutCap, by simpa using ha, by simpa using hs, ho.vsqUnits, ?_, ?_⟩
  · intro x hx
    have := ho.vutBytes x hx
    simp only [List.length_append]
    omega
  · intro x hx
    simp only [List.mem_append, List.mem_singleton] at hx
    simp only [List.length_append]
    rcases hx with hx | rfl
    · have := ho.asqBytes x hx
      omega
    · simp only [BitVec.toNat_ofNat]
      have h1 := Nat.mod_le o.sdata.length (2 ^ 32)
      have h2 := Nat.mod_le bytes.length (2 ^ 32)
      omega

/-- Empty queues are legal. -/
theorem empty_outOk (c : Config.Caps) : Outputs.empty.Ok c := by
  constructor <;> simp [Outputs.empty]

end Sys2Proof.Machine
end

