-- ==== Sys2Proof/Laws/Reader.lean ====
section
/-! SUPPORT. What the bit-level primitives of 41_bitreader can do: each keeps the bytes and their number, and
moves the cursor forward, never beyond the end. -/

namespace Sys2Proof.Machine

/-- Two parsers in sequence. -/
theorem bitP_bind_ok {α β : Type} {p : BitP α} {f : α → BitP β} {c c' : Cursor} {b : β} :
    (p >>= f) c = .ok (b, c') ↔ ∃ a c1, p c = .ok (a, c1) ∧ f a c1 = .ok (b, c') := by
  simp only [bind, StateT.bind]
  constructor
  · intro h
    obtain ⟨⟨a, c1⟩, h1, h2⟩ := bind_ok.1 h
    exact ⟨a, c1, h1, h2⟩
  · rintro ⟨a, c1, h1, h2⟩
    exact bind_ok.2 ⟨(a, c1), h1, h2⟩

@[simp] theorem bitP_pure {α : Type} {a b : α} {c c' : Cursor} :
    (pure a : BitP α) c = .ok (b, c') ↔ a = b ∧ c = c' := by
  simp [pure, StateT.pure, Except.pure]

theorem demand_ok {b : Bool} {i : Nat} {c c' : Cursor} {x : Unit} :
    demand b i c = .ok (x, c') ↔ b = true ∧ c = c' := by
  unfold demand
  cases b <;> simp

theorem parseBytes_ok {α : Type} {p : BitP α} {s : Bytes} {a : α} :
    parseBytes p s = .ok a ↔
      ∃ c, p { bytes := s, nbits := 8 * s.length, pos := 0 } = .ok (a, c) := by
  unfold parseBytes
  split <;> rename_i h <;> simp [h]

/-- The value of `n` bits is below 2^n (41_bitreader R170). -/
theorem bitsVal_lt (s : Bytes) (p n : Nat) : bitsVal s p n < 2 ^ n := by
  induction n with
  | zero => simp [bitsVal]
  | succ n ih =>
    simp only [bitsVal, Nat.pow_succ]
    have : (bitAt s (p + n)).toNat ≤ 1 := by cases bitAt s (p + n) <;> simp
    omega

/-- `u(n)` succeeds exactly when `n` bits remain (41_bitreader R170). -/
theorem u_ok {n v : Nat} {c c' : Cursor} :
    u n c = .ok (v, c') ↔ c.pos + n ≤ c.nbits ∧ v = bitsVal c.bytes c.pos n ∧
      c' = { c with pos := c.pos + n } := by
  unfold u
  split <;> rename_i h
  · simp only [reduceCtorEq, false_iff]; omega
  · simp only [Except.ok.injEq, Prod.mk.injEq, eq_comm]
    exact ⟨fun ⟨a, b⟩ => ⟨by omega, a, b⟩, fun ⟨_, a, b⟩ => ⟨a, b⟩⟩

/-- `u(n)` is below 2^n (41_bitreader R170). -/
theorem u_lt {n v : Nat} {c c' : Cursor} (h : u n c = .ok (v, c')) : v < 2 ^ n :=
  (u_ok.1 h).2.1 ▸ bitsVal_lt _ _ _

/-- `skip(n)` succeeds exactly when `n` bits remain (41_bitreader R171). -/
theorem skip_ok {n : Nat} {x : Unit} {c c' : Cursor} :
    skip n c = .ok (x, c') ↔ c.pos + n ≤ c.nbits ∧ c' = { c with pos := c.pos + n } := by
  unfold skip
  split <;> rename_i h
  · simp only [reduceCtorEq, false_iff]; omega
  · simp only [Except.ok.injEq, Prod.mk.injEq, eq_comm]
    exact ⟨fun ⟨_, b⟩ => ⟨by omega, b⟩, fun ⟨_, b⟩ => ⟨trivial, b⟩⟩

/-- The loop of `ue()` finds a run of zeros that a one bit ends, and within its bound (41_bitreader R172). -/
theorem zeroRun_ok {c : Cursor} {start fuel p z r : Nat} :
    zeroRun c start fuel p z = .ok r ↔
      ∃ k, r = z + k ∧ k < fuel ∧ p + k < c.nbits ∧ bitAt c.bytes (p + k) = true ∧
        ∀ j < k, bitAt c.bytes (p + j) = false := by
  induction fuel generalizing p z with
  | zero => simp [zeroRun]
  | succ fuel ih =>
    simp only [zeroRun]
    split
    · rename_i h
      simp only [reduceCtorEq, false_iff, not_exists, not_and]
      intros; omega
    · rename_i h
      split
      · rename_i hb
        simp only [Except.ok.injEq]
        constructor
        · rintro rfl; exact ⟨0, by omega, by omega, by omega, by simpa using hb, by simp⟩
        · rintro ⟨k, rfl, -, -, -, hz⟩
          cases k with
          | zero => rfl
          | succ k => have := hz 0 (by omega); simp only [Nat.add_zero] at this; rw [hb] at this; cases this
      · rename_i hb
        rw [ih]
        constructor
        · rintro ⟨k, rfl, h1, h2, h3, h4⟩
          refine ⟨k + 1, by omega, by omega, by omega, by rw [← h3]; congr 1; omega, ?_⟩
          intro j hj
          cases j with
          | zero => simpa using hb
          | succ j => rw [← h4 j (by omega)]; congr 1; omega
        · rintro ⟨k, rfl, h1, h2, h3, h4⟩
          cases k with
          | zero => simp only [Nat.add_zero] at h3; rw [h3] at hb; simp at hb
          | succ k =>
            refine ⟨k, by omega, by omega, by omega, by rw [← h3]; congr 1; omega, ?_⟩
            intro j hj
            rw [← h4 (j + 1) (by omega)]; congr 1; omega

/-- Everything that `ue()` can do when it succeeds (41_bitreader R172). -/
theorem ue_ok {v : Nat} {c c' : Cursor} :
    ue c = .ok (v, c') ↔ ∃ z, z < 32 ∧ c.pos + z + 1 + z ≤ c.nbits ∧
      bitAt c.bytes (c.pos + z) = true ∧ (∀ j < z, bitAt c.bytes (c.pos + j) = false) ∧
      v = 2 ^ z - 1 + bitsVal c.bytes (c.pos + z + 1) z ∧
      c' = { c with pos := c.pos + z + 1 + z } := by
  unfold ue
  cases hr : zeroRun c c.pos 32 c.pos 0 with
  | error e =>
    simp only [reduceCtorEq, false_iff, not_exists, not_and]
    intro z h1 h2 h3 h4 _ _
    have : zeroRun c c.pos 32 c.pos 0 = .ok z :=
      zeroRun_ok.2 ⟨z, by omega, h1, by omega, h3, h4⟩
    rw [hr] at this; cases this
  | ok r =>
    obtain ⟨k, rfl, h1, h2, h3, h4⟩ := zeroRun_ok.1 hr
    simp only [Nat.zero_add] at *
    have huniq : ∀ z, bitAt c.bytes (c.pos + z) = true →
        (∀ j < z, bitAt c.bytes (c.pos + j) = false) → z = k := by
      intro z hz hall
      rcases Nat.lt_trichotomy z k with h | h | h
      · have := h4 z h; rw [hz] at this; cases this
      · exact h
      · have := hall k h; rw [h3] at this; cases this
    split <;> rename_i hn
    · simp only [reduceCtorEq, false_iff, not_exists, not_and]
      intro z _ h6 h7 h8
      have := huniq z h7 h8
      omega
    · simp only [Except.ok.injEq, Prod.mk.injEq]
      constructor
      · rintro ⟨rfl, rfl⟩; exact ⟨k, h1, by omega, h3, h4, rfl, rfl⟩
      · rintro ⟨z, -, -, h7, h8, rfl, rfl⟩
        rw [huniq z h7 h8]; exact ⟨rfl, rfl⟩

/-- A parser that keeps the bytes and moves the cursor forward, not beyond the end. -/
def Moves {α : Type} (p : BitP α) : Prop :=
  ∀ c v c', p c = .ok (v, c') → c.pos ≤ c.nbits →
    c'.bytes = c.bytes ∧ c'.nbits = c.nbits ∧ c.pos ≤ c'.pos ∧ c'.pos ≤ c.nbits

theorem moves_u (n : Nat) : Moves (u n) := by
  intro c v c' h _
  obtain ⟨h1, -, rfl⟩ := u_ok.1 h
  exact ⟨rfl, rfl, by simp, h1⟩

theorem moves_skip (n : Nat) : Moves (skip n) := by
  intro c v c' h _
  obtain ⟨h1, rfl⟩ := skip_ok.1 h
  exact ⟨rfl, rfl, by simp, h1⟩

theorem moves_ue : Moves ue := by
  intro c v c' h _
  obtain ⟨z, -, h1, -, -, -, rfl⟩ := ue_ok.1 h
  exact ⟨rfl, rfl, by simp only; omega, h1⟩

theorem moves_pure {α : Type} (a : α) : Moves (pure a : BitP α) := by
  intro c v c' h hp
  obtain ⟨-, rfl⟩ := bitP_pure.1 h
  exact ⟨rfl, rfl, le_refl _, hp⟩

theorem moves_bind {α β : Type} {p : BitP α} {f : α → BitP β} (hp : Moves p) (hf : ∀ a, Moves (f a)) :
    Moves (p >>= f) := by
  intro c v c' h hc
  obtain ⟨a, c1, h1, h2⟩ := bitP_bind_ok.1 h
  obtain ⟨b1, b2, b3, b4⟩ := hp c a c1 h1 hc
  obtain ⟨d1, d2, d3, d4⟩ := hf a c1 v c' h2 (by omega)
  exact ⟨d1.trans b1, d2.trans b2, by omega, by omega⟩

theorem moves_se : Moves se := moves_bind moves_ue fun _ => moves_pure _

theorem moves_scalingFrom (n : Nat) (last next : Int) : Moves (scalingFrom n last next) := by
  induction n generalizing last next with
  | zero => exact moves_pure _
  | succ n ih =>
    unfold scalingFrom
    split
    · exact ih _ _
    · exact moves_bind moves_se fun _ => ih _ _

theorem moves_scalingList (size : Nat) : Moves (scalingList size) := moves_scalingFrom size 8 8

end Sys2Proof.Machine
end

