-- ==== Sys2Proof/Laws/Scan.lean ====
section
/-! SUPPORT. What the frame scans of 45_audio can find: frames inside the scanned bytes, and a first header
with a sample rate that is not 0. -/

namespace Sys2Proof.Machine

/-- Every sampling-frequency index up to 12 has a rate (45_audio R300). -/
theorem aacRate_pos {i : Nat} (h : i ≤ 12) : 0 < aacRate i ∧ aacRate i < 2 ^ 24 := by
  interval_cases i <;> decide

/-- The first header of an ADTS scan has a valid sampling-frequency index (45_audio R311). -/
theorem adtsFrom_first {pts0 : Int} {ts fuel o n : Nat} {first : Option AdtsHdr} {b : Bytes}
    {h : AdtsHdr} (hf : ∀ g, first = some g → g.sfi ≤ 12)
    (hs : (adtsFrom pts0 ts fuel o n first b).first = some h) : h.sfi ≤ 12 := by
  induction fuel generalizing o n first b with
  | zero => simp only [adtsFrom] at hs; exact hf h hs
  | succ fuel ih =>
    match b with
    | [] => simp only [adtsFrom] at hs; exact hf h hs
    | [x] => simp only [adtsFrom] at hs; exact hf h hs
    | x :: y :: rest =>
      simp only [adtsFrom] at hs
      split at hs
      · exact ih hf hs
      · split at hs
        · exact hf h hs
        · split at hs
          · exact ih hf hs
          · rename_i hv
            split at hs
            · exact hf h hs
            · refine ih ?_ hs
              intro g hg
              cases first with
              | some f => simp only [Option.getD_some, Option.some.injEq] at hg; exact hf g (by rw [hg])
              | none =>
                simp only [Option.getD_none, Option.some.injEq] at hg
                subst hg
                simp only [not_or, Nat.not_lt] at hv
                exact hv.1

/-- The first header of an ADTS stream (45_audio R311). -/
theorem adtsFrames_first {r : Bytes} {pts0 : Int} {ts : Nat} {h : AdtsHdr}
    (hs : (adtsFrames r pts0 ts).first = some h) : h.sfi ≤ 12 :=
  adtsFrom_first (by simp) hs

/-- The sample rates of MPEG audio (45_audio R321). -/
theorem mpaRate_pos {v i : Nat} (h : i < 3) : 0 < mpaRate v i ∧ mpaRate v i ≤ 48000 := by
  unfold mpaRate
  split
  · interval_cases i <;> decide
  · split <;> interval_cases i <;> decide

/-- A checked MPEG audio header has a sample rate (45_audio R323). -/
theorem mpaHdr_rate {b : Bytes} {h : MpaHdr} (hs : mpaHdr b = .ok h) :
    0 < h.rate ∧ h.rate ≤ 48000 := by
  simp only [mpaHdr, bind_ok, check_ok, pure, Except.pure, Except.ok.injEq] at hs
  obtain ⟨-, -, -, -, -, -, -, -, -, hsri, rfl⟩ := hs
  exact mpaRate_pos (by simp at hsri; omega)

/-- The first header of an MPEG audio scan is a checked header (45_audio R325). -/
theorem mpaFrom_first {pts0 : Int} {ts fuel o n : Nat} {first : Option MpaHdr} {b : Bytes}
    {h : MpaHdr} (hf : ∀ g, first = some g → 0 < g.rate ∧ g.rate ≤ 48000)
    (hs : (mpaFrom pts0 ts fuel o n first b).first = some h) : 0 < h.rate ∧ h.rate ≤ 48000 := by
  induction fuel generalizing o n first b with
  | zero => simp only [mpaFrom] at hs; exact hf h hs
  | succ fuel ih =>
    match b with
    | [] => simp only [mpaFrom] at hs; exact hf h hs
    | [x] => simp only [mpaFrom] at hs; exact hf h hs
    | x :: y :: rest =>
      simp only [mpaFrom] at hs
      split at hs
      · exact ih hf hs
      · split at hs
        · exact hf h hs
        · split at hs
          · exact ih hf hs
          · rename_i g hg
            split at hs
            · exact hf h hs
            · refine ih ?_ hs
              intro g' hg'
              cases first with
              | some f => simp only [Option.getD_some, Option.some.injEq] at hg'; exact hf g' (by rw [hg'])
              | none =>
                simp only [Option.getD_none, Option.some.injEq] at hg'
                subst hg'
                exact mpaHdr_rate hg

/-- The first header of an MPEG audio stream (45_audio R325). -/
theorem mpaFrames_first {r : Bytes} {pts0 : Int} {ts : Nat} {h : MpaHdr}
    (hs : (mpaFrames r pts0 ts).first = some h) : 0 < h.rate ∧ h.rate ≤ 48000 :=
  mpaFrom_first (by simp) hs

end Sys2Proof.Machine
end

