-- ==== Sys2Proof/Laws/TsOk.lean ====
section
/-! SUPPORT. What the parts of a TS_DEMUX call can do, and that each keeps the working state legal. -/

namespace Sys2Proof.Machine

/-- The open sample is within its capacities and holds a unit (10_state R64). -/
def OpenOk (c : Config.Caps) (x : Option OpenSample) : Prop :=
  ∀ o, x = some o →
    unitsBytes o.units ≤ c.openCap ∧ o.units.length ≤ c.openUnitsCap ∧ o.units ≠ []

/-- The working state of a transport-stream call is legal, the open sample apart. -/
structure TsBase (c : Config.Caps) (d : Dmx) : Prop where
  trk : Track.Ok c { d.trk with opened := none }
  mode : d.trk.TsMode
  out : d.out.Ok c

/-- The working state of a transport-stream call is legal. -/
structure TsOk (c : Config.Caps) (d : Dmx) : Prop extends TsBase c d where
  opened : OpenOk c d.trk.opened

/-- A track is legal exactly when it is legal without its open sample, and that sample is. -/
theorem trackOk_iff {c : Config.Caps} {t : Track} :
    t.Ok c ↔ Track.Ok c { t with opened := none } ∧ OpenOk c t.opened := by
  constructor
  · intro h
    refine ⟨⟨h.tsRem, h.flvRem, h.pendV, h.pendA, h.fifoLen, h.fifoPackets, by simp, by simp, h.psLen,
      h.psBytes, h.acfg, h.haveSps, h.havePps, h.haveVps, h.rate⟩, ?_⟩
    intro o ho
    exact ⟨h.openBytes o ho, (h.openUnits o ho).1, (h.openUnits o ho).2⟩
  · rintro ⟨h, ho⟩
    exact ⟨h.tsRem, h.flvRem, h.pendV, h.pendA, h.fifoLen, h.fifoPackets, fun o e => (ho o e).1,
      fun o e => (ho o e).2, h.psLen, h.psBytes, h.acfg, h.haveSps, h.havePps, h.haveVps, h.rate⟩

theorem TsOk.track {c : Config.Caps} {d : Dmx} (h : TsOk c d) : d.trk.Ok c :=
  trackOk_iff.2 ⟨h.trk, h.opened⟩

/-- Counters are no part of legality. -/
theorem TsBase.withCnt {c : Config.Caps} {d e : Dmx} (h : TsBase c d) (x : Counters)
    (ht : e.trk = { d.trk with cnt := x }) (ho : e.out = d.out) : TsBase c e := by
  obtain ⟨h1, h2, h3⟩ := h
  refine ⟨?_, ?_, ho ▸ h3⟩
  · rw [ht]
    exact ⟨h1.tsRem, h1.flvRem, h1.pendV, h1.pendA, h1.fifoLen, h1.fifoPackets, by simp, by simp,
      h1.psLen, h1.psBytes, h1.acfg, h1.haveSps, h1.havePps, h1.haveVps, h1.rate⟩
  · rw [ht]
    exact ⟨⟨h2.idle.flvHdr, h2.idle.flvRem, h2.idle.vLensize⟩, h2.exists_, h2.early⟩

theorem TsOk.withCnt {c : Config.Caps} {d e : Dmx} (h : TsOk c d) (x : Counters)
    (ht : e.trk = { d.trk with cnt := x }) (ho : e.out = d.out) : TsOk c e :=
  ⟨h.toTsBase.withCnt x ht ho, by rw [ht]; exact h.opened⟩

/-! ### Closing the open sample -/

/-- Everything that closing a sample with timestamps can do (R389). -/
theorem closeStamped_ok {c : Config.Caps} {stamp : Stamp} {o : OpenSample} {d d' : Dmx}
    (h : closeStamped c stamp o d = .ok d') :
    (d.trk.vExists = true ∧ ∃ out, emitVideo c stamp o.key o.units d.out = .ok out ∧
        d' = { trk := { d.trk with lastV := some stamp }, out }) ∨
      (d.trk.vExists = false ∧
        d' = countMissCfg { d with trk := { d.trk with lastV := some stamp } }) := by
  unfold closeStamped at h
  simp only at h
  split at h <;> rename_i hv
  · obtain ⟨out, ho, h⟩ := bind_ok.1 h
    simp only [pure, Except.pure, Except.ok.injEq] at h
    exact .inl ⟨hv, out, ho, h.symm⟩
  · exact .inr ⟨by simpa using hv, by simpa using h.symm⟩

/-- Setting LAST_V keeps the working state legal. -/
theorem TsBase.withLastV {c : Config.Caps} {d : Dmx} (h : TsBase c d) (x : Option Stamp) :
    TsBase c { d with trk := { d.trk with lastV := x } } := by
  obtain ⟨h1, h2, h3⟩ := h
  exact ⟨⟨h1.tsRem, h1.flvRem, h1.pendV, h1.pendA, h1.fifoLen, h1.fifoPackets, by simp, by simp,
      h1.psLen, h1.psBytes, h1.acfg, h1.haveSps, h1.havePps, h1.haveVps, h1.rate⟩,
    ⟨⟨h2.idle.flvHdr, h2.idle.flvRem, h2.idle.vLensize⟩, h2.exists_, h2.early⟩, h3⟩

/-- Setting the open sample keeps the rest of the working state legal. -/
theorem TsBase.withOpened {c : Config.Caps} {d : Dmx} (h : TsBase c d) (x : Option OpenSample) :
    TsBase c { d with trk := { d.trk with opened := x } } := by
  obtain ⟨h1, h2, h3⟩ := h
  exact ⟨h1, ⟨⟨h2.idle.flvHdr, h2.idle.flvRem, h2.idle.vLensize⟩, h2.exists_, h2.early⟩, h3⟩

theorem closeStamped_base {c : Config.Caps} (hc : c.Legal) {stamp : Stamp} {o : OpenSample}
    (ho : o.units ≠ []) {d d' : Dmx} (hd : TsBase c d) (h : closeStamped c stamp o d = .ok d') :
    TsBase c d' ∧ d'.trk.opened = d.trk.opened := by
  rcases closeStamped_ok h with ⟨-, out, he, rfl⟩ | ⟨-, rfl⟩
  · have := hd.withLastV (some stamp)
    exact ⟨⟨this.trk, this.mode, emitVideo_outOk hc ho hd.out he⟩, rfl⟩
  · exact ⟨(hd.withLastV (some stamp)).withCnt _ (countMissCfg_trk _) rfl, rfl⟩

/-- Closing keeps the working state legal and leaves no sample open (R389). -/
theorem closeOpen_ok {c : Config.Caps} (hc : c.Legal) {d d' : Dmx} (hd : TsOk c d)
    (h : closeOpen c d = .ok d') : TsOk c d' ∧ d'.trk.opened = none := by
  unfold closeOpen at h
  split at h
  · rename_i hn
    simp only [Except.ok.injEq] at h
    subst h
    exact ⟨hd, hn⟩
  · rename_i o ho
    have hunits := (hd.opened o ho).2.2
    have hb := hd.toTsBase.withOpened none
    have key : ∀ {stamp e}, TsBase c e → e.trk.opened = none →
        closeStamped c stamp o e = .ok d' → TsOk c d' ∧ d'.trk.opened = none := by
      intro stamp e he hen hce
      obtain ⟨h1, h2⟩ := closeStamped_base hc hunits he hce
      rw [hen] at h2
      exact ⟨⟨h1, by rw [h2]; intro o h; cases h⟩, h2⟩
    simp only at h
    split at h
    · exact key hb rfl h
    · have hb' : TsBase c (countDropped 1 { d with trk := { d.trk with opened := none } }) :=
        hb.withCnt _ (countDropped_trk _ _) rfl
      split at h
      · simp only [Except.ok.injEq] at h
        subst h
        exact ⟨⟨hb', by intro o h; cases h⟩, rfl⟩
      · exact key hb' rfl h

/-! ### Parameter-set capture -/

/-- Everything that storing a parameter set can do (R386). -/
theorem storePs_some {c : Config.Caps} {kind : PsKind} {unit : Bytes} {t t' : Track} :
    storePs c kind unit t = some t' ↔
      t.psets.length + 1 ≤ c.psCap ∧ (psBytes t.psets).length + unit.length ≤ c.cfgCap ∧
      t' = { t with psets := t.psets ++ [{ kind, bytes := unit }] } := by
  unfold storePs
  split <;> rename_i h
  · simp only [reduceCtorEq, false_iff]
    rintro ⟨h1, h2, -⟩
    rcases h with h | h <;> omega
  · push Not at h
    simp only [Option.some.injEq, eq_comm]
    exact ⟨fun e => ⟨h.1, h.2, e⟩, fun e => e.2.2⟩

@[simp] theorem psBytes_append (a b : List PsEntry) : psBytes (a ++ b) = psBytes a ++ psBytes b := by
  simp [psBytes]

/-- The part of legality that a stored parameter set with its flag keeps. -/
theorem TsBase.stored {c : Config.Caps} {d : Dmx} (h : TsBase c d) (hv : d.trk.vPid.known = true)
    {kind : PsKind} {unit : Bytes} (h1 : d.trk.psets.length + 1 ≤ c.psCap)
    (h2 : (psBytes d.trk.psets).length + unit.length ≤ c.cfgCap) {e : Dmx} (ho : e.out = d.out)
    (geo : Geometry) (sps pps vps vex : Bool)
    (hs : sps = (d.trk.haveSps || decide (kind = .sps)))
    (hp : pps = (d.trk.havePps || decide (kind = .pps)))
    (hvp : vps = (d.trk.haveVps || decide (kind = .vps)))
    (hx : vex = (sps && pps && (decide (d.trk.vCodec = .avc) || vps)))
    (ht : e.trk = { d.trk with
      psets := d.trk.psets ++ [{ kind, bytes := unit }], vGeo := geo
      haveSps := sps, havePps := pps, haveVps := vps, vExists := vex }) : TsBase c e := by
  obtain ⟨b1, b2, b3⟩ := h
  refine ⟨?_, ?_, ho ▸ b3⟩
  · rw [ht]
    refine ⟨b1.tsRem, b1.flvRem, b1.pendV, b1.pendA, b1.fifoLen, b1.fifoPackets, by simp, by simp,
      by simpa using h1, by simpa [psBytes] using h2, b1.acfg, ?_, ?_, ?_, b1.rate⟩
    · have := b1.haveSps; simp only at this; simp [hs, this]
    · have := b1.havePps; simp only at this; simp [hp, this]
    · have := b1.haveVps; simp only at this; simp [hvp, this]
  · rw [ht]
    refine ⟨⟨b2.idle.flvHdr, b2.idle.flvRem, b2.idle.vLensize⟩, hx, ?_⟩
    intro hk
    simp only at hk
    rw [hv] at hk
    cases hk

/-- Recomputing V_EXISTS changes nothing in a legal working state (R387). -/
theorem refreshVExists_eq {d : Dmx} (h : d.trk.TsMode) : refreshVExists d = d := by
  have := h.exists_
  cases d with
  | mk t o => simp only [refreshVExists, updateVExists] at *; rw [← this]

/-- Capture keeps the working state legal, and changes neither the open sample nor the PIDs (R385). -/
theorem capture_ok {c : Config.Caps} {ty : Nat} {unit : Bytes} {d : Dmx} (hd : TsBase c d)
    (hv : d.trk.vPid.known = true) :
    TsBase c (capture c ty unit d) ∧ (capture c ty unit d).trk.opened = d.trk.opened ∧
      (capture c ty unit d).trk.vPid = d.trk.vPid := by
  have fail : TsBase c (countCfgFail d) := hd.withCnt _ (countCfgFail_trk d) rfl
  have store : ∀ (kind : PsKind) (mark : Track → Track),
      (kind = .pps ∧ mark = fun t => { t with havePps := true }) ∨
        (kind = .vps ∧ mark = fun t => { t with haveVps := true }) →
      TsBase c (refreshVExists (storeOrCount c kind unit mark d)) ∧
        (refreshVExists (storeOrCount c kind unit mark d)).trk.opened = d.trk.opened ∧
        (refreshVExists (storeOrCount c kind unit mark d)).trk.vPid = d.trk.vPid := by
    intro kind mark hk
    unfold storeOrCount
    split <;> rename_i hs
    · obtain ⟨h1, h2, rfl⟩ := storePs_some.1 hs
      rcases hk with ⟨rfl, rfl⟩ | ⟨rfl, rfl⟩
      · exact ⟨hd.stored hv (kind := .pps) h1 h2 rfl d.trk.vGeo d.trk.haveSps true d.trk.haveVps _
          (by simp) (by simp) (by simp) rfl rfl, rfl, rfl⟩
      · exact ⟨hd.stored hv (kind := .vps) h1 h2 rfl d.trk.vGeo d.trk.haveSps d.trk.havePps true _
          (by simp) (by simp) (by simp) rfl rfl, rfl, rfl⟩
    · rw [refreshVExists_eq fail.mode]
      exact ⟨fail, rfl, rfl⟩
  have same : TsBase c (refreshVExists d) ∧ (refreshVExists d).trk.opened = d.trk.opened ∧
      (refreshVExists d).trk.vPid = d.trk.vPid := ⟨refreshVExists_eq hd.mode ▸ hd, rfl, rfl⟩
  unfold capture
  split
  · exact ⟨hd, rfl, rfl⟩
  · split
    · exact same
    · rename_i hns
      split
      · exact ⟨fail, rfl, rfl⟩
      · rename_i g _
        split
        · exact ⟨fail, rfl, rfl⟩
        · rename_i hs
          obtain ⟨h1, h2, rfl⟩ := storePs_some.1 hs
          exact ⟨hd.stored hv (kind := .sps) h1 h2 rfl (geometryOf g) true d.trk.havePps d.trk.haveVps _
            (by simp) (by simp) (by simp) rfl rfl, rfl, rfl⟩
  · split
    · exact same
    · exact store .pps _ (.inl ⟨rfl, rfl⟩)
  · split
    · exact same
    · exact store .vps _ (.inr ⟨rfl, rfl⟩)

/-! ### Video -/

/-- The open sample's capacity check (R401). -/
theorem checkOpen_ok {c : Config.Caps} {us : List Bytes} {x : Unit} :
    checkOpen c us = .ok x ↔ unitsBytes us ≤ c.openCap ∧ us.length ≤ c.openUnitsCap := by
  unfold checkOpen
  split <;> rename_i h
  · simp [checkCap_ok, h]
  · split <;> rename_i h'
    · simp only [checkCap_ok]; tauto
    · simp only [reduceCtorEq, false_iff]; tauto

/-- Everything that appending a unit to an open sample can do (R380, R382). -/
theorem appendUnit_ok {c : Config.Caps} {key : Bool} {unit : Bytes} {d d' : Dmx} {o : OpenSample}
    (ho : d.trk.opened = some o) :
    appendUnit c key unit d = .ok d' ↔
      unitsBytes (o.units ++ [unit]) ≤ c.openCap ∧ (o.units ++ [unit]).length ≤ c.openUnitsCap ∧
      d' = { d with trk := { d.trk with
        opened := some { o with key := o.key || key, units := o.units ++ [unit] } } } := by
  unfold appendUnit
  rw [ho]
  simp only [bind_ok, checkOpen_ok, pure, Except.pure, Except.ok.injEq]
  constructor
  · rintro ⟨-, ⟨h1, h2⟩, rfl⟩; exact ⟨h1, h2, rfl⟩
  · rintro ⟨h1, h2, rfl⟩; exact ⟨(), ⟨h1, h2⟩, rfl⟩

/-- Closing changes neither the video PID nor its codec. -/
theorem closeOpen_vPid {c : Config.Caps} {d d' : Dmx} (h : closeOpen c d = .ok d') :
    d'.trk.vPid = d.trk.vPid ∧ d'.trk.vCodec = d.trk.vCodec := by
  unfold closeOpen at h
  split at h
  · simp only [Except.ok.injEq] at h; rw [h]; exact ⟨rfl, rfl⟩
  · simp only at h
    split at h
    · rcases closeStamped_ok h with ⟨-, _, -, rfl⟩ | ⟨-, rfl⟩ <;> exact ⟨rfl, rfl⟩
    · split at h
      · simp only [Except.ok.injEq] at h; rw [← h]; exact ⟨rfl, rfl⟩
      · rcases closeStamped_ok h with ⟨-, _, -, rfl⟩ | ⟨-, rfl⟩ <;> exact ⟨rfl, rfl⟩

/-- After a boundary a sample is open, and the rest of the working state is legal (R381). -/
theorem beginSample_ok {c : Config.Caps} (hc : c.Legal) {opens : Bool} {stamp : Option Stamp}
    {d d' : Dmx} (hd : TsOk c d) (hopen : opens = false → d.trk.opened.isSome)
    (h : beginSample c opens stamp d = .ok d') :
    TsBase c d' ∧ d'.trk.vPid = d.trk.vPid ∧ ∃ o, d'.trk.opened = some o := by
  unfold beginSample at h
  cases opens with
  | true =>
    simp only [if_true, bind_ok, pure, Except.pure, Except.ok.injEq] at h
    obtain ⟨e, he, rfl⟩ := h
    exact ⟨(closeOpen_ok hc hd he).1.toTsBase.withOpened _, (closeOpen_vPid he).1, _, rfl⟩
  | false =>
    simp only [Bool.false_eq_true, if_false, Except.ok.injEq] at h
    subst h
    exact ⟨hd.toTsBase, rfl, Option.isSome_iff_exists.1 (hopen rfl)⟩

/-- One unit keeps the working state legal (R380). -/
theorem videoUnit_ok {c : Config.Caps} (hc : c.Legal) {opens : Bool} {stamp : Option Stamp}
    {ty : Nat} {unit : Bytes} {d d' : Dmx} (hd : TsOk c d) (hv : d.trk.vPid.known = true)
    (hopen : opens = false → d.trk.opened.isSome)
    (h : videoUnit c opens stamp ty unit d = .ok d') : TsOk c d' ∧ d'.trk.vPid.known = true := by
  obtain ⟨e, he, h⟩ := bind_ok.1 h
  obtain ⟨b1, b2, o, ho⟩ := beginSample_ok hc hd hopen he
  obtain ⟨c1, c2, c3⟩ := capture_ok (ty := ty) (unit := unit) b1 (by rw [b2]; exact hv)
  obtain ⟨a1, a2, rfl⟩ := (appendUnit_ok (c2.trans ho)).1 h
  refine ⟨⟨c1.withOpened _, ?_⟩, by simpa [c3, b2] using hv⟩
  intro o' ho'
  simp only [Option.some.injEq] at ho'
  subst ho'
  exact ⟨a1, a2, by simp⟩

/-- The loop over the units of a video PES keeps the working state legal (R380). -/
theorem videoUnits_ok {c : Config.Caps} (hc : c.Legal) {has : Bool} {stamp : Stamp} {pl : Bytes}
    {us : List NalUnit} {avail first : Bool} {d d' : Dmx} (hd : TsOk c d)
    (hv : d.trk.vPid.known = true)
    (h : videoUnits c has stamp pl us avail first d = .ok d') :
    TsOk c d' ∧ d'.trk.vPid.known = true := by
  induction us generalizing d avail first with
  | nil =>
    simp only [videoUnits, Except.ok.injEq] at h
    subst h
    exact ⟨hd, hv⟩
  | cons x rest ih =>
    simp only [videoUnits] at h
    split at h
    · exact ih hd hv h
    · obtain ⟨e, he, h⟩ := bind_ok.1 h
      obtain ⟨h1, h2⟩ := videoUnit_ok hc hd hv (fun ho => by
        simp only [opensSample, Bool.or_eq_false_iff] at ho
        simpa using ho.2) he
      exact ih h1 h2 h

end Sys2Proof.Machine
end

