-- ==== Sys2Proof/Laws/TsCall.lean ====
section
/-! SUPPORT. The rest of a TS_DEMUX or TS_FLUSH call: audio, PES packets, pending buffers and the dispatcher
keep the working state legal. -/

namespace Sys2Proof.Machine

/-! ### Audio -/

/-- Emitting the frames of an audio PES keeps the queues legal (46_ts_demux R395). -/
theorem emitFrames_outOk {c : Config.Caps} {p0 : Int} {rate : Nat} {pl : Bytes} {fs : List Frame}
    {n k : Nat} {o o' : Outputs} (ho : o.Ok c)
    (h : emitFrames c p0 rate pl fs n o = .ok (o', k)) : o'.Ok c := by
  induction fs generalizing n o with
  | nil =>
    simp only [emitFrames, Except.ok.injEq, Prod.mk.injEq] at h
    exact h.1 ▸ ho
  | cons f rest ih =>
    simp only [emitFrames] at h
    obtain ⟨o1, h1, h⟩ := bind_ok.1 h
    exact ih (emitAudio_outOk ho h1) h

/-- An audio configuration keeps the working state legal when its rate is not 0 and its bytes fit. -/
theorem TsOk.withAudio {c : Config.Caps} {d : Dmx} (h : TsOk c d) {rate ch info : Word64} {cfg : Bytes}
    (hr : rate ≠ 0) (hcfg : cfg.length ≤ Config.acfgCap) :
    TsOk c { d with trk := { d.trk with
      aRate := rate, aChannels := ch, aInfo := info, acfg := cfg, aExists := true } } := by
  obtain ⟨⟨b1, b2, b3⟩, b4⟩ := h
  exact ⟨⟨⟨b1.tsRem, b1.flvRem, b1.pendV, b1.pendA, b1.fifoLen, b1.fifoPackets, by simp, by simp,
      b1.psLen, b1.psBytes, hcfg, b1.haveSps, b1.havePps, b1.haveVps, fun _ => hr⟩,
    ⟨⟨b2.idle.flvHdr, b2.idle.flvRem, b2.idle.vLensize⟩, b2.exists_, b2.early⟩, b3⟩, b4⟩

/-- A number below 2^24 other than 0 is a register value other than 0. -/
theorem ofNat_ne_zero {n : Nat} (h : 0 < n) (h' : n < 2 ^ 24) : BitVec.ofNat 64 n ≠ 0 := by
  intro hz
  have := congrArg BitVec.toNat hz
  simp only [BitVec.toNat_ofNat] at this
  rw [Nat.mod_eq_of_lt (by omega)] at this
  simp at this
  omega

/-- The configuration that the first frame gives keeps the working state legal (46_ts_demux R396). -/
theorem scanAudio_ok {c : Config.Caps} {pl : Bytes} {d : Dmx} (h : TsOk c d) :
    TsOk c { d with trk := (scanAudio pl d.trk).2.2 d.trk } ∧
      ((scanAudio pl d.trk).2.2 d.trk).vPid = d.trk.vPid := by
  unfold scanAudio
  split
  · simp only
    cases hx : (adtsFrames pl 0 0).first with
    | none => exact ⟨h, rfl⟩
    | some x =>
      refine ⟨h.withAudio ?_ (by simp [Config.acfgCap]), rfl⟩
      obtain ⟨h1, h2⟩ := aacRate_pos (adtsFrames_first hx)
      exact ofNat_ne_zero h1 h2
  · simp only
    cases hx : (mpaFrames pl 0 0).first with
    | none => exact ⟨h, rfl⟩
    | some x =>
      refine ⟨h.withAudio ?_ (by simp), rfl⟩
      obtain ⟨h1, h2⟩ := mpaFrames_first hx
      exact ofNat_ne_zero h1 (by omega)

/-- Setting A_NEXT and the queues keeps the working state legal. -/
theorem TsOk.withANext {c : Config.Caps} {d : Dmx} (h : TsOk c d) (x : Option Word64) {o : Outputs}
    (ho : o.Ok c) : TsOk c { trk := { d.trk with aNext := x }, out := o } := by
  obtain ⟨⟨b1, b2, b3⟩, b4⟩ := h
  exact ⟨⟨⟨b1.tsRem, b1.flvRem, b1.pendV, b1.pendA, b1.fifoLen, b1.fifoPackets, by simp, by simp,
      b1.psLen, b1.psBytes, b1.acfg, b1.haveSps, b1.havePps, b1.haveVps, b1.rate⟩,
    ⟨⟨b2.idle.flvHdr, b2.idle.flvRem, b2.idle.vLensize⟩, b2.exists_, b2.early⟩, ho⟩, b4⟩

/-- An audio PES keeps the working state legal (46_ts_demux R395). -/
theorem audioPes_ok {c : Config.Caps} {has : Bool} {pts : Nat} {pl : Bytes} {d d' : Dmx}
    (hd : TsOk c d) (h : audioPes c has pts pl d = .ok d') :
    TsOk c d' ∧ d'.trk.vPid = d.trk.vPid := by
  simp only [audioPes] at h
  have h2 : TsOk c (noteAudio (scanAudio pl d.trk).2.1 (scanAudio pl d.trk).2.2 d) ∧
      (noteAudio (scanAudio pl d.trk).2.1 (scanAudio pl d.trk).2.2 d).trk.vPid = d.trk.vPid := by
    unfold noteAudio
    simp only
    generalize he : (if d.trk.aExists = true then d
      else { d with trk := (scanAudio pl d.trk).2.2 d.trk }) = e
    have h1 : TsOk c e ∧ e.trk.vPid = d.trk.vPid := by
      rw [← he]
      split
      · exact ⟨hd, rfl⟩
      · exact scanAudio_ok hd
    split
    · exact ⟨h1.1.withCnt _ (countABroken_trk e) rfl, h1.2⟩
    · exact h1
  generalize noteAudio (scanAudio pl d.trk).2.1 (scanAudio pl d.trk).2.2 d = f at h h2
  unfold emitAudioPes at h
  split at h
  · simp only [Except.ok.injEq] at h
    subst h
    exact ⟨h2.1.withCnt _ (countDropped_trk _ f) rfl, h2.2⟩
  · obtain ⟨⟨o, k⟩, ho, h⟩ := bind_ok.1 h
    simp only [pure, Except.pure, Except.ok.injEq] at h
    subst h
    exact ⟨h2.1.withANext _ (emitFrames_outOk h2.1.out ho), h2.2⟩

/-! ### PES packets and pending buffers -/

/-- Flushing a PES keeps the working state legal (46_ts_demux R379). -/
theorem flushPes_ok {c : Config.Caps} (hc : c.Legal) {st : Stream} {p : Bytes} {d d' : Dmx}
    (hd : TsOk c d) (hv : st = .video → d.trk.vPid.known = true) (h : flushPes c st p d = .ok d') :
    TsOk c d' ∧ (d.trk.vPid.known = true → d'.trk.vPid.known = true) ∧
      (st = .audio → d'.trk.vPid = d.trk.vPid) := by
  unfold flushPes at h
  split at h
  · simp only [Except.ok.injEq] at h
    subst h
    exact ⟨hd.withCnt _ (countBadPes_trk d) rfl, id, fun _ => rfl⟩
  · cases st with
    | video =>
      obtain ⟨h1, h2⟩ := videoUnits_ok hc hd (hv rfl) h
      exact ⟨h1, fun _ => h2, by simp⟩
    | audio =>
      obtain ⟨h1, h2⟩ := audioPes_ok hd h
      exact ⟨h1, by rw [h2]; exact id, fun _ => h2⟩

/-- Setting a pending buffer within PEND_CAP keeps the working state legal (46_ts_demux R371). -/
theorem TsOk.withPending {c : Config.Caps} {st : Stream} {d : Dmx} (h : TsOk c d) {x : Option Bytes}
    (hx : ∀ p, x = some p → p.length ≤ c.pendCap)
    (hv : st = .video → x ≠ none → d.trk.vPid.known = true) : TsOk c (setPending st x d) := by
  obtain ⟨⟨b1, b2, b3⟩, b4⟩ := h
  cases st with
  | video =>
    refine ⟨⟨⟨b1.tsRem, b1.flvRem, hx, b1.pendA, b1.fifoLen, b1.fifoPackets, by simp, by simp,
      b1.psLen, b1.psBytes, b1.acfg, b1.haveSps, b1.havePps, b1.haveVps, b1.rate⟩,
      ⟨⟨b2.idle.flvHdr, b2.idle.flvRem, b2.idle.vLensize⟩, b2.exists_, ?_⟩, b3⟩, b4⟩
    intro hk
    refine ⟨?_, (b2.early hk).2⟩
    by_contra hne
    have := (hv rfl hne).symm.trans hk
    cases this
  | audio =>
    exact ⟨⟨⟨b1.tsRem, b1.flvRem, b1.pendV, hx, b1.fifoLen, b1.fifoPackets, by simp, by simp,
      b1.psLen, b1.psBytes, b1.acfg, b1.haveSps, b1.havePps, b1.haveVps, b1.rate⟩,
      ⟨⟨b2.idle.flvHdr, b2.idle.flvRem, b2.idle.vLensize⟩, b2.exists_, b2.early⟩, b3⟩, b4⟩

/-- A pending video buffer means that the video PID is known. -/
theorem TsOk.pendVideo {c : Config.Caps} {d : Dmx} (h : TsOk c d) {p : Bytes}
    (hp : d.trk.pendV = some p) : d.trk.vPid.known = true := by
  by_contra hk
  simp only [Bool.not_eq_true] at hk
  rw [(h.mode.early hk).1] at hp
  cases hp

/-- Flushing a stream's pending buffer keeps the working state legal (46_ts_demux R370, R400). -/
theorem flushPending_ok {c : Config.Caps} (hc : c.Legal) {st : Stream} {d d' : Dmx} (hd : TsOk c d)
    (h : flushPending c st d = .ok d') :
    TsOk c d' ∧ (d.trk.vPid.known = true → d'.trk.vPid.known = true) ∧
      (st = .audio → d'.trk.vPid = d.trk.vPid) := by
  unfold flushPending at h
  split at h
  · simp only [Except.ok.injEq] at h; subst h; exact ⟨hd, id, fun _ => rfl⟩
  · rename_i p hp
    split at h
    · simp only [Except.ok.injEq] at h; subst h; exact ⟨hd, id, fun _ => rfl⟩
    · exact flushPes_ok hc hd (by rintro rfl; exact hd.pendVideo hp) h

/-- A packet of an elementary stream keeps the working state legal (46_ts_demux R370). -/
theorem esPacket_ok {c : Config.Caps} (hc : c.Legal) {st : Stream} {pusi : Bool} {pl : Bytes}
    {d d' : Dmx} (hd : TsOk c d) (hv : st = .video → d.trk.vPid.known = true)
    (h : esPacket c st pusi pl d = .ok d') : TsOk c d' := by
  unfold esPacket at h
  split at h
  · simp only [bind_ok, checkCap_ok, pure, Except.pure, Except.ok.injEq] at h
    obtain ⟨e, he, -, hlen, rfl⟩ := h
    obtain ⟨h1, h2, -⟩ := flushPending_ok hc hd he
    exact h1.withPending (by simpa using hlen) (fun hst _ => h2 (hv hst))
  · split at h
    · simp only [Except.ok.injEq] at h; subst h; exact hd
    · simp only [bind_ok, checkCap_ok, pure, Except.pure, Except.ok.injEq] at h
      obtain ⟨-, hlen, rfl⟩ := h
      exact hd.withPending (by simpa using hlen) (fun hst _ => hv hst)

/-! ### The dispatcher -/

/-- Setting the PMT PID keeps the working state legal. -/
theorem TsOk.withPmt {c : Config.Caps} {d : Dmx} (h : TsOk c d) (x : PmtPid) :
    TsOk c { d with trk := { d.trk with pmtPid := x } } := by
  obtain ⟨⟨b1, b2, b3⟩, b4⟩ := h
  exact ⟨⟨⟨b1.tsRem, b1.flvRem, b1.pendV, b1.pendA, b1.fifoLen, b1.fifoPackets, by simp, by simp,
      b1.psLen, b1.psBytes, b1.acfg, b1.haveSps, b1.havePps, b1.haveVps, b1.rate⟩,
    ⟨⟨b2.idle.flvHdr, b2.idle.flvRem, b2.idle.vLensize⟩, b2.exists_, b2.early⟩, b3⟩, b4⟩

/-- A stream of the PMT keeps the working state legal (46_ts_demux R368). -/
theorem TsOk.withStream {c : Config.Caps} {d : Dmx} (h : TsOk c d) (x : Nat × Nat) :
    TsOk c { d with trk := classify d.trk x } := by
  obtain ⟨st, epid⟩ := x
  have h0 := h
  obtain ⟨⟨b1, b2, b3⟩, b4⟩ := h
  unfold classify
  simp only
  split
  · rename_i hv
    refine ⟨⟨⟨b1.tsRem, b1.flvRem, b1.pendV, b1.pendA, b1.fifoLen, b1.fifoPackets, by simp, by simp,
      b1.psLen, b1.psBytes, b1.acfg, b1.haveSps, b1.havePps, b1.haveVps, b1.rate⟩,
      ⟨⟨b2.idle.flvHdr, b2.idle.flvRem, b2.idle.vLensize⟩, ?_, by simp⟩, b3⟩, b4⟩
    have he := b2.early (by simpa using hv.2)
    have hx := b2.exists_
    simp only [he.2.1, Bool.false_and] at hx ⊢
    exact hx
  · split
    · exact ⟨⟨⟨b1.tsRem, b1.flvRem, b1.pendV, b1.pendA, b1.fifoLen, b1.fifoPackets, by simp, by simp,
        b1.psLen, b1.psBytes, b1.acfg, b1.haveSps, b1.havePps, b1.haveVps, b1.rate⟩,
        ⟨⟨b2.idle.flvHdr, b2.idle.flvRem, b2.idle.vLensize⟩, b2.exists_, b2.early⟩, b3⟩, b4⟩
    · exact h0

/-- The streams of a PMT keep the working state legal (46_ts_demux R367). -/
theorem TsOk.withStreams {c : Config.Caps} {d : Dmx} (h : TsOk c d) (xs : List (Nat × Nat)) :
    TsOk c { d with trk := xs.foldl classify d.trk } := by
  induction xs generalizing d with
  | nil => exact h
  | cons x rest ih => exact ih (h.withStream x)

/-- The FIFO of whole packets keeps the working state legal (46_ts_demux R360). -/
theorem TsOk.withFifo {c : Config.Caps} {d : Dmx} (h : TsOk c d) {x : List Bytes}
    (h1 : x.length ≤ c.fifoCap) (h2 : ∀ k ∈ x, k.length = 188) :
    TsOk c { d with trk := { d.trk with fifo := x } } := by
  obtain ⟨⟨b1, b2, b3⟩, b4⟩ := h
  exact ⟨⟨⟨b1.tsRem, b1.flvRem, b1.pendV, b1.pendA, h1, h2, by simp, by simp,
      b1.psLen, b1.psBytes, b1.acfg, b1.haveSps, b1.havePps, b1.haveVps, b1.rate⟩,
    ⟨⟨b2.idle.flvHdr, b2.idle.flvRem, b2.idle.vLensize⟩, b2.exists_, b2.early⟩, b3⟩, b4⟩

/-- Pushing a whole packet keeps the working state legal (46_ts_demux R360). -/
theorem fifoPush_ok {c : Config.Caps} {k : Bytes} (hk : k.length = 188) {d : Dmx} (hd : TsOk c d) :
    TsOk c (fifoPush c k d) := by
  unfold fifoPush
  split
  · rename_i hl
    refine hd.withFifo (by simpa using hl) ?_
    intro x hx
    simp only [List.mem_append, List.mem_singleton] at hx
    rcases hx with hx | rfl
    · exact hd.trk.fifoPackets x hx
    · exact hk
  · exact hd.withCnt _ (countUnresDrop_trk d) rfl

/-- A packet handler that keeps the working state legal. -/
def Keeps (c : Config.Caps) (f : Dmx → Except Err Dmx) : Prop :=
  ∀ d d', TsOk c d → f d = .ok d' → TsOk c d'

/-- The dispatcher keeps the working state legal when its redispatch does (46_ts_demux R355). -/
theorem dispatchWith_keeps {c : Config.Caps} (hc : c.Legal) {f : Dmx → Except Err Dmx}
    (hf : Keeps c f) {k : Bytes} (hk : k.length = 188) : Keeps c (dispatchWith f c k) := by
  intro d d' hd h
  unfold dispatchWith at h
  simp only at h
  have ret : ∀ {e : Dmx}, Except.ok e = (Except.ok d' : Except Err Dmx) → TsOk c e → TsOk c d' := by
    rintro e he ho
    simp only [Except.ok.injEq] at he
    exact he ▸ ho
  split at h
  · exact ret h hd
  split at h
  · exact ret h hd
  split at h
  · split at h
    · split at h
      · exact ret h hd
      · exact hf _ _ (hd.withPmt _) h
    · exact ret h hd
  split at h
  · split at h
    · split at h
      · exact ret h hd
      · rename_i streams _
        exact hf _ _ ((hd.withStreams streams).withPmt _) h
    · exact ret h hd
  split at h
  · split at h
    · rename_i hv
      simp only [Bool.and_eq_true] at hv
      exact esPacket_ok hc hd (fun _ => hv.1) h
    · split at h
      · exact esPacket_ok hc hd (by simp) h
      · exact ret h hd
  · exact ret h (fifoPush_ok hk hd)

/-- A loop over whole packets keeps the working state legal when each does. -/
theorem foldlM_keeps {c : Config.Caps} {f : Bytes → Dmx → Except Err Dmx}
    (hf : ∀ k, k.length = 188 → Keeps c (f k)) {ks : List Bytes} (hks : ∀ k ∈ ks, k.length = 188)
    {d d' : Dmx} (hd : TsOk c d) (h : ks.foldlM (fun d k => f k d) d = .ok d') : TsOk c d' := by
  induction ks generalizing d with
  | nil =>
    simp only [List.foldlM_nil, pure, Except.pure, Except.ok.injEq] at h
    exact h ▸ hd
  | cons k rest ih =>
    rw [List.foldlM_cons] at h
    obtain ⟨e, he, h⟩ := bind_ok.1 h
    exact ih (fun x hx => hks x (by simp [hx])) (hf k (hks k (by simp)) _ _ hd he) h

/-- A redispatch keeps the working state legal when each packet does (46_ts_demux R361). -/
theorem redispatchWith_keeps {c : Config.Caps} {f : Bytes → Dmx → Except Err Dmx}
    (hf : ∀ k, k.length = 188 → Keeps c (f k)) : Keeps c (redispatchWith f) := by
  intro d d' hd h
  exact foldlM_keeps hf hd.trk.fifoPackets (hd.withFifo (x := []) (by simp) (by simp)) h

theorem dispatchParsed_keeps {c : Config.Caps} (hc : c.Legal) (k : Bytes) (hk : k.length = 188) :
    Keeps c (dispatchParsed c k) :=
  dispatchWith_keeps hc (fun _ _ hd h => by simp only [Except.ok.injEq] at h; exact h ▸ hd) hk

theorem dispatchKnown_keeps {c : Config.Caps} (hc : c.Legal) (k : Bytes) (hk : k.length = 188) :
    Keeps c (dispatchKnown c k) :=
  dispatchWith_keeps hc (redispatchWith_keeps (dispatchParsed_keeps hc)) hk

/-- A packet keeps the working state legal (46_ts_demux R355). -/
theorem dispatch_keeps {c : Config.Caps} (hc : c.Legal) (k : Bytes) (hk : k.length = 188) :
    Keeps c (dispatch c k) :=
  dispatchWith_keeps hc (redispatchWith_keeps (dispatchKnown_keeps hc)) hk

/-- The packets of a call keep the working state legal (46_ts_demux R350). -/
theorem dispatchAll_ok {c : Config.Caps} (hc : c.Legal) {ks : List Bytes}
    (hks : ∀ k ∈ ks, k.length = 188) {d d' : Dmx} (hd : TsOk c d)
    (h : dispatchAll c ks d = .ok d') : TsOk c d' :=
  foldlM_keeps (dispatch_keeps hc) hks hd h

/-- Every packet of a call is whole (46_ts_demux R350). -/
theorem packets_length {n : Nat} {d : Bytes} (h : n * 188 ≤ d.length) :
    ∀ k ∈ packets n d, k.length = 188 := by
  induction n generalizing d with
  | zero => simp [packets]
  | succ n ih =>
    intro k hk
    simp only [packets, List.mem_cons] at hk
    rcases hk with rfl | hk
    · rw [List.length_take]; omega
    · exact ih (by rw [List.length_drop]; omega) k hk

/-- The end of a stream in TS_FLUSH keeps the working state legal (46_ts_demux R400). -/
theorem drainPending_ok {c : Config.Caps} (hc : c.Legal) {st : Stream} {d d' : Dmx} (hd : TsOk c d)
    (h : drainPending c st d = .ok d') : TsOk c d' ∧ pending st d' = none := by
  simp only [drainPending, bind_ok, pure, Except.pure, Except.ok.injEq] at h
  obtain ⟨e, he, rfl⟩ := h
  exact ⟨(flushPending_ok hc hd he).1.withPending (by simp) (by simp), by cases st <;> rfl⟩

end Sys2Proof.Machine
end

