-- ==== Sys2Proof/Laws/FlvOk.lean ====
section
/-! SUPPORT. What the parts of an FLV_DEMUX call can do, and that each keeps the working state legal. -/

namespace Sys2Proof.Machine

/-- The working state of an FLV call is legal. -/
structure FlvOk (c : Config.Caps) (d : Dmx) : Prop where
  trk : d.trk.Ok c
  mode : d.trk.FlvMode
  out : d.out.Ok c

/-- A counter that FLV_DEMUX writes keeps the working state legal. -/
theorem FlvOk.countCfgFail {c : Config.Caps} {d : Dmx} (h : FlvOk c d) :
    FlvOk c (countCfgFail d) := by
  obtain ⟨a, ⟨i, w⟩, o⟩ := h
  exact ⟨⟨a.tsRem, a.flvRem, a.pendV, a.pendA, a.fifoLen, a.fifoPackets, a.openBytes, a.openUnits,
      a.psLen, a.psBytes, a.acfg, a.haveSps, a.havePps, a.haveVps, a.rate⟩,
    ⟨⟨i.pmtPid, i.vPid, i.aPid, i.tsRem, i.pendV, i.pendA, i.fifo, i.opened, i.lastV, i.aNext,
      i.dropped, i.badPes, i.aBroken, i.unresDrop⟩, w⟩, o⟩

theorem FlvOk.countMissCfg {c : Config.Caps} {d : Dmx} (h : FlvOk c d) :
    FlvOk c (countMissCfg d) := by
  obtain ⟨a, ⟨i, w⟩, o⟩ := h
  exact ⟨⟨a.tsRem, a.flvRem, a.pendV, a.pendA, a.fifoLen, a.fifoPackets, a.openBytes, a.openUnits,
      a.psLen, a.psBytes, a.acfg, a.haveSps, a.havePps, a.haveVps, a.rate⟩,
    ⟨⟨i.pmtPid, i.vPid, i.aPid, i.tsRem, i.pendV, i.pendA, i.fifo, i.opened, i.lastV, i.aNext,
      i.dropped, i.badPes, i.aBroken, i.unresDrop⟩, w⟩, o⟩

/-- A parsed AudioSpecificConfig has a rate (45_audio R301). -/
theorem asc_rate {r : Bytes} {a : AscInfo} (h : asc r = .ok a) : 0 < a.rate ∧ a.rate < 2 ^ 24 := by
  obtain ⟨c, h⟩ := parseBytes_ok.1 h
  simp only [ascBits, bitP_bind_ok, demand_ok, bitP_pure] at h
  obtain ⟨ty, c2, -, rate, c4, hrate, -, c5, ⟨hne, -⟩, ch, c6, -, rfl, -⟩ := h
  simp only [ne_eq, decide_not, Bool.not_eq_true', decide_eq_false_iff_not] at hne
  refine ⟨Nat.pos_of_ne_zero hne, ?_⟩
  unfold ascRate at hrate
  obtain ⟨idx, c7, -, hrate⟩ := bitP_bind_ok.1 hrate
  split at hrate
  · exact u_lt hrate
  · simp only [bitP_bind_ok, demand_ok, bitP_pure, decide_eq_true_eq] at hrate
    obtain ⟨-, -, ⟨hi, -⟩, rfl, -⟩ := hrate
    exact (aacRate_pos (by omega)).2

/-- Configuring the audio track keeps the working state legal (47_flv_demux R421, R424). -/
theorem flvAudioConfig_ok {c : Config.Caps} {cfg : Bytes} {d : Dmx} (h : FlvOk c d) :
    FlvOk c (flvAudioConfig cfg d) := by
  unfold flvAudioConfig
  split
  · exact h
  split
  · exact h.countCfgFail
  rename_i x hx
  split
  · exact h.countCfgFail
  rename_i hl
  obtain ⟨h1, h2⟩ := asc_rate hx
  obtain ⟨a, ⟨i, w⟩, o⟩ := h
  exact ⟨⟨a.tsRem, a.flvRem, a.pendV, a.pendA, a.fifoLen, a.fifoPackets, a.openBytes, a.openUnits,
      a.psLen, a.psBytes, by simpa using hl, a.haveSps, a.havePps, a.haveVps,
      fun _ => ofNat_ne_zero h1 h2⟩,
    ⟨⟨i.pmtPid, i.vPid, i.aPid, i.tsRem, i.pendV, i.pendA, i.fifo, i.opened, i.lastV, i.aNext,
      i.dropped, i.badPes, i.aBroken, i.unresDrop⟩, w⟩, o⟩

/-- A record's length-prefix width is 1 to 4 (43_avc_paramsets R240, 44_hevc_paramsets R280). -/
theorem record_lensize {parse : Bytes → Except Err RecordInfo} {r : Bytes} {x : RecordInfo}
    (hp : parse = avcc ∨ parse = hvcc) (h : parse r = .ok x) : 1 ≤ x.lensize ∧ x.lensize ≤ 4 := by
  rcases hp with rfl | rfl
  · simp only [avcc, bind_ok, pure, Except.pure, Except.ok.injEq] at h
    obtain ⟨-, -, -, -, -, -, -, -, -, -, rfl⟩ := h
    simp only
    omega
  · simp only [hvcc, bind_ok, pure, Except.pure, Except.ok.injEq] at h
    obtain ⟨-, -, -, -, -, -, rfl⟩ := h
    simp only
    omega

/-- The stored bytes of a record's parameter sets are no more than its entries say (47_flv_demux R428). -/
theorem length_recordPs (cfg : Bytes) (es : List RecordEntry) :
    (psBytes (recordPs cfg es)).length ≤ recordLen es := by
  induction es with
  | nil => simp [psBytes, recordPs, recordLen]
  | cons e rest ih =>
    simp only [psBytes, recordPs, recordLen, List.map_cons, List.flatMap_cons, List.length_append,
      List.sum_cons] at *
    have : (slice cfg e.start e.len).length ≤ e.len := by simp [slice]
    omega

/-- The kinds in the store are those of the record. -/
theorem recordPs_any (cfg : Bytes) (es : List RecordEntry) (k : PsKind) :
    (recordPs cfg es).any (fun e => e.kind = k) = es.any (fun e => e.kind = k) := by
  simp [recordPs, List.any_map, Function.comp_def]

/-- Configuring the video track keeps the working state legal (47_flv_demux R428, R429). -/
theorem flvVideoConfig_ok {c : Config.Caps} {fam : VCodec} {cfg : Bytes} {d : Dmx} (h : FlvOk c d) :
    FlvOk c (flvVideoConfig c fam cfg d) := by
  unfold flvVideoConfig
  split
  · exact h
  split
  · exact h.countCfgFail
  rename_i x hx
  split
  · exact h.countCfgFail
  rename_i hcap
  simp only [not_or, Nat.not_lt] at hcap
  have hl : 1 ≤ x.lensize ∧ x.lensize ≤ 4 := by
    split at hx
    · exact record_lensize (.inl rfl) hx
    · exact record_lensize (.inr rfl) hx
  obtain ⟨a, ⟨i, w⟩, o⟩ := h
  refine ⟨⟨a.tsRem, a.flvRem, a.pendV, a.pendA, a.fifoLen, a.fifoPackets, a.openBytes, a.openUnits,
      by simpa [recordPs] using hcap.1, le_trans (length_recordPs cfg x.ents) hcap.2, a.acfg,
      (recordPs_any cfg x.ents .sps).symm, (recordPs_any cfg x.ents .pps).symm,
      (recordPs_any cfg x.ents .vps).symm, a.rate⟩,
    ⟨⟨i.pmtPid, i.vPid, i.aPid, i.tsRem, i.pendV, i.pendA, i.fifo, i.opened, i.lastV, i.aNext,
      i.dropped, i.badPes, i.aBroken, i.unresDrop⟩, ?_⟩, o⟩
  intro _
  simp only [BitVec.toNat_ofNat]
  omega

/-- New queues keep the working state legal when they are legal. -/
theorem FlvOk.withOut {c : Config.Caps} {d : Dmx} (h : FlvOk c d) {o : Outputs} (ho : o.Ok c) :
    FlvOk c { d with out := o } := ⟨h.trk, h.mode, ho⟩

/-- A tag keeps the working state legal (47_flv_demux R415). -/
theorem flvTag_ok {c : Config.Caps} (hc : c.Legal) {t : Bytes} {d d' : Dmx} (hd : FlvOk c d)
    (h : flvTag c t d = .ok d') : FlvOk c d' := by
  have ret : ∀ {e : Dmx}, Except.ok e = (Except.ok d' : Except Err Dmx) → FlvOk c e → FlvOk c d' := by
    rintro e he ho
    simp only [Except.ok.injEq] at he
    exact he ▸ ho
  unfold flvTag at h
  split at h
  · unfold flvAudioTag at h
    split at h
    · exact ret h hd
    split at h
    · exact ret h (flvAudioConfig_ok hd)
    split at h
    · unfold flvAudioFrame at h
      split at h
      · simp only [bind_ok, pure, Except.pure, Except.ok.injEq] at h
        obtain ⟨o, ho, rfl⟩ := h
        exact hd.withOut (emitAudio_outOk hd.out ho)
      · exact ret h hd.countMissCfg
    · exact ret h hd
  split at h
  · unfold flvVideoTag at h
    simp only at h
    split at h
    · exact ret h hd
    split at h
    · exact ret h hd
    split at h
    · exact ret h hd
    split at h
    · exact ret h (flvVideoConfig_ok hd)
    split at h
    · unfold flvVideoFrame at h
      simp only at h
      split at h
      · split at h
        · exact ret h hd
        · rename_i hne
          simp only [bind_ok, pure, Except.pure, Except.ok.injEq] at h
          obtain ⟨o, ho, rfl⟩ := h
          exact hd.withOut (emitVideo_outOk hc (by simpa using hne) hd.out ho)
      · exact ret h hd.countMissCfg
    · exact ret h hd
  · exact ret h hd

/-- The tag scan keeps the working state legal (47_flv_demux R413). -/
theorem flvTags_ok {c : Config.Caps} (hc : c.Legal) {fuel : Nat} {b rest : Bytes} {d d' : Dmx}
    (hd : FlvOk c d) (h : flvTags c fuel b d = .ok (rest, d')) : FlvOk c d' := by
  induction fuel generalizing b d with
  | zero =>
    simp only [flvTags, Except.ok.injEq, Prod.mk.injEq] at h
    exact h.2 ▸ hd
  | succ fuel ih =>
    simp only [flvTags] at h
    split at h
    · simp only [Except.ok.injEq, Prod.mk.injEq] at h
      exact h.2 ▸ hd
    split at h
    · simp only [Except.ok.injEq, Prod.mk.injEq] at h
      exact h.2 ▸ hd
    obtain ⟨e, he, h⟩ := bind_ok.1 h
    exact ih (flvTag_ok hc hd he) h

/-- The body of a call keeps the working state legal (47_flv_demux R410). -/
theorem flvBody_ok {c : Config.Caps} (hc : c.Legal) {b rest : Bytes} {d d' : Dmx}
    (hd : FlvOk c d) (h : flvBody c b d = .ok (rest, d')) : FlvOk c d' := by
  have hhdr : FlvOk c { d with trk := { d.trk with flvHdr := true } } := by
    obtain ⟨a, ⟨i, w⟩, o⟩ := hd
    exact ⟨⟨a.tsRem, a.flvRem, a.pendV, a.pendA, a.fifoLen, a.fifoPackets, a.openBytes, a.openUnits,
        a.psLen, a.psBytes, a.acfg, a.haveSps, a.havePps, a.haveVps, a.rate⟩,
      ⟨⟨i.pmtPid, i.vPid, i.aPid, i.tsRem, i.pendV, i.pendA, i.fifo, i.opened, i.lastV, i.aNext,
        i.dropped, i.badPes, i.aBroken, i.unresDrop⟩, w⟩, o⟩
  unfold flvBody at h
  split at h
  · exact flvTags_ok hc hhdr h
  split at h
  · simp only [Except.ok.injEq, Prod.mk.injEq] at h; exact h.2 ▸ hd
  split at h
  · simp only [Except.ok.injEq, Prod.mk.injEq] at h; exact h.2 ▸ hd
  exact flvTags_ok hc hhdr h

end Sys2Proof.Machine
end

