-- ==== Sys2Proof/Laws/Memory.lean ====
section
/-! SUPPORT. The laws of IN: a write is read back, every other byte is as before, the canonical form is
kept, and a range is its bytes one by one. -/

namespace Sys2Proof.Machine

/-- Every address of a written memory was listed before or is the written one. -/
theorem mem_memWrite {m : Memory} {a : Nat} {b : Byte} {c : Host.Cell} (h : c ∈ memWrite m a b) :
    c ∈ m ∨ c = (a, b) := by
  induction m with
  | nil => simp [memWrite] at h; exact .inr h
  | cons x rest ih =>
    obtain ⟨k, d⟩ := x
    simp only [memWrite] at h
    split at h
    · simp only [List.mem_cons] at h ⊢; tauto
    · split at h
      · simp only [List.mem_cons] at h ⊢; tauto
      · simp only [List.mem_cons] at h ⊢
        rcases h with h | h
        · exact .inl (.inl h)
        · rcases ih h with h | h
          · exact .inl (.inr h)
          · exact .inr h

/-- A write keeps the canonical form (log 14). -/
theorem memWrite_wf {m : Memory} (h : m.wf) (a : Nat) (b : Byte) : Memory.wf (memWrite m a b) := by
  induction m with
  | nil => simp [memWrite, Memory.wf]
  | cons x rest ih =>
    obtain ⟨k, d⟩ := x
    rw [Memory.wf, List.pairwise_cons] at h
    simp only [memWrite]
    split <;> rename_i hlt
    · rw [Memory.wf, List.pairwise_cons, List.pairwise_cons]
      refine ⟨?_, h⟩
      intro c hc
      rcases List.mem_cons.1 hc with rfl | hc
      · exact hlt
      · exact lt_trans hlt (h.1 c hc)
    · split <;> rename_i heq
      · subst heq
        rw [Memory.wf, List.pairwise_cons]
        exact h
      · rw [Memory.wf, List.pairwise_cons]
        refine ⟨?_, ih h.2⟩
        intro c hc
        rcases mem_memWrite hc with hc | rfl
        · exact h.1 c hc
        · show k < a
          omega

/-- What a write leaves at each address. -/
theorem memLookup_memWrite (m : Memory) (a x : Nat) (b : Byte) :
    memLookup (memWrite m a b) x = if x = a then some b else memLookup m x := by
  induction m with
  | nil => simp [memWrite, memLookup, eq_comm]
  | cons y rest ih =>
    obtain ⟨k, d⟩ := y
    simp only [memWrite]
    by_cases h1 : a < k
    · simp only [h1, if_true, memLookup]
      by_cases h2 : a = x
      · simp [h2]
      · simp [h2, eq_comm]
    · by_cases h3 : a = k
      · subst h3
        by_cases h2 : a = x
        · simp [memLookup, h2]
        · simp [memLookup, h2, eq_comm]
      · simp only [h1, h3, if_false, memLookup, ih]
        by_cases h2 : k = x
        · subst h2; simp [Ne.symm h3]
        · simp [h2]

/-- The byte written is read back (20_memory R82, R89). -/
theorem memByte_memWrite_self (m : Memory) (a : Nat) (b : Byte) : memByte (memWrite m a b) a = b := by
  simp [memByte, memLookup_memWrite]

/-- Every other byte is as before. -/
theorem memByte_memWrite_other (m : Memory) {a x : Nat} (h : x ≠ a) (b : Byte) :
    memByte (memWrite m a b) x = memByte m x := by
  simp [memByte, memLookup_memWrite, h]

/-- Below the first listed address nothing is listed. -/
theorem memLookup_none {m : Memory} {a : Nat} (h : ∀ c ∈ m, a < c.1) : memLookup m a = none := by
  induction m with
  | nil => rfl
  | cons x rest ih =>
    obtain ⟨k, d⟩ := x
    have hk : a < k := h (k, d) (by simp)
    simp only [memLookup, show ¬ k = a from by omega, if_false]
    exact ih fun c hc => h c (by simp [hc])

/-- A pass over the listed bytes reads each address (00_scope R15). -/
theorem memFrom_eq {m : Memory} (hm : m.wf) {a : Nat} (h : ∀ c ∈ m, a ≤ c.1) (n : Nat) :
    memFrom m a n = (List.range' a n).map (memByte m) := by
  induction n generalizing m a with
  | zero => cases m <;> simp [memFrom]
  | succ n ih =>
    cases m with
    | nil =>
      simp only [memFrom, List.range'_succ, List.map_cons]
      rw [ih hm (by simp)]
      rfl
    | cons x rest =>
      obtain ⟨k, d⟩ := x
      have hw := hm
      rw [Memory.wf, List.pairwise_cons] at hw
      simp only [memFrom, List.range'_succ, List.map_cons]
      have hka : a ≤ k := h (k, d) (by simp)
      split <;> rename_i hk
      · subst hk
        rw [ih hw.2 (fun c hc => hw.1 c hc)]
        congr 1
        · simp [memByte, memLookup]
        · refine List.map_congr_left fun x hx => ?_
          have : k ≠ x := by rw [List.mem_range'_1] at hx; omega
          simp [memByte, memLookup, this]
      · have hlt : ∀ c ∈ (k, d) :: rest, a < c.1 := by
          intro c hc
          rcases List.mem_cons.1 hc with rfl | hc
          · show a < k; omega
          · have := hw.1 c hc; simp only at this; omega
        rw [ih hm (fun c hc => hlt c hc)]
        congr 1
        simp only [memByte, memLookup_none hlt, Option.getD_none]

/-- Dropping the bytes below an address does not change what is listed from there on. -/
theorem memLookup_dropWhile {m : Memory} {a x : Nat} (h : a ≤ x) :
    memLookup (m.dropWhile (fun c => c.1 < a)) x = memLookup m x := by
  induction m with
  | nil => rfl
  | cons y rest ih =>
    obtain ⟨k, d⟩ := y
    simp only [List.dropWhile_cons]
    split <;> rename_i hk
    · rw [ih]
      have : ¬ k = x := by simp only [decide_eq_true_eq] at hk; omega
      simp [memLookup, this]
    · rfl

/-- `MemRead(IN, a, n)` is the bytes at `a`, `a + 1`, ... (00_scope R15). -/
theorem memRange_eq {m : Memory} (hm : m.wf) (a n : Nat) :
    memRange m a n = (List.range' a n).map (memByte m) := by
  unfold memRange
  have hw : Memory.wf (m.dropWhile (fun c => c.1 < a)) := hm.sublist (List.dropWhile_sublist _)
  have hge : ∀ c ∈ m.dropWhile (fun c => c.1 < a), a ≤ c.1 := by
    cases hd : m.dropWhile (fun c => c.1 < a) with
    | nil => simp
    | cons y rest =>
      have hy : ¬ y.1 < a := by
        have := List.head_dropWhile_not (fun c : Host.Cell => decide (c.1 < a)) (l := m)
          (by rw [hd]; simp)
        simpa [hd] using this
      intro c hc
      rw [hd, Memory.wf, List.pairwise_cons] at hw
      rcases List.mem_cons.1 hc with rfl | hc
      · omega
      · have := hw.1 c hc; omega
  rw [memFrom_eq hw hge]
  refine List.map_congr_left fun x hx => ?_
  rw [List.mem_range'_1] at hx
  simp only [memByte, memLookup_dropWhile hx.1]

/-- A read of IN has the length asked for. -/
theorem length_memFrom (m : Memory) (a n : Nat) : (memFrom m a n).length = n := by
  induction n generalizing m a with
  | zero => cases m <;> simp [memFrom]
  | succ n ih =>
    cases m with
    | nil => simp [memFrom, ih]
    | cons x rest =>
      obtain ⟨k, d⟩ := x
      simp only [memFrom]
      split <;> simp [ih]

@[simp] theorem length_memRange (m : Memory) (a n : Nat) : (memRange m a n).length = n :=
  length_memFrom _ a n

/-- The bytes of a region in bounds: as many as its length (20_memory R84). -/
theorem length_memRead {s : State} {sp : ByteSpace} {off n : Nat} (h : off + n ≤ spaceSize s sp) :
    (memRead s sp off n).length = n := by
  cases sp with
  | inp => simp [memRead]
  | rbsp => simp [memRead, spaceSize] at *; omega

/-- The host's write of one byte keeps the canonical form. -/
theorem writeWindowByte_wf {s : State} (h : s.inMem.wf) (a : Nat) (b : Byte) :
    (writeWindowByte s a b).inMem.wf := by
  unfold writeWindowByte
  split
  · exact memWrite_wf h _ _
  · exact h

/-- The host's write of an access keeps the canonical form. -/
theorem writeWindow_wf {s : State} (h : s.inMem.wf) (addr : Word32) (w : AccessWidth) (v : Word64) :
    (writeWindow s addr w v).inMem.wf := by
  unfold writeWindow
  generalize (accessAddrs addr (widthBytes w)).zip (leBytes (widthBytes w) v.toNat) = l
  induction l generalizing s with
  | nil => exact h
  | cons x rest ih => exact ih (writeWindowByte_wf h _ _)

end Sys2Proof.Machine
end

