-- ==== Sys2Proof/Laws/Keep.lean ====
section
/-! SUPPORT. How the ends of the commands keep a legal state: completion, the error path, the resets, the
preamble and the commits. -/

namespace Sys2Proof.Machine

/-- `complete()` keeps a legal state (40_control R140). -/
theorem complete_inv {w : Word32} {s : State} (h : s.Inv) : (complete w s).Inv :=
  ⟨h.caps, h.memWf, h.memBound, .inl rfl, h.cursor, h.slice, h.rbsp, h.dt, h.lensize, h.trk, h.out,
    h.mode⟩

/-- The error path keeps a legal state (60_exceptions R455). -/
theorem errorPath_inv {w : Word32} {e : Err} {s : State} (h : s.Inv) : (errorPath w e s).Inv :=
  ⟨h.caps, h.memWf, h.memBound, .inr ⟨e.code, rfl⟩, h.cursor, h.slice, h.rbsp, h.dt, h.lensize, h.trk,
    h.out, h.mode⟩

/-- A command keeps a legal state when what it commits is legal. -/
theorem finish_inv {i : Instr} {s t : State} {r : Except Err State} (h : s.Inv)
    (hr : ∀ s', r = .ok s' → s'.Inv) (hf : finish i s r = .next t) : t.Inv := by
  rcases finish_cases hf with ⟨s', h1, rfl⟩ | ⟨e, h1, rfl⟩
  · exact complete_inv (hr s' h1)
  · exact errorPath_inv h

/-- A region in bounds is no longer than the largest byte space, and its bytes are as many as its length. -/
theorem region_len {sp : RegionSel} {s : State} {r : Region} (hi : s.Inv)
    (h : resolveRegion sp s = .ok r) : r.len ≤ 2 ^ 24 ∧ (regionBytes s r).length = r.len := by
  obtain ⟨-, h⟩ := resolveRegion_ok.1 h
  refine ⟨?_, length_memRead h⟩
  have := hi.caps.inFits
  have := hi.caps.rbspFits
  have := hi.rbsp
  cases hsp : r.space <;> simp only [hsp, spaceSize] at h <;> omega

/-- A primitive of the bit reader keeps a legal state (41_bitreader R160). -/
theorem reader_inv {α : Type} {p : BitP α} (hp : Moves p) {s s' : State} {v : α} (hi : s.Inv)
    (h : withReader p s = .ok (v, s')) : s'.Inv := by
  obtain ⟨b, c, -, hc, rfl⟩ := withReader_ok.1 h
  obtain ⟨-, -, -, h4⟩ := hp _ _ _ hc hi.cursor
  refine ⟨hi.caps, hi.memWf, hi.memBound, hi.errCode, ?_, hi.slice, hi.rbsp, hi.dt, hi.lensize, hi.trk,
    hi.out, hi.mode⟩
  simp only [BitVec.toNat_ofNat]
  have := Nat.mod_le c.pos (2 ^ 64)
  simp only at h4
  omega

/-- What RESET leaves is legal (40_control R142). -/
theorem resetState_inv {s : State} (h : s.Inv) : (resetState s).Inv := by
  refine ⟨h.caps, h.memWf, h.memBound, .inl rfl, by simp [resetState, State.reset],
    by simp [resetState, State.reset], by simp [resetState, State.reset],
    by simp [resetState, State.reset], by simp [resetState, State.reset], ?_, empty_outOk _, ⟨rfl, rfl⟩⟩
  have := h.caps
  constructor <;> simp [resetState, State.reset, Track.reset, psBytes]

/-- The track after a track reset is legal, in every mode (40_control R146). -/
theorem reset_trackOk (c : Config.Caps) : Track.reset.Ok c := by
  constructor <;> simp [Track.reset, psBytes]

theorem reset_tsMode : Track.reset.TsMode :=
  ⟨⟨rfl, rfl, rfl⟩, rfl, fun _ => ⟨rfl, rfl, rfl, rfl⟩⟩

theorem reset_flvMode : Track.reset.FlvMode :=
  ⟨⟨rfl, rfl, rfl, rfl, rfl, rfl, rfl, rfl, rfl, rfl, rfl, rfl, rfl, rfl⟩, by simp [Track.reset]⟩

/-- A track reset keeps a legal state (40_control R146, R147). -/
theorem trackReset_inv {s : State} (h : s.Inv) : (trackReset s).Inv := by
  refine ⟨h.caps, h.memWf, h.memBound, h.errCode, h.cursor, h.slice, h.rbsp, h.dt, h.lensize,
    reset_trackOk _, h.out, ?_⟩
  have := h.mode
  simp only [ModeOk, trackReset] at *
  cases hm : s.mode <;> simp only [hm] at *
  · exact ⟨trivial, this.2⟩
  · exact reset_tsMode
  · exact reset_flvMode

/-- The working state of a TS call is legal after the preamble (40_control R149). -/
theorem preamble_ts {s : State} {disc contig : Bool} (h : s.Inv) (hm : s.mode = .none ∨ s.mode = .ts) :
    TsOk s.caps (dmxOf (preamble .ts disc contig s)) := by
  have key : ∀ t : Track, t.Ok s.caps → t.TsMode → TsOk s.caps ⟨t, Outputs.empty⟩ := fun t h1 h2 =>
    ⟨⟨(trackOk_iff.1 h1).1, h2, empty_outOk _⟩, (trackOk_iff.1 h1).2⟩
  cases disc
  · refine key s.trk h.trk ?_
    have := h.mode
    rcases hm with hm | hm <;> simp only [hm, ModeOk] at this
    · rw [this.1]; exact reset_tsMode
    · exact this
  · exact key _ (reset_trackOk _) reset_tsMode

/-- The working state of an FLV call is legal after the preamble (40_control R149). -/
theorem preamble_flv {s : State} {disc contig : Bool} (h : s.Inv)
    (hm : s.mode = .none ∨ s.mode = .flv) :
    FlvOk s.caps (dmxOf (preamble .flv disc contig s)) := by
  have key : ∀ t : Track, t.Ok s.caps → t.FlvMode → FlvOk s.caps ⟨t, Outputs.empty⟩ := fun t h1 h2 =>
    ⟨h1, h2, empty_outOk _⟩
  cases disc
  · refine key s.trk h.trk ?_
    have := h.mode
    rcases hm with hm | hm <;> simp only [hm, ModeOk] at this
    · rw [this.1]; exact reset_flvMode
    · exact this
  · exact key _ (reset_trackOk _) reset_flvMode

/-- The commit of a demux call keeps a legal state when its working state is legal. -/
theorem withDmx_inv {s : State} {k : Mode} {disc contig : Bool} {x : Dmx} (h : s.Inv)
    (ht : x.trk.Ok s.caps) (ho : x.out.Ok s.caps) (hm : ModeOk k x.trk x.out) :
    (withDmx (preamble k disc contig s) x).Inv := by
  cases disc <;>
  exact ⟨h.caps, h.memWf, h.memBound, h.errCode, h.cursor, h.slice, h.rbsp, h.dt, h.lensize, ht, ho, hm⟩

/-- The results of a standalone command keep a legal state within their capacities. -/
theorem results_inv {s : State} {dt : List DtEntry} {frm : FramingRegs} {rb : Bytes} {e v : Word64}
    {sps : SpsRegs} {aud : AudRegs} {st : Status} (h : s.Inv) (h1 : dt.length ≤ s.caps.dtCap)
    (h2 : frm.lensize.toNat ≤ 4) (h3 : rb.length ≤ s.caps.rbspCap) (h4 : st.err = s.status.err) :
    State.Inv { s with dt := dt, frm := frm, rbsp := rb, epbCnt := e, sps := sps, aud := aud, val := v
                       status := st } :=
  ⟨h.caps, h.memWf, h.memBound, by simpa [h4] using h.errCode, h.cursor, h.slice, h3, h1, h2, h.trk,
    h.out, h.mode⟩

/-- The commit of AVCC_PARSE and HVCC_PARSE keeps a legal state (43_avc_paramsets R241). -/
theorem commitRecord_inv {r : Region} {x : RecordInfo} {s s' : State} (h : s.Inv) (hx : x.lensize ≤ 4)
    (hc : commitRecord r x s = .ok s') : s'.Inv := by
  simp only [commitRecord, bind_ok, check_ok, pure, Except.pure, Except.ok.injEq] at hc
  obtain ⟨-, h1, rfl⟩ := hc
  refine results_inv (s := s) (v := s.val) (rb := s.rbsp) (e := s.epbCnt) (aud := s.aud)
    (st := s.status) h (by simpa [recordDt] using h1) ?_ h.rbsp rfl
  simp only [BitVec.toNat_ofNat]
  omega

/-- The commit of ADTS_PARSE and MPA_SCAN keeps a legal state (45_audio R314, R326). -/
theorem commitScan_inv {η : Type} {r : Region} {x : Scan η} {f : η → AudRegs} {s s' : State}
    (h : s.Inv) (hc : commitScan r x f s = .ok s') : s'.Inv := by
  simp only [commitScan, bind_ok, check_ok, pure, Except.pure, Except.ok.injEq] at hc
  obtain ⟨-, h1, rfl⟩ := hc
  exact results_inv (s := s) (v := s.val) (rb := s.rbsp) (e := s.epbCnt) (sps := s.sps) (frm := s.frm)
    h (by simpa [frameEntries] using h1) h.lensize h.rbsp rfl

end Sys2Proof.Machine
end

