-- ==== Sys2Proof/Laws/PerInstr.lean ====
section
/-! SUPPORT. One lemma per command: its word has the fixed bits of its row of R117's table. -/

namespace Sys2Proof.Laws

/-- The word of the command carries its row's opcode, and its fixed bits are the row's (30_encoding R116, R117). -/
def RowMatch.Statement (i : Instr) : Prop :=
  ∃ r ∈ opRows, opcField (encode i) = r.opc ∧ encode i &&& r.mask = r.pattern

/-- The four fields of a word built from them (30_encoding R110). -/
theorem mkWord_fields (opc : BitVec 8) (sp fl : BitVec 4) (imm : BitVec 16) :
    opcField (mkWord opc sp fl imm) = opc ∧ spField (mkWord opc sp fl imm) = sp ∧
      flField (mkWord opc sp fl imm) = fl ∧ immField (mkWord opc sp fl imm) = imm := by
  refine ⟨?_, ?_, ?_, ?_⟩ <;> refine BitVec.eq_of_getLsbD_eq fun k hk => ?_ <;>
    simp only [opcField, spField, flField, immField, mkWord, BitVec.getLsbD_extractLsb',
      BitVec.getLsbD_append] <;>
    interval_cases k <;> simp

theorem RowMatch.nop : RowMatch.Statement .nop :=
  ⟨opRows[0], List.getElem_mem _, by decide, by decide⟩

theorem RowMatch.reset : RowMatch.Statement .reset :=
  ⟨opRows[1], List.getElem_mem _, by decide, by decide⟩

theorem RowMatch.trackReset : RowMatch.Statement .trackReset :=
  ⟨opRows[2], List.getElem_mem _, by decide, by decide⟩

theorem RowMatch.brInit (sp : RegionSel) : RowMatch.Statement (.brInit sp) :=
  ⟨opRows[3], List.getElem_mem _, by cases sp <;> decide, by cases sp <;> decide⟩

theorem RowMatch.readBits (n : BitVec 6) : RowMatch.Statement (.readBits n) :=
  ⟨opRows[4], List.getElem_mem _, by revert n; decide, by revert n; decide⟩

theorem RowMatch.skipBits (n : BitVec 16) : RowMatch.Statement (.skipBits n) :=
  ⟨opRows[5], List.getElem_mem _, (mkWord_fields _ _ _ _).1, by
    refine BitVec.eq_of_getLsbD_eq fun k hk => ?_
    simp only [encode, mkWord, opRows, List.getElem_cons_succ, List.getElem_cons_zero,
      BitVec.getLsbD_and, BitVec.getLsbD_append]
    interval_cases k <;> simp⟩

theorem RowMatch.readUe : RowMatch.Statement .readUe :=
  ⟨opRows[6], List.getElem_mem _, by decide, by decide⟩

theorem RowMatch.skipUe : RowMatch.Statement .skipUe :=
  ⟨opRows[7], List.getElem_mem _, by decide, by decide⟩

theorem RowMatch.readSe : RowMatch.Statement .readSe :=
  ⟨opRows[8], List.getElem_mem _, by decide, by decide⟩

theorem RowMatch.skipSe : RowMatch.Statement .skipSe :=
  ⟨opRows[9], List.getElem_mem _, by decide, by decide⟩

theorem RowMatch.skipScalingList (size : BitVec 8) : RowMatch.Statement (.skipScalingList size) :=
  ⟨opRows[10], List.getElem_mem _, by revert size; decide, by revert size; decide⟩

theorem RowMatch.splitAnnexb (sp : RegionSel) (endDelim : Bool) :
    RowMatch.Statement (.splitAnnexb sp endDelim) :=
  ⟨opRows[11], List.getElem_mem _, by cases sp <;> cases endDelim <;> decide,
    by cases sp <;> cases endDelim <;> decide⟩

theorem RowMatch.splitLenpfx (sp : RegionSel) (width : BitVec 3) :
    RowMatch.Statement (.splitLenpfx sp width) :=
  ⟨opRows[12], List.getElem_mem _, by cases sp <;> revert width <;> decide,
    by cases sp <;> revert width <;> decide⟩

theorem RowMatch.epbRemove (sp : RegionSel) : RowMatch.Statement (.epbRemove sp) :=
  ⟨opRows[13], List.getElem_mem _, by cases sp <;> decide, by cases sp <;> decide⟩

theorem RowMatch.avcSpsParse (sp : RegionSel) : RowMatch.Statement (.avcSpsParse sp) :=
  ⟨opRows[14], List.getElem_mem _, by cases sp <;> decide, by cases sp <;> decide⟩

theorem RowMatch.hevcSpsParse (sp : RegionSel) : RowMatch.Statement (.hevcSpsParse sp) :=
  ⟨opRows[15], List.getElem_mem _, by cases sp <;> decide, by cases sp <;> decide⟩

theorem RowMatch.avccParse (sp : RegionSel) : RowMatch.Statement (.avccParse sp) :=
  ⟨opRows[16], List.getElem_mem _, by cases sp <;> decide, by cases sp <;> decide⟩

theorem RowMatch.hvccParse (sp : RegionSel) : RowMatch.Statement (.hvccParse sp) :=
  ⟨opRows[17], List.getElem_mem _, by cases sp <;> decide, by cases sp <;> decide⟩

theorem RowMatch.aacAscParse (sp : RegionSel) : RowMatch.Statement (.aacAscParse sp) :=
  ⟨opRows[18], List.getElem_mem _, by cases sp <;> decide, by cases sp <;> decide⟩

theorem RowMatch.adtsParse (sp : RegionSel) : RowMatch.Statement (.adtsParse sp) :=
  ⟨opRows[19], List.getElem_mem _, by cases sp <;> decide, by cases sp <;> decide⟩

theorem RowMatch.mpaHdrParse (sp : RegionSel) : RowMatch.Statement (.mpaHdrParse sp) :=
  ⟨opRows[20], List.getElem_mem _, by cases sp <;> decide, by cases sp <;> decide⟩

theorem RowMatch.mpaScan (sp : RegionSel) : RowMatch.Statement (.mpaScan sp) :=
  ⟨opRows[21], List.getElem_mem _, by cases sp <;> decide, by cases sp <;> decide⟩

theorem RowMatch.tsDemux (disc contig : Bool) : RowMatch.Statement (.tsDemux disc contig) :=
  ⟨opRows[22], List.getElem_mem _, by cases disc <;> cases contig <;> decide,
    by cases disc <;> cases contig <;> decide⟩

theorem RowMatch.tsFlush : RowMatch.Statement .tsFlush :=
  ⟨opRows[23], List.getElem_mem _, by decide, by decide⟩

theorem RowMatch.flvDemux (disc contig : Bool) : RowMatch.Statement (.flvDemux disc contig) :=
  ⟨opRows[24], List.getElem_mem _, by cases disc <;> cases contig <;> decide,
    by cases disc <;> cases contig <;> decide⟩

end Sys2Proof.Laws
end

