-- ==== Sys2Proof/Laws/Split.lean ====
section
/-! SUPPORT. A demux operation run behind outputs of an earlier call does to the track what it does alone, and
puts the same records behind those outputs (46_ts_demux R405, 47_flv_demux R442). -/

namespace Sys2Proof.Machine

@[simp] theorem Outputs.append_vsq_length (a b : Outputs) :
    (a.append b).vsq.length = a.vsq.length + b.vsq.length := by simp [Outputs.append]
@[simp] theorem Outputs.append_vut_length (a b : Outputs) :
    (a.append b).vut.length = a.vut.length + b.vut.length := by simp [Outputs.append]
@[simp] theorem Outputs.append_sdata (a b : Outputs) : (a.append b).sdata = a.sdata ++ b.sdata := rfl

@[simp] theorem Outputs.append_empty (a : Outputs) : a.append Outputs.empty = a := by
  cases a; simp [Outputs.append, Outputs.empty]

/-- Nothing before changes nothing. -/
@[simp] theorem Outputs.empty_append (a : Outputs) : Outputs.empty.append a = a := by
  cases a; simp [Outputs.append, Outputs.empty]

theorem Outputs.append_assoc (a b c : Outputs) :
    (a.append b).append c = a.append (b.append c) := by
  simp only [Outputs.append, List.append_assoc, List.map_append, List.map_map, List.length_append,
    List.length_map, Outputs.mk.injEq, List.append_cancel_left_eq, List.map_inj_left,
    Function.comp_apply, and_true]
  refine ⟨fun e _ => ?_, fun e _ => ?_, fun e _ => ?_⟩ <;>
    simp [BitVec.ofNat_add, BitVec.add_assoc]

/-- The working state behind the outputs of an earlier call. -/
def Dmx.behind (d : Dmx) (o : Outputs) : Dmx := { d with out := o.append d.out }

@[simp] theorem Dmx.behind_trk (d : Dmx) (o : Outputs) : (d.behind o).trk = d.trk := rfl
@[simp] theorem Dmx.behind_out (d : Dmx) (o : Outputs) : (d.behind o).out = o.append d.out := rfl

/-- The operation does the same alone and behind other outputs, when neither fails. -/
def Shifts (f : Dmx → Except Err Dmx) : Prop :=
  ∀ (o : Outputs) (d x y : Dmx), f d = .ok x → f (d.behind o) = .ok y → y = x.behind o

/-- The same for an operation that cannot fail. -/
def ShiftsPure (f : Dmx → Dmx) : Prop := ∀ (o : Outputs) (d : Dmx), f (d.behind o) = (f d).behind o

theorem shifts_ok {f : Dmx → Dmx} (h : ShiftsPure f) : Shifts fun d => .ok (f d) := by
  intro o d x y h1 h2
  cases h1; cases h2
  exact h o d

theorem shifts_bind {f g : Dmx → Except Err Dmx} (hf : Shifts f) (hg : Shifts g) :
    Shifts fun d => f d >>= g := by
  intro o d x y h1 h2
  obtain ⟨d1, h3, h4⟩ := bind_ok.1 h1
  obtain ⟨e1, h5, h6⟩ := bind_ok.1 h2
  cases hf o d d1 e1 h3 h5
  exact hg o d1 x y h4 h6

/-- A choice made on the track alone. -/
theorem shifts_of_trk {f : Track → Dmx → Except Err Dmx} (h : ∀ t, Shifts (f t)) :
    Shifts fun d => f d.trk d := fun o d x y h1 h2 => h d.trk o d x y h1 h2

/-- Two runs that make the same choice, however it is decided. -/
theorem both_ite {p : Prop} {i j : Decidable p} {a b a' b' : Except Err Dmx}
    {x y : Dmx} (h1 : @ite _ p i a b = .ok x) (h2 : @ite _ p j a' b' = .ok y) :
    (p ∧ a = .ok x ∧ a' = .ok y) ∨ (¬ p ∧ b = .ok x ∧ b' = .ok y) := by
  by_cases h : p
  · rw [if_pos h] at h1 h2; exact .inl ⟨h, h1, h2⟩
  · rw [if_neg h] at h1 h2; exact .inr ⟨h, h1, h2⟩

/-- An operation that leaves the working state, or sees only its track. -/
theorem both_ok {o : Outputs} {d d' x y : Dmx} (h1 : (.ok d : Except Err Dmx) = .ok x)
    (h2 : (.ok d' : Except Err Dmx) = .ok y) (h : d' = d.behind o) : y = x.behind o := by
  cases h1; cases h2; exact h

theorem shifts_foldlM {α : Type} {f : Dmx → α → Except Err Dmx} (xs : List α)
    (h : ∀ a, Shifts fun d => f d a) : Shifts fun d => xs.foldlM f d := by
  induction xs with
  | nil => exact shifts_ok (f := id) fun _ _ => rfl
  | cons a xs ih =>
    intro o d x y h1 h2
    simp only [List.foldlM_cons] at h1 h2
    exact shifts_bind (h a) ih o d x y h1 h2

/-! ### Emission -/

/-- The same for the emission operations, which see the outputs only. -/
def ShiftsOut (f : Outputs → Except Err Outputs) : Prop :=
  ∀ o p x y : Outputs, f p = .ok x → f (o.append p) = .ok y → y = o.append x

theorem shiftsOut_emitUnits (c : Config.Caps) (us : List Bytes) : ShiftsOut (emitUnits c us) := by
  induction us with
  | nil => intro o p x y h1 h2; cases h1; cases h2; rfl
  | cons b rest ih =>
    intro o p x y h1 h2
    simp only [emitUnits, bind_ok] at h1 h2
    obtain ⟨_, -, _, -, h1⟩ := h1
    obtain ⟨_, -, _, -, h2⟩ := h2
    refine ih o _ x y h1 ?_
    rw [← h2]
    congr 1
    simp [Outputs.append, BitVec.ofNat_add]

theorem shiftsOut_emitVideo (c : Config.Caps) (stamp : Stamp) (key : Bool) (us : List Bytes) :
    ShiftsOut (emitVideo c stamp key us) := by
  intro o p x y h1 h2
  simp only [emitVideo, bind_ok] at h1 h2
  obtain ⟨_, -, h1⟩ := h1
  obtain ⟨_, -, h2⟩ := h2
  refine shiftsOut_emitUnits c us o _ x y h1 ?_
  rw [← h2]
  congr 1
  simp [Outputs.append, BitVec.ofNat_add]

theorem shiftsOut_emitAudio (c : Config.Caps) (pts : Word64) (b : Bytes) (ns : Nat) :
    ShiftsOut (emitAudio c pts b ns) := by
  intro o p x y h1 h2
  simp only [emitAudio, bind_ok] at h1 h2
  obtain ⟨_, -, _, -, h1⟩ := h1
  obtain ⟨_, -, _, -, h2⟩ := h2
  cases h1; cases h2
  simp [Outputs.append, BitVec.ofNat_add]

/-- An emission as an operation on the working state. -/
theorem shifts_emit {f : Outputs → Except Err Outputs} (hf : ShiftsOut f) :
    Shifts fun d => do
      let out ← f d.out
      return { d with out } := by
  intro o d x y h1 h2
  obtain ⟨p, h3, h4⟩ := bind_ok.1 h1
  obtain ⟨q, h5, h6⟩ := bind_ok.1 h2
  cases h4; cases h6
  rw [hf o d.out p q h3 h5]
  rfl

/-! ### Transport streams -/

/-- An update of the track alone. -/
theorem shiftsPure_trk (g : Track → Track) : ShiftsPure fun d => { d with trk := g d.trk } :=
  fun _ _ => rfl

theorem shifts_closeStamped (c : Config.Caps) (stamp : Stamp) (op : OpenSample) :
    Shifts (closeStamped c stamp op) := by
  intro o d x y h1 h2
  cases hv : d.trk.vExists <;>
    simp only [closeStamped, Dmx.behind_trk, hv, Bool.false_eq_true, if_false, if_true] at h1 h2
  · cases h1; cases h2
    rfl
  · obtain ⟨p, h3, h4⟩ := bind_ok.1 h1
    obtain ⟨q, h5, h6⟩ := bind_ok.1 h2
    cases h4; cases h6
    rw [shiftsOut_emitVideo c stamp op.key op.units o d.out p q h3 h5]
    rfl

theorem shifts_closeOpen (c : Config.Caps) : Shifts (closeOpen c) := by
  intro o d x y h1 h2
  unfold closeOpen at h1 h2
  rw [Dmx.behind_trk] at h2
  cases hop : d.trk.opened with
  | none => rw [hop] at h1 h2; cases h1; cases h2; rfl
  | some op =>
    rw [hop] at h1 h2
    simp only at h1 h2
    cases hst : op.stamp with
    | some stamp =>
      rw [hst] at h1 h2
      exact shifts_closeStamped c stamp op o { d with trk := { d.trk with opened := none } } x y h1 h2
    | none =>
      rw [hst] at h1 h2
      simp only [countDropped] at h1 h2
      cases hl : d.trk.lastV with
      | none => rw [hl] at h1 h2; cases h1; cases h2; rfl
      | some stamp =>
        rw [hl] at h1 h2
        exact shifts_closeStamped c stamp op o _ x y h1 h2

theorem shifts_appendUnit (c : Config.Caps) (key : Bool) (unit : Bytes) :
    Shifts (appendUnit c key unit) := by
  intro o d x y h1 h2
  unfold appendUnit at h1 h2
  rw [Dmx.behind_trk] at h2
  cases hop : d.trk.opened with
  | none => rw [hop] at h1 h2; cases h1; cases h2; rfl
  | some op =>
    rw [hop] at h1 h2
    simp only [bind_ok] at h1 h2
    obtain ⟨_, -, h1⟩ := h1
    obtain ⟨_, -, h2⟩ := h2
    cases h1; cases h2
    rfl

theorem capture_behind (c : Config.Caps) (t : Nat) (unit : Bytes) : ShiftsPure (capture c t unit) := by
  intro o d
  unfold capture storeOrCount
  simp only [Dmx.behind_trk]
  split
  · rfl
  · by_cases h : d.trk.haveSps = true
    · simp only [h, if_true]; rfl
    · simp only [h, Bool.false_eq_true, if_false]
      by_cases hv : d.trk.vCodec = .avc
      · simp only [hv, if_true]
        cases avcSps unit
        · rfl
        · cases storePs c .sps unit d.trk <;> rfl
      · simp only [hv, if_false]
        cases hevcSps unit
        · rfl
        · cases storePs c .sps unit d.trk <;> rfl
  · by_cases h : d.trk.havePps = true
    · simp only [h, if_true]; rfl
    · simp only [h, Bool.false_eq_true, if_false]
      cases storePs c .pps unit d.trk <;> rfl
  · by_cases h : d.trk.haveVps = true
    · simp only [h, if_true]; rfl
    · simp only [h, Bool.false_eq_true, if_false]
      cases storePs c .vps unit d.trk <;> rfl

theorem shifts_beginSample (c : Config.Caps) (opens : Bool) (stamp : Option Stamp) :
    Shifts (beginSample c opens stamp) := by
  unfold beginSample
  cases opens
  · exact shifts_ok (f := id) fun _ _ => rfl
  · exact shifts_bind (shifts_closeOpen c) (shifts_ok fun _ _ => rfl)

theorem shifts_videoUnit (c : Config.Caps) (opens : Bool) (stamp : Option Stamp) (ty : Nat)
    (unit : Bytes) : Shifts (videoUnit c opens stamp ty unit) :=
  shifts_bind (shifts_beginSample c opens stamp)
    (shifts_of_trk (f := fun t d => appendUnit c (isKey t.vCodec ty) unit (capture c ty unit d))
      fun t o d x y h1 h2 => by
        simp only [capture_behind c ty unit o d] at h2
        exact shifts_appendUnit c _ unit o _ x y h1 h2)

theorem shifts_videoUnits (c : Config.Caps) (has : Bool) (stamp : Stamp) (pl : Bytes)
    (us : List NalUnit) (avail first : Bool) : Shifts (videoUnits c has stamp pl us avail first) := by
  induction us generalizing avail first with
  | nil => exact shifts_ok (f := id) fun _ _ => rfl
  | cons u us ih =>
    intro o d x y h1 h2
    unfold videoUnits at h1 h2
    rcases both_ite h1 h2 with ⟨-, h1, h2⟩ | ⟨-, h1, h2⟩
    · exact ih avail first o d x y h1 h2
    · exact shifts_bind (shifts_videoUnit c _ _ _ _) (ih _ _) o d x y h1 h2

theorem shifts_emitFrames (c : Config.Caps) (p0 : Int) (rate : Nat) (pl : Bytes) (fs : List Frame)
    (n : Nat) (o p : Outputs) (x y : Outputs × Nat) (h1 : emitFrames c p0 rate pl fs n p = .ok x)
    (h2 : emitFrames c p0 rate pl fs n (o.append p) = .ok y) : y = (o.append x.1, x.2) := by
  induction fs generalizing n p with
  | nil => cases h1; cases h2; rfl
  | cons f fs ih =>
    obtain ⟨p1, h3, h4⟩ := bind_ok.1 h1
    obtain ⟨q1, h5, h6⟩ := bind_ok.1 h2
    cases shiftsOut_emitAudio _ _ _ _ o p p1 q1 h3 h5
    exact ih _ _ h4 h6

theorem noteAudio_behind (broken : Bool) (configure : Track → Track) :
    ShiftsPure (noteAudio broken configure) := by
  intro o d
  cases hx : d.trk.aExists <;> cases broken <;>
    simp only [noteAudio, Dmx.behind_trk, hx, Bool.false_eq_true, if_true, if_false] <;> rfl

theorem shifts_emitAudioPes (c : Config.Caps) (p0 : Option Int) (frames : List Frame) (pl : Bytes) :
    Shifts (emitAudioPes c p0 frames pl) := by
  intro o d x y h1 h2
  cases p0 with
  | none => exact both_ok h1 h2 rfl
  | some p0 =>
    simp only [emitAudioPes, bind_ok] at h1 h2
    obtain ⟨⟨out1, n1⟩, h3, h4⟩ := h1
    obtain ⟨⟨out2, n2⟩, h5, h6⟩ := h2
    cases shifts_emitFrames c p0 _ pl frames 0 o d.out _ _ h3 h5
    exact both_ok h4 h6 rfl

theorem shifts_audioPes (c : Config.Caps) (has : Bool) (pts : Nat) (pl : Bytes) :
    Shifts (audioPes c has pts pl) := by
  intro o d x y h1 h2
  simp only [audioPes, Dmx.behind_trk] at h1 h2
  rw [noteAudio_behind] at h2
  exact shifts_emitAudioPes c _ _ pl o _ x y h1 h2

theorem shifts_flushPes (c : Config.Caps) (st : Stream) (p : Bytes) : Shifts (flushPes c st p) := by
  intro o d x y h1 h2
  unfold flushPes at h1 h2
  cases hp : parsePes p with
  | none => rw [hp] at h1 h2; exact both_ok h1 h2 rfl
  | some q =>
    rw [hp] at h1 h2
    cases st
    · exact shifts_videoUnits c _ _ _ _ _ _ o d x y h1 h2
    · exact shifts_audioPes c _ _ _ o d x y h1 h2

theorem pending_behind (st : Stream) (d : Dmx) (o : Outputs) : pending st (d.behind o) = pending st d := by
  cases st <;> rfl

theorem setPending_behind (st : Stream) (p : Option Bytes) : ShiftsPure (setPending st p) := by
  intro o d; cases st <;> rfl

theorem shifts_flushPending (c : Config.Caps) (st : Stream) : Shifts (flushPending c st) := by
  intro o d x y h1 h2
  unfold flushPending at h1 h2
  rw [pending_behind] at h2
  cases hp : pending st d with
  | none => rw [hp] at h1 h2; exact both_ok h1 h2 rfl
  | some p =>
    rw [hp] at h1 h2
    rcases both_ite h1 h2 with ⟨-, h1, h2⟩ | ⟨-, h1, h2⟩
    · exact both_ok h1 h2 rfl
    · exact shifts_flushPes c st p o d x y h1 h2

theorem shifts_setChecked (c : Config.Caps) (st : Stream) (n : Nat) (p : Option Bytes) :
    Shifts fun d => do
      checkCap n c.pendCap 84
      return setPending st p d := by
  intro o d x y h1 h2
  simp only [bind_ok] at h1 h2
  obtain ⟨_, -, h1⟩ := h1
  obtain ⟨_, -, h2⟩ := h2
  exact both_ok h1 h2 (setPending_behind st p o d)

theorem shifts_esPacket (c : Config.Caps) (st : Stream) (pusi : Bool) (pl : Bytes) :
    Shifts (esPacket c st pusi pl) := by
  intro o d x y h1 h2
  unfold esPacket at h1 h2
  rcases both_ite h1 h2 with ⟨-, h1, h2⟩ | ⟨-, h1, h2⟩
  · exact shifts_bind (shifts_flushPending c st) (shifts_setChecked c st _ _) o d x y h1 h2
  · rw [pending_behind] at h2
    cases hp : pending st d with
    | none => rw [hp] at h1 h2; exact both_ok h1 h2 rfl
    | some p => rw [hp] at h1 h2; exact shifts_setChecked c st _ _ o d x y h1 h2

theorem fifoPush_behind (c : Config.Caps) (k : Bytes) : ShiftsPure (fifoPush c k) := by
  intro o d
  by_cases h : d.trk.fifo.length < c.fifoCap <;>
    simp only [fifoPush, Dmx.behind_trk, h, if_true, if_false] <;> rfl

theorem shifts_dispatchWith {f : Dmx → Except Err Dmx} (hf : Shifts f) (c : Config.Caps) (k : Bytes) :
    Shifts (dispatchWith f c k) := by
  intro o d x y h1 h2
  unfold dispatchWith at h1 h2
  rcases both_ite h1 h2 with ⟨-, h1, h2⟩ | ⟨-, h1, h2⟩
  · exact both_ok h1 h2 rfl
  rcases both_ite h1 h2 with ⟨-, h1, h2⟩ | ⟨-, h1, h2⟩
  · exact both_ok h1 h2 rfl
  rcases both_ite h1 h2 with ⟨-, h1, h2⟩ | ⟨-, h1, h2⟩
  · rcases both_ite h1 h2 with ⟨-, h1, h2⟩ | ⟨-, h1, h2⟩
    · cases hp : parsePat (pktPayload k) with
      | none => rw [hp] at h1 h2; exact both_ok h1 h2 rfl
      | some pid => rw [hp] at h1 h2; exact hf o _ x y h1 h2
    · exact both_ok h1 h2 rfl
  rcases both_ite h1 h2 with ⟨-, h1, h2⟩ | ⟨-, h1, h2⟩
  · rcases both_ite h1 h2 with ⟨-, h1, h2⟩ | ⟨-, h1, h2⟩
    · cases hp : parsePmt (pktPayload k) with
      | none => rw [hp] at h1 h2; exact both_ok h1 h2 rfl
      | some streams => rw [hp] at h1 h2; exact hf o _ x y h1 h2
    · exact both_ok h1 h2 rfl
  rcases both_ite h1 h2 with ⟨-, h1, h2⟩ | ⟨-, h1, h2⟩
  · rcases both_ite h1 h2 with ⟨-, h1, h2⟩ | ⟨-, h1, h2⟩
    · exact shifts_esPacket c _ _ _ o d x y h1 h2
    rcases both_ite h1 h2 with ⟨-, h1, h2⟩ | ⟨-, h1, h2⟩
    · exact shifts_esPacket c _ _ _ o d x y h1 h2
    · exact both_ok h1 h2 rfl
  · exact both_ok h1 h2 (fifoPush_behind c k o d)

theorem shifts_redispatchWith {f : Bytes → Dmx → Except Err Dmx} (hf : ∀ k, Shifts (f k)) :
    Shifts (redispatchWith f) := fun o d x y h1 h2 =>
  shifts_foldlM d.trk.fifo hf o { d with trk := { d.trk with fifo := [] } } x y h1 h2

theorem shifts_dispatch (c : Config.Caps) (k : Bytes) : Shifts (dispatch c k) :=
  shifts_dispatchWith (shifts_redispatchWith fun k =>
    shifts_dispatchWith (shifts_redispatchWith fun k =>
      shifts_dispatchWith (shifts_ok (f := id) fun _ _ => rfl) c k) c k) c k

/-- The packets of a call, behind the outputs of the calls before (46_ts_demux R405). -/
theorem shifts_dispatchAll (c : Config.Caps) (ks : List Bytes) : Shifts (dispatchAll c ks) :=
  shifts_foldlM ks fun k => shifts_dispatch c k

/-! ### FLV -/

theorem flvAudioConfig_behind (cfg : Bytes) : ShiftsPure (flvAudioConfig cfg) := by
  intro o d
  cases hx : d.trk.aExists <;>
    simp only [flvAudioConfig, Dmx.behind_trk, hx, Bool.false_eq_true, if_true, if_false]
  cases asc cfg with
  | error e => rfl
  | ok a => by_cases h : Config.acfgCap < cfg.length <;> simp only [h, if_true, if_false] <;> rfl

theorem flvVideoConfig_behind (c : Config.Caps) (fam : VCodec) (cfg : Bytes) :
    ShiftsPure (flvVideoConfig c fam cfg) := by
  intro o d
  cases hx : d.trk.vExists <;>
    simp only [flvVideoConfig, Dmx.behind_trk, hx, Bool.false_eq_true, if_true, if_false]
  cases (if fam = .avc then avcc cfg else hvcc cfg) with
  | error e => rfl
  | ok a =>
    by_cases h : c.psCap < a.ents.length ∨ c.cfgCap < recordLen a.ents <;>
      simp only [h, if_true, if_false] <;> rfl

theorem shifts_flvTag (c : Config.Caps) (t : Bytes) : Shifts (flvTag c t) := by
  intro o d x y h1 h2
  unfold flvTag at h1 h2
  rcases both_ite h1 h2 with ⟨-, h1, h2⟩ | ⟨-, h1, h2⟩
  · unfold flvAudioTag at h1 h2
    rcases both_ite h1 h2 with ⟨-, h1, h2⟩ | ⟨-, h1, h2⟩
    · exact both_ok h1 h2 rfl
    rcases both_ite h1 h2 with ⟨-, h1, h2⟩ | ⟨-, h1, h2⟩
    · exact both_ok h1 h2 (flvAudioConfig_behind _ o d)
    rcases both_ite h1 h2 with ⟨-, h1, h2⟩ | ⟨-, h1, h2⟩
    · unfold flvAudioFrame at h1 h2
      rcases both_ite h1 h2 with ⟨-, h1, h2⟩ | ⟨-, h1, h2⟩
      · exact shifts_emit (shiftsOut_emitAudio _ _ _ _) o d x y h1 h2
      · exact both_ok h1 h2 rfl
    · exact both_ok h1 h2 rfl
  rcases both_ite h1 h2 with ⟨-, h1, h2⟩ | ⟨-, h1, h2⟩
  · unfold flvVideoTag at h1 h2
    rcases both_ite h1 h2 with ⟨-, h1, h2⟩ | ⟨-, h1, h2⟩
    · exact both_ok h1 h2 rfl
    rcases both_ite h1 h2 with ⟨-, h1, h2⟩ | ⟨-, h1, h2⟩
    · exact both_ok h1 h2 rfl
    rcases both_ite h1 h2 with ⟨-, h1, h2⟩ | ⟨-, h1, h2⟩
    · exact both_ok h1 h2 rfl
    rcases both_ite h1 h2 with ⟨-, h1, h2⟩ | ⟨-, h1, h2⟩
    · exact both_ok h1 h2 (flvVideoConfig_behind c _ _ o d)
    rcases both_ite h1 h2 with ⟨-, h1, h2⟩ | ⟨-, h1, h2⟩
    · unfold flvVideoFrame at h1 h2
      rcases both_ite h1 h2 with ⟨-, h1, h2⟩ | ⟨-, h1, h2⟩
      · rcases both_ite h1 h2 with ⟨-, h1, h2⟩ | ⟨-, h1, h2⟩
        · exact both_ok h1 h2 rfl
        · exact shifts_emit (shiftsOut_emitVideo _ _ _ _) o d x y h1 h2
      · exact both_ok h1 h2 rfl
    · exact both_ok h1 h2 rfl
  · exact both_ok h1 h2 rfl

end Sys2Proof.Machine
end

