-- ==== Sys2Proof/Laws/TsWritten.lean ====
section
/-! SUPPORT. Reading what was written in a transport stream: the fields of a packet, the start codes of units
written one after the other; and a dispatch once the PMT is parsed. -/

namespace Sys2Proof.Machine

/-! ### Packets (46_ts_demux R353, R354) -/

theorem packet_pusi (x : TsPacketCode) : pktPusi x.bytes = x.start := by
  have h := x.pid.isLt
  simp only [pktPusi, TsPacketCode.bytes, byteAt, List.cons_append, List.nil_append, List.getD_cons_succ,
    List.getD_cons_zero, BitVec.toNat_ofNat]
  cases x.error <;> cases x.start <;> cases x.priority <;> simp <;> omega

theorem packet_pid (x : TsPacketCode) : pktPid x.bytes = x.pid.toNat := by
  have h := x.pid.isLt
  simp only [pktPid, TsPacketCode.bytes, byteAt, List.cons_append, List.nil_append, List.getD_cons_succ,
    List.getD_cons_zero, BitVec.toNat_ofNat]
  cases x.error <;> cases x.start <;> cases x.priority <;> simp <;> omega

theorem packet_afc (x : TsPacketCode) : pktAfc x.bytes = x.body.control := by
  have h := x.scrambling.isLt
  have h2 := x.counter.isLt
  simp only [pktAfc, TsPacketCode.bytes, byteAt, List.cons_append, List.nil_append, List.getD_cons_succ,
    List.getD_cons_zero, BitVec.toNat_ofNat]
  cases x.body <;> simp only [TsBody.control] <;> omega

theorem packet_payload {x : TsPacketCode} (hx : x.Valid) : pktPayload x.bytes = x.body.payload := by
  obtain ⟨hl, hf⟩ := hx
  unfold pktPayload
  rw [packet_afc]
  cases hb : x.body with
  | plain p => simp [TsBody.control, TsBody.payload, TsPacketCode.bytes, TsBody.bytes, hb]
  | field f => simp [TsBody.control, TsBody.payload]
  | both f p =>
    have hf := hf f p hb
    have h4 : byteAt x.bytes 4 = f.length := by
      simp only [TsPacketCode.bytes, TsBody.bytes, hb, byteAt, List.cons_append, List.nil_append,
        List.getD_cons_succ, List.getD_cons_zero, BitVec.toNat_ofNat]
      omega
    rw [h4, Nat.min_eq_left (by omega), Nat.add_comm 5]
    simp [TsBody.control, TsBody.payload, TsPacketCode.bytes, TsBody.bytes, hb]

/-! ### Start codes (42_nal R190) -/

/-- The start codes of bytes that stand `k` further on. -/
theorem startCodesFrom_shift {z : Bool} {i : Nat} (k : Nat) (b : Bytes) (hz : z = true → 0 < i) :
    startCodesFrom z (i + k) b = (startCodesFrom z i b).map fun c => { c with at_ := c.at_ + k } := by
  fun_induction startCodesFrom z i b with
  | case1 z i a b c rest h ih =>
    simp only [startCodesFrom, h, and_self, ↓reduceIte, List.map_cons, Nat.add_right_comm i k 3]
    rw [ih (by simp)]
    cases z with
    | false => simp
    | true => have := hz rfl; simp; omega
  | case2 z i a b c rest h ih =>
    rw [startCodesFrom, if_neg h, Nat.add_right_comm i k 1, ih (fun _ => Nat.succ_pos i)]
  | case3 z i b h => rw [startCodesFrom.eq_2 _ _ _ h]; rfl

/-- Bytes without a start code before bytes that start with one are passed over. -/
theorem startCodesFrom_append {z : Bool} {i : Nat} {u rest : Bytes} (hr : AtStartCode rest)
    (hu : ¬ ([0, 0, 1] : Bytes) <:+: u) :
    startCodesFrom z i (u ++ rest) =
      startCodesFrom (match u.getLast? with | none => z | some x => decide (x = 0)) (i + u.length) rest := by
  induction u generalizing z i with
  | nil => rfl
  | cons a u ih =>
    have hu' : ¬ ([0, 0, 1] : Bytes) <:+: u := fun h => hu (h.trans (List.suffix_cons a u).isInfix)
    have ih := ih (z := decide (a = 0)) (i := i + 1) hu'
    have step : startCodesFrom z i (a :: u ++ rest) = startCodesFrom (decide (a = 0)) (i + 1) (u ++ rest) := by
      match hb : u ++ rest with
      | [] => simp [hb, startCodesFrom]
      | [x] => simp [hb, startCodesFrom]
      | x :: y :: t =>
        rw [List.cons_append, hb, startCodesFrom, if_neg]
        rintro ⟨rfl, rfl, rfl⟩
        match u, hb with
        | [], hb =>
          obtain rfl | ⟨t', h⟩ | ⟨t', h⟩ := hr
          · cases hb
          · rw [← h] at hb; simp at hb
          · rw [← h] at hb; simp at hb
        | [_], hb =>
          obtain rfl | ⟨t', h⟩ | ⟨t', h⟩ := hr
          · simp at hb
          · rw [← h] at hb; simp at hb
          · rw [← h] at hb; simp at hb
        | _ :: _ :: u', hb =>
          simp only [List.cons_append, List.cons.injEq] at hb
          obtain ⟨rfl, rfl, -⟩ := hb
          exact hu ⟨[], u', rfl⟩
    rw [step, ih]
    cases u with
    | nil => simp
    | cons b u => simp [List.getLast?_cons, Nat.add_assoc, Nat.add_comm 1]

/-- The units between start codes that stand `k` further on. -/
theorem unitsOf_shift (k total : Nat) (endDelim : Bool) (cs : List StartCode) :
    unitsOf (total + k) endDelim (cs.map fun c => { c with at_ := c.at_ + k }) =
      (unitsOf total endDelim cs).map fun x => { x with start := x.start + k } := by
  fun_induction unitsOf total endDelim cs with
  | case1 => rfl
  | case2 c h =>
    subst h
    simp only [List.map_cons, List.map_nil, unitsOf, ↓reduceIte, List.cons.injEq, NalUnit.mk.injEq, and_true]
    omega
  | case3 c h => simp [unitsOf, h]
  | case4 c d rest ih =>
    simp only [List.map_cons] at ih
    simp only [List.map_cons, unitsOf, ih, List.cons.injEq, NalUnit.mk.injEq, and_true]
    omega

/-- The units of a video payload that stands behind other bytes (46_ts_demux R380). -/
theorem videoUnits_shift (c : Config.Caps) (has : Bool) (stamp : Stamp) (pre pl : Bytes) (us : List NalUnit)
    (avail first : Bool) (d : Dmx) :
    videoUnits c has stamp (pre ++ pl) (us.map fun x => { x with start := x.start + pre.length }) avail first d =
      videoUnits c has stamp pl us avail first d := by
  have hs (a n : Nat) : slice (pre ++ pl) (a + pre.length) n = slice pl a n := by
    simp [slice, Nat.add_comm a, ← List.drop_drop]
  induction us generalizing avail first d with
  | nil => rfl
  | cons x us ih => simp only [List.map_cons, videoUnits, hs, ih]

/-! ### The dispatcher (46_ts_demux R355) -/

/-- Once the PMT is parsed no packet redispatches. -/
theorem dispatchWith_parsed (f g : Dmx → Except Err Dmx) (c : Config.Caps) (k : Bytes) {d : Dmx}
    (hk : d.trk.pmtPid.known = true) (hp : d.trk.pmtPid.parsed = true) :
    dispatchWith f c k d = dispatchWith g c k d := by
  simp only [dispatchWith, hk, hp, Bool.not_true, Bool.and_false, Bool.false_eq_true, ↓reduceIte]

end Sys2Proof.Machine
end

