-- ==== Sys2Proof/Laws/Written.lean ====
section
/-! SUPPORT. Reading what was written: each bit-level primitive, run where the bits of a written value stand,
gives the value back and moves over exactly those bits; such reads follow one another. -/

namespace Sys2Proof.Machine

@[simp] theorem natBits_length (n v : Nat) : (natBits n v).length = n := by simp [natBits]

theorem bitsAt_iff {s : Bytes} {p : Nat} {bs : List Bool} :
    BitsAt s p bs ↔ ∀ k, (h : k < bs.length) → bitAt s (p + k) = bs[k] := by
  unfold BitsAt bitString
  constructor
  · intro h k hk
    rw [List.ext_getElem_iff] at h
    have := h.2 k (by simpa using hk) hk
    rwa [List.getElem_map, List.getElem_range] at this
  · intro h
    refine List.ext_getElem (by simp) fun k h1 h2 => ?_
    simpa using h k h2

/-- Two runs of bits, one after the other. -/
theorem bitsAt_append {s : Bytes} {p : Nat} {a b : List Bool} :
    BitsAt s p (a ++ b) ↔ BitsAt s p a ∧ BitsAt s (p + a.length) b := by
  simp only [bitsAt_iff]
  constructor
  · intro h
    refine ⟨fun k hk => ?_, fun k hk => ?_⟩
    · rw [h k (by simp; omega), List.getElem_append_left hk]
    · rw [Nat.add_assoc, h (a.length + k) (by simp; omega),
        List.getElem_append_right (Nat.le_add_right _ _)]
      simp
  · rintro ⟨ha, hb⟩ k hk
    rcases Nat.lt_or_ge k a.length with h | h
    · rw [ha k h, List.getElem_append_left h]
    · rw [List.getElem_append_right h, ← hb (k - a.length) (by simp at hk; omega)]
      congr 1
      omega

/-- The parser reads the bits as the value, wherever they stand, and moves over them. -/
def Reads {α : Type} (p : BitP α) (bs : List Bool) (v : α) : Prop :=
  ∀ c : Cursor, c.pos + bs.length ≤ c.nbits → BitsAt c.bytes c.pos bs →
    p c = .ok (v, { c with pos := c.pos + bs.length })

theorem reads_pure {α : Type} (v : α) : Reads (pure v) [] v := fun c _ _ => by
  simp [pure, StateT.pure, Except.pure]

/-- One read after another. -/
theorem reads_bind {α β : Type} {p : BitP α} {f : α → BitP β} {as bs : List Bool} {a : α} {b : β}
    (hp : Reads p as a) (hf : Reads (f a) bs b) : Reads (p >>= f) (as ++ bs) b := by
  intro c h1 h2
  rw [List.length_append] at h1
  obtain ⟨h3, h4⟩ := bitsAt_append.1 h2
  simp only [bind, StateT.bind, hp c (by omega) h3, Except.bind]
  rw [hf _ (by simp only; omega) (by simpa using h4)]
  simp only [List.length_append, Nat.add_assoc]

theorem reads_codedIf {α : Type} {coded : Bool} {p : BitP α} {absent v : α} {bs : List Bool}
    (h1 : coded = true → Reads p bs v) (h2 : coded = false → bs = [] ∧ v = absent) :
    Reads (codedIf coded p absent) bs v := by
  unfold codedIf
  cases coded
  · obtain ⟨rfl, rfl⟩ := h2 rfl
    exact reads_pure v
  · exact h1 rfl

theorem reads_demand {b : Bool} (info : Nat) (h : b = true) : Reads (demand b info) [] () :=
  fun c _ _ => by simp [demand, h]

/-- `n` reads one after the other. -/
theorem reads_times {α : Type} {p : BitP Unit} {f : α → List Bool} {xs : List α} {n : Nat}
    (hn : n = xs.length) (h : ∀ x ∈ xs, Reads p (f x) ()) : Reads (times n p) (xs.flatMap f) () := by
  subst hn
  induction xs with
  | nil => exact reads_pure ()
  | cons x xs ih =>
    exact reads_bind (h x (by simp)) (ih fun y hy => h y (by simp [hy]))

/-! ### The primitives -/

theorem bitsVal_of_bits {s : Bytes} {p : Nat} (n v : Nat)
    (h : ∀ k < n, bitAt s (p + k) = v.testBit (n - 1 - k)) : bitsVal s p n = v % 2 ^ n := by
  induction n generalizing v with
  | zero => simp [bitsVal, Nat.mod_one]
  | succ n ih =>
    have h1 : bitsVal s p n = v / 2 % 2 ^ n := ih (v / 2) fun k hk => by
      rw [h k (by omega), Nat.testBit_div_two]
      congr 1
      omega
    have h2 : (bitAt s (p + n)).toNat = v % 2 := by
      rw [h n (by omega)]
      simp only [Nat.add_sub_cancel, Nat.sub_self, Nat.testBit_zero]
      rcases Nat.mod_two_eq_zero_or_one v with h | h <;> simp [h]
    rw [bitsVal, h1, h2, Nat.pow_succ, Nat.mul_comm (2 ^ n) 2, Nat.mod_mul]
    omega

/-- `u(n)` reads back an `n`-bit number (41_bitreader R170). -/
theorem reads_u {n v : Nat} (h : v < 2 ^ n) : Reads (u n) (natBits n v) v := by
  intro c h1 h2
  rw [natBits_length] at h1 ⊢
  rw [bitsAt_iff] at h2
  have : bitsVal c.bytes c.pos n = v := by
    rw [bitsVal_of_bits n v fun k hk => by rw [h2 k (by simpa using hk)]; simp [natBits],
      Nat.mod_eq_of_lt h]
  simp [u, Nat.not_lt.2 h1, this]

/-- `u(1)` reads back a flag. -/
theorem reads_flag (b : Bool) : Reads (u 1) [b] b.toNat := by
  cases b
  · exact reads_u (n := 1) (v := 0) (by decide)
  · exact reads_u (n := 1) (v := 1) (by decide)

/-- `skip(n)` moves over `n` bits (41_bitreader R171). -/
theorem reads_skip (bs : List Bool) : Reads (skip bs.length) bs () := fun c h _ => by
  simp [skip, Nat.not_lt.2 h]

theorem ueBits_length (v : Nat) : (ueBits v).length = 2 * Nat.log2 (v + 1) + 1 := by
  simp [ueBits]
  omega

/-- `ue()` reads back every value up to 2^32 - 2 (41_bitreader R172). -/
theorem reads_ue {v : Nat} (h : UeRange v) : Reads ue (ueBits v) v := by
  intro c h1 h2
  have hz1 : 2 ^ Nat.log2 (v + 1) ≤ v + 1 := Nat.log2_self_le (by omega)
  have hz2 : v + 1 < 2 ^ (Nat.log2 (v + 1) + 1) := Nat.lt_log2_self
  have hz3 : Nat.log2 (v + 1) < 32 := (Nat.log2_lt (by omega)).2 (by unfold UeRange at h; omega)
  rw [ueBits_length] at h1 ⊢
  rw [Nat.pow_succ] at hz2
  unfold ueBits at h2
  generalize Nat.log2 (v + 1) = z at *
  obtain ⟨h3, h4⟩ := bitsAt_append.1 h2
  rw [← List.singleton_append, bitsAt_append] at h4
  obtain ⟨h5, h6⟩ := h4
  simp only [bitsAt_iff] at h3 h5
  rw [List.length_replicate] at h6 h5
  have h7 := reads_u (n := z) (v := v + 1 - 2 ^ z) (by omega)
    { c with pos := c.pos + z + 1 } (by simp only [natBits_length]; omega) h6
  have h8 : bitsVal c.bytes (c.pos + z + 1) z = v + 1 - 2 ^ z := by
    have := (u_ok.1 h7).2.1
    exact this.symm
  refine ue_ok.2 ⟨z, hz3, by omega, ?_, fun j hj => ?_, ?_, ?_⟩
  · simpa using h5 0 (by simp)
  · have := h3 j (by simpa using hj)
    rwa [List.getElem_replicate] at this
  · rw [h8]; omega
  · congr 1; omega

/-- `se()` reads back every value of magnitude up to 2^31 - 1 (41_bitreader R173). -/
theorem reads_se {v : Int} (h : SeRange v) : Reads se (seBits v) v := by
  have h1 : UeRange (seCode v) := by unfold SeRange at h; unfold UeRange seCode; split <;> omega
  have h2 : seOf (seCode v) = v := by unfold seOf seCode; split <;> split <;> omega
  have := reads_bind (f := fun k => (pure (seOf k) : BitP Int)) (reads_ue h1) (reads_pure _)
  rw [List.append_nil, h2] at this
  exact this

/-! ### Running a parser -/

/-- A parser over a byte sequence that starts with the bits it reads. -/
theorem parseBytes_reads {α : Type} {p : BitP α} {bs : List Bool} {v : α} {s : Bytes}
    (hp : Reads p bs v) (hs : StartsWith s bs) : parseBytes p s = .ok v := by
  rw [parseBytes_ok]
  exact ⟨_, hp _ (by simpa using hs.1) hs.2⟩

end Sys2Proof.Machine
end

