-- ==== Sys2Proof/Machine/CodecString.lean ====
section
/-! DEFINITION. The codec strings a host builds from the descriptor registers (43_avc_paramsets R233,
44_hevc_paramsets R271, 45_audio R302), as lists of characters. No command uses them: the FBP emits
fields, not text. -/

namespace Sys2Proof.Machine

/-- A hexadecimal digit, upper or lower case; a decimal digit for a value below 10. -/
def hexDigit (upper : Bool) (d : Nat) : Char :=
  Char.ofNat (if d < 10 then 48 + d else (if upper then 55 else 87) + d)

/-- The `n` hexadecimal digits of a number, most significant first. -/
def hexFixed (upper : Bool) : Nat → Nat → List Char
  | 0, _ => []
  | n + 1, v => hexFixed upper n (v / 16) ++ [hexDigit upper (v % 16)]

/-- A number of at most 16 digits in upper-case hexadecimal without leading zeros; 0 is one digit. -/
def hexShort (v : Nat) : List Char :=
  let ds := (hexFixed true 16 v).dropWhile (· = '0')
  if ds = [] then ['0'] else ds

/-- The decimal digits of a number below 1000, without leading zeros; 0 is one digit. -/
def decShort (v : Nat) : List Char :=
  let ds := [v / 100 % 10, v / 10 % 10, v % 10].dropWhile (· = 0)
  (if ds = [] then [0] else ds).map (hexDigit false)

/-- The AVC string (R233). -/
def avcCodecString (codec0 : Word64) : List Char :=
  ['a', 'v', 'c', '1', '.'] ++ hexFixed false 6 (codec0.extractLsb' 0 24).toNat

/-- The 32 compatibility flags in reverse bit order: flag 0, in bit 47, as the least significant bit
(R271 point 4). -/
def reversedCompat (codec0 : Word64) : Nat :=
  ((List.range 32).map fun k => (codec0.getLsbD (47 - k)).toNat * 2 ^ k).sum

/-- The constraint bytes, first coded byte first, trailing zero bytes omitted (R271 point 7). -/
def constraintBytes (codec1 : Word64) : List Nat :=
  (([0, 8, 16, 24, 32, 40].map fun k => (codec1.extractLsb' k 8).toNat).dropWhile (· = 0)).reverse

/-- The profile-space letter: none for 0, then A, B, C (R271 point 2). -/
def profileSpaceLetter (space : Nat) : List Char :=
  if space = 0 then [] else [Char.ofNat (64 + space)]

/-- The HEVC string (R271). -/
def hevcCodecString (codec0 codec1 : Word64) : List Char :=
  ['h', 'v', 'c', '1', '.']
    ++ profileSpaceLetter (codec0.extractLsb' 14 2).toNat
    ++ decShort (codec0.extractLsb' 8 5).toNat ++ ['.']
    ++ hexShort (reversedCompat codec0) ++ ['.']
    ++ [if codec0.getLsbD 13 then 'H' else 'L']
    ++ decShort (codec0.extractLsb' 0 8).toNat
    ++ (constraintBytes codec1).flatMap (fun b => '.' :: hexShort b)

/-- The AAC string, from the audio object type (45_audio R302). -/
def aacCodecString (info : Word64) : List Char :=
  ['m', 'p', '4', 'a', '.', '4', '0', '.'] ++ decShort info.toNat

end Sys2Proof.Machine
end

