-- ==== Sys2Proof/Tests/Slice0.lean ====
section
/-! SUPPORT. The model's own tests. Expected values are those of 95_test_vectors (the vector is named in each
docstring), of 30_encoding R133, or worked by hand from the rule named. The witnesses after them meet the hypotheses
of the statements. -/

namespace Sys2Proof.Machine

set_option Elab.async false

/-! ### Helpers -/

/-- Bytes from numbers. -/
def bytesOf (l : List Nat) : Bytes := l.map (BitVec.ofNat 8)

/-- The memory that lists the bytes from an address on. -/
def listed : Nat → List Nat → Memory
  | _, [] => []
  | a, x :: rest => (a, BitVec.ofNat 8 x) :: listed (a + 1) rest

/-- Power-on with the bytes at the start of IN and the region operand naming them. -/
def holding (l : List Nat) : State :=
  { State.reset with inMem := listed 0 l, arg1 := BitVec.ofNat 64 l.length }

/-- The region of `holding`. -/
def whole (l : List Nat) : Region := { space := .inp, off := 0, len := l.length }

/-- Power-on with the bytes in IN, the bit reader over them and its cursor at a bit. -/
def reading (l : List Nat) (pos : Nat) : State :=
  { holding l with
    br := { src := .inp, off := 0, nbits := BitVec.ofNat 64 (8 * l.length), pos := BitVec.ofNat 64 pos } }

/-- The state a command leaves. -/
def after (i : Instr) (s : State) : State :=
  match exec i s with
  | .next t => t
  | .fault _ => s
  | .refused _ => s

/-- The values of registers, as the host reads them. -/
def regsOf (ks : List Nat) (s : State) : List Nat := ks.map fun k => (regRead s k).toNat

/-- The fields of the DT entries. -/
def dtOf (s : State) : List (Nat × Nat × Nat × Nat) :=
  s.dt.map fun e => (e.pts.toNat, e.off.toNat, e.len.toNat, e.aux.toNat)

/-! ### Well-formedness: each check refuses an ill-formed term (30_encoding R114, R122) -/

theorem test_wellFormed_refuses :
    Instr.wellFormed (.readBits 33) = false ∧ Instr.wellFormed (.splitLenpfx .inp 0) = false ∧
      Instr.wellFormed (.splitLenpfx .dt 5) = false := by decide

theorem test_wellFormed_accepts :
    Instr.wellFormed (.readBits 32) = true ∧ Instr.wellFormed (.readBits 0) = true ∧
      Instr.wellFormed (.splitLenpfx .inp 1) = true ∧ Instr.wellFormed (.splitLenpfx .rbsp 4) = true := by
  decide

/-! ### Decoding: a word of every constructor, written from the fields of 30_encoding R110 to R117 -/

/-- The instruction of a table word. -/
abbrev DecodesTo (w : Nat) (i : Instr) : Prop := decodeTableWord 32 w = some i

theorem test_decode_control :
    DecodesTo 0x00000000 .nop ∧
    DecodesTo 0x01000000 .reset ∧
    DecodesTo 0x02000000 .trackReset := by decide

theorem test_decode_reader :
    DecodesTo 0x10200000 (.brInit .dt) ∧
    DecodesTo 0x11000005 (.readBits 5) ∧
    DecodesTo 0x120003E8 (.skipBits 1000) ∧
    DecodesTo 0x13000000 .readUe ∧
    DecodesTo 0x14000000 .skipUe ∧
    DecodesTo 0x15000000 .readSe ∧
    DecodesTo 0x16000000 .skipSe ∧
    DecodesTo 0x17000040 (.skipScalingList 64) := by decide

theorem test_decode_nal :
    DecodesTo 0x20110000 (.splitAnnexb .rbsp true) ∧
    DecodesTo 0x20200000 (.splitAnnexb .dt false) ∧
    DecodesTo 0x21200002 (.splitLenpfx .dt 2) ∧
    DecodesTo 0x22100000 (.epbRemove .rbsp) := by decide

theorem test_decode_paramsets :
    DecodesTo 0x30200000 (.avcSpsParse .dt) ∧
    DecodesTo 0x31100000 (.hevcSpsParse .rbsp) ∧
    DecodesTo 0x32000000 (.avccParse .inp) ∧
    DecodesTo 0x33200000 (.hvccParse .dt) := by decide

theorem test_decode_audio :
    DecodesTo 0x40100000 (.aacAscParse .rbsp) ∧
    DecodesTo 0x41000000 (.adtsParse .inp) ∧
    DecodesTo 0x42200000 (.mpaHdrParse .dt) ∧
    DecodesTo 0x43000000 (.mpaScan .inp) := by decide

theorem test_decode_demux :
    DecodesTo 0x50010000 (.tsDemux true false) ∧
    DecodesTo 0x50020000 (.tsDemux false true) ∧
    DecodesTo 0x51000000 .tsFlush ∧
    DecodesTo 0x52020000 (.flvDemux false true) ∧
    DecodesTo 0x52010000 (.flvDemux true false) := by decide

/-- The ERR_INFO value of an illegal word. -/
def illegalOf (w : Word32) : Option Nat :=
  match decode w with
  | .ok _ => none
  | .error e => some (illegalInfo e)

/-- Illegal words and their ERR_INFO values: CE5 to CE9, CE11 to CE16, CE18, CE20. -/
theorem test_decode_illegal :
    illegalOf 0x00000001 = some 0x1 ∧
    illegalOf 0x01000100 = some 0x100 ∧
    illegalOf 0x9A000000 = some 0x9A ∧
    illegalOf 0x03000000 = some 0x3 ∧
    illegalOf 0xFF000000 = some 0xFF ∧
    illegalOf 0x11000021 = some 0x21 ∧
    illegalOf 0x11010005 = some 0x10005 ∧
    illegalOf 0x20020000 = some 0x20000 ∧
    illegalOf 0x10300000 = some 0x3 ∧
    illegalOf 0x50100000 = some 0x1 ∧
    illegalOf 0x50040000 = some 0x40000 ∧
    illegalOf 0x21000000 = some 0x0 ∧
    illegalOf 0x21000005 = some 0x5 ∧
    illegalOf 0x51000001 = some 0x1 ∧
    illegalOf 0x130000FF = some 0xFF := by decide

/-! ### Codec strings -/

/-- The strings of AV1, HV1 and AS1. -/
theorem test_codecStrings :
    avcCodecString 0x100000000042C01E = ['a', 'v', 'c', '1', '.', '4', '2', 'c', '0', '1', 'e'] ∧
    hevcCodecString 0x2000600000000178 0x900000000000 =
      ['h', 'v', 'c', '1', '.', '1', '.', '6', '.', 'L', '1', '2', '0', '.', '9', '0'] ∧
    aacCodecString 2 = ['m', 'p', '4', 'a', '.', '4', '0', '.', '2'] := by decide +kernel

/-! ### Control -/

/-- A state in the fault state, as CE1 to CE4 start. -/
def faulted : State :=
  { State.reset with
    status := { err := 3, fault := true, broken := false, contig := false }, errInfo := 1, mode := .ts
    sps := { geo := { Geometry.zero with width := 1920 }, chroma := 0 } }

/-- CE1. -/
theorem test_nop : exec .nop faulted = .next faulted := rfl

/-- CE2: STATUS, ERR_INFO, ERR_CMD, MODE, CLOCK, SPS_WIDTH. -/
theorem test_reset : regsOf [5, 6, 7, 40, 58, 20] (after .reset faulted) = [0, 0, 0x01000000, 0, 0, 0] := by
  decide +kernel

/-- CE3: CNT_BADPES and PMT_PID cleared, MODE kept, the error registers. -/
theorem test_trackReset :
    regsOf [66, 41, 40, 5, 7]
      (after .trackReset
        { State.reset with
          mode := .ts
          trk := { Track.reset with
            pmtPid := { pid := 0x1000, known := true, parsed := true }
            cnt := { Track.reset.cnt with badPes := 3 } } }) = [0, 0, 1, 0, 0x02000000] := by decide +kernel

/-- CE4. -/
theorem test_trackReset_faulted : regsOf [5, 6] (after .trackReset faulted) = [0x115, 0] := by decide +kernel

/-! ### Bit reader -/

/-- BR1: BR_SRC, BR_OFF, BR_NBITS, BR_POS. -/
theorem test_brInit :
    regsOf [9, 10, 11, 12] (after (.brInit .inp) { State.reset with arg0 := 16, arg1 := 4 }) =
      [0, 16, 32, 0] := by decide +kernel

/-- BR17 and BR18. -/
theorem test_brInit_bounds :
    regsOf [5, 6] (after (.brInit .inp) { State.reset with arg0 := 16777215, arg1 := 2 }) =
      [0x11, 0xFFFFFF] ∧
    regsOf [5, 11] (after (.brInit .inp) { State.reset with arg0 := 16777216 }) = [0, 0] := by decide +kernel

/-- BR2 and BR3: VAL, BR_POS. -/
theorem test_readBits :
    regsOf [8, 12] (after (.readBits 3) (reading [0xA6, 0x02] 0)) = [5, 3] ∧
    regsOf [8, 12] (after (.readBits 16) (reading [0xA6, 0x02] 0)) = [0xA602, 16] := by decide +kernel

/-- BR4: STATUS, ERR_INFO, BR_POS. -/
theorem test_readBits_short :
    regsOf [5, 6, 12] (after (.readBits 32) (reading [0xA6, 0x02] 0)) = [1, 0, 0] := by decide +kernel

/-- BR6. -/
theorem test_skipBits :
    regsOf [5, 12] (after (.skipBits 2) (reading [0, 0, 0, 0] 30)) = [0, 32] ∧
    regsOf [5, 6, 12] (after (.skipBits 1) (reading [0, 0, 0, 0] 32)) = [1, 32, 32] := by decide +kernel

/-- EG2, first row. -/
theorem test_readUe :
    regsOf [8, 12] (after .readUe (reading [0, 0, 0, 1, 0xFF, 0xFF, 0xFF, 0xFE] 0)) = [0xFFFFFFFE, 63] := by
  decide +kernel

/-- EG2: 32 zeros, whatever follows; the end within the zeros; the end within the suffix. -/
theorem test_readUe_fails :
    regsOf [5, 6] (after .readUe (reading [0, 0, 0, 0, 0x80] 0)) = [0x13, 0] ∧
    regsOf [5, 6] (after .readUe (reading [0, 0, 0] 0)) = [1, 0] ∧
    regsOf [5, 6] (after .readUe (reading [0, 0xFF] 0)) = [1, 0] := by decide +kernel

/-- EG2, third row: VAL unchanged. -/
theorem test_skipUe :
    regsOf [8, 12] (after .skipUe (reading [0, 0, 0, 1, 0xFF, 0xFF, 0xFF, 0xFE] 0)) = [0, 63] := by
  decide +kernel

/-- EG2: code 2^32 - 2 gives -(2^31 - 1), code 2 at bit 4 gives -1. -/
theorem test_readSe :
    regsOf [8, 12] (after .readSe (reading [0, 0, 0, 1, 0xFF, 0xFF, 0xFF, 0xFE] 0)) =
      [0xFFFFFFFF80000001, 63] ∧
    regsOf [8, 12] (after .readSe (reading [0xA6, 0x02] 4)) = [0xFFFFFFFFFFFFFFFF, 7] := by decide +kernel

/-- EG2: code 1 at bit 1. -/
theorem test_skipSe : regsOf [8, 12] (after .skipSe (reading [0xA6, 0x02] 1)) = [0, 4] := by decide +kernel

/-- BR11, BR12 and BR13. -/
theorem test_skipScalingList :
    regsOf [5, 12] (after (.skipScalingList 16) (reading [0x08, 0x80] 0)) = [0, 9] ∧
    regsOf [5, 12] (after (.skipScalingList 16) (reading [0xFF, 0xFF] 0)) = [0, 16] ∧
    regsOf [5, 6, 12] (after (.skipScalingList 16) (reading [0xFF] 0)) = [1, 8, 0] := by decide +kernel

/-! ### NAL units -/

/-- The region of X1 and NA1. -/
def na1 : List Nat :=
  [0xAA, 0x00, 0x00, 0x00, 0x01, 0x67, 0x42, 0x00, 0x00, 0x01, 0x00, 0x00, 0x01, 0x68, 0x00, 0x00, 0x03, 0x01]

/-- NA1 in HOLD mode: the DT, LEAD_LEN, RES_OFF, RES_LEN. -/
theorem test_splitAnnexb_hold :
    dtOf (after (.splitAnnexb .inp false) (holding na1)) = [(0, 5, 2, 4), (0, 10, 0, 3)] ∧
    regsOf [16, 17, 18] (after (.splitAnnexb .inp false) (holding na1)) = [1, 10, 8] := by decide +kernel

/-- NA1 in ENDDELIM mode. -/
theorem test_splitAnnexb_end :
    dtOf (after (.splitAnnexb .inp true) (holding na1)) = [(0, 5, 2, 4), (0, 10, 0, 3), (0, 13, 5, 3)] ∧
    regsOf [16, 17, 18] (after (.splitAnnexb .inp true) (holding na1)) = [1, 18, 0] := by decide +kernel

/-- LP1, and LP3 with a width of 1. -/
theorem test_splitLenpfx :
    dtOf (after (.splitLenpfx .inp 4) (holding
      [0x00, 0x00, 0x00, 0x02, 0x65, 0x88, 0x00, 0x00, 0x00, 0x00, 0x00, 0x00, 0x01, 0x41, 0xFF, 0x00, 0x03])) =
      [(0, 4, 2, 4)] ∧
    regsOf [17, 18] (after (.splitLenpfx .inp 1) (holding [0x02, 0xAA, 0xBB, 0x05, 0xCC])) = [3, 2] := by
  decide +kernel

/-- EP1. -/
theorem test_epbRemove :
    (after (.epbRemove .inp) (holding
      [0x00, 0x00, 0x03, 0x00, 0x00, 0x03, 0x03, 0x00, 0x00, 0x03, 0x01, 0x00, 0x00, 0x03, 0x00])).rbsp =
      bytesOf [0, 0, 0, 0, 3, 0, 0, 1, 0, 0, 0] ∧
    regsOf [13, 14] (after (.epbRemove .inp) (holding
      [0x00, 0x00, 0x03, 0x00, 0x00, 0x03, 0x03, 0x00, 0x00, 0x03, 0x01, 0x00, 0x00, 0x03, 0x00])) = [11, 4] := by
  decide +kernel

/-! ### Parameter sets -/

/-- The units of AV1, AV2 and AV4. -/
def av1 : List Nat := [0x67, 0x42, 0xC0, 0x1E, 0xEC, 0x80, 0x3C, 0x01, 0x13, 0xF2, 0xE0, 0x20, 0x08]
def av2 : List Nat :=
  [0x67, 0x64, 0x00, 0x28, 0xAD, 0x84, 0x40, 0x65, 0x40, 0x28, 0x02, 0xDD, 0xFF, 0x80, 0x02, 0x00, 0x01, 0xC0]
def av4 : List Nat := [0x67, 0x42, 0xC0, 0x15, 0xD1, 0x91, 0x98, 0xE8, 0x16, 0x09, 0x44]

/-- AV1, AV2 and AV4: width, height, SAR, SPS_CODEC0, SPS_CODEC1, SPS_CHROMA. -/
theorem test_avcSpsParse :
    regsOf [20, 21, 22, 23, 24, 25, 26] (after (.avcSpsParse .inp) (holding av1)) =
      [1920, 1080, 1, 1, 0x100000000042C01E, 0, 1] ∧
    regsOf [20, 21, 22, 23, 24, 25, 26] (after (.avcSpsParse .inp) (holding av2)) =
      [1280, 720, 4, 3, 0x1000000000640028, 0, 1] ∧
    regsOf [20, 21, 22, 23] (after (.avcSpsParse .inp) (holding av4)) = [352, 288, 1, 1] := by decide +kernel

/-- AV5, AV8 and AV9. -/
theorem test_avcSpsParse_fails :
    regsOf [5, 6] (after (.avcSpsParse .inp) (holding [0x68, 0xCE, 0x38, 0x80])) = [0x14, 1] ∧
    regsOf [5, 6, 20]
      (after (.avcSpsParse .inp) (holding [0x67, 0x42, 0x00, 0x1E, 0xDA, 0x7C, 0xA5, 0xD0])) =
      [0x14, 5, 0] ∧
    regsOf [5, 6] (after (.avcSpsParse .inp) (holding [0x67, 0x42, 0xC0])) = [1, 24] := by decide +kernel

/-- The units of HV1 and HV2. -/
def hv1 : List Nat :=
  [0x42, 0x01, 0x01, 0x01, 0x60, 0x00, 0x00, 0x03, 0x00, 0x90, 0x00, 0x00, 0x03, 0x00, 0x00, 0x03, 0x00, 0x78,
    0xA0, 0x03, 0xC0, 0x80, 0x11, 0x07, 0xCB, 0x96, 0x57, 0x92, 0x44, 0x89, 0xBF, 0xF9, 0x78, 0x0A]
def hv2 : List Nat :=
  [0x42, 0x01, 0x01, 0x22, 0x20, 0x00, 0x00, 0x03, 0x00, 0xB0, 0x00, 0x00, 0x03, 0x00, 0x00, 0x03, 0x00, 0x99,
    0xA0, 0x01, 0xE0, 0x20, 0x02, 0x1C, 0x4D, 0x96, 0x5E, 0x49, 0x0A, 0x56, 0x6D, 0x6B, 0xFF, 0xA5, 0xAF, 0x80,
    0xC0]

/-- HV1. -/
theorem test_hevcSpsParse :
    regsOf [20, 21, 22, 23, 24, 25, 26] (after (.hevcSpsParse .inp) (holding hv1)) =
      [1920, 1080, 1, 1, 0x2000600000000178, 0x900000000000, 1] := by decide +kernel

/-- HV2: reference picture sets, a long-term picture and a VUI. -/
theorem test_hevcSpsParse_sets :
    regsOf [20, 21, 22, 23, 24, 25, 26] (after (.hevcSpsParse .inp) (holding hv2)) =
      [3840, 2160, 1, 1, 0x2000200000002299, 0xB00000000000, 1] := by decide +kernel

/-- The record AC1. -/
def ac1 : List Nat :=
  [0x01, 0x42, 0xC0, 0x1E, 0xFF, 0xE1, 0x00, 0x0D, 0x67, 0x42, 0xC0, 0x1E, 0xEC, 0x80, 0x3C, 0x01, 0x13, 0xF2,
    0xE0, 0x20, 0x08, 0x01, 0x00, 0x04, 0x68, 0xCE, 0x38, 0x80]

/-- AC1: the DT, LENSIZE, SPS_WIDTH. -/
theorem test_avccParse :
    dtOf (after (.avccParse .inp) (holding ac1)) = [(0, 8, 13, 0), (0, 24, 4, 1)] ∧
    regsOf [19, 20] (after (.avccParse .inp) (holding ac1)) = [4, 1920] := by decide +kernel

/-- AC4 and AC7. -/
theorem test_avccParse_fails :
    regsOf [5, 6] (after (.avccParse .inp) (holding (ac1.take 21))) = [2, 21] ∧
    regsOf [5, 6] (after (.avccParse .inp) (holding [0x01, 0x42, 0xC0, 0x1E, 0xFF, 0xE0, 0x00])) =
      [0x14, 0x21] := by decide +kernel

/-- The record HV3. -/
def hv3 : List Nat :=
  [0x01, 0x01, 0x60, 0x00, 0x00, 0x00, 0x90, 0x00, 0x00, 0x00, 0x00, 0x00, 0x78, 0xF0, 0x00, 0xFC, 0xFD, 0xF8,
    0xF8, 0x00, 0x00, 0x0F, 0x04, 0xA0, 0x00, 0x01, 0x00, 0x17, 0x40, 0x01, 0x0C, 0x01, 0xFF, 0xFF, 0x01, 0x60,
    0x00, 0x00, 0x03, 0x00, 0x90, 0x00, 0x00, 0x03, 0x00, 0x00, 0x03, 0x00, 0x78, 0xAC, 0x09, 0xA1, 0x00, 0x01,
    0x00, 0x22, 0x42, 0x01, 0x01, 0x01, 0x60, 0x00, 0x00, 0x03, 0x00, 0x90, 0x00, 0x00, 0x03, 0x00, 0x00, 0x03,
    0x00, 0x78, 0xA0, 0x03, 0xC0, 0x80, 0x11, 0x07, 0xCB, 0x96, 0x57, 0x92, 0x44, 0x89, 0xBF, 0xF9, 0x78, 0x0A,
    0xA2, 0x00, 0x01, 0x00, 0x07, 0x44, 0x01, 0xC1, 0x72, 0xB4, 0x62, 0x40, 0x27, 0x00, 0x01, 0x00, 0x02, 0x4E,
    0x01]

/-- HV3: the DT, LENSIZE, SPS_WIDTH. -/
theorem test_hvccParse :
    dtOf (after (.hvccParse .inp) (holding hv3)) = [(0, 28, 23, 2), (0, 56, 34, 0), (0, 95, 7, 1)] ∧
    regsOf [19, 20] (after (.hvccParse .inp) (holding hv3)) = [4, 1920] := by decide +kernel

/-- HV3 cut at 30 and at 108 bytes. -/
theorem test_hvccParse_fails :
    regsOf [5, 6] (after (.hvccParse .inp) (holding (hv3.take 30))) = [2, 26] ∧
    regsOf [5, 6] (after (.hvccParse .inp) (holding (hv3.take 108))) = [2, 105] := by decide +kernel

/-! ### Audio -/

/-- AS7 (an escaped object type) and AS8 (an explicit rate): AUD_INFO, AUD_RATE, AUD_CHANNELS. -/
theorem test_aacAscParse :
    regsOf [31, 29, 30] (after (.aacAscParse .inp) (holding [0xF8, 0xA0, 0x00])) = [37, 96000, 0] ∧
    regsOf [31, 29, 30, 28, 33]
      (after (.aacAscParse .inp) (holding [0x17, 0x80, 0xBB, 0x80, 0x10])) =
      [2, 96000, 2, 1, 1024] := by decide +kernel

/-- AS10 and AS12. -/
theorem test_aacAscParse_fails :
    regsOf [5, 6] (after (.aacAscParse .inp) (holding [0x16, 0x80])) = [0x14, 0x31] ∧
    regsOf [5, 6] (after (.aacAscParse .inp) (holding [0xF8, 0xA0])) = [1, 15] := by decide +kernel

/-- The region of AD1. -/
def ad1 : List Nat :=
  [0xFF, 0xF1, 0x4C, 0x80, 0x01, 0x5F, 0xFC, 0x21, 0x10, 0x05, 0x00, 0xFF, 0xF1, 0x4C, 0x80, 0x01, 0x3F, 0xFC,
    0xDE, 0xAD, 0xFF, 0xF1, 0x4C, 0x80, 0x01, 0x7F]

/-- AD1: the DT, BROKEN, the rate, the channels, the object type, the frame length, AUD_ASC. -/
theorem test_adtsParse :
    dtOf (after (.adtsParse .inp) { holding ad1 with arg2 := 1000, arg3 := 90000 }) =
      [(1000, 7, 3, 1024), (2920, 18, 2, 1024)] ∧
    regsOf [5, 29, 30, 31, 32, 35] (after (.adtsParse .inp) { holding ad1 with arg2 := 1000 }) =
      [0x200, 48000, 2, 2, 10, 0x1190] := by decide +kernel

/-- AD3 and AD7. -/
theorem test_adtsParse_none :
    regsOf [5, 15] (after (.adtsParse .inp) (holding [0xFF, 0xF1])) = [0x200, 0] ∧
    regsOf [5, 15]
      (after (.adtsParse .inp)
        (holding [0xFF, 0xF1, 0x7C, 0x80, 0x01, 0x5F, 0xFC, 0x21, 0x10, 0x05])) = [0, 0] := by
  decide +kernel

/-- MP2, MP4 and MP5: frame length, samples, rate, bitrate, channels, AUD_INFO. -/
theorem test_mpaHdrParse :
    regsOf [32, 33, 29, 34, 30, 31] (after (.mpaHdrParse .inp) (holding [0xFF, 0xFB, 0x92, 0xC4])) =
      [418, 1152, 44100, 128000, 1, 0x09FD] ∧
    regsOf [32, 33, 29, 34, 30, 31] (after (.mpaHdrParse .inp) (holding [0xFF, 0xFF, 0x90, 0x64])) =
      [312, 384, 44100, 288000, 2, 0x099F] ∧
    regsOf [32, 33, 29, 34, 30, 31] (after (.mpaHdrParse .inp) (holding [0xFF, 0xF3, 0x90, 0x64])) =
      [261, 576, 22050, 80000, 2, 0x0999] := by decide +kernel

/-- MP9, MP10 and MP11. -/
theorem test_mpaHdrParse_fails :
    regsOf [5, 6] (after (.mpaHdrParse .inp) (holding [0xFF, 0xEB, 0x90, 0x64])) = [0x14, 0x42] ∧
    regsOf [5, 6] (after (.mpaHdrParse .inp) (holding [0xFF, 0xF9, 0x90, 0x64])) = [0x14, 0x41] ∧
    regsOf [5, 6] (after (.mpaHdrParse .inp) (holding [0xFF, 0xFB, 0x90])) = [2, 3] := by decide +kernel

/-- The region of MS1. -/
def ms1 : List Nat :=
  [0xFF, 0xFB, 0x90, 0x64] ++ List.replicate 413 0 ++ [0xFF, 0xFB, 0x92, 0x64] ++ List.replicate 414 0
    ++ [0xFF, 0xFB, 0x90]

/-- MS1: the DT, BROKEN, the frame length. -/
theorem test_mpaScan :
    dtOf (after (.mpaScan .inp) { holding ms1 with arg3 := 90000 }) =
      [(0, 0, 417, 1152), (2351, 417, 418, 1152)] ∧
    regsOf [5, 32] (after (.mpaScan .inp) { holding ms1 with arg3 := 90000 }) = [0x200, 417] := by
  decide +kernel

/-! ### Demuxers -/

/-- The first packet of TS1, the PAT. -/
def patPacket : List Nat :=
  [0x47, 0x40, 0x00, 0x10, 0x00, 0x00, 0xB0, 0x0D, 0x00, 0x01, 0xC1, 0x00, 0x00, 0x00, 0x01, 0xF0, 0x00, 0x00,
    0x00, 0x00, 0x00]
    ++ List.replicate 167 0xFF

/-- The PAT of TS1 and 10 more bytes: PMT_PID, MODE, CLOCK, TS_REM_LEN. -/
theorem test_tsDemux :
    regsOf [5, 41, 40, 58, 59]
      (after (.tsDemux true false) (holding (patPacket ++ List.replicate 10 0x47))) =
      [0, 0x11000, 1, 90000, 10] := by decide +kernel

/-- A first packet without its sync byte: FATAL_FORMAT(0), MODE as it was (46_ts_demux R351). -/
theorem test_tsDemux_sync :
    regsOf [5, 6, 40] (after (.tsDemux false false) (holding (List.replicate 188 0x46))) =
      [0x103, 0, 0] := by decide +kernel

/-- The audio PES of TS1. -/
def audioPesBytes : List Nat :=
  [0x00, 0x00, 0x01, 0xC0, 0x00, 0x00, 0x80, 0x80, 0x05, 0x21, 0x00, 0x07, 0xD8, 0x61, 0xFF, 0xF1, 0x4C, 0x80,
    0x01, 0x5F, 0xFC, 0x21, 0x10, 0x05, 0xFF, 0xF1, 0x4C, 0x80, 0x01, 0x3F, 0xFC, 0xDE, 0xAD]

/-- The audio PES of TS1, flushed: two frames, their timestamps and payloads, and the configuration. -/
theorem test_tsFlush :
    (after .tsFlush
      { State.reset with
        mode := .ts
        trk := { Track.reset with aCodec := .aac, pendA := some (bytesOf audioPesBytes) } }).out.asq =
      [ { pts := 126000, off := 0, len := 3, nsamples := 1024 }
      , { pts := 127920, off := 3, len := 2, nsamples := 1024 } ] ∧
    regsOf [54, 55, 62, 75]
      (after .tsFlush
        { State.reset with
          mode := .ts
          trk := { Track.reset with aCodec := .aac, pendA := some (bytesOf audioPesBytes) } }) =
      [48000, 2, 0, 5] := by decide +kernel

/-- The header and the two audio tags of FL1. -/
def fl1 : List Nat :=
  [0x46, 0x4C, 0x56, 0x01, 0x05, 0x00, 0x00, 0x00, 0x09, 0x00, 0x00, 0x00, 0x00, 0x08, 0x00, 0x00, 0x04, 0x00,
    0x00, 0x00, 0x00, 0x00, 0x00, 0x00, 0xAF, 0x00, 0x12, 0x10, 0x00, 0x00, 0x00, 0x0F, 0x08, 0x00, 0x00, 0x05,
    0x00, 0x00, 0x17, 0x00, 0x00, 0x00, 0x00, 0xAF, 0x01, 0x21, 0x10, 0x05, 0x00, 0x00, 0x00, 0x10]

/-- FL1's audio: one sample with pts 23, and A_RATE, FLV_REM_LEN. -/
theorem test_flvDemux :
    (after (.flvDemux true false) (holding fl1)).out.asq =
      [{ pts := 23, off := 0, len := 3, nsamples := 1024 }] ∧
    regsOf [5, 54, 60, 40] (after (.flvDemux true false) (holding fl1)) = [0x1800, 44100, 0, 2] := by
  decide +kernel

/-- A wrong version byte, and a header size of 8 (47_flv_demux R411). -/
theorem test_flvDemux_header :
    regsOf [5, 6] (after (.flvDemux false false) (holding [0x46, 0x4C, 0x56, 0x02])) = [0x103, 3] ∧
    regsOf [5, 6] (after (.flvDemux false false) (holding [0x46, 0x4C, 0x56, 0x01, 5, 0, 0, 0, 8])) =
      [0x103, 5] := by decide +kernel

/-! ### Host bus -/

/-- One access of the host. -/
def served (a : HostAccess) (s : State) : State :=
  match serve a s with
  | .next t => t
  | .fault _ => s
  | .refused _ => s

/-- Little-endian bytes at any alignment, and no effect of a write past IN (20_memory R82, R87, R88). -/
theorem test_bus_in :
    busRead (served (.write 0x01000003 .b4 0x11223344) State.reset) 0x01000003 .b2 = 0x3344 ∧
    served (.write 0x03000000 .b8 1) State.reset = State.reset := by decide +kernel

/-- A register is reached by an aligned 8-byte access only, and a constant register keeps its value
(10_state R32, 20_memory R87). -/
theorem test_bus_reg :
    busRead State.reset 0x288 .b8 = 0x1000000 ∧ busRead State.reset 0x288 .b4 = 0 ∧
    served (.write 0x288 .b8 5) State.reset = State.reset ∧
    (served (.write 0x10 .b8 5) State.reset).arg1 = 5 := by decide +kernel

/-! ### Witnesses: states and operands that meet the hypotheses of each statement, clause by clause -/

theorem exec_after (i : Instr) (s : State) : exec i s = .next (after i s) := by
  obtain ⟨t, h⟩ := exec_next i s
  simp [after, h]

theorem eq_ok {α : Type} {x : Except Err α} {a : α} (h : x.toOption = some a) : x = .ok a := by
  cases x with
  | ok b => cases h; rfl
  | error e => cases h

/-- The error of a failed run. -/
def errorOf {α : Type} : Except Err α → Option Err
  | .ok _ => none
  | .error e => some e

theorem eq_error {α : Type} {x : Except Err α} {e : Err} (h : errorOf x = some e) : x = .error e := by
  cases x with
  | ok b => cases h
  | error d => cases h; rfl

/-- The state in which a demux call of container `k` passes its checks. -/
abbrev Callable (k : Mode) (s : State) : Prop :=
  s.status.fault = false ∧ (s.mode = .none ∨ s.mode = k)

/-- The capacities of FBP-1 are legal (00_scope R9). -/
theorem witness_caps : Config.fbp1.Legal := by
  constructor <;> decide

/-- A state with bytes in IN and otherwise at power-on is legal. -/
theorem witness_holding {l : List Nat} (hw : (listed 0 l).wf)
    (hb : ∀ x ∈ listed 0 l, x.1 < Config.fbp1.inCap) : (holding l).Inv :=
  have h : (0 : Nat) % 8 = 0 ∧ 0 ≤ 8 * 2 ^ 24 := by decide
  ⟨witness_caps, hw, hb, .inl rfl, Nat.le_refl _, h, Nat.zero_le _, Nat.zero_le _, Nat.zero_le _,
    reset_trackOk _, empty_outOk _, ⟨rfl, rfl⟩⟩

theorem witness_DecodeOfEncode :
    (Instr.readBits 32).wellFormed = true ∧ (Instr.splitLenpfx .dt 4).wellFormed = true ∧
      (Instr.splitLenpfx .inp 1).wellFormed = true := by decide

theorem witness_EncodeOfDecode : decode 0x11000020 = .ok (.readBits 32) := by rfl

theorem witness_UndefinedOpcodes :
    undefinedOpcode (opcField 0x03000000).toNat = true ∧ undefinedOpcode (opcField 0x53000000).toNat = true ∧
      undefinedOpcode (opcField 0xFF000000).toNat = true ∧
      undefinedOpcode (opcField 0x52000000).toNat = false := by decide

theorem witness_ReservedSpaces :
    (opcField 0x10300000 = opcField (encode (.brInit .inp)) ∧ 3 ≤ (spField 0x10300000).toNat) ∧
    (opcField 0x10F00000 = opcField (encode (.brInit .inp)) ∧ 3 ≤ (spField 0x10F00000).toNat) ∧
    opcField 0x50100000 = opcField (encode (.tsDemux false false)) ∧ spField 0x50100000 ≠ 0 ∧
      regionOf (.tsDemux false false) = none := by decide

theorem opcField_mkWord (a : BitVec 8) (b c : BitVec 4) (d : BitVec 16) :
    opcField (mkWord a b c d) = a := (Laws.mkWord_fields a b c d).1

theorem flField_mkWord (a : BitVec 8) (b c : BitVec 4) (d : BitVec 16) :
    flField (mkWord a b c d) = c := (Laws.mkWord_fields a b c d).2.2.1

theorem witness_ReservedFields :
    opcField 0x20020000 = opcField (encode (.splitAnnexb .inp false)) ∧ spField 0x20020000 = 0 ∧
      ∀ j : Instr, j.wellFormed = true → encode j ≠ 0x20020000 := by
  refine ⟨by decide, by decide, fun j _ h => ?_⟩
  have h1 := congrArg opcField h
  have h2 := congrArg flField h
  cases j with
  | splitAnnexb sp e =>
    rw [encode, flField_mkWord] at h2
    cases e <;> exact absurd h2 (by decide)
  | _ => rw [encode, opcField_mkWord] at h1; exact absurd h1 (by decide)

/-- A state whose next access is the host's write of a command word, and one whose next access is a read. -/
theorem witness_StepRunsDecodedCommand :
    { State.reset with bus := [.write 0 .b8 0x110000000] }.bus = .write 0 .b8 0x110000000 :: [] ∧
    decode ((0x110000000 : Word64).setWidth 32) = .ok (.brInit .inp) ∧
    { State.reset with bus := [.read 0x28 .b8] }.bus = .read 0x28 .b8 :: [] ∧
    (∀ v, HostAccess.read 0x28 .b8 ≠ .write 0 .b8 v) ∧ State.reset.bus = [] :=
  ⟨rfl, rfl, rfl, (fun _ h => nomatch h), rfl⟩

theorem witness_CommandCompletesOrFails : Instr.tsFlush ≠ .nop := by decide

theorem witness_CommandsKeepInputs :
    exec .readUe (reading [0x80] 0) = .next (after .readUe (reading [0x80] 0)) ∧ Instr.readUe ≠ .reset :=
  ⟨exec_after _ _, by decide⟩

/-- A next state, and a command for each clause. -/
theorem witness_ResultsWrittenOnlyBy :
    exec (.brInit .inp) (holding [1]) = .next (after (.brInit .inp) (holding [1])) ∧
    Instr.brInit .inp ≠ .reset ∧
    (writesVal (.brInit .inp) = false ∧ writesReader .tsFlush = false ∧ isReader .readUe = true ∧
      writesDt (.epbRemove .inp) = false ∧ writesRbsp (.splitAnnexb .inp true) = false ∧
      writesLead (.splitLenpfx .inp 1) = false ∧ writesResidue (.epbRemove .inp) = false ∧
      writesLensize (.avcSpsParse .inp) = false ∧ writesSps (.mpaScan .inp) = false ∧
      writesAud (.hvccParse .inp) = false ∧ writesBroken (.aacAscParse .inp) = false ∧
      isTrackCommand .readUe = false ∧ callMode .trackReset = none) :=
  ⟨exec_after _ _, by decide, by decide⟩

/-- A call that ends in FATAL_FORMAT, and one that does not. -/
theorem witness_FaultIsSticky :
    exec (.flvDemux false false) (holding [0x47]) =
      .next (after (.flvDemux false false) (holding [0x47])) ∧
    (after (.flvDemux false false) (holding [0x47])).status.err = errByte .fatalFormat ∧
    (after (.flvDemux false false) (holding [0x46])).status.err ≠ errByte .fatalFormat ∧
    Instr.flvDemux false false ≠ .nop := ⟨exec_after _ _, by decide +kernel, by decide +kernel, by decide⟩

theorem witness_FaultStateRefusesTrackCommands :
    faulted.status.fault = true ∧ isTrackCommand .tsFlush = true ∧ isTrackCommand .trackReset = true ∧
    isTrackCommand .readUe = false ∧ Instr.readUe ≠ .reset ∧
    exec .readUe { faulted with status := { faulted.status with fault := false } } =
      .next (after .readUe { faulted with status := { faulted.status with fault := false } }) :=
  ⟨rfl, by decide, by decide, by decide, by decide, exec_after _ _⟩

/-- A DT entry that names bytes of IN, and one that names a byte RBSP does not have. -/
def twoEntries : List DtEntry :=
  [ { pts := 0, off := 1, len := 2, aux := 4, space := .inp }
  , { pts := 0, off := 0, len := 1, aux := 4, space := .rbsp } ]

/-- One byte past the end of IN, an empty RBSP, a DT index at DT_CNT, a DT entry out of bounds; a demux call one byte
past the end of IN. -/
theorem witness_RegionOutOfBounds :
    { State.reset with arg0 := 16777216, arg1 := 1 }.caps.inCap <
      { State.reset with arg0 := 16777216, arg1 := 1 }.arg0.toNat +
        { State.reset with arg0 := 16777216, arg1 := 1 }.arg1.toNat ∧
    regionOf (.epbRemove .inp) = some .inp ∧ regionOf (.epbRemove .rbsp) = some .rbsp ∧
    regionOf (.epbRemove .dt) = some .dt ∧
    { State.reset with arg1 := 1 }.rbsp.length <
      { State.reset with arg1 := 1 }.arg0.toNat + { State.reset with arg1 := 1 }.arg1.toNat ∧
    State.reset.dt.length ≤ State.reset.arg0.toNat ∧
    { State.reset with dt := twoEntries, arg0 := 1 }.dt[1]? =
      some { pts := 0, off := 0, len := 1, aux := 4, space := .rbsp } ∧
    spaceSize { State.reset with dt := twoEntries, arg0 := 1 } .rbsp < 0 + 1 ∧
    (callMode (.tsDemux true false) = some .ts ∧ Instr.tsDemux true false ≠ .tsFlush ∧
      Callable .ts { State.reset with arg0 := 16777216, arg1 := 1 }) ∧
    (callMode (.flvDemux false false) = some .flv ∧ Instr.flvDemux false false ≠ .tsFlush ∧
      Callable .flv { State.reset with arg0 := 16777216, arg1 := 1, mode := .flv }) := by decide +kernel

theorem witness_NopChangesNothing : opcField 0x00000001 = 0 ∧ (0x00000001 : Word32) ≠ 0 := by decide

theorem witness_TrackResetClearsTrack : { faulted with status := State.reset.status }.status.fault = false := rfl

/-- A PAT behind a partial packet: TRACK_RESET drops the partial packet, and the call then succeeds. -/
theorem witness_TrackResetThenCall :
    exec .trackReset { holding patPacket with trk := { Track.reset with tsRem := [0x47] } } =
      .next (after .trackReset { holding patPacket with trk := { Track.reset with tsRem := [0x47] } }) ∧
    exec (.tsDemux false true)
        (after .trackReset { holding patPacket with trk := { Track.reset with tsRem := [0x47] } }) =
      .next (after (.tsDemux false true)
        (after .trackReset { holding patPacket with trk := { Track.reset with tsRem := [0x47] } })) ∧
    (after (.tsDemux false true)
      (after .trackReset { holding patPacket with trk := { Track.reset with tsRem := [0x47] } })).status.err = 0 :=
  ⟨exec_after _ _, exec_after _ _, by decide +kernel⟩

/-- A call that sets MODE, and a call of the other container. -/
theorem witness_ModeLatch :
    (exec (.tsDemux false false) State.reset = .next (after (.tsDemux false false) State.reset) ∧
      (after (.tsDemux false false) State.reset).status.err = 0) ∧
    callMode (.flvDemux true false) = some .flv ∧ { State.reset with mode := .ts }.status.fault = false ∧
    { State.reset with mode := .ts }.mode ≠ .none ∧ { State.reset with mode := .ts }.mode ≠ .flv :=
  ⟨⟨exec_after _ _, by decide +kernel⟩, by decide, by decide, by decide, by decide⟩

theorem witness_ContigIsOnlyLatched :
    exec (.tsDemux true true) (holding patPacket) = .next (after (.tsDemux true true) (holding patPacket)) ∧
    (after (.tsDemux true true) (holding patPacket)).status.err = 0 := ⟨exec_after _ _, by decide +kernel⟩

/-- Regions of IN, of IN through DT, and the empty region at the end of IN. -/
theorem witness_BrInitPointsReader :
    RegionIs .inp (holding [1, 2, 3]) (whole [1, 2, 3]) ∧
    RegionIs .dt { holding [1, 2, 3] with dt := twoEntries } { space := .inp, off := 1, len := 2 } ∧
    RegionIs .rbsp { State.reset with rbsp := [7], arg1 := 1 } { space := .rbsp, off := 0, len := 1 } ∧
    RegionIs .inp { State.reset with arg0 := 16777216 } { space := .inp, off := 16777216, len := 0 } := by
  decide +kernel

/-- 32 bits and 0 bits read; a skip to the end; one bit too many. -/
theorem witness_ReadAndSkipBits :
    ((32 : BitVec 6).toNat ≤ 32 ∧ 0xA6020004 < 2 ^ (32 : BitVec 6).toNat ∧
      ReaderHas (reading [0xA6, 0x02, 0x00, 0x04] 0) (natBits (32 : BitVec 6).toNat 0xA6020004)) ∧
    (0 < 2 ^ (0 : BitVec 6).toNat ∧ ReaderHas (reading [] 0) (natBits (0 : BitVec 6).toNat 0)) ∧
    (SliceIn (reading [1, 2] 3) ∧ (reading [1, 2] 3).br.pos.toNat + (13 : BitVec 16).toNat ≤
      (reading [1, 2] 3).br.nbits.toNat) ∧
    (reading [1, 2] 3).br.nbits.toNat < (reading [1, 2] 3).br.pos.toNat + (14 : BitVec 6).toNat ∧
    (reading [1, 2] 3).br.nbits.toNat < (reading [1, 2] 3).br.pos.toNat + (14 : BitVec 16).toNat := by
  decide +kernel

/-- The smallest and the largest value. -/
theorem witness_UnsignedRoundTrip :
    (UeRange 0 ∧ ReaderHas (reading [0x80] 0) (ueBits 0)) ∧
    UeRange (2 ^ 32 - 2) ∧
      ReaderHas (reading [0, 0, 0, 1, 0xFF, 0xFF, 0xFF, 0xFE] 0) (ueBits (2 ^ 32 - 2)) := by decide +kernel

/-- The most negative and the largest value. -/
theorem witness_SignedRoundTrip :
    (SeRange (-(2 ^ 31 - 1)) ∧
      ReaderHas (reading [0, 0, 0, 1, 0xFF, 0xFF, 0xFF, 0xFE] 0) (seBits (-(2 ^ 31 - 1)))) ∧
    SeRange (2 ^ 31 - 1) ∧
      ReaderHas (reading [0, 0, 0, 1, 0xFF, 0xFF, 0xFF, 0xFC] 0) (seBits (2 ^ 31 - 1)) := by decide +kernel

/-- 32 zeros; 0, 24 and 31 zeros to the end; a suffix of 8 and of 31 bits that does not fit. -/
theorem witness_ExpGolombFailures :
    ReaderHas (reading [0, 0, 0, 0, 0x80] 0) (List.replicate 32 false) ∧
    (ReaderHas (reading [0x80] 8) (List.replicate 0 false) ∧
      (reading [0x80] 8).br.pos.toNat + 0 = (reading [0x80] 8).br.nbits.toNat) ∧
    (ReaderHas (reading [0, 0, 0, 0] 1) (List.replicate 31 false) ∧
      (reading [0, 0, 0, 0] 1).br.pos.toNat + 31 = (reading [0, 0, 0, 0] 1).br.nbits.toNat) ∧
    (ReaderHas (reading [0, 0xFF] 0) (List.replicate 8 false ++ [true]) ∧
      (reading [0, 0xFF] 0).br.nbits.toNat < (reading [0, 0xFF] 0).br.pos.toNat + 8 + 1 + 8) ∧
    ReaderHas (reading [0, 0, 0, 1] 0) (List.replicate 31 false ++ [true]) ∧
      (reading [0, 0, 0, 1] 0).br.nbits.toNat < (reading [0, 0, 0, 1] 0).br.pos.toNat + 31 + 1 + 31 := by
  decide +kernel

/-- A list that its first delta ends, a full one, and an empty one. -/
theorem witness_ScalingListSkipped :
    (ScalingCode (16 : BitVec 8).toNat [-8] ∧ ReaderHas (reading [0x08, 0x80] 0) ([-8].flatMap seBits)) ∧
    (ScalingCode (16 : BitVec 8).toNat (List.replicate 16 0) ∧
      ReaderHas (reading [0xFF, 0xFF] 0) ((List.replicate 16 0).flatMap seBits)) ∧
    ScalingCode (0 : BitVec 8).toNat [] ∧ ReaderHas (reading [] 0) ([].flatMap seBits) := by decide +kernel

theorem witness_StaleSliceRefused :
    ¬ SliceIn { State.reset with br := { src := .rbsp, off := 4, nbits := 56, pos := 0 } } ∧
      isReader (.skipScalingList 16) = true := by decide +kernel

/-- Three units behind their start codes, and in HOLD mode a residue that starts with one. -/
theorem witness_AnnexBUnits :
    (annexbUnits (bytesOf na1) true).units.length = 3 ∧
    (bytesOf na1).drop (annexbUnits (bytesOf na1) false).resStart =
      [0, 0, 1] ++ bytesOf [0x68, 0x00, 0x00, 0x03, 0x01] := by decide +kernel

/-- The DT with room for the units and without. -/
theorem witness_SplitAnnexbResult :
    RegionIs .inp (holding na1) (whole na1) ∧
    (annexbUnits (regionBytes (holding na1) (whole na1)) true).units.length ≤ (holding na1).caps.dtCap ∧
    RegionIs .inp { holding na1 with caps := { Config.fbp1 with dtCap := 2 } } (whole na1) ∧
    { holding na1 with caps := { Config.fbp1 with dtCap := 2 } }.caps.dtCap <
      (annexbUnits (regionBytes { holding na1 with caps := { Config.fbp1 with dtCap := 2 } } (whole na1))
        true).units.length := by decide +kernel

/-- LP3: a unit and a length that overruns; then an empty unit and a rest too short for a length. -/
theorem witness_SplitLenpfxOfWritten :
    (RegionIs .inp (holding [2, 0xAA, 0xBB, 5, 0xCC]) (whole [2, 0xAA, 0xBB, 5, 0xCC]) ∧
      (holding [2, 0xAA, 0xBB, 5, 0xCC]).inMem.wf ∧
      (∀ u ∈ [bytesOf [0xAA, 0xBB]], u.length < 256 ^ (1 : BitVec 3).toNat) ∧
      beNat ((bytesOf [5, 0xCC]).take (1 : BitVec 3).toNat) ≠ 0 ∧
      (bytesOf [5, 0xCC]).length <
        (1 : BitVec 3).toNat + beNat ((bytesOf [5, 0xCC]).take (1 : BitVec 3).toNat) ∧
      regionBytes (holding [2, 0xAA, 0xBB, 5, 0xCC]) (whole [2, 0xAA, 0xBB, 5, 0xCC]) =
        [bytesOf [0xAA, 0xBB]].flatMap (lengthPrefixed (1 : BitVec 3).toNat) ++ bytesOf [5, 0xCC] ∧
      ([bytesOf [0xAA, 0xBB]].filter fun u => decide (u ≠ [])).length ≤
        (holding [2, 0xAA, 0xBB, 5, 0xCC]).caps.dtCap ∧
      spaceSize (holding [2, 0xAA, 0xBB, 5, 0xCC]) .inp < 2 ^ 32) ∧
    (1 ≤ (1 : BitVec 3).toNat ∧ (1 : BitVec 3).toNat ≤ 4) ∧
    RegionIs .inp (holding [0, 0, 0, 0, 0, 0, 0]) (whole [0, 0, 0, 0, 0, 0, 0]) ∧
    (holding [0, 0, 0, 0, 0, 0, 0]).inMem.wf ∧
    (1 ≤ (4 : BitVec 3).toNat ∧ (4 : BitVec 3).toNat ≤ 4) ∧
    regionBytes (holding [0, 0, 0, 0, 0, 0, 0]) (whole [0, 0, 0, 0, 0, 0, 0]) =
      [[]].flatMap (lengthPrefixed (4 : BitVec 3).toNat) ++ [0, 0, 0] ∧
    ([0, 0, 0] : Bytes).length < (4 : BitVec 3).toNat := by decide +kernel

theorem witness_EpbRemoveUndoesEscaping :
    RegionIs .inp (holding [0, 0, 3, 1, 0, 0, 3, 3]) (whole [0, 0, 3, 1, 0, 0, 3, 3]) ∧
    regionBytes (holding [0, 0, 3, 1, 0, 0, 3, 3]) (whole [0, 0, 3, 1, 0, 0, 3, 3]) =
      epbEscape 0 (bytesOf [0, 0, 1, 0, 0, 3]) ∧
    (bytesOf [0, 0, 1, 0, 0, 3]).length ≤ State.reset.caps.rbspCap := by decide +kernel

/-- The SPS of AV1, field by field. -/
def avcCode : AvcSpsCode :=
  { forbidden := false, refIdc := 3, profile := 66, constraints := 0xC0, level := 30, spsId := 0
    high := { chroma := 1, separate := false, depthLuma := 0, depthChroma := 0, bypass := false
              matrix := none }
    log2FrameNum := 0, poc := .lsb 2, refFrames := 3, gaps := false, widthMbs := 119, heightMaps := 67
    frameMbsOnly := true, mbaff := false, direct := true, crop := some (0, 0, 0, 4), sar := .idc 1 }

theorem avcCode_valid : avcCode.Valid :=
  ⟨by decide, fun h => absurd h (by decide), by decide, by unfold PocCode.Valid avcCode; decide,
    by decide, by decide, by decide, by decide, by decide, by decide +kernel⟩

/-- The fields of AV1 are the fields of its bytes, and the registers are those of the vector. -/
theorem witness_AvcSpsOfWritten :
    RegionIs .inp (holding av1) (whole av1) ∧ avcCode.Valid ∧
    StartsWith (epbRemove (regionBytes (holding av1) (whole av1))).1 avcCode.bits ∧
    avcCode.regs.geo.height = 1080 :=
  ⟨by decide +kernel, avcCode_valid, by decide +kernel, by decide +kernel⟩

/-- An HEVC SPS with a sub-layer, coded scaling lists, PCM, an explicit and a predicted reference picture set, a
long-term picture and an explicit aspect ratio. -/
def hevcCode : HevcSpsCode :=
  { forbidden := false, temporalId := 1, vpsId := 0, nesting := true, space := 0, tier := false
    profile := 1, compat := 0x60000000, constraints := 0x900000000000, level := 120
    subLayers := [{ profile := some (Vector.replicate 88 true), level := none }]
    padding := List.replicate 14 false, spsId := 0
    chroma := 1, separate := false, lumaWidth := 1920, lumaHeight := 1088, window := some (0, 0, 0, 4)
    depthLuma := 0, depthChroma := 2, log2Lsb := 4, orderingPresent := true
    ordering := [(4, 2, 4), (5, 2, 4)], blocks := (0, 3, 0, 3, 1, 1)
    scaling := .coded (List.replicate 20 (.predicted 0)), amp := true, sao := true
    pcm := some { depthLuma := 7, depthChroma := 7, log2Min := 0, log2Diff := 2, loopFilter := true }
    sets := [.explicit [(0, true), (1, true)] [(0, true)],
      .inter true 0 [(true, true), (false, true), (false, false), (true, true)]]
    longTerm := some [(200, true)], mvp := true, smoothing := true, sar := .extended 4 3 }

theorem hevcCode_valid : hevcCode.Valid where
  spsId := by decide
  chroma := by decide
  luma := by decide
  window := by decide
  depth := by decide
  log2Lsb := by decide
  subLayers := by decide
  ordering := by decide
  scaling := by
    refine ⟨by decide, fun x hx => ?_⟩
    have : x.2 = .predicted 0 := List.eq_of_mem_replicate (List.of_mem_zip hx).2
    rw [this]
    exact Nat.zero_le _
  blocks := by decide
  pcm := by
    intro y hy
    cases hy
    decide
  sets := by
    refine ⟨by decide, by decide, ⟨by decide, by decide, by decide⟩, ⟨by decide, ?_⟩, trivial⟩
    decide +kernel
  longTerm := by
    intro ps hp
    cases hp
    decide
  sar := by decide
  size := by decide +kernel

/-- Its bytes, escaped. -/
def hevcBytes : List Nat :=
  [0x42, 0x01, 0x03, 0x01, 0x60, 0x00, 0x00, 0x03, 0x00, 0x90, 0x00, 0x00, 0x03, 0x00, 0x00, 0x03, 0x00, 0x78,
    0x80, 0x00, 0xFF, 0xFF, 0xFF, 0xFF, 0xFF, 0xFF, 0xFF, 0xFF, 0xFF, 0xFF, 0xFF, 0xA0, 0x03, 0xC0, 0x80, 0x11,
    0x07, 0xCB, 0x65, 0x95, 0x94, 0xCC, 0xB2, 0x48, 0x96, 0xAA, 0xAA, 0xAA, 0xAA, 0xAB, 0xDD, 0xEE, 0xDA, 0xD7,
    0xF4, 0xD6, 0x47, 0xFF, 0xC0, 0x01, 0x00, 0x00, 0xFF]

theorem witness_HevcSpsOfWritten :
    RegionIs .inp (holding hevcBytes) (whole hevcBytes) ∧ hevcCode.Valid ∧
    StartsWith (epbRemove (regionBytes (holding hevcBytes) (whole hevcBytes))).1 hevcCode.bits ∧
    hevcCode.regs.geo.height = 1080 :=
  ⟨by decide +kernel, hevcCode_valid, by decide +kernel, by decide +kernel⟩

/-- AC1, field by field. -/
def avcRecord : AvcRecord :=
  { profileBytes := #v[0x01, 0x42, 0xC0, 0x1E], lengthByte := 0xFF, reserved := 7, sps := [bytesOf av1]
    pps := [bytesOf [0x68, 0xCE, 0x38, 0x80]], tail := [] }

theorem witness_AvccOfWritten :
    RegionIs .inp (holding ac1) (whole ac1) ∧ avcRecord.Valid ∧
    regionBytes (holding ac1) (whole ac1) = avcRecord.bytes ∧
    avcRecord.sps.head? = some (bytesOf av1) ∧
    avcSps (bytesOf av1) =
      .ok { width := 1920, height := 1080, sarNum := 1, sarDen := 1, codec0 := 0x100000000042C01E
            codec1 := 0, chroma := 1 } ∧
    avcRecord.entries.length ≤ (holding ac1).caps.dtCap :=
  ⟨by decide +kernel, by decide +kernel, by decide +kernel, by decide +kernel, eq_ok (by decide +kernel),
    by decide +kernel⟩

/-- HV3, field by field. -/
def hevcRecord : HevcRecord :=
  { header := #v[0x01, 0x01, 0x60, 0, 0, 0, 0x90, 0, 0, 0, 0, 0, 0x78, 0xF0, 0x00, 0xFC, 0xFD, 0xF8, 0xF8,
      0x00, 0x00]
    lengthByte := 0x0F
    arrays :=
      [ { flags := 2, nalType := 32
          units := [bytesOf
            [0x40, 0x01, 0x0C, 0x01, 0xFF, 0xFF, 0x01, 0x60, 0x00, 0x00, 0x03, 0x00, 0x90, 0x00, 0x00, 0x03, 0x00, 0x00,
    0x03, 0x00, 0x78, 0xAC, 0x09]] }
      , { flags := 2, nalType := 33, units := [bytesOf hv1] }
      , { flags := 2, nalType := 34, units := [bytesOf [0x44, 0x01, 0xC1, 0x72, 0xB4, 0x62, 0x40]] }
      , { flags := 0, nalType := 39, units := [bytesOf [0x4E, 0x01]] } ]
    tail := [] }

theorem witness_HvccOfWritten :
    RegionIs .inp (holding hv3) (whole hv3) ∧ hevcRecord.Valid ∧
    regionBytes (holding hv3) (whole hv3) = hevcRecord.bytes ∧
    hevcRecord.firstSps = some (bytesOf hv1) ∧
    hevcSps (bytesOf hv1) =
      .ok { width := 1920, height := 1080, sarNum := 1, sarDen := 1, codec0 := 0x2000600000000178
            codec1 := 0x900000000000, chroma := 1 } ∧
    hevcRecord.entries.length ≤ (holding hv3).caps.dtCap :=
  ⟨by decide +kernel, by decide +kernel, by decide +kernel, by decide +kernel, eq_ok (by decide +kernel),
    by decide +kernel⟩

/-- AS2, AS7 and AS8, field by field: a table rate, an escaped object type, an explicit rate. -/
theorem witness_AscOfWritten :
    (RegionIs .inp (holding [0x11, 0x90]) (whole [0x11, 0x90]) ∧
      AscCode.Valid { objectType := 2, rate := .inl 3, channels := 2 } ∧
      StartsWith (regionBytes (holding [0x11, 0x90]) (whole [0x11, 0x90]))
        (AscCode.bits { objectType := 2, rate := .inl 3, channels := 2 })) ∧
    (AscCode.Valid { objectType := 37, rate := .inl 0, channels := 0 } ∧
      StartsWith (bytesOf [0xF8, 0xA0, 0x00]) (AscCode.bits { objectType := 37, rate := .inl 0, channels := 0 })) ∧
    AscCode.hz { objectType := 2, rate := .inr 96000, channels := 2 } ≠ 0 ∧
      StartsWith (bytesOf [0x17, 0x80, 0xBB, 0x80, 0x10])
        (AscCode.bits { objectType := 2, rate := .inr 96000, channels := 2 }) := by
  refine ⟨⟨by decide +kernel, ⟨by decide, ?_, by decide +kernel⟩, by decide +kernel⟩,
    ⟨⟨by decide, ?_, by decide +kernel⟩, by decide +kernel⟩, by decide +kernel, by decide +kernel⟩ <;>
    · intro i h
      cases h
      decide

/-- The first frame of AD1, field by field, and a frame with a CRC. -/
def adtsCode : AdtsCode :=
  { id := false, protectionAbsent := true, profile := 1, rateIndex := 3, private_ := false, channels := 2
    flags := 0, fullness := 0x7FF, blocks := 0, crc := [], payload := bytesOf [0x21, 0x10, 0x05] }
def adtsCrcCode : AdtsCode :=
  { adtsCode with protectionAbsent := false, crc := [1, 2], payload := [9] }

/-- Their bytes. -/
def adtsBytes : List Nat :=
  [0xFF, 0xF1, 0x4C, 0x80, 0x01, 0x5F, 0xFC, 0x21, 0x10, 0x05,
    0xFF, 0xF0, 0x4C, 0x80, 0x01, 0x5F, 0xFC, 1, 2, 9]

theorem witness_AdtsOfWritten :
    RegionIs .inp (holding adtsBytes) (whole adtsBytes) ∧ adtsCode.Valid ∧ adtsCrcCode.Valid ∧
    regionBytes (holding adtsBytes) (whole adtsBytes) = [adtsCode, adtsCrcCode].flatMap AdtsCode.bytes ∧
    [adtsCode, adtsCrcCode].length ≤ State.reset.caps.dtCap := by decide +kernel

/-- MP1, field by field. -/
def mpaCode : MpaCode :=
  { version := 3, layer := 1, protection := true, bitrateIndex := 9, rateIndex := 0, padding := false
    private_ := false, mode := 1, low := 0x24 }

theorem witness_MpaHeaderOfWritten :
    RegionIs .inp (holding [0xFF, 0xFB, 0x90, 0x64, 7]) (whole [0xFF, 0xFB, 0x90, 0x64, 7]) ∧
    mpaCode.Valid ∧
    regionBytes (holding [0xFF, 0xFB, 0x90, 0x64, 7]) (whole [0xFF, 0xFB, 0x90, 0x64, 7]) =
      mpaCode.bytes ++ [7] := by decide +kernel

/-- Three bytes; each invalid field: the version, both bitrate indices, the rate index (X6, MP9). -/
theorem witness_MpaHeaderRejected :
    (RegionIs .inp (holding [0xFF, 0xFB, 0x90]) (whole [0xFF, 0xFB, 0x90]) ∧ (whole [0xFF, 0xFB, 0x90]).len < 4) ∧
    (regionBytes (holding [0xFF, 0xEB, 0x90, 0x64]) (whole [0xFF, 0xEB, 0x90, 0x64]) =
      MpaCode.bytes { mpaCode with version := 1 } ++ [] ∧ ¬ MpaCode.Valid { mpaCode with version := 1 }) ∧
    (bytesOf [0xFF, 0xFB, 0x00, 0x64] = MpaCode.bytes { mpaCode with bitrateIndex := 0 } ∧
      ¬ MpaCode.Valid { mpaCode with bitrateIndex := 0 }) ∧
    (bytesOf [0xFF, 0xFB, 0xF0, 0x64] = MpaCode.bytes { mpaCode with bitrateIndex := 15 } ∧
      ¬ MpaCode.Valid { mpaCode with bitrateIndex := 15 }) ∧
    bytesOf [0xFF, 0xFB, 0x9C, 0x64] = MpaCode.bytes { mpaCode with rateIndex := 3 } ∧
      ¬ MpaCode.Valid { mpaCode with rateIndex := 3 } := by decide +kernel

theorem witness_SmallestMpaFrame :
    mpaHdr (bytesOf [0xFF, 0xF3, 0x14, 0x64]) =
      .ok { bitrate := 8000, rate := 24000, channels := 2, info := 0x1199, flen := 24, ns := 576 } :=
  eq_ok (by decide +kernel)

/-- Two frames with one header and different payloads. -/
def twoMpaFrames : List (MpaCode × Bytes) := [(mpaCode, List.replicate 413 0), (mpaCode, List.replicate 413 1)]

/-- Their bytes. -/
def twoFrames : List Nat :=
  [0xFF, 0xFB, 0x90, 0x64] ++ List.replicate 413 0 ++ [0xFF, 0xFB, 0x90, 0x64] ++ List.replicate 413 1

theorem witness_MpaScanOfWritten :
    RegionIs .inp (holding twoFrames) (whole twoFrames) ∧
    (∀ y ∈ twoMpaFrames, y.1.Valid ∧ 4 + y.2.length = y.1.flen) ∧
    regionBytes (holding twoFrames) (whole twoFrames) = twoMpaFrames.flatMap (fun y => y.1.bytes ++ y.2) ∧
    twoMpaFrames.length ≤ State.reset.caps.dtCap := by decide +kernel

/-- A null packet (46_ts_demux R355). -/
def nullPacket : List Nat := [0x47, 0x1F, 0xFF, 0x10] ++ List.replicate 184 0

/-- A track whose PIDs are known: PMT 0x1000, video 0x100, audio 0x101. -/
def knownTrack : Track :=
  { Track.reset with
    pmtPid := { pid := 0x1000, known := true, parsed := true }
    vPid := { pid := 0x100, known := true }, vCodec := .avc
    aPid := { pid := 0x101, known := true }, aCodec := .aac }

/-- The working state of a track at the start of a call. -/
def working (t : Track) : Dmx := { trk := t, out := Outputs.empty }

/-- A packet with a PID and a body. -/
def packetCode (start : Bool) (pid : BitVec 13) (body : TsBody) : TsPacketCode :=
  { error := false, start, priority := false, pid, scrambling := 0, counter := 0, body }

theorem packet_valid {x : TsPacketCode} (h : x.bytes.length = 188)
    (hf : (match x.body with | .both f _ => f.length | _ => 0) ≤ 183) : x.Valid :=
  ⟨h, fun f p e => by rw [e] at hf; exact hf⟩

/-- A null packet and 1 more byte; 2 bytes only. Packets of the known track: one that starts a PES with a bad one
pending, and with none; one that extends a PES; one with no PES pending; one of another PID. -/
theorem witness_TsDemuxCompletes :
    (Callable .ts (holding (nullPacket ++ [1])) ∧ Callable .ts (holding [1, 2])) ∧
    RegionIs .inp (holding (nullPacket ++ [1])) (whole (nullPacket ++ [1])) ∧
    (∀ k < (bytesOf (nullPacket ++ [1])).length / 188, (bytesOf (nullPacket ++ [1]))[188 * k]? = some 0x47) ∧
    regionBytes (holding (nullPacket ++ [1])) (whole (nullPacket ++ [1])) = bytesOf (nullPacket ++ [1]) ∧
    dispatchAll Config.fbp1
      ((List.range ((bytesOf (nullPacket ++ [1])).length / 188)).map fun k =>
        slice (bytesOf (nullPacket ++ [1])) (188 * k) 188) (working Track.reset) = .ok (working Track.reset) ∧
    RegionIs .inp (holding [1, 2]) (whole [1, 2]) ∧
    (State.reset.trk.tsRem ++ regionBytes (holding [1, 2]) (whole [1, 2])).length < 188 :=
  ⟨by decide, by decide +kernel, by decide +kernel, by decide +kernel, eq_ok (by decide +kernel),
    by decide +kernel, by decide +kernel⟩

theorem witness_TsDemuxCompletes_packets :
    ((packetCode true 0x100 (.plain (List.replicate 184 0))).Valid ∧ Carries knownTrack .video 0x100 ∧
      Carries knownTrack .audio 0x101 ∧ pending .audio (working knownTrack) = none ∧
      (packetCode true 0x100 (.plain (List.replicate 184 0))).body.payload.length ≤ Config.fbp1.pendCap) ∧
    (pending .video (working { knownTrack with pendV := some [9] }) = some [9] ∧
      flushPes Config.fbp1 .video [9] (working { knownTrack with pendV := some [9] }) =
        .ok (countBadPes (working { knownTrack with pendV := some [9] })) ∧
      Carries { knownTrack with pendV := some [9] } .video 0x100) ∧
    ((packetCode false 0x101 (.both [0, 0, 0] (List.replicate 180 7))).Valid ∧
      (packetCode false 0x101 (.field (List.replicate 184 0))).Valid ∧
      ((bytesOf [9]) ++ List.replicate 180 7).length ≤ Config.fbp1.pendCap) ∧
    (packetCode false 0x102 (.plain (List.replicate 184 0))).Valid ∧
      ∀ st, ¬ Carries knownTrack st 0x102 := by
  refine ⟨⟨packet_valid (by decide +kernel) (by decide), ⟨by decide, by decide, by decide, by decide, rfl⟩,
    ⟨by decide, by decide, by decide, by decide, rfl, by decide⟩, rfl, by decide +kernel⟩,
    ⟨rfl, eq_ok (by decide +kernel), ⟨by decide, by decide, by decide, by decide, rfl⟩⟩,
    ⟨packet_valid (by decide +kernel) (by decide), packet_valid (by decide +kernel) (by decide), by decide +kernel⟩,
    packet_valid (by decide +kernel) (by decide), ?_⟩
  · rintro (_ | _) h
    · exact absurd h.2.2.2.2 (by decide)
    · exact absurd h.2.2.2.2.1 (by decide)

theorem witness_TsBadSyncIsFatal :
    Callable .ts (holding (nullPacket ++ List.replicate 188 0)) ∧
    RegionIs .inp (holding (nullPacket ++ List.replicate 188 0)) (whole (nullPacket ++ List.replicate 188 0)) ∧
    1 < (regionBytes (holding (nullPacket ++ List.replicate 188 0))
      (whole (nullPacket ++ List.replicate 188 0))).length / 188 ∧
    (regionBytes (holding (nullPacket ++ List.replicate 188 0))
      (whole (nullPacket ++ List.replicate 188 0)))[188 * 1]? ≠ some 0x47 ∧
    ∀ j < 1, (regionBytes (holding (nullPacket ++ List.replicate 188 0))
      (whole (nullPacket ++ List.replicate 188 0)))[188 * j]? = some 0x47 := by decide +kernel

/-- The known track with an open sample without a timestamp. -/
def openTrack : Track := { knownTrack with opened := some { stamp := none, key := true, units := [[1]] } }

/-- The known track, configured, with the audio PES of TS1 pending and a sample open. -/
def flushTrack : Track :=
  { knownTrack with
    vExists := true, pendA := some (bytesOf audioPesBytes)
    opened := some { stamp := some { pts := 7, dts := 5 }, key := true, units := [[1]] } }

/-- A track with an empty pending buffer; a pending audio PES and an open sample that come out; and a flush that emits
two samples. -/
theorem witness_TsFlushCompletes :
    (Callable .ts { State.reset with mode := .ts, trk := { Track.reset with pendV := some [] } } ∧
      { State.reset with mode := .ts, trk := { Track.reset with pendV := some [] } }.trk.pendV = some [] ∧
      Track.reset.pendA = none ∧ Track.reset.opened = none) ∧
    (∃ a x, flushPes Config.fbp1 .audio (bytesOf audioPesBytes) (working flushTrack) = .ok a ∧
      closeOpen Config.fbp1 a = .ok x ∧ x.out.asq.length = 2 ∧ x.out.vsq.length = 1) ∧
    (flushTrack.pendA = some (bytesOf audioPesBytes) ∧ flushTrack.pendV = none) ∧
    exec .tsFlush { State.reset with mode := .ts, trk := flushTrack } =
      .next (after .tsFlush { State.reset with mode := .ts, trk := flushTrack }) ∧
    (after .tsFlush { State.reset with mode := .ts, trk := flushTrack }).status.err = 0 := by
  refine ⟨by decide, ?_, ⟨rfl, rfl⟩, exec_after _ _, by decide +kernel⟩
  have h : ((flushPes Config.fbp1 .audio (bytesOf audioPesBytes) (working flushTrack)).bind fun a =>
    (closeOpen Config.fbp1 a).map fun x => (x.out.asq.length, x.out.vsq.length)).toOption = some (2, 1) := by
    decide +kernel
  match ha : flushPes Config.fbp1 .audio (bytesOf audioPesBytes) (working flushTrack), h with
  | .ok a, h =>
    match hx : closeOpen Config.fbp1 a, h with
    | .ok x, h =>
      simp only [Except.bind, hx, Except.map, Except.toOption, Option.some.injEq, Prod.mk.injEq] at h
      exact ⟨a, x, rfl, hx, h.1, h.2⟩
    | .error e, h => simp [Except.bind, hx, Except.map, Except.toOption] at h
  | .error e, h => cases h

/-- The first bytes of a video PES in a packet with PUSI. -/
def videoPacket : Bytes := bytesOf ([0x47, 0x41, 0x00, 0x10] ++ List.replicate 184 0)

/-- The packet of `videoPacket` in IN, of a track with its PIDs known and a pending buffer of 183 bytes at most. -/
def tightState : State :=
  { holding ([0x47, 0x41, 0x00, 0x10] ++ List.replicate 184 0) with
    mode := .ts, trk := knownTrack, caps := { Config.fbp1 with pendCap := 183 } }

/-- Capacities too small for the packet, for the tag's sample, for the flushed samples, and for the bytes held back;
each alone too small for its operation, and those of the open sample both. -/
theorem witness_DemuxErrorsAreCapacities :
    dispatchAll { Config.fbp1 with pendCap := 183 } [videoPacket] (working knownTrack) =
      .error { code := .capacityExceeded, info := 84 } ∧
    flvBody { Config.fbp1 with asqCap := 0 } (bytesOf fl1) (working Track.reset) =
      .error { code := .capacityExceeded, info := 91 } ∧
    (after .tsFlush { State.reset with
      mode := .ts, caps := { Config.fbp1 with asqCap := 1 }, trk := flushTrack }).status.err ≠ 0 ∧
    Callable .ts { State.reset with
      mode := .ts, caps := { Config.fbp1 with asqCap := 1 }, trk := flushTrack } ∧
    (flushPending { Config.fbp1 with pendCap := 183 } .video (working knownTrack) = .ok (working knownTrack) ∧
      { Config.fbp1 with pendCap := 183 }.pendCap < (videoPacket.drop 4).length) ∧
    (pending .audio (working { knownTrack with pendA := some [1, 2] }) = some [1, 2] ∧
      { Config.fbp1 with pendCap := 3 }.pendCap < (([1, 2] : Bytes) ++ [3, 4]).length) ∧
    ((working openTrack).trk.opened = some { stamp := none, key := true, units := [[1]] } ∧
      { Config.fbp1 with openCap := 2, openUnitsCap := 2 }.openCap < ([[1]] ++ [[2, 3]] : List Bytes).flatten.length ∧
      ([[1]] ++ [[2, 3]] : List Bytes).length ≤ { Config.fbp1 with openCap := 2, openUnitsCap := 2 }.openUnitsCap ∧
      ([[1]] ++ [[2, 3]] : List Bytes).flatten.length ≤ { Config.fbp1 with openCap := 3, openUnitsCap := 1 }.openCap ∧
      { Config.fbp1 with openCap := 3, openUnitsCap := 1 }.openUnitsCap < ([[1]] ++ [[2, 3]] : List Bytes).length) ∧
    ({ Config.fbp1 with vsqCap := 0 }.vsqCap < Outputs.empty.vsq.length + 1 ∧
      { Config.fbp1 with vutCap := 0 }.vutCap < Outputs.empty.vut.length + ([[1]] : List Bytes).length ∧
      { Config.fbp1 with sdataCap := 0 }.sdataCap < Outputs.empty.sdata.length + ([[1]] : List Bytes).flatten.length ∧
      { Config.fbp1 with asqCap := 0 }.asqCap < Outputs.empty.asq.length + 1 ∧
      { Config.fbp1 with sdataCap := 0 }.sdataCap < Outputs.empty.sdata.length + ([1] : Bytes).length) :=
  ⟨eq_error (by decide +kernel), eq_error (by decide +kernel), by decide +kernel, by decide,
    ⟨rfl, by decide +kernel⟩, by decide, by decide, by decide⟩

theorem witness_DemuxErrorsAreCapacities_calls :
    (Callable .ts tightState ∧ RegionIs .inp tightState (whole (List.replicate 188 0)) ∧
      (State.reset.trk.tsRem ++ regionBytes tightState (whole (List.replicate 188 0))) = videoPacket ∧
      (∀ k < videoPacket.length / 188, videoPacket[188 * k]? = some 0x47) ∧
      ((List.range (videoPacket.length / 188)).map fun k => slice videoPacket (188 * k) 188) = [videoPacket]) ∧
    (Callable .flv (holding fl1) ∧ RegionIs .inp (holding fl1) (whole fl1) ∧
      (regionBytes (holding fl1) (whole fl1)).take 4 <+: [0x46, 0x4C, 0x56, 0x01] ∧
      9 ≤ beNat (slice (regionBytes (holding fl1) (whole fl1)) 5 4)) ∧
    flvBody { Config.fbp1 with remCap := 0 } (bytesOf (fl1.take 14)) (working Track.reset) =
      .ok (bytesOf [8], { trk := { Track.reset with flvHdr := true }, out := Outputs.empty }) ∧
    { Config.fbp1 with remCap := 0 }.remCap < (bytesOf [8]).length :=
  ⟨by decide +kernel, by decide +kernel, eq_ok (by decide +kernel), by decide⟩

/-- The PAT of TS1, field by field, and a PAT without a program. -/
def patCode : TsPacketCode :=
  packetCode true 0 (.plain (sectionBytes [] 0x00 0xB (patContent #v[0, 1, 0xC1, 0, 0] [(1, 0x1000)]) 0
    (List.replicate 167 0xFF)))
def emptyPatCode : TsPacketCode :=
  packetCode true 0 (.plain (sectionBytes [] 0x00 0xB (patContent #v[0, 1, 0xC1, 0, 0] [(0, 0x10)]) 0
    (List.replicate 167 0xFF)))

/-- The streams of a PMT: video 0x100, audio 0x101, a second video. -/
def pmtStreams : List EsCode :=
  [ { streamType := 0x1B, pid := 0x100, descriptors := [1, 2] }, { streamType := 0x0F, pid := 0x101, descriptors := [] }
  , { streamType := 0x24, pid := 0x102, descriptors := [] } ]

/-- The PMT behind two skipped bytes. -/
def pmtCode : TsPacketCode :=
  packetCode true 0x1000 (.plain (sectionBytes [5, 6] 0x02 0xB (pmtContent #v[0, 1, 0xC1, 0, 0] 0xE100 [9] pmtStreams)
    0xFFFFFFFF (List.replicate 147 0xFF)))

/-- A track with the PMT PID known and a packet of the video PID in the FIFO. -/
def patTrack : Track :=
  { Track.reset with pmtPid := { pid := 0x1000, known := true, parsed := false }, fifo := [videoPacket] }

/-- A PAT with and without a program, a PMT, packets of other PIDs and of the null PID; room in the FIFO and none. -/
theorem witness_PatGivesPmtPid :
    (patCode.Valid ∧ patCode.bytes = bytesOf patPacket ∧ patCode.start = true ∧ patCode.pid = 0 ∧
      Track.reset.pmtPid.known = false) ∧
    (emptyPatCode.Valid ∧ ([(0, 0x10)] : List (BitVec 16 × BitVec 13)).find? (fun x => x.1 ≠ 0) = none) ∧
    (pmtCode.Valid ∧ pmtCode.pid ≠ 0 ∧ pmtCode.pid ≠ 0x1FFF ∧
      patTrack.pmtPid = { pid := pmtCode.pid, known := true, parsed := false } ∧
      patTrack.vPid.known = false ∧ patTrack.aPid.known = false) ∧
    ((packetCode true 0x1FFF (.plain (List.replicate 184 0))).Valid ∧
      (packetCode true 0x100 (.plain (List.replicate 184 0))).Valid ∧ patTrack.pmtPid.parsed = false ∧
      (0x100 : BitVec 13) ≠ patTrack.pmtPid.pid ∧ patTrack.fifo.length < Config.fbp1.fifoCap ∧
      ¬ patTrack.fifo.length < { Config.fbp1 with fifoCap := 1 }.fifoCap) :=
  ⟨⟨packet_valid (by decide +kernel) (by decide), by decide +kernel, rfl, rfl, rfl⟩,
    ⟨packet_valid (by decide +kernel) (by decide), by decide⟩,
    ⟨packet_valid (by decide +kernel) (by decide), by decide, by decide, by decide, rfl, rfl⟩,
    packet_valid (by decide +kernel) (by decide), packet_valid (by decide +kernel) (by decide), rfl, by decide,
    by decide, by decide⟩

theorem witness_PidsStayFixed :
    dispatchAll Config.fbp1 [videoPacket] { trk := knownTrack, out := Outputs.empty } =
      .ok { trk := { knownTrack with pendV := some (List.replicate 184 0) }, out := Outputs.empty } ∧
    knownTrack.pmtPid.known = true ∧ knownTrack.pmtPid.parsed = true ∧ knownTrack.vPid.known = true ∧
    knownTrack.aPid.known = true := ⟨eq_ok (by decide +kernel), rfl, rfl, rfl, rfl⟩

/-- A PES with stamps, a stuffing byte and a payload. -/
def pesCode (stamps : PesStamps) : PesCode :=
  { streamId := 0xE0, lengthField := 0, flags := 0x80, otherFlags := 0, stamps, stuffing := [0xFF], payload := [1] }

/-- A track of AAC audio, not configured yet. -/
def aacTrack : Track := { Track.reset with aCodec := .aac }

/-- The largest timestamp (X4), and the clamp at its boundary; a PES of each form, and a bad one of each; AAC and MPEG
audio frames that configure the track, with a frame cut short and without one. -/
theorem witness_PesTimestamps :
    (8589934589 < 2 ^ 33 ∧ slice (bytesOf [0x2F, 0xFF, 0xFF, 0xFF, 0xFB]) 0 5 = stampBytes 2 8589934589) ∧
    (5409000 ≤ 9000 + 5400000 ∧ 9000 + 5400000 < 5409001) ∧
    ((pesCode (.none true)).Valid ∧ (PesStamps.none true).values = none ∧ (pesCode (.pts 2 126000)).Valid ∧
      (PesStamps.pts 2 126000).values = some (126000, 126000) ∧ (pesCode (.both 3 5409001 1 9000)).Valid ∧
      (PesStamps.both 3 5409001 1 9000).values = some (9000, 9000)) ∧
    (BadPes [0, 0, 1] ∧ BadPes (bytesOf [0, 0, 2, 0xE0, 0, 0, 0, 0, 0]) ∧
      BadPes (bytesOf [0, 0, 1, 0xE0, 0, 0, 0x80, 0, 1]) ∧
      BadPes (bytesOf [0, 0, 1, 0xE0, 0, 0, 0x80, 0x80, 4, 1, 1, 1, 1]) ∧
      BadPes (bytesOf [0, 0, 1, 0xE0, 0, 0, 0x80, 0xC0, 5, 1, 1, 1, 1, 1])) := by
  unfold BadPes; decide +kernel

theorem witness_PesTimestamps_frames :
    ((∀ y ∈ [adtsCode, adtsCrcCode], y.Valid) ∧ aacTrack.aExists = false ∧
      (adtsCode.configured aacTrack).aRate ≠ 0 ∧
      AudioFits Config.fbp1 Outputs.empty ([adtsCode, adtsCrcCode].map fun x => (x.payload, 1024)) ∧
      CutFrame (fun b => ∃ y : AdtsCode, y.Valid ∧ b = y.bytes) [] ∧
      CutFrame (fun b => ∃ y : AdtsCode, y.Valid ∧ b = y.bytes) [0xFF, 0xF1]) ∧
    ((∀ y ∈ twoMpaFrames, y.1.Valid ∧ 4 + y.2.length = y.1.flen) ∧
      (mpaCode.configured { Track.reset with aCodec := .mpeg }).aRate ≠ 0 ∧
      AudioFits Config.fbp1 Outputs.empty (twoMpaFrames.map fun x => (x.1.bytes ++ x.2, x.1.samples)) ∧
      CutFrame (fun b => ∃ (y : MpaCode) (pl : Bytes), y.Valid ∧ 4 + pl.length = y.flen ∧ b = y.bytes ++ pl)
        (bytesOf [0xFF, 0xFB, 0x90])) ∧
    Track.reset.aNext.map (·.toInt) = none := by
  refine ⟨⟨by decide, rfl, by decide +kernel, by decide +kernel, .inl rfl,
    .inr ⟨adtsCode.bytes, 2, ⟨adtsCode, by decide, rfl⟩, by decide, by decide +kernel, by decide +kernel⟩⟩,
    ⟨by decide +kernel, by decide +kernel, by decide +kernel,
    .inr ⟨mpaCode.bytes ++ List.replicate 413 0, 3, ⟨mpaCode, _, by decide, by decide +kernel, rfl⟩, by decide,
      by decide +kernel, by decide +kernel⟩⟩, rfl⟩

/-- An open sample with a timestamp, one without after one with, and one without before any. -/
theorem witness_ClosingSamples :
    closeOpen Config.fbp1
        { trk := { knownTrack with
            vExists := true, opened := some { stamp := some { pts := 7, dts := 5 }, key := true, units := [[1]] } }
          out := Outputs.empty } =
      .ok { trk := { knownTrack with vExists := true, lastV := some { pts := 7, dts := 5 } }
            out := { vsq := [{ pts := 7, dts := 5, firstUnit := 0, nunits := 1, key := true }]
                     vut := [{ off := 0, len := 1 }], asq := [], sdata := [1] } } ∧
    closeOpen Config.fbp1
        { trk := { knownTrack with
            lastV := some { pts := 7, dts := 5 }, opened := some { stamp := none, key := true, units := [[1]] } }
          out := Outputs.empty } =
      .ok { trk := { knownTrack with
              lastV := some { pts := 7, dts := 5 }
              cnt := { Track.reset.cnt with dropped := 1, missCfg := 1 } }
            out := Outputs.empty } ∧
    closeOpen Config.fbp1
        { trk := { knownTrack with opened := some { stamp := none, key := true, units := [[1]] } }
          out := Outputs.empty } =
      .ok { trk := { knownTrack with cnt := { Track.reset.cnt with dropped := 1 } }, out := Outputs.empty } :=
  ⟨eq_ok (by decide +kernel), eq_ok (by decide +kernel), eq_ok (by decide +kernel)⟩

/-- Bytes before a start code; units too short, delimiting, joining and opening; the open sample closed. -/
theorem witness_ClosingSamples_units :
    (AtStartCode [] ∧ AtStartCode (bytesOf [0, 0, 1, 9]) ∧ AtStartCode (bytesOf [0, 0, 0, 1, 9]) ∧
      NoStartCode (bytesOf [9, 9]) (bytesOf [0, 0, 1, 9]) ∧ NoStartCode (bytesOf [9, 0]) (bytesOf [0, 0, 0, 1, 9])) ∧
    (openTrack.vCodec ≠ .none ∧ ([] : Bytes).length < nalHeaderLength openTrack.vCodec ∧
      NoStartCode [] (bytesOf [0, 0, 1, 9])) ∧
    (isDelimiterType openTrack.vCodec (nalTypeOf openTrack.vCodec (bytesOf [0x09, 0xF0])) = true ∧
      isDelimiterType openTrack.vCodec (nalTypeOf openTrack.vCodec (bytesOf [0x65])) = false ∧
      nalHeaderLength openTrack.vCodec ≤ (bytesOf [0x65]).length ∧ knownTrack.opened = none ∧
      openTrack.opened = some { stamp := none, key := true, units := [[1]] } ∧
      OpenFits Config.fbp1 ([[1]] ++ [bytesOf [0x65]]) ∧ OpenFits Config.fbp1 [bytesOf [0x65]]) ∧
    closeOpen Config.fbp1 (working openTrack) =
      .ok (working { knownTrack with cnt := { Track.reset.cnt with dropped := 1 } }) :=
  ⟨⟨.inl rfl, .inr (.inl (by decide)), .inr (.inr (by decide)), ⟨by decide, by decide⟩, ⟨by decide, by decide⟩⟩,
    ⟨by decide, by decide, by decide, by decide⟩, by decide, eq_ok (by decide +kernel)⟩

/-- A unit of no parameter set, the SPS of AV1, a PPS; held, with room and without; an SPS that does not parse. -/
theorem witness_ClosingSamples_capture :
    (psKindOf .avc 5 = none ∧ psKindOf .avc (nalTypeOf .avc (bytesOf av1)) = some .sps ∧
      psKindOf .avc (nalTypeOf .avc (bytesOf [0x68, 0xCE])) = some .pps ∧ psKindOf .hevc 32 = some .vps) ∧
    (knownTrack.holds .sps = false ∧ knownTrack.holds .pps = false ∧
      (knownTrack.store .sps (bytesOf av1)).holds .sps = true) ∧
    (StoreFits Config.fbp1 knownTrack (bytesOf av1) ∧
      ¬ StoreFits { Config.fbp1 with psCap := 0 } knownTrack (bytesOf av1) ∧
      ¬ StoreFits { Config.fbp1 with cfgCap := 12 } knownTrack (bytesOf av1)) ∧
    avcSps (bytesOf av1) =
      .ok { width := 1920, height := 1080, sarNum := 1, sarDen := 1, codec0 := 0x100000000042C01E
            codec1 := 0, chroma := 1 } ∧
    avcSps (bytesOf [0x67, 0x42, 0xC0]) = .error { code := .truncatedBitstream, info := 24 } :=
  ⟨by decide +kernel, by decide, by decide, eq_ok (by decide +kernel), eq_error (by decide +kernel)⟩

/-- The PAT packet in IN, cut after 100 bytes, and in one call. -/
theorem witness_TsSplitInvariance :
    (holding patPacket).Inv ∧
    (∃ t o, Fed (fun k => .tsDemux false k) 0 [100, 88] (holding patPacket) t o) ∧
    exec (.tsDemux false false) (withRegion 0 188 (holding patPacket)) =
      .next (after (.tsDemux false false) (withRegion 0 188 (holding patPacket))) ∧
    (after (.tsDemux false false) (withRegion 0 188 (holding patPacket))).status.err = 0 ∧
    0 + [100, 88].sum < 2 ^ 64 :=
  ⟨witness_holding (by decide +kernel) (by decide +kernel),
    ⟨_, _, .chunk 0 100 [88] false _ _ _ _ (exec_after _ _) (by decide +kernel)
      (.chunk 100 88 [] true _ _ _ _ (exec_after _ _) (by decide +kernel) (.done _ _))⟩,
    exec_after _ _, by decide +kernel, by decide⟩

/-- FL1's first tag and a tag of another type. -/
def flvConfigTag : FlvTagCode := { type := 8, timestamp := 0, streamId := 0, payload := bytesOf [0xAF, 0, 0x12, 0x10] }
def flvOtherTag : FlvTagCode := { type := 18, timestamp := 0x01000002, streamId := 0, payload := [1] }

/-- FL1's audio in IN; four bytes of a header; the header and the first tag written field by field. -/
theorem witness_FlvDemuxCompletes :
    (Callable .flv (holding fl1) ∧ Callable .flv (holding (fl1.take 4)) ∧ Track.reset.flvHdr = false) ∧
    RegionIs .inp (holding fl1) (whole fl1) ∧
    ((regionBytes (holding fl1) (whole fl1)).take 4 <+: [0x46, 0x4C, 0x56, 0x01] ∧
      9 ≤ beNat (slice (regionBytes (holding fl1) (whole fl1)) 5 4)) ∧
    flvBody Config.fbp1 (bytesOf (fl1.take 14)) (working Track.reset) =
      .ok (bytesOf [8], { trk := { Track.reset with flvHdr := true }, out := Outputs.empty }) ∧
    (bytesOf [8]).length ≤ Config.fbp1.remCap ∧
    RegionIs .inp (holding (fl1.take 4)) (whole (fl1.take 4)) ∧
    (regionBytes (holding (fl1.take 4)) (whole (fl1.take 4))).length < 9 ∧
    (regionBytes (holding (fl1.take 4)) (whole (fl1.take 4))).take 4 <+: [0x46, 0x4C, 0x56, 0x01] ∧
    bytesOf (fl1.take 32) =
      [0x46, 0x4C, 0x56, 0x01, 5] ++ beBytes 4 (9 + ([] : Bytes).length) ++ [] ++ beBytes 4 (0 : BitVec 32).toNat ++
        flvConfigTag.whole 15 ∧
    ((∀ x ∈ [(flvConfigTag, (15 : BitVec 32)), (flvOtherTag, 0)], x.1.Valid) ∧
      flvOtherTag.type ≠ 8 ∧ flvOtherTag.type ≠ 9) :=
  ⟨by decide +kernel, by decide +kernel, by decide +kernel, eq_ok (by decide +kernel), by decide,
    by decide +kernel, by decide +kernel, by decide +kernel, by decide +kernel, by decide⟩

theorem witness_FlvDemuxCompletes_partial : PartialTag (bytesOf [8]) ∧ PartialTag (flvConfigTag.bytes) := by
  unfold PartialTag; decide +kernel

/-- An AAC payload of each form: ignored, a sequence header that parses, one that does not, a raw frame. -/
theorem witness_FlvDemuxCompletes_audio :
    (bytesOf [0x2F, 1]).length = 2 ∧ byteAt (bytesOf [0x2F, 1]) 0 / 16 ≠ 10 ∧ 2 ≤ byteAt (bytesOf [0xAF, 2]) 1 ∧
    flvConfigTag.payload = flvAac 15 0 (bytesOf [0x12, 0x10]) ∧
    StartsWith (bytesOf [0x12, 0x10]) (AscCode.bits { objectType := 2, rate := .inl 4, channels := 2 }) ∧
    (∀ i : BitVec 4, (.inl 4 : BitVec 4 ⊕ BitVec 24) = .inl i → i.toNat < 13) ∧
    AscCode.hz { objectType := 2, rate := .inl 4, channels := 2 } ≠ 0 ∧
    asc (bytesOf [0x16, 0x80]) = .error { code := .syntaxInvalid, info := 0x31 } ∧
    bytesOf [0xAF, 1, 0x21] = flvAac 15 1 [0x21] ∧
    AudioFits Config.fbp1 Outputs.empty [([0x21], 1024)] :=
  ⟨by decide, by decide, by decide, by decide +kernel, by decide +kernel, (fun i h => by cases h; decide),
    by decide +kernel, eq_error (by decide +kernel), by decide +kernel, by decide⟩

/-- A video payload of each form: ignored; a record of each family that parses, with room and without; one that does
not parse; a frame of two units, an empty one and a rest too short. -/
theorem witness_FlvDemuxCompletes_video :
    (byteAt (bytesOf [0x12, 0, 0, 0, 0]) 0 % 16 ≠ 7 ∧ byteAt (bytesOf [0x12, 0, 0, 0, 0]) 0 % 16 ≠ 12 ∧
      byteAt (bytesOf [0x1C, 0, 0, 0, 0]) 0 % 16 = 12 ∧ 2 ≤ byteAt (bytesOf [0x17, 2, 0, 0, 0]) 1) ∧
    (avcRecord.Valid ∧ avcRecord.sps.head? = some (bytesOf av1) ∧ RecordFits Config.fbp1 avcRecord.psets ∧
      ¬ RecordFits { Config.fbp1 with psCap := 1 } avcRecord.psets ∧ Track.reset.vExists = false) ∧
    (hevcRecord.Valid ∧ hevcRecord.firstSps = some (bytesOf hv1) ∧ RecordFits Config.fbp1 hevcRecord.psets ∧
      ¬ RecordFits { Config.fbp1 with cfgCap := 1 } hevcRecord.psets) ∧
    avcc [1] = .error { code := .truncatedInput, info := 1 } ∧
    (bytesOf [0x17, 1, 0xFF, 0xFF, 0xFF, 0, 1, 0x65, 0, 0, 0, 2, 0x41, 0x42, 7] =
        flvVideo 1 7 1 0xFFFFFF
          ([bytesOf [0x65], [], bytesOf [0x41, 0x42]].flatMap (lengthPrefixed (2 : Word64).toNat) ++ [7]) ∧
      VideoFits Config.fbp1 Outputs.empty
        ([bytesOf [0x65], [], bytesOf [0x41, 0x42]].filter fun u => decide (u ≠ [])) ∧
      flvCodecId .avc = some 7) :=
  ⟨by decide, by decide +kernel, by decide +kernel, eq_error (by decide +kernel), by decide +kernel⟩

/-- A wrong last signature byte, a wrong first one, and a header size of 8. -/
theorem witness_FlvBadHeaderIsFatal :
    (Callable .flv (holding [0x46, 0x4C, 0x56, 0x02]) ∧ Track.reset.flvHdr = false) ∧
    RegionIs .inp (holding [0x46, 0x4C, 0x56, 0x02]) (whole [0x46, 0x4C, 0x56, 0x02]) ∧
    (bytesOf [0x46, 0x4C, 0x56, 0x02])[3]? ≠ ([0x46, 0x4C, 0x56, 0x01] : Bytes)[3]? ∧
    (bytesOf [0x46, 0x4C, 0x56, 0x02]).take 3 = ([0x46, 0x4C, 0x56, 0x01] : Bytes).take 3 ∧
    (bytesOf [0x47])[0]? ≠ ([0x46, 0x4C, 0x56, 0x01] : Bytes)[0]? ∧
    (bytesOf [0x46, 0x4C, 0x56, 0x01, 5, 0, 0, 0, 8]).take 4 = [0x46, 0x4C, 0x56, 0x01] ∧
    9 ≤ (bytesOf [0x46, 0x4C, 0x56, 0x01, 5, 0, 0, 0, 8]).length ∧
    beNat (slice (bytesOf [0x46, 0x4C, 0x56, 0x01, 5, 0, 0, 0, 8]) 5 4) < 9 := by decide +kernel

theorem witness_FlvPartialTagFits :
    flvBody Config.fbp1 (bytesOf (fl1.take 14)) { trk := Track.reset, out := Outputs.empty } =
      .ok (bytesOf [8], { trk := { Track.reset with flvHdr := true }, out := Outputs.empty }) ∧
    { Track.reset with flvHdr := true }.flvHdr = true := ⟨eq_ok (by decide +kernel), rfl⟩

/-- FL1's audio in IN, cut within the header and within the second tag, and in one call. -/
theorem witness_FlvSplitInvariance :
    (holding fl1).Inv ∧
    (∃ t o, Fed (fun k => .flvDemux false k) 0 [5, 35, 12] (holding fl1) t o) ∧
    (after (.flvDemux false false) (withRegion 0 52 (holding fl1))).status.err = 0 ∧
    0 + [5, 35, 12].sum < 2 ^ 64 ∧ [5, 35, 12] ≠ [] :=
  ⟨witness_holding (by decide +kernel) (by decide +kernel),
    ⟨_, _, .chunk 0 5 [35, 12] false _ _ _ _ (exec_after _ _) (by decide +kernel)
      (.chunk 5 35 [12] true _ _ _ _ (exec_after _ _) (by decide +kernel)
        (.chunk 40 12 [] true _ _ _ _ (exec_after _ _) (by decide +kernel) (.done _ _)))⟩,
    by decide +kernel, by decide, by decide⟩

/-- A write other than one to CMD; accesses to REG that reach no writable register, and no register; a reserved register
of each range; the last address a write can name. -/
theorem witness_HostAccesses :
    ¬ ((8 : Word32) = 0 ∧ AccessWidth.b8 = .b8) ∧
    serve (.write 8 .b8 5) State.reset = .next (served (.write 8 .b8 5) State.reset) ∧
    ((40 : Word32).toNat < 2 ^ 24 ∧ 40 ≤ (40 : Word32).toNat) ∧
    ((0x00FFFFF8 : Word32).toNat < 2 ^ 24 ∧ 4096 ≤ (0x00FFFFF8 : Word32).toNat) ∧
    (4 : Word32).toNat % 8 ≠ 0 ∧
    (BitVec.ofNat 32 (8 * 0) = (0 : Word32) ∧ BitVec.ofNat 32 (8 * 511) = (0xFF8 : Word32) ∧
      busRead State.reset (BitVec.ofNat 32 (8 * 80)) .b8 ≠ 0) ∧
    (2 ^ 25 ≤ (0xFFFFFFF8 : Word32).toNat ∧ (0xFFFFFFF8 : Word32).toNat + 8 ≤ 2 ^ 32) ∧
    2 ^ 25 ≤ (0x02000000 : Word32).toNat :=
  ⟨by decide, rfl, by decide, by decide, by decide, by decide +kernel, by decide, by decide⟩

/-- The last bytes of IN, and the first. -/
theorem witness_InReadsBack :
    16777208 + widthBytes .b8 ≤ State.reset.caps.inCap ∧ State.reset.caps.inCap ≤ 2 ^ 24 ∧
    0 + widthBytes .b1 ≤ State.reset.caps.inCap := by decide

/-- A state with an entry in every table. -/
def fullTables : State :=
  { holding [1, 2, 3] with
    mode := .ts, dt := twoEntries, rbsp := [7]
    out := { vsq := [{ pts := 7, dts := 5, firstUnit := 0, nunits := 1, key := true }]
             vut := [{ off := 0, len := 1 }], asq := [{ pts := 9, off := 0, len := 1, nsamples := 1024 }]
             sdata := [1] }
    trk := { Track.reset with psets := [{ kind := .sps, bytes := [0x67, 8] }], haveSps := true, acfg := [0x12, 0x10]
                              vPid := { pid := 0x100, known := true }, vCodec := .avc } }

theorem fullTables_trackOk : fullTables.trk.Ok Config.fbp1 := by
  constructor <;> simp [fullTables, Track.reset, psBytes] <;> decide

theorem witness_RecordWindows :
    fullTables.Inv ∧ fullTables.dt.length = 2 ∧ fullTables.out.vsq.length = 1 ∧
    fullTables.out.vut.length = 1 ∧ fullTables.out.asq.length = 1 ∧ fullTables.trk.psets.length = 1 ∧
    fullTables.trk.acfg.length = 2 ∧ fullTables.rbsp.length = 1 ∧ (2 : Nat) < 2 ^ 19 :=
  ⟨⟨witness_caps, by decide, by decide, .inl rfl, Nat.le_refl _, by decide, by decide, by decide, by decide,
      fullTables_trackOk, ⟨by decide, by decide, by decide, by decide, by decide, by decide, by decide⟩,
      ⟨⟨rfl, rfl, rfl⟩, rfl, fun h => absurd h (by decide)⟩⟩,
    rfl, rfl, rfl, rfl, rfl, rfl, rfl, by decide⟩

theorem witness_StepKeepsLegalState : (holding [1, 2, 3]).Inv := witness_holding (by decide) (by decide)

end Sys2Proof.Machine
end

section
/-! PROOFS. 00_scope: the power-on state is legal. -/

namespace Sys2Proof.Machine

/-- The parameter values of FBP-1 meet the minima of 00_scope R9 and fit the windows of 20_memory R86. -/
theorem fbp1_legal : Config.fbp1.Legal := by
  constructor <;> decide

/-- Before the first demux call, a track and queues at their reset values are what MODE says (40_control R148). -/
theorem reset_modeOk : ModeOk .none Track.reset Outputs.empty := ⟨rfl, rfl⟩

/-- The power-on values are legal with every admitted choice of the capacities (R9, 70 R490): the tables,
IN and the reader's slice are empty, so no bound but those on the capacities themselves depends on the choice. -/
theorem reset_withCaps_inv {c : Config.Caps} (hc : c.Legal) : State.Inv { State.reset with caps := c } where
  caps := hc
  memWf := List.Pairwise.nil
  memBound := List.forall_mem_nil _
  errCode := .inl rfl
  cursor := Nat.le_refl _
  slice := ⟨rfl, Nat.zero_le _⟩
  rbsp := Nat.zero_le _
  dt := Nat.zero_le _
  lensize := Nat.zero_le _
  trk := reset_trackOk c
  out := empty_outOk c
  mode := reset_modeOk

/-- Settles O60: the power-on values with the capacities of FBP-1. -/
theorem powerOnStateIsLegal : Obligations.PowerOnStateIsLegal :=
  reset_withCaps_inv fbp1_legal

end Sys2Proof.Machine
end

section
/-! PROOFS. 10_state: what a command leaves unchanged, and that every step keeps a legal state. -/

namespace Sys2Proof.Machine

/-! ### Legal states: the host's accesses -/

/-- Legality does not speak of the pending accesses, nor of the data last read. -/
theorem State.Inv.withHost {s : State} (h : s.Inv) (b : List HostAccess) (x : Word64) :
    State.Inv { s with bus := b, busData := x } :=
  ⟨h.caps, h.memWf, h.memBound, h.errCode, h.cursor, h.slice, h.rbsp, h.dt, h.lensize, h.trk, h.out,
    h.mode⟩

/-- Legality does not speak of the operand registers (10_state R34). -/
theorem State.Inv.withArgs {s : State} (h : s.Inv) (a b c d : Word64) :
    State.Inv { s with arg0 := a, arg1 := b, arg2 := c, arg3 := d } :=
  ⟨h.caps, h.memWf, h.memBound, h.errCode, h.cursor, h.slice, h.rbsp, h.dt, h.lensize, h.trk, h.out,
    h.mode⟩

/-- A write of ARG0 to ARG3 keeps a legal state, and no other write of REG does anything (10_state R34). -/
theorem regWrite_inv {s : State} (h : s.Inv) (i : Nat) (v : Word64) : (regWrite s i v).Inv := by
  unfold regWrite
  split
  · exact h.withArgs v s.arg1 s.arg2 s.arg3
  · exact h.withArgs s.arg0 v s.arg2 s.arg3
  · exact h.withArgs s.arg0 s.arg1 v s.arg3
  · exact h.withArgs s.arg0 s.arg1 s.arg2 v
  · exact h

/-- A byte written to IN is one of its IN_CAP bytes, so IN stays canonical and in bounds (20_memory R88, R89). -/
theorem writeWindowByte_inv {s : State} (h : s.Inv) (a : Nat) (b : Byte) :
    (writeWindowByte s a b).Inv := by
  unfold writeWindowByte
  split
  · rename_i ha
    refine ⟨h.caps, memWrite_wf h.memWf _ _, ?_, h.errCode, h.cursor, h.slice, h.rbsp, h.dt, h.lensize,
      h.trk, h.out, h.mode⟩
    intro x hx
    rcases mem_memWrite hx with hx | rfl
    · exact h.memBound x hx
    · exact ha.2
  · exact h

/-- A host write outside REG keeps a legal state, byte by byte (20_memory R87). -/
theorem writeWindow_inv {s : State} (h : s.Inv) (addr : Word32) (w : AccessWidth) (v : Word64) :
    (writeWindow s addr w v).Inv :=
  List.foldlRecOn (motive := State.Inv) _ _ h fun _ hs x _ => writeWindowByte_inv hs x.1 x.2

/-! ### Legal states: the commands -/

/-- The register pair that BR_INIT writes: a slice of whole bytes, no longer than a byte space, the cursor at
its start (41_bitreader R161). -/
theorem brInit_inv {s : State} (h : s.Inv) {r : Region} (hr : r.len ≤ 2 ^ 24) :
    State.Inv { s with br := { src := r.space, off := BitVec.ofNat 64 r.off
                               nbits := BitVec.ofNat 64 (8 * r.len), pos := 0 } } := by
  have hn : (BitVec.ofNat 64 (8 * r.len)).toNat = 8 * r.len := by
    rw [BitVec.toNat_ofNat, Nat.mod_eq_of_lt (by omega)]
  refine ⟨h.caps, h.memWf, h.memBound, h.errCode, Nat.zero_le _, ?_, h.rbsp, h.dt, h.lensize, h.trk,
    h.out, h.mode⟩
  show (BitVec.ofNat 64 (8 * r.len)).toNat % 8 = 0 ∧ (BitVec.ofNat 64 (8 * r.len)).toNat ≤ 8 * 2 ^ 24
  omega

/-- A value for VAL keeps a legal state (10_state R38). -/
theorem State.Inv.withVal {s : State} (h : s.Inv) (v : Word64) : State.Inv { s with val := v } :=
  ⟨h.caps, h.memWf, h.memBound, h.errCode, h.cursor, h.slice, h.rbsp, h.dt, h.lensize, h.trk, h.out,
    h.mode⟩

/-- Results for SPS_* and AUD_* keep a legal state (10_state R43, R45). -/
theorem State.Inv.withHeaders {s : State} (h : s.Inv) (x : SpsRegs) (y : AudRegs) :
    State.Inv { s with sps := x, aud := y } :=
  ⟨h.caps, h.memWf, h.memBound, h.errCode, h.cursor, h.slice, h.rbsp, h.dt, h.lensize, h.trk, h.out,
    h.mode⟩

/-- Units within DT_CAP, with LENSIZE kept, keep a legal state (42_nal R194, R203). -/
theorem framing_inv {s : State} (h : s.Inv) {dt : List DtEntry} (hdt : dt.length ≤ s.caps.dtCap)
    (a b c : Word64) :
    State.Inv { s with dt := dt, frm := { leadLen := a, resOff := b, resLen := c, lensize := s.frm.lensize } } :=
  ⟨h.caps, h.memWf, h.memBound, h.errCode, h.cursor, h.slice, h.rbsp, hdt, h.lensize, h.trk, h.out,
    h.mode⟩

/-- Bytes within RBSP_CAP keep a legal state (42_nal R201). -/
theorem rbsp_inv {s : State} (h : s.Inv) {b : Bytes} (hb : b.length ≤ s.caps.rbspCap) (n : Word64) :
    State.Inv { s with rbsp := b, epbCnt := n } :=
  ⟨h.caps, h.memWf, h.memBound, h.errCode, h.cursor, h.slice, hb, h.dt, h.lensize, h.trk, h.out, h.mode⟩

/-- The bytes after the last whole packet are held back (46_ts_demux R352). -/
theorem TsOk.withTsRem {c : Config.Caps} {d : Dmx} (h : TsOk c d) {x : Bytes} (hx : x.length < 188) :
    TsOk c { d with trk := { d.trk with tsRem := x } } := by
  obtain ⟨⟨b, m, o⟩, op⟩ := h
  exact ⟨⟨⟨hx, b.flvRem, b.pendV, b.pendA, b.fifoLen, b.fifoPackets, b.openBytes, b.openUnits,
      b.psLen, b.psBytes, b.acfg, b.haveSps, b.havePps, b.haveVps, b.rate⟩,
    ⟨⟨m.idle.flvHdr, m.idle.flvRem, m.idle.vLensize⟩, m.exists_, m.early⟩, o⟩, op⟩

/-- The bytes from the first incomplete tag on are held back, within REM_CAP (47_flv_demux R413, R440). -/
theorem FlvOk.withFlvRem {c : Config.Caps} {d : Dmx} (h : FlvOk c d) {x : Bytes}
    (hx : x.length ≤ c.remCap) : FlvOk c { d with trk := { d.trk with flvRem := x } } := by
  obtain ⟨b, ⟨i, w⟩, o⟩ := h
  exact ⟨⟨b.tsRem, hx, b.pendV, b.pendA, b.fifoLen, b.fifoPackets, b.openBytes, b.openUnits,
      b.psLen, b.psBytes, b.acfg, b.haveSps, b.havePps, b.haveVps, b.rate⟩,
    ⟨⟨i.pmtPid, i.vPid, i.aPid, i.tsRem, i.pendV, i.pendA, i.fifo, i.opened, i.lastV, i.aNext,
      i.dropped, i.badPes, i.aBroken, i.unresDrop⟩, w⟩, o⟩

/-- Fewer bytes than one packet stand after the whole ones (46_ts_demux R350). -/
theorem length_drop_packets (d : Bytes) : (d.drop (188 * (d.length / 188))).length < 188 := by
  rw [List.length_drop]
  omega

/-- TS_DEMUX keeps a legal state: the dispatcher does, and less than a packet is held back (46_ts_demux R350). -/
theorem tsDemux_inv {disc contig : Bool} {s t : State} (hi : s.Inv)
    (h : exec (.tsDemux disc contig) s = .next t) : t.Inv := by
  refine finish_inv hi (fun s' hr => ?_) h
  obtain ⟨_, -, hr⟩ := bind_ok.1 hr
  obtain ⟨_, hm, hr⟩ := bind_ok.1 hr
  obtain ⟨r, -, hr⟩ := bind_ok.1 hr
  obtain ⟨_, -, hr⟩ := bind_ok.1 hr
  obtain ⟨x, hx, hr⟩ := bind_ok.1 hr
  cases hr
  rw [preamble_caps] at hx
  have hok := (dispatchAll_ok hi.caps (packets_length (Nat.div_mul_le_self _ _))
    (preamble_ts hi (checkMode_ok.1 hm)) hx).withTsRem
      (length_drop_packets (tsInput disc s (regionBytes s r)))
  exact withDmx_inv hi hok.track hok.out hok.mode

/-- TS_FLUSH keeps a legal state: each of its three flushes does (46_ts_demux R400). -/
theorem tsFlush_inv {s t : State} (hi : s.Inv) (h : exec .tsFlush s = .next t) : t.Inv := by
  refine finish_inv hi (fun s' hr => ?_) h
  obtain ⟨_, -, hr⟩ := bind_ok.1 hr
  obtain ⟨_, hm, hr⟩ := bind_ok.1 hr
  obtain ⟨x, hx, hr⟩ := bind_ok.1 hr
  obtain ⟨y, hy, hr⟩ := bind_ok.1 hr
  obtain ⟨z, hz, hr⟩ := bind_ok.1 hr
  cases hr
  rw [preamble_caps] at hx hy hz
  have hvideo := (drainPending_ok hi.caps (preamble_ts hi (checkMode_ok.1 hm)) hx).1
  have haudio := (drainPending_ok hi.caps hvideo hy).1
  have hok := (closeOpen_ok hi.caps haudio hz).1
  exact withDmx_inv hi hok.track hok.out hok.mode

/-- FLV_DEMUX keeps a legal state: the tag scan does, and no more than REM_CAP bytes are held back
(47_flv_demux R410, R440). -/
theorem flvDemux_inv {disc contig : Bool} {s t : State} (hi : s.Inv)
    (h : exec (.flvDemux disc contig) s = .next t) : t.Inv := by
  refine finish_inv hi (fun s' hr => ?_) h
  obtain ⟨_, -, hr⟩ := bind_ok.1 hr
  obtain ⟨_, hm, hr⟩ := bind_ok.1 hr
  obtain ⟨r, -, hr⟩ := bind_ok.1 hr
  obtain ⟨_, -, hr⟩ := bind_ok.1 hr
  obtain ⟨⟨rest, x⟩, hx, hr⟩ := bind_ok.1 hr
  obtain ⟨_, hcap, hr⟩ := bind_ok.1 hr
  cases hr
  rw [preamble_caps] at hx hcap
  have hok := (flvBody_ok hi.caps (preamble_flv hi (checkMode_ok.1 hm)) hx).withFlvRem
    (checkCap_ok.1 hcap)
  exact withDmx_inv hi hok.trk hok.out hok.mode

/-- Every command keeps a legal state, however it ends (10_state R39, R60 to R67). -/
theorem exec_inv {i : Instr} {s t : State} (hi : s.Inv) (h : exec i s = .next t) : t.Inv := by
  cases i with
  | nop => cases h; exact hi
  | reset =>
    refine finish_inv (r := .ok (resetState s)) hi (fun s' hr => ?_) h
    cases hr
    exact resetState_inv hi
  | trackReset =>
    refine finish_inv hi (fun s' hr => ?_) h
    obtain ⟨_, -, hr⟩ := bind_ok.1 hr
    cases hr
    exact trackReset_inv hi
  | brInit sp =>
    refine finish_inv hi (fun s' hr => ?_) h
    obtain ⟨r, hreg, hr⟩ := bind_ok.1 hr
    cases hr
    exact brInit_inv hi (region_len hi hreg).1
  | readBits _ | readUe | readSe =>
    refine finish_inv hi (fun s' hr => ?_) h
    obtain ⟨⟨v, s1⟩, hrd, hr⟩ := bind_ok.1 hr
    cases hr
    exact (reader_inv (by simp only [moves_u, moves_ue, moves_se]) hi hrd).withVal _
  | skipBits _ | skipUe | skipSe | skipScalingList _ =>
    refine finish_inv hi (fun s' hr => ?_) h
    obtain ⟨⟨v, s1⟩, hrd, hr⟩ := bind_ok.1 hr
    cases hr
    exact reader_inv (by simp only [moves_skip, moves_ue, moves_se, moves_scalingList]) hi hrd
  | splitAnnexb _ _ | splitLenpfx _ _ =>
    refine finish_inv hi (fun s' hr => ?_) h
    obtain ⟨r, -, hr⟩ := bind_ok.1 hr
    obtain ⟨_, hcap, hr⟩ := bind_ok.1 hr
    cases hr
    exact framing_inv hi (by simpa [unitEntries] using check_ok.1 hcap) _ _ _
  | epbRemove _ =>
    refine finish_inv hi (fun s' hr => ?_) h
    obtain ⟨r, -, hr⟩ := bind_ok.1 hr
    obtain ⟨_, hcap, hr⟩ := bind_ok.1 hr
    cases hr
    exact rbsp_inv hi (by simpa using check_ok.1 hcap) _
  | avcSpsParse _ | hevcSpsParse _ =>
    refine finish_inv hi (fun s' hr => ?_) h
    obtain ⟨r, -, hr⟩ := bind_ok.1 hr
    obtain ⟨g, -, hr⟩ := bind_ok.1 hr
    cases hr
    exact hi.withHeaders _ s.aud
  | aacAscParse _ | mpaHdrParse _ =>
    refine finish_inv hi (fun s' hr => ?_) h
    obtain ⟨r, -, hr⟩ := bind_ok.1 hr
    obtain ⟨g, -, hr⟩ := bind_ok.1 hr
    cases hr
    exact hi.withHeaders s.sps _
  | avccParse _ | hvccParse _ =>
    refine finish_inv hi (fun s' hr => ?_) h
    obtain ⟨r, -, hr⟩ := bind_ok.1 hr
    obtain ⟨x, hx, hr⟩ := bind_ok.1 hr
    exact commitRecord_inv hi (record_lensize (by simp) hx).2 hr
  | adtsParse _ | mpaScan _ =>
    refine finish_inv hi (fun s' hr => ?_) h
    obtain ⟨r, -, hr⟩ := bind_ok.1 hr
    exact commitScan_inv hi hr
  | tsDemux _ _ => exact tsDemux_inv hi h
  | tsFlush => exact tsFlush_inv hi h
  | flvDemux _ _ => exact flvDemux_inv hi h

/-- A command word keeps a legal state: a legal one runs its command, an illegal one takes the error path
(30_encoding R118). -/
theorem runWord_inv {w : Word32} {s t : State} (hi : s.Inv) (h : runWord w s = .next t) : t.Inv := by
  unfold runWord at h
  split at h
  · exact exec_inv hi h
  · cases h
    exact errorPath_inv hi

/-- A command word answers a next state (60_exceptions R460). -/
theorem runWord_next (w : Word32) (s : State) : ∃ t, runWord w s = .next t := by
  unfold runWord
  split
  · exact exec_next _ _
  · exact ⟨_, rfl⟩

/-- Every host access answers a next state (20_memory R87, R88). -/
theorem serve_next (a : HostAccess) (s : State) : ∃ t, serve a s = .next t := by
  unfold serve
  split
  · exact ⟨_, rfl⟩
  · split
    · split
      · exact runWord_next _ _
      · exact ⟨_, rfl⟩
      · exact ⟨_, rfl⟩
    · exact ⟨_, rfl⟩

/-- Every host access keeps a legal state. -/
theorem serve_inv {a : HostAccess} {s t : State} (hi : s.Inv) (h : serve a s = .next t) : t.Inv := by
  unfold serve at h
  split at h
  · cases h
    exact hi.withHost _ _
  · split at h
    · split at h
      · exact runWord_inv hi h
      · cases h
        exact regWrite_inv hi _ _
      · cases h
        exact hi
    · cases h
      exact writeWindow_inv hi _ _ _

/-- Settles O59: an idle step keeps the state, and any other step serves one host access. -/
theorem stepKeepsLegalState : Obligations.StepKeepsLegalState := by
  intro s hi
  unfold step
  split
  · exact ⟨s, rfl, hi⟩
  · rename_i a rest _
    obtain ⟨t, ht⟩ := serve_next a { s with bus := rest }
    exact ⟨t, ht, serve_inv (hi.withHost rest s.busData) ht⟩

end Sys2Proof.Machine
end

section
/-! PROOFS. 10_state: what a command leaves unchanged, read off its effect. -/

namespace Sys2Proof.Machine

/-- A command that completes keeps IN, the capacities and the host's accesses, and all but RESET keep ARG0 to ARG3. -/
theorem Effect.inputs {i : Instr} {s s' : State} (h : Effect i s s') :
    s'.inMem = s.inMem ∧ s'.caps = s.caps ∧ s'.bus = s.bus ∧ s'.busData = s.busData ∧
      (i ≠ .reset → s'.arg0 = s.arg0 ∧ s'.arg1 = s.arg1 ∧ s'.arg2 = s.arg2 ∧ s'.arg3 = s.arg3) := by
  cases i with
  | nop => exact h.elim
  | reset =>
    rw [show s' = resetState s from h]
    exact ⟨rfl, rfl, rfl, rfl, fun hn => absurd rfl hn⟩
  | trackReset | tsDemux _ _ | tsFlush | flvDemux _ _ =>
    rw [h.1]
    exact ⟨rfl, rfl, rfl, rfl, fun _ => ⟨rfl, rfl, rfl, rfl⟩⟩
  | _ =>
    rw [show s' = _ from h]
    exact ⟨rfl, rfl, rfl, rfl, fun _ => ⟨rfl, rfl, rfl, rfl⟩⟩

/-- Settles O9: NOP keeps the state, the error path writes the error registers alone, and the effect of a command
that completes names the fields it writes. -/
theorem commandsKeepInputs : Obligations.CommandsKeepInputs := by
  intro i s t h
  by_cases hn : i = .nop
  · subst hn
    cases h
    exact ⟨rfl, rfl, rfl, rfl, fun _ => ⟨rfl, rfl, rfl, rfl⟩⟩
  · rcases exec_effect h hn with ⟨s', he, rfl⟩ | ⟨e, rfl⟩
    · exact he.inputs
    · exact ⟨rfl, rfl, rfl, rfl, fun _ => ⟨rfl, rfl, rfl, rfl⟩⟩

/-- The frame of the results: each is unchanged by the commands that do not write it (10_state R35, R38 to R48). -/
structure ResultsFrame (i : Instr) (s t : State) : Prop where
  val : writesVal i = false → t.val = s.val
  br : writesReader i = false → t.br = s.br
  slice : isReader i = true → t.br.src = s.br.src ∧ t.br.off = s.br.off ∧ t.br.nbits = s.br.nbits
  dt : writesDt i = false → t.dt = s.dt
  rbsp : writesRbsp i = false → t.rbsp = s.rbsp ∧ t.epbCnt = s.epbCnt
  lead : writesLead i = false → t.frm.leadLen = s.frm.leadLen
  residue : writesResidue i = false → t.frm.resOff = s.frm.resOff ∧ t.frm.resLen = s.frm.resLen
  lensize : writesLensize i = false → t.frm.lensize = s.frm.lensize
  sps : writesSps i = false → t.sps = s.sps
  aud : writesAud i = false → t.aud = s.aud
  broken : writesBroken i = false → t.status.broken = s.status.broken
  trk : isTrackCommand i = false → t.trk = s.trk
  call : callMode i = none → t.out = s.out ∧ t.mode = s.mode ∧ t.status.contig = s.status.contig

/-- The state a command found has every result as it was. -/
theorem ResultsFrame.refl (i : Instr) (s : State) : ResultsFrame i s s :=
  ⟨fun _ => rfl, fun _ => rfl, fun _ => ⟨rfl, rfl, rfl⟩, fun _ => rfl, fun _ => ⟨rfl, rfl⟩, fun _ => rfl,
    fun _ => ⟨rfl, rfl⟩, fun _ => rfl, fun _ => rfl, fun _ => rfl, fun _ => rfl, fun _ => rfl,
    fun _ => ⟨rfl, rfl, rfl⟩⟩

/-- A command that completes writes only the results of its lists. -/
theorem Effect.results {i : Instr} {s s' : State} (h : Effect i s s') (hr : i ≠ .reset) :
    ResultsFrame i s s' := by
  cases i with
  | nop => exact h.elim
  | reset => exact absurd rfl hr
  | trackReset | tsDemux _ _ | tsFlush | flvDemux _ _ =>
    rw [h.1]
    constructor <;> simp [isTrackCommand, callMode, isReader]
  | _ =>
    rw [show s' = _ from h]
    constructor <;>
      simp [writesVal, writesReader, isReader, writesDt, writesRbsp, writesLead, writesResidue, writesLensize,
        writesSps, writesAud, writesBroken]

/-- STATUS.ERR, STATUS.FAULT, ERR_INFO and ERR_CMD are none of the results. -/
theorem ResultsFrame.withErrorRegs {i : Instr} {s t : State} (h : ResultsFrame i s t) (err : Byte) (fault : Bool)
    (info cmd : Word64) :
    ResultsFrame i s
      { t with status := { t.status with err := err, fault := fault }, errInfo := info, errCmd := cmd } :=
  ⟨h.val, h.br, h.slice, h.dt, h.rbsp, h.lead, h.residue, h.lensize, h.sps, h.aud, h.broken, h.trk, h.call⟩

/-- The frame of every command but RESET: completion and the error path add the error registers alone. -/
theorem exec_results {i : Instr} {s t : State} (h : exec i s = .next t) (hr : i ≠ .reset) :
    ResultsFrame i s t := by
  by_cases hn : i = .nop
  · subst hn
    cases h
    exact .refl _ _
  · rcases exec_effect h hn with ⟨s', he, rfl⟩ | ⟨e, rfl⟩
    · exact (he.results hr).withErrorRegs 0 s'.status.fault _ _
    · exact (ResultsFrame.refl i s).withErrorRegs _ _ _ _

/-- Settles O10: the frame of the results, field by field. -/
theorem resultsWrittenOnlyBy : Obligations.ResultsWrittenOnlyBy := by
  intro i s t h hr
  have f := exec_results h hr
  exact ⟨f.val, f.br, f.slice, f.dt, f.rbsp, f.lead, f.residue, f.lensize, f.sps, f.aud, f.broken, f.trk, f.call⟩

end Sys2Proof.Machine
end

section
/-! PROOFS. 10_state R33, 46_ts_demux R371 and R401, 47_flv_demux R440: the errors of a demux call. -/

namespace Sys2Proof.Machine

/-! ### Computations that fail with capacities alone -/

/-- The computation fails, if it does, with CAPACITY_EXCEEDED and one of the indices. -/
def FailsWith {α : Type} (indices : List Nat) (r : Except Err α) : Prop :=
  ∀ e, r = .error e → e.code = .capacityExceeded ∧ e.info ∈ indices

/-- The capacities of the output queues (46_ts_demux R401): those an FLV tag can exceed. -/
def queueIndices : List Nat := [89, 90, 91, 92]

/-- The capacities a transport-stream packet can exceed (46_ts_demux R371, R401). -/
def packetIndices : List Nat := [84, 86, 87, 89, 90, 91, 92]

section
variable {α β : Type} {l : List Nat}

theorem failsWith_ok (a : α) : FailsWith l (.ok a) := fun _ h => by cases h

theorem failsWith_of_ok {x : Except Err α} {a : α} (h : x = .ok a) : FailsWith l x := h ▸ failsWith_ok a

/-- Two computations in sequence fail as one of them does. -/
theorem FailsWith.bind {x : Except Err α} {f : α → Except Err β} (hx : FailsWith l x)
    (hf : ∀ a, FailsWith l (f a)) : FailsWith l (x >>= f) := by
  intro e h
  rcases bind_error.1 h with h | ⟨a, -, h⟩
  · exact hx e h
  · exact hf a e h

/-- What fails with the capacity of a queue fails with one that a packet can exceed. -/
theorem FailsWith.mono {r : Except Err α} (h : FailsWith queueIndices r) : FailsWith packetIndices r := by
  intro e he
  obtain ⟨hc, hi⟩ := h e he
  exact ⟨hc, List.mem_of_mem_drop (i := 3) hi⟩

theorem failsWith_ite {p : Prop} [Decidable p] {x y : Except Err α} (hx : FailsWith l x) (hy : FailsWith l y) :
    FailsWith l (if p then x else y) := by
  split
  · exact hx
  · exact hy

theorem failsWith_checkCap {need cap index : Nat} (h : index ∈ l) : FailsWith l (checkCap need cap index) := by
  intro e he
  obtain ⟨-, rfl⟩ := check_error.1 he
  exact ⟨rfl, h⟩

theorem failsWith_foldlM {f : β → α → Except Err β} (hf : ∀ b a, FailsWith l (f b a)) (xs : List α) (b : β) :
    FailsWith l (xs.foldlM f b) := by
  induction xs generalizing b with
  | nil => exact failsWith_ok b
  | cons a xs ih =>
    rw [List.foldlM_cons]
    exact (hf b a).bind ih

end

/-! ### Emission (46_ts_demux R390, R391) -/

section
variable (c : Config.Caps)

theorem emitUnits_fails (us : List Bytes) (o : Outputs) : FailsWith queueIndices (emitUnits c us o) := by
  induction us generalizing o with
  | nil => exact failsWith_ok o
  | cons b rest ih =>
    exact (failsWith_checkCap (by decide)).bind fun _ => (failsWith_checkCap (by decide)).bind fun _ => ih _

theorem emitVideo_fails (stamp : Stamp) (key : Bool) (us : List Bytes) (o : Outputs) :
    FailsWith queueIndices (emitVideo c stamp key us o) :=
  (failsWith_checkCap (by decide)).bind fun _ => emitUnits_fails c us _

theorem emitAudio_fails (pts : Word64) (b : Bytes) (ns : Nat) (o : Outputs) :
    FailsWith queueIndices (emitAudio c pts b ns o) :=
  (failsWith_checkCap (by decide)).bind fun _ => (failsWith_checkCap (by decide)).bind fun _ => failsWith_ok _

/-! ### FLV tags (47_flv_demux R415) -/

theorem flvAudioTag_fails (ts : Nat) (p : Bytes) (d : Dmx) : FailsWith queueIndices (flvAudioTag c ts p d) := by
  have frame : FailsWith queueIndices (flvAudioFrame c ts (p.drop 2) d) :=
    failsWith_ite ((emitAudio_fails c _ _ _ _).bind fun _ => failsWith_ok _) (failsWith_ok _)
  exact failsWith_ite (failsWith_ok _) (failsWith_ite (failsWith_ok _) (failsWith_ite frame (failsWith_ok _)))

theorem flvVideoFrame_fails (ts : Nat) (cts : Int) (ft : Nat) (n : Bytes) (d : Dmx) :
    FailsWith queueIndices (flvVideoFrame c ts cts ft n d) :=
  failsWith_ite
    (failsWith_ite (failsWith_ok _) ((emitVideo_fails c _ _ _ _).bind fun _ => failsWith_ok _)) (failsWith_ok _)

theorem flvVideoTag_fails (ts : Nat) (p : Bytes) (d : Dmx) : FailsWith queueIndices (flvVideoTag c ts p d) :=
  failsWith_ite (failsWith_ok _) <| failsWith_ite (failsWith_ok _) <| failsWith_ite (failsWith_ok _) <|
    failsWith_ite (failsWith_ok _) <| failsWith_ite (flvVideoFrame_fails c _ _ _ _ _) (failsWith_ok _)

theorem flvTag_fails (t : Bytes) (d : Dmx) : FailsWith queueIndices (flvTag c t d) :=
  failsWith_ite (flvAudioTag_fails c _ _ _) (failsWith_ite (flvVideoTag_fails c _ _ _) (failsWith_ok _))

theorem flvTags_fails (fuel : Nat) (b : Bytes) (d : Dmx) : FailsWith queueIndices (flvTags c fuel b d) := by
  induction fuel generalizing b d with
  | zero => exact failsWith_ok _
  | succ fuel ih =>
    exact failsWith_ite (failsWith_ok _)
      (failsWith_ite (failsWith_ok _) ((flvTag_fails c _ d).bind fun d => ih _ d))

/-- An FLV call's tag scan fails with the capacity of an output queue alone (47_flv_demux R440). -/
theorem flvBody_fails (b : Bytes) (d : Dmx) : FailsWith queueIndices (flvBody c b d) :=
  failsWith_ite (flvTags_fails c _ _ _) <| failsWith_ite (failsWith_ok _) <|
    failsWith_ite (failsWith_ok _) (flvTags_fails c _ _ _)

/-! ### Transport streams (46_ts_demux R380 to R401) -/

theorem closeStamped_fails (stamp : Stamp) (o : OpenSample) (d : Dmx) :
    FailsWith packetIndices (closeStamped c stamp o d) :=
  failsWith_ite ((emitVideo_fails c _ _ _ _).mono.bind fun _ => failsWith_ok _) (failsWith_ok _)

theorem closeOpen_fails (d : Dmx) : FailsWith packetIndices (closeOpen c d) := by
  unfold closeOpen
  split
  · exact failsWith_ok d
  · dsimp only
    split
    · exact closeStamped_fails c _ _ _
    · split
      · exact failsWith_ok _
      · exact closeStamped_fails c _ _ _

theorem checkOpen_fails (us : List Bytes) : FailsWith packetIndices (checkOpen c us) := by
  refine failsWith_ite (failsWith_checkCap (by decide)) (failsWith_ite (failsWith_checkCap (by decide)) ?_)
  intro e he
  cases he
  refine ⟨rfl, ?_⟩
  dsimp only
  split <;> decide

theorem appendUnit_fails (key : Bool) (unit : Bytes) (d : Dmx) :
    FailsWith packetIndices (appendUnit c key unit d) := by
  unfold appendUnit
  split
  · exact failsWith_ok d
  · exact (checkOpen_fails c _).bind fun _ => failsWith_ok _

theorem beginSample_fails (opens : Bool) (stamp : Option Stamp) (d : Dmx) :
    FailsWith packetIndices (beginSample c opens stamp d) :=
  failsWith_ite ((closeOpen_fails c d).bind fun _ => failsWith_ok _) (failsWith_ok d)

theorem videoUnits_fails (has : Bool) (stamp : Stamp) (pl : Bytes) (us : List NalUnit) (avail first : Bool)
    (d : Dmx) : FailsWith packetIndices (videoUnits c has stamp pl us avail first d) := by
  induction us generalizing avail first d with
  | nil => exact failsWith_ok d
  | cons x rest ih =>
    have unit : ∀ opens stamp ty u, FailsWith packetIndices (videoUnit c opens stamp ty u d) :=
      fun _ _ _ _ => (beginSample_fails c _ _ d).bind fun _ => appendUnit_fails c _ _ _
    exact failsWith_ite (ih _ _ d) ((unit _ _ _ _).bind fun d => ih _ _ d)

theorem emitFrames_fails (p0 : Int) (rate : Nat) (pl : Bytes) (fs : List Frame) (n : Nat) (o : Outputs) :
    FailsWith packetIndices (emitFrames c p0 rate pl fs n o) := by
  induction fs generalizing n o with
  | nil => exact failsWith_ok _
  | cons f rest ih => exact (emitAudio_fails c _ _ _ o).mono.bind fun o => ih _ o

theorem emitAudioPes_fails (p0 : Option Int) (frames : List Frame) (pl : Bytes) (d : Dmx) :
    FailsWith packetIndices (emitAudioPes c p0 frames pl d) := by
  cases p0 with
  | none => exact failsWith_ok _
  | some p0 => exact (emitFrames_fails c _ _ _ _ _ _).bind fun _ => failsWith_ok _

theorem flushPes_fails (st : Stream) (p : Bytes) (d : Dmx) : FailsWith packetIndices (flushPes c st p d) := by
  unfold flushPes
  split
  · exact failsWith_ok _
  · cases st with
    | video => exact videoUnits_fails c _ _ _ _ _ _ _
    | audio => exact emitAudioPes_fails c _ _ _ _

theorem flushPending_fails (st : Stream) (d : Dmx) : FailsWith packetIndices (flushPending c st d) := by
  unfold flushPending
  split
  · exact failsWith_ok d
  · exact failsWith_ite (failsWith_ok d) (flushPes_fails c _ _ _)

theorem drainPending_fails (st : Stream) (d : Dmx) : FailsWith packetIndices (drainPending c st d) :=
  (flushPending_fails c st d).bind fun _ => failsWith_ok _

theorem esPacket_fails (st : Stream) (pusi : Bool) (pl : Bytes) (d : Dmx) :
    FailsWith packetIndices (esPacket c st pusi pl d) := by
  refine failsWith_ite ?_ ?_
  · exact (flushPending_fails c st d).bind fun _ =>
      (failsWith_checkCap (by decide)).bind fun _ => failsWith_ok _
  · split
    · exact failsWith_ok d
    · exact (failsWith_checkCap (by decide)).bind fun _ => failsWith_ok _

/-! ### The dispatcher (46_ts_demux R355, R361) -/

/-- A packet fails as its redispatch or its elementary stream does. -/
theorem dispatchWith_fails {f : Dmx → Except Err Dmx} (hf : ∀ d, FailsWith packetIndices (f d)) (k : Bytes)
    (d : Dmx) : FailsWith packetIndices (dispatchWith f c k d) := by
  refine failsWith_ite (failsWith_ok d) <| failsWith_ite (failsWith_ok d) <|
    failsWith_ite (failsWith_ite ?pat (failsWith_ok d)) <| failsWith_ite (failsWith_ite ?pmt (failsWith_ok d)) <|
    failsWith_ite (failsWith_ite (esPacket_fails c _ _ _ d) <| failsWith_ite (esPacket_fails c _ _ _ d)
      (failsWith_ok d)) (failsWith_ok _)
  case pat =>
    split
    · exact failsWith_ok d
    · exact hf _
  case pmt =>
    split
    · exact failsWith_ok d
    · exact hf _

theorem redispatchWith_fails {f : Bytes → Dmx → Except Err Dmx} (hf : ∀ k d, FailsWith packetIndices (f k d))
    (d : Dmx) : FailsWith packetIndices (redispatchWith f d) :=
  failsWith_foldlM (fun d k => hf k d) _ _

/-- The packets of a call fail with a capacity alone (46_ts_demux R371, R401): layer by layer of the dispatcher. -/
theorem dispatchAll_fails (ks : List Bytes) (d : Dmx) : FailsWith packetIndices (dispatchAll c ks d) := by
  have parsed : ∀ k d, FailsWith packetIndices (dispatchParsed c k d) :=
    dispatchWith_fails c fun d => failsWith_ok d
  have known : ∀ k d, FailsWith packetIndices (dispatchKnown c k d) :=
    dispatchWith_fails c (redispatchWith_fails parsed)
  exact failsWith_foldlM (fun d k => dispatchWith_fails c (redispatchWith_fails known) k d) ks d

end

/-! ### One capacity exceeded alone -/

/-- A capacity check that does not hold raises the index of the capacity (46_ts_demux R401). -/
theorem checkCap_exceeded {need cap index : Nat} (h : cap < need) :
    checkCap need cap index = .error (capacityError index) :=
  check_error.2 ⟨decide_eq_false (Nat.not_le.2 h), rfl⟩

/-- The bytes of the open sample are those of its units one after the other (10_state R64). -/
theorem unitsBytes_eq (us : List Bytes) : unitsBytes us = us.flatten.length := List.length_flatten.symm

section
variable {c : Config.Caps}

/-- Setting a pending buffer beyond PEND_CAP raises 84 (46_ts_demux R371). -/
theorem esPacket_start_exceeded {st : Stream} {pl : Bytes} {d d' : Dmx} (hd : flushPending c st d = .ok d')
    (h : c.pendCap < pl.length) : esPacket c st true pl d = .error (capacityError 84) :=
  bind_error.2 (.inr ⟨d', hd, bind_error.2 (.inl (checkCap_exceeded h))⟩)

/-- Extending a pending buffer beyond PEND_CAP raises 84 (46_ts_demux R371). -/
theorem esPacket_more_exceeded {st : Stream} {p pl : Bytes} {d : Dmx} (hp : pending st d = some p)
    (h : c.pendCap < (p ++ pl).length) : esPacket c st false pl d = .error (capacityError 84) := by
  simp only [esPacket, Bool.false_eq_true, if_false, hp]
  exact bind_error.2 (.inl (checkCap_exceeded h))

/-- An append fails as the capacity check of the open sample does (46_ts_demux R401). -/
theorem appendUnit_error {key : Bool} {u : Bytes} {o : OpenSample} {d : Dmx} {e : Err}
    (ho : d.trk.opened = some o) (h : checkOpen c (o.units ++ [u]) = .error e) :
    appendUnit c key u d = .error e := by
  simp only [appendUnit, ho]
  exact bind_error.2 (.inl h)

theorem checkOpen_bytes_exceeded {us : List Bytes} (hb : c.openCap < us.flatten.length)
    (hu : us.length ≤ c.openUnitsCap) : checkOpen c us = .error (capacityError 86) := by
  rw [← unitsBytes_eq] at hb
  rw [checkOpen, if_neg (Nat.not_le.2 hb), if_pos hu, checkCap_exceeded hb]

theorem checkOpen_units_exceeded {us : List Bytes} (hb : us.flatten.length ≤ c.openCap)
    (hu : c.openUnitsCap < us.length) : checkOpen c us = .error (capacityError 87) := by
  rw [← unitsBytes_eq] at hb
  rw [checkOpen, if_pos hb, checkCap_exceeded hu]

/-- With both capacities exceeded the index is one of the two (log 4). -/
theorem checkOpen_both_exceeded {us : List Bytes} (hb : c.openCap < us.flatten.length)
    (hu : c.openUnitsCap < us.length) :
    checkOpen c us = .error (capacityError 86) ∨ checkOpen c us = .error (capacityError 87) := by
  rw [← unitsBytes_eq] at hb
  rw [checkOpen, if_neg (Nat.not_le.2 hb), if_neg (Nat.not_le.2 hu)]
  cases Config.openOverflowByUnits (unitsBytes us) us.length
  · exact .inl rfl
  · exact .inr rfl

/-- With SDATA large enough, the first unit without a VUT entry left raises 90 (46_ts_demux R390, R401). -/
theorem emitUnits_vut_exceeded {us : List Bytes} (hne : us ≠ []) {o : Outputs}
    (hv : c.vutCap < o.vut.length + us.length) (hs : o.sdata.length + us.flatten.length ≤ c.sdataCap) :
    emitUnits c us o = .error (capacityError 90) := by
  induction us generalizing o with
  | nil => exact absurd rfl hne
  | cons b rest ih =>
    simp only [List.length_cons, List.flatten_cons, List.length_append] at hv hs
    by_cases hfull : c.vutCap < o.vut.length + 1
    · exact bind_error.2 (.inl (checkCap_exceeded hfull))
    · refine bind_error.2 (.inr ⟨(), checkCap_ok.2 (by omega), ?_⟩)
      refine bind_error.2 (.inr ⟨(), checkCap_ok.2 (by omega), ?_⟩)
      refine ih ?_ ?_ ?_
      · rintro rfl
        simp only [List.length_nil] at hv
        omega
      · simp only [List.length_append, List.length_singleton]
        omega
      · simp only [List.length_append]
        omega

/-- With VUT large enough, the first unit whose bytes do not fit SDATA raises 92 (46_ts_demux R390, R401). -/
theorem emitUnits_sdata_exceeded {us : List Bytes} (hne : us ≠ []) {o : Outputs}
    (hv : o.vut.length + us.length ≤ c.vutCap) (hs : c.sdataCap < o.sdata.length + us.flatten.length) :
    emitUnits c us o = .error (capacityError 92) := by
  induction us generalizing o with
  | nil => exact absurd rfl hne
  | cons b rest ih =>
    simp only [List.length_cons, List.flatten_cons, List.length_append] at hv hs
    refine bind_error.2 (.inr ⟨(), checkCap_ok.2 (by omega), ?_⟩)
    by_cases hfull : c.sdataCap < o.sdata.length + b.length
    · exact bind_error.2 (.inl (checkCap_exceeded hfull))
    · refine bind_error.2 (.inr ⟨(), checkCap_ok.2 (by omega), ih ?_ ?_ ?_⟩)
      · rintro rfl
        simp only [List.flatten_nil, List.length_nil] at hs
        omega
      · simp only [List.length_append, List.length_singleton]
        omega
      · simp only [List.length_append]
        omega

/-- Each queue exceeded alone raises its own index, VSQ first (46_ts_demux R390, R401). -/
theorem emitVideo_exceeded (stamp : Stamp) (key : Bool) (us : List Bytes) (o : Outputs) :
    (c.vsqCap < o.vsq.length + 1 → emitVideo c stamp key us o = .error (capacityError 89)) ∧
    (o.vsq.length + 1 ≤ c.vsqCap → c.vutCap < o.vut.length + us.length → us ≠ [] →
      o.sdata.length + us.flatten.length ≤ c.sdataCap →
      emitVideo c stamp key us o = .error (capacityError 90)) ∧
    (o.vsq.length + 1 ≤ c.vsqCap → o.vut.length + us.length ≤ c.vutCap → us ≠ [] →
      c.sdataCap < o.sdata.length + us.flatten.length →
      emitVideo c stamp key us o = .error (capacityError 92)) :=
  ⟨fun hq => bind_error.2 (.inl (checkCap_exceeded hq)),
    fun hq hv hne hs => bind_error.2 (.inr ⟨(), checkCap_ok.2 hq, emitUnits_vut_exceeded hne hv hs⟩),
    fun hq hv hne hs => bind_error.2 (.inr ⟨(), checkCap_ok.2 hq, emitUnits_sdata_exceeded hne hv hs⟩)⟩

/-- Each queue exceeded alone raises its own index, ASQ first (46_ts_demux R391, R401). -/
theorem emitAudio_exceeded (pts : Word64) (b : Bytes) (n : Nat) (o : Outputs) :
    (c.asqCap < o.asq.length + 1 → emitAudio c pts b n o = .error (capacityError 91)) ∧
    (o.asq.length + 1 ≤ c.asqCap → c.sdataCap < o.sdata.length + b.length →
      emitAudio c pts b n o = .error (capacityError 92)) :=
  ⟨fun hq => bind_error.2 (.inl (checkCap_exceeded hq)),
    fun hq hs => bind_error.2 (.inr ⟨(), checkCap_ok.2 hq, bind_error.2 (.inl (checkCap_exceeded hs))⟩)⟩

end

/-! ### The calls -/

/-- The packets of a call, by their offsets (46_ts_demux R350). -/
theorem packets_eq (n : Nat) (d : Bytes) :
    packets n d = (List.range n).map fun k => slice d (188 * k) 188 := by
  induction n generalizing d with
  | zero => rfl
  | succ n ih =>
    rw [packets, ih, List.range_succ_eq_map, List.map_cons, List.map_map]
    congr 1
    refine List.map_congr_left fun k _ => ?_
    simp only [slice, List.drop_drop, Function.comp_apply]
    congr 2
    omega

/-- Packets that all start with the sync byte pass the validation (46_ts_demux R351). -/
theorem validatePackets_ok {ks : List Bytes} (h : ∀ p ∈ ks, byteAt p 0 = 0x47) (k : Nat) :
    validatePackets k ks = .ok () := by
  induction ks generalizing k with
  | nil => rfl
  | cons p rest ih =>
    rw [validatePackets, if_pos (h p List.mem_cons_self)]
    exact ih (fun q hq => h q (List.mem_cons_of_mem _ hq)) _

/-- The first byte of a slice. -/
theorem byteAt_slice {d : Bytes} {q n : Nat} {b : Byte} (h : d[q]? = some b) :
    byteAt (slice d q (n + 1)) 0 = b.toNat := by
  simp [byteAt, slice, List.getD_eq_getElem?_getD, h]

/-- Bytes whose first four agree with the signature, as far as they reach, have no mismatch (47_flv_demux R411). -/
theorem firstMismatch_none {sig d : Bytes} (h : d.take sig.length <+: sig) (i : Nat) :
    firstMismatch i sig d = none := by
  induction sig generalizing d i with
  | nil => rfl
  | cons a sig ih =>
    cases d with
    | nil => rfl
    | cons b d =>
      simp only [List.length_cons, List.take_succ_cons, List.cons_prefix_cons] at h
      rw [firstMismatch, if_pos h.1.symm]
      exact ih h.2 _

/-- The working state after the preamble (40_control R149). -/
theorem dmxOf_preamble (k : Mode) (disc contig : Bool) (s : State) :
    dmxOf (preamble k disc contig s) = { trk := if disc then Track.reset else s.trk, out := Outputs.empty } := by
  rw [preamble_eq]
  rfl

/-- Past its checks a TS_DEMUX fails as its packets do (60_exceptions R455). -/
theorem exec_tsDemux_error {disc contig : Bool} {s : State} {r : Region} {d : Bytes} {e : Err}
    (hf : s.status.fault = false) (hm : s.mode = .none ∨ s.mode = .ts) (hr : RegionIs .inp s r)
    (hd : d = tsInput disc s (regionBytes s r)) (hsync : ∀ k < d.length / 188, d[188 * k]? = some 0x47)
    (he : dispatchAll s.caps ((List.range (d.length / 188)).map fun k => slice d (188 * k) 188)
      { trk := if disc then Track.reset else s.trk, out := Outputs.empty } = .error e) :
    exec (.tsDemux disc contig) s = .next (errorPath (encode (.tsDemux disc contig)) e s) := by
  subst hd
  rw [← packets_eq, ← dmxOf_preamble .ts disc contig] at he
  have hv : validatePackets 0 (packets ((tsInput disc s (regionBytes s r)).length / 188)
      (tsInput disc s (regionBytes s r))) = .ok () := by
    refine validatePackets_ok (fun p hp => ?_) 0
    rw [packets_eq] at hp
    obtain ⟨k, hk, rfl⟩ := List.mem_map.1 hp
    exact byteAt_slice (hsync k (List.mem_range.1 hk))
  refine congrArg (finish _ s) (a₂ := .error e) ?_
  refine bind_error.2 (.inr ⟨(), checkFault_ok.2 hf, bind_error.2 (.inr ⟨(), checkMode_ok.2 hm, ?_⟩)⟩)
  refine bind_error.2 (.inr ⟨r, resolveRegion_ok.2 hr, bind_error.2 (.inr ⟨(), hv, ?_⟩)⟩)
  refine bind_error.2 (.inl ?_)
  rw [preamble_caps]
  exact he

/-- Bytes that follow the signature as far as they reach, with a header size of at least 9, are validated; and so is
any call that continues a file (47_flv_demux R410, R411). -/
theorem validateStart_ok {seen : Bool} {b : Bytes}
    (h : seen = true ∨ (b.take 4 <+: [0x46, 0x4C, 0x56, 0x01] ∧ (9 ≤ b.length → 9 ≤ beNat (slice b 5 4)))) :
    validateStart seen b = .ok () := by
  cases seen with
  | true => rfl
  | false =>
    obtain ⟨hsig, hsize⟩ := h.resolve_left Bool.false_ne_true
    rw [validateStart, if_neg Bool.false_ne_true, validateFlv,
      firstMismatch_none (sig := flvSignature) hsig]
    refine check_ok.2 ?_
    rw [Bool.or_eq_true, decide_eq_true_eq, decide_eq_true_eq]
    exact (Nat.lt_or_ge b.length 9).imp id hsize

/-- Past its checks an FLV_DEMUX fails as its tag scan does, or with the capacity of what it holds back
(47_flv_demux R440, 60_exceptions R455). -/
theorem exec_flvDemux_error {disc contig : Bool} {s : State} {r : Region} {b : Bytes} {e : Err}
    (hf : s.status.fault = false) (hm : s.mode = .none ∨ s.mode = .flv) (hr : RegionIs .inp s r)
    (hb : b = flvInput disc s (regionBytes s r)) (hv : validateStart (s.trk.flvHdr && !disc) b = .ok ())
    (he : flvBody s.caps b { trk := if disc then Track.reset else s.trk, out := Outputs.empty } = .error e ∨
      ∃ x, flvBody s.caps b { trk := if disc then Track.reset else s.trk, out := Outputs.empty } = .ok x ∧
        checkCap x.1.length s.caps.remCap 88 = .error e) :
    exec (.flvDemux disc contig) s = .next (errorPath (encode (.flvDemux disc contig)) e s) := by
  subst hb
  rw [← dmxOf_preamble .flv disc contig] at he
  refine congrArg (finish _ s) (a₂ := .error e) ?_
  refine bind_error.2 (.inr ⟨(), checkFault_ok.2 hf, bind_error.2 (.inr ⟨(), checkMode_ok.2 hm, ?_⟩)⟩)
  refine bind_error.2 (.inr ⟨r, resolveRegion_ok.2 hr, bind_error.2 (.inr ⟨(), hv, ?_⟩)⟩)
  refine bind_error.2 ?_
  simp only [preamble_caps]
  exact he.imp id fun ⟨x, hx, hc⟩ => ⟨x, hx, bind_error.2 (.inl hc)⟩

/-- Outside the fault state and FLV mode a TS_FLUSH fails with a capacity alone (46_ts_demux R400, R401). -/
theorem exec_tsFlush_error {s t : State} (hf : s.status.fault = false) (hm : s.mode = .none ∨ s.mode = .ts)
    (h : exec .tsFlush s = .next t) (herr : t.status.err ≠ 0) :
    t.status.err = errByte .capacityExceeded ∧ ∃ n ∈ packetIndices, t.errInfo = BitVec.ofNat 64 n := by
  rcases finish_cases h with ⟨s', -, rfl⟩ | ⟨e, he, rfl⟩
  · exact absurd rfl herr
  · obtain ⟨hcode, hinfo⟩ : e.code = .capacityExceeded ∧ e.info ∈ packetIndices := by
      refine FailsWith.bind (failsWith_of_ok (a := ()) (checkFault_ok.2 hf)) (fun _ => ?_) e he
      refine .bind (failsWith_of_ok (a := ()) (checkMode_ok.2 hm)) fun _ => ?_
      exact (drainPending_fails _ _ _).bind fun _ =>
        (drainPending_fails _ _ _).bind fun _ => (closeOpen_fails _ _).bind fun _ => failsWith_ok _
    exact ⟨congrArg errByte hcode, e.info, hinfo, rfl⟩

/-- Settles O46: the errors of the calls are those of their parts, each operation that exceeds one capacity raises
its index, and a call past its checks ends with the error its body gives. -/
theorem demuxErrorsAreCapacities : Obligations.DemuxErrorsAreCapacities := by
  refine ⟨fun c ks d => dispatchAll_fails c ks d, fun c b d => flvBody_fails c b d,
    ?_, ?_, ?_, ?_, ?_, ?_, ?_, ?_, ?_⟩
  · exact fun s t h hf hm herr => exec_tsFlush_error hf hm h herr
  · exact fun c st pl d d' hd h => esPacket_start_exceeded hd h
  · exact fun c st p pl d hp h => esPacket_more_exceeded hp h
  · exact fun c key u o d ho =>
      ⟨fun hb hu => appendUnit_error ho (checkOpen_bytes_exceeded hb hu),
        fun hb hu => appendUnit_error ho (checkOpen_units_exceeded hb hu),
        fun hb hu => (checkOpen_both_exceeded hb hu).imp (appendUnit_error ho) (appendUnit_error ho)⟩
  · exact fun c stamp key us o => emitVideo_exceeded stamp key us o
  · exact fun c pts b n o => emitAudio_exceeded pts b n o
  · exact fun disc contig s r d e hf hm hr hd hsync he => exec_tsDemux_error hf hm hr hd hsync he
  · intro disc contig s r b hf hm hr hb hstart
    have hv : validateStart (s.trk.flvHdr && !disc) b = .ok () :=
      validateStart_ok (hstart.imp (fun ⟨h1, h2⟩ => by rw [h1, h2]; rfl) id)
    exact ⟨fun e he => exec_flvDemux_error hf hm hr hb hv (.inl he),
      fun rest x hx hcap => exec_flvDemux_error hf hm hr hb hv (.inr ⟨(rest, x), hx, checkCap_exceeded hcap⟩)⟩
  · exact fun s => rfl

end Sys2Proof.Machine
end

section
/-! PROOFS. 10_state R32 to R34, 20_memory R86 to R96: the host's accesses. -/

namespace Sys2Proof.Machine

/-! ### Registers -/

/-- An access reaches register `i` exactly when it is an aligned one of 8 bytes at `8 * i` (20_memory R87). -/
theorem regIndex_eq_some {addr : Word32} {w : AccessWidth} {i : Nat} :
    regIndex addr w = some i ↔ w = .b8 ∧ addr.toNat = 8 * i := by
  unfold regIndex
  split
  · rename_i h
    rw [Option.some.injEq]
    exact ⟨fun hi => ⟨h.1, by omega⟩, fun hi => by omega⟩
  · rename_i h
    simp only [reduceCtorEq, false_iff]
    exact fun hi => h ⟨hi.1, by omega⟩

/-- Only ARG0 to ARG3 take a write (10_state R32, R34). -/
theorem regWrite_of_ge {i : Nat} (h : 5 ≤ i) (s : State) (v : Word64) : regWrite s i v = s := by
  obtain ⟨j, rfl⟩ := Nat.exists_eq_add_of_le' h
  rfl

/-- A register written twice is as written once (10_state R34). -/
theorem regWrite_idem (s : State) (i : Nat) (v : Word64) : regWrite (regWrite s i v) i v = regWrite s i v := by
  match i with
  | 0 | 1 | 2 | 3 | 4 => rfl
  | _ + 5 => rfl

/-- Above the last register of the map everything reads 0 (10_state R32). -/
theorem regRead_of_ge {i : Nat} (h : 95 ≤ i) (s : State) : regRead s i = 0 := by
  obtain ⟨j, rfl⟩ := Nat.exists_eq_add_of_le' h
  rfl

/-- CMD and the reserved registers read 0 (10_state R32, R33). -/
theorem regRead_reserved {k : Nat} (h : k = 0 ∨ k = 27 ∨ (36 ≤ k ∧ k ≤ 39) ∨ k = 70 ∨ k = 71 ∨
    (76 ≤ k ∧ k ≤ 79) ∨ (95 ≤ k ∧ k ≤ 511)) (s : State) : regRead s k = 0 := by
  rcases h with rfl | rfl | ⟨h1, h2⟩ | rfl | rfl | ⟨h1, h2⟩ | ⟨h1, -⟩
  · rfl
  · rfl
  · interval_cases k <;> rfl
  · rfl
  · rfl
  · interval_cases k <;> rfl
  · exact regRead_of_ge h1 s

/-! ### IN: a byte written again -/

/-- The memory lists the byte so that writing it again changes nothing. -/
abbrev Memory.Fixes (m : Memory) (a : Nat) (b : Byte) : Prop := memWrite m a b = m

/-- A byte just written is listed (20_memory R89). -/
theorem memWrite_fixes (m : Memory) (a : Nat) (b : Byte) : Memory.Fixes (memWrite m a b) a b := by
  induction m with
  | nil => simp [Memory.Fixes, memWrite]
  | cons x rest ih =>
    obtain ⟨k, d⟩ := x
    simp only [Memory.Fixes, memWrite]
    split
    · simp [memWrite]
    · split
      · simp [memWrite]
      · rename_i h1 h2
        simp only [memWrite, h1, h2, if_false]
        rw [ih]

/-- A write to another address leaves a listed byte listed. -/
theorem Memory.Fixes.memWrite {m : Memory} {a a' : Nat} {b b' : Byte} (h : m.Fixes a b) (hne : a ≠ a') :
    Memory.Fixes (memWrite m a' b') a b := by
  induction m with
  | nil => cases h
  | cons x rest ih =>
    obtain ⟨k, d⟩ := x
    rcases Nat.lt_trichotomy a k with hak | rfl | hka
    · simp only [Fixes, Machine.memWrite, if_pos hak, List.cons.injEq, Prod.mk.injEq] at h
      exact absurd h.1.1 hak.ne
    · have hd : b = d := by simpa [Fixes, Machine.memWrite] using h
      subst hd
      rcases Nat.lt_or_gt_of_ne hne with hlt | hgt
      · simp [Fixes, Machine.memWrite, hlt.not_gt, hne.symm]
      · simp [Fixes, Machine.memWrite, hgt, hgt.not_gt, hne]
    · have hrest : Fixes rest a b := by
        simpa [Fixes, Machine.memWrite, hka.not_gt, hka.ne'] using h
      rcases Nat.lt_trichotomy a' k with h' | rfl | h'
      · simp [Fixes, Machine.memWrite, h', (h'.trans hka).not_gt, hne, hka.not_gt, hka.ne',
          show Machine.memWrite rest a b = rest from hrest]
      · simpa [Fixes, Machine.memWrite, hka.not_gt, hka.ne'] using hrest
      · simpa [Fixes, Machine.memWrite, h'.not_gt, h'.ne', hka.not_gt, hka.ne'] using ih hrest

/-- The state in which a byte write of the host changes nothing more. -/
abbrev State.Fixes (s : State) (x : Nat × Byte) : Prop := writeWindowByte s x.1 x.2 = s

/-- A byte write is idempotent (20_memory R88, R89). -/
theorem writeWindowByte_fixes (s : State) (x : Nat × Byte) : (writeWindowByte s x.1 x.2).Fixes x := by
  by_cases h : x.1 / 2 ^ 24 = 1 ∧ x.1 % 2 ^ 24 < s.caps.inCap
  · simp only [State.Fixes, writeWindowByte, if_pos h, memWrite_fixes s.inMem (x.1 % 2 ^ 24) x.2]
  · simp only [State.Fixes, writeWindowByte, if_neg h]

/-- A byte write at another address is no obstacle: inside IN the offsets differ as the addresses do. -/
theorem State.Fixes.writeWindowByte {s : State} {x y : Nat × Byte} (h : s.Fixes x) (hne : x.1 ≠ y.1) :
    (writeWindowByte s y.1 y.2).Fixes x := by
  by_cases hx : x.1 / 2 ^ 24 = 1 ∧ x.1 % 2 ^ 24 < s.caps.inCap
  · by_cases hy : y.1 / 2 ^ 24 = 1 ∧ y.1 % 2 ^ 24 < s.caps.inCap
    · simp only [Fixes, Machine.writeWindowByte, if_pos hx, if_pos hy] at h ⊢
      have hm : Memory.Fixes s.inMem (x.1 % 2 ^ 24) x.2 := congrArg State.inMem h
      rw [hm.memWrite (by omega)]
    · simpa only [Machine.writeWindowByte, if_neg hy] using h
  · by_cases hy : y.1 / 2 ^ 24 = 1 ∧ y.1 % 2 ^ 24 < s.caps.inCap
    · simp only [Fixes, Machine.writeWindowByte, if_pos hy, if_neg hx]
    · simpa only [Machine.writeWindowByte, if_neg hy] using h

/-! ### Accesses byte by byte -/

/-- The byte writes of an access, first to last. -/
abbrev byteWrites (addr : Word32) (w : AccessWidth) (v : Word64) : List (Nat × Byte) :=
  (accessAddrs addr (widthBytes w)).zip (leBytes (widthBytes w) v.toNat)

/-- Byte writes that each change nothing change nothing together. -/
theorem foldl_writes_fixed {xs : List (Nat × Byte)} {s : State} (h : ∀ x ∈ xs, s.Fixes x) :
    xs.foldl (fun s x => writeWindowByte s x.1 x.2) s = s :=
  List.foldlRecOn (motive := (· = s)) xs _ rfl fun _ ht x hx => by rw [ht]; exact h x hx

/-- After byte writes at different addresses none of them changes anything more. -/
theorem foldl_writes_fixes {xs : List (Nat × Byte)} (hxs : xs.Pairwise fun x y => x.1 ≠ y.1) (s : State) :
    ∀ x ∈ xs, (xs.foldl (fun s x => writeWindowByte s x.1 x.2) s).Fixes x := by
  induction xs generalizing s with
  | nil => exact List.forall_mem_nil _
  | cons y rest ih =>
    obtain ⟨hy, hrest⟩ := List.pairwise_cons.1 hxs
    refine List.forall_mem_cons.2 ⟨?_, ih hrest _⟩
    exact List.foldlRecOn (motive := fun t : State => t.Fixes y) rest _ (writeWindowByte_fixes s y)
      fun t ht x hx => ht.writeWindowByte (hy x hx)

@[simp] theorem length_leBytes (n v : Nat) : (leBytes n v).length = n := by
  induction n generalizing v with
  | zero => rfl
  | succ n ih => simp [leBytes, ih]

theorem widthBytes_le (w : AccessWidth) : widthBytes w ≤ 8 := by
  cases w <;> decide

/-- The addresses of an access are pairwise different, also where it wraps (log 15). -/
theorem accessAddrs_nodup (addr : Word32) {n : Nat} (hn : n ≤ 8) : (accessAddrs addr n).Nodup := by
  refine List.Nodup.map_on (fun j hj k hk h => ?_) List.nodup_range
  rw [List.mem_range] at hj hk
  rw [BitVec.toNat_add, BitVec.toNat_add, BitVec.toNat_ofNat, BitVec.toNat_ofNat] at h
  omega

theorem byteWrites_pairwise (addr : Word32) (w : AccessWidth) (v : Word64) :
    (byteWrites addr w v).Pairwise fun x y => x.1 ≠ y.1 := by
  refine List.pairwise_map.1 ?_
  rw [List.map_fst_zip (by simp [accessAddrs])]
  exact accessAddrs_nodup addr (widthBytes_le w)

/-- An access written twice is as written once (20_memory R87, R89). -/
theorem writeWindow_idem (s : State) (addr : Word32) (w : AccessWidth) (v : Word64) :
    writeWindow (writeWindow s addr w v) addr w v = writeWindow s addr w v :=
  foldl_writes_fixed (foldl_writes_fixes (byteWrites_pairwise addr w v) s)

/-- Above IN no byte takes a write (20_memory R88). -/
theorem writeWindow_above {addr : Word32} (h1 : 2 ^ 25 ≤ addr.toNat) (h2 : addr.toNat + 8 ≤ 2 ^ 32) (s : State)
    (w : AccessWidth) (v : Word64) : writeWindow s addr w v = s := by
  refine foldl_writes_fixed fun x hx => if_neg ?_
  obtain ⟨k, hk, hx⟩ := List.mem_map.1 (List.of_mem_zip hx).1
  have hw := widthBytes_le w
  rw [List.mem_range] at hk
  rw [BitVec.toNat_add, BitVec.toNat_ofNat] at hx
  omega

/-- A write outside REG changes IN alone (20_memory R88). -/
theorem writeWindow_frame (s : State) (addr : Word32) (w : AccessWidth) (v : Word64) :
    writeWindow s addr w v = { s with inMem := (writeWindow s addr w v).inMem } := by
  refine List.foldlRecOn (motive := fun t : State => t = { s with inMem := t.inMem }) _ _ rfl fun t ht x _ => ?_
  unfold writeWindowByte
  split
  · rw [ht]
  · exact ht

/-! ### Serving an access -/

/-- A write to CMD runs its word, bits [63:32] ignored (10_state R34). -/
theorem serve_write_cmd {addr : Word32} {w : AccessWidth} (hr : inReg addr = true)
    (hi : regIndex addr w = some 0) (v : Word64) (s : State) :
    serve (.write addr w v) s = runWord (v.setWidth 32) s := by
  simp only [serve, if_pos hr, hi]

/-- A write of a register other than CMD (10_state R32). -/
theorem serve_write_reg {addr : Word32} {w : AccessWidth} {i : Nat} (hr : inReg addr = true)
    (hi : regIndex addr w = some i) (h0 : i ≠ 0) (v : Word64) (s : State) :
    serve (.write addr w v) s = .next (regWrite s i v) := by
  obtain ⟨j, rfl⟩ := Nat.exists_eq_succ_of_ne_zero h0
  simp only [serve, if_pos hr, hi]

/-- A write to REG that reaches no register is ignored whole (20_memory R87, log 5). -/
theorem serve_write_misaligned {addr : Word32} {w : AccessWidth} (hr : inReg addr = true)
    (hi : regIndex addr w = none) (v : Word64) (s : State) : serve (.write addr w v) s = .next s := by
  simp only [serve, if_pos hr, hi]

/-- A write outside REG (20_memory R88). -/
theorem serve_write_window {addr : Word32} (hr : inReg addr = false) (w : AccessWidth) (v : Word64) (s : State) :
    serve (.write addr w v) s = .next (writeWindow s addr w v) := by
  simp only [serve, hr, Bool.false_eq_true, if_false]

/-- Register 0 is CMD, at address 0 (10_state R34). -/
theorem regIndex_zero {addr : Word32} {w : AccessWidth} : regIndex addr w = some 0 ↔ addr = 0 ∧ w = .b8 := by
  rw [regIndex_eq_some, and_comm, Nat.mul_zero, ← BitVec.toNat_inj]
  rfl

/-- The three kinds of write that are none to CMD, each known from the address and the width alone. -/
theorem serve_write_cases {addr : Word32} {w : AccessWidth} (h : ¬ (addr = 0 ∧ w = .b8)) (v : Word64) :
    (∃ i, ∀ s, serve (.write addr w v) s = .next (regWrite s i v)) ∨
      (∀ s, serve (.write addr w v) s = .next s) ∨
      ∀ s, serve (.write addr w v) s = .next (writeWindow s addr w v) := by
  cases hr : inReg addr with
  | false => exact .inr (.inr (serve_write_window hr w v))
  | true =>
    cases hi : regIndex addr w with
    | none => exact .inr (.inl (serve_write_misaligned hr hi v))
    | some i =>
      refine .inl ⟨i, serve_write_reg hr hi ?_ v⟩
      rintro rfl
      exact h (regIndex_zero.1 hi)

/-- A write other than to CMD done twice is as done once (20_memory R96). -/
theorem serve_write_idem {addr : Word32} {w : AccessWidth} {v : Word64} {s t : State}
    (h : ¬ (addr = 0 ∧ w = .b8)) (hs : serve (.write addr w v) s = .next t) :
    serve (.write addr w v) t = .next t := by
  rcases serve_write_cases h v with ⟨i, he⟩ | he | he
  · cases (he s).symm.trans hs
    rw [he, regWrite_idem]
  · exact he t
  · cases (he s).symm.trans hs
    rw [he, writeWindow_idem]

/-- A write to REG that reaches neither CMD nor ARG0 to ARG3 changes nothing (10_state R32, 20_memory R87). -/
theorem serve_write_ignored {addr : Word32} {w : AccessWidth} (hr : addr.toNat < 2 ^ 24)
    (h : w ≠ .b8 ∨ addr.toNat % 8 ≠ 0 ∨ 40 ≤ addr.toNat) (v : Word64) (s : State) :
    serve (.write addr w v) s = .next s := by
  have hr : inReg addr = true := decide_eq_true hr
  cases hi : regIndex addr w with
  | none => exact serve_write_misaligned hr hi v s
  | some i =>
    obtain ⟨hw, ha⟩ := regIndex_eq_some.1 hi
    have hge : 5 ≤ i := by
      rcases h with h | h | h
      · exact absurd hw h
      · omega
      · omega
    rw [serve_write_reg hr hi (by omega), regWrite_of_ge hge]

/-- An access that reaches a register reads it (20_memory R87). -/
theorem busRead_reg {addr : Word32} {w : AccessWidth} {i : Nat} (hr : addr.toNat < 2 ^ 24)
    (hi : regIndex addr w = some i) (s : State) : busRead s addr w = regRead s i := by
  simp only [busRead, inReg, hr, decide_true, if_true, hi]

/-- A read of REG that is misaligned or beyond index 511 gives 0 (20_memory R87, R88). -/
theorem busRead_ignored {addr : Word32} {w : AccessWidth} (hr : addr.toNat < 2 ^ 24)
    (h : w ≠ .b8 ∨ addr.toNat % 8 ≠ 0 ∨ 4096 ≤ addr.toNat) (s : State) : busRead s addr w = 0 := by
  cases hi : regIndex addr w with
  | none => simp only [busRead, inReg, hr, decide_true, if_true, hi]
  | some i =>
    obtain ⟨hw, ha⟩ := regIndex_eq_some.1 hi
    rw [busRead_reg hr hi]
    refine regRead_of_ge ?_ s
    rcases h with h | h | h
    · exact absurd hw h
    · omega
    · omega

/-- Settles O56: writes byte by byte and register by register are idempotent, and an access that reaches no byte of
IN and no register of the map does nothing. -/
theorem hostAccesses : Obligations.HostAccesses := by
  refine ⟨fun _ _ _ => rfl, fun _ _ _ _ _ h hs => serve_write_idem h hs,
    fun s _ _ v hr h => serve_write_ignored hr h v s, fun s _ _ hr h => busRead_ignored hr h s, ?_, ?_⟩
  · intro s k hk
    have hk511 : k ≤ 511 := by omega
    have ha : (BitVec.ofNat 32 (8 * k)).toNat = 8 * k := by
      rw [BitVec.toNat_ofNat]
      omega
    rw [busRead_reg (by omega) (regIndex_eq_some.2 ⟨rfl, ha⟩), regRead_reserved hk]
  · intro s addr w v h1 h2
    have hr : inReg addr = false := decide_eq_false (by omega)
    rw [serve_write_window hr, writeWindow_above h1 h2]

end Sys2Proof.Machine
end

section
/-! PROOFS. 10_state R34, 30_encoding R118: a step whose access is a write to CMD runs the decoded command. -/

namespace Sys2Proof.Machine

/-- No two rows share an opcode (30_encoding R116). -/
theorem find_row {r : OpRow} (h : r ∈ opRows) : opRows.find? (fun q => q.opc == r.opc) = some r := by
  obtain ⟨k, hk, rfl⟩ := List.mem_iff_getElem.1 h
  have hk : k < 25 := hk
  interval_cases k <;> rfl

/-- The word of a well-formed command decodes to what the row of its opcode builds, when its SP is legal
(30_encoding R118): that its fixed bits are the row's is a law of the encoder. -/
theorem decode_mkWord {i : Instr} {opc : BitVec 8} {sp fl : BitVec 4} {imm : BitVec 16} {r : OpRow}
    (he : encode i = mkWord opc sp fl imm) (hm : Laws.RowMatch.Statement i)
    (hrow : opRows.find? (fun q => q.opc == opc) = some r) (hsp : sp.toNat ≤ r.maxSp)
    (hbuild : r.build (mkWord opc sp fl imm) = i) (hwf : i.wellFormed = true) : decode (encode i) = .ok i := by
  obtain ⟨hopc, hspf, -, -⟩ := Laws.mkWord_fields opc sp fl imm
  obtain ⟨q, hq, hqo, hfixed⟩ := hm
  rw [he] at hqo hfixed ⊢
  obtain rfl : q = r := Option.some.inj ((find_row hq).symm.trans (by rw [← hqo, hopc, hrow]))
  rw [← hspf] at hsp
  simp only [decode, hopc, hrow, Nat.not_lt.2 hsp, hfixed, hbuild, hwf, if_false, if_true, ne_eq,
    not_true_eq_false]

/-- A narrow immediate stands in IMM with zeros above it (30_encoding R114). -/
theorem immField_mkWord {n : Nat} (hn : n ≤ 16) (opc : BitVec 8) (sp fl : BitVec 4) (x : BitVec n) :
    (immField (mkWord opc sp fl (x.setWidth 16))).setWidth n = x := by
  rw [(Laws.mkWord_fields opc sp fl _).2.2.2, BitVec.setWidth_setWidth_of_le _ hn, BitVec.setWidth_eq]

/-- The selector of a word built from it (30_encoding R112). -/
theorem selOf_mkWord (opc : BitVec 8) (sp : RegionSel) (fl : BitVec 4) (imm : BitVec 16) :
    selOf (mkWord opc (selCode sp) fl imm) = sp := by
  rw [selOf, (Laws.mkWord_fields opc (selCode sp) fl imm).2.1]
  cases sp <;> rfl

/-- The word of a well-formed command decodes to it (30_encoding R110 to R118). The commands with a selector or
flags are finitely many words; those with an immediate give it back from IMM. -/
theorem decode_encode_of_wellFormed {i : Instr} (h : i.wellFormed = true) : decode (encode i) = .ok i := by
  cases i with
  | nop | reset | trackReset | readUe | skipUe | readSe | skipSe | tsFlush => rfl
  | brInit sp | epbRemove sp | avcSpsParse sp | hevcSpsParse sp | avccParse sp | hvccParse sp | aacAscParse sp
  | adtsParse sp | mpaHdrParse sp | mpaScan sp => cases sp <;> rfl
  | splitAnnexb sp b => cases sp <;> cases b <;> rfl
  | tsDemux a b | flvDemux a b => cases a <;> cases b <;> rfl
  | readBits n =>
    exact decode_mkWord rfl (Laws.RowMatch.readBits n) (r := opRows[4]) rfl (Nat.le_refl 0)
      (congrArg Instr.readBits (immField_mkWord (by decide) _ _ _ n)) h
  | skipBits n =>
    exact decode_mkWord rfl (Laws.RowMatch.skipBits n) (r := opRows[5]) rfl (Nat.le_refl 0)
      (congrArg Instr.skipBits (Laws.mkWord_fields _ _ _ n).2.2.2) h
  | skipScalingList n =>
    exact decode_mkWord rfl (Laws.RowMatch.skipScalingList n) (r := opRows[10]) rfl (Nat.le_refl 0)
      (congrArg Instr.skipScalingList (immField_mkWord (by decide) _ _ _ n)) h
  | splitLenpfx sp n =>
    exact decode_mkWord rfl (Laws.RowMatch.splitLenpfx sp n) (r := opRows[12]) rfl (by cases sp <;> decide)
      (congrArg₂ Instr.splitLenpfx (selOf_mkWord _ sp _ _) (immField_mkWord (by decide) _ _ _ n)) h

/-- The oldest pending access is served on the state without it (20_memory R90). -/
theorem step_cons {s : State} {a : HostAccess} {rest : List HostAccess} (h : s.bus = a :: rest) :
    step s = serve a { s with bus := rest } := by
  simp only [step, h]

/-- A write to CMD runs its word on the state with the access removed (10_state R34, 20_memory R90). -/
theorem step_write_cmd {s : State} {v : Word64} {rest : List HostAccess}
    (h : s.bus = .write 0 .b8 v :: rest) : step s = runWord (v.setWidth 32) { s with bus := rest } := by
  rw [step_cons h, serve_write_cmd (by decide) (by decide)]

/-- A word that decodes runs its command (30_encoding R118). -/
theorem runWord_of_decode {w : Word32} {i : Instr} (h : decode w = .ok i) (s : State) :
    runWord w s = exec i s := by
  simp only [runWord, h]

/-- The state that holds a command's word as its next access steps as the command (log 1). -/
theorem step_withFetchWord {i : Instr} (h : i.wellFormed = true) (s : State) :
    step (s.withFetchWord 32 (encode i).toNat) = exec i s := by
  have hw : BitVec.ofNat 32 ((encode i).toNat % 2 ^ 32) = encode i := by
    rw [Nat.mod_eq_of_lt (encode i).isLt, BitVec.ofNat_toNat, BitVec.setWidth_eq]
  have hcmd : ((encode i).setWidth 64).setWidth 32 = encode i := by
    rw [BitVec.setWidth_setWidth_of_le _ (by decide), BitVec.setWidth_eq]
  rw [step_write_cmd (v := (encode i).setWidth 64) (rest := s.bus) (by rw [State.withFetchWord, hw]; rfl), hcmd,
    runWord_of_decode (decode_encode_of_wellFormed h)]
  rfl

/-- A write of a register other than CMD changes the operand registers alone (10_state R34). -/
theorem regWrite_frame (s : State) (i : Nat) (v : Word64) :
    ∃ a b c d, regWrite s i v = { s with arg0 := a, arg1 := b, arg2 := c, arg3 := d } := by
  unfold regWrite
  split <;> exact ⟨_, _, _, _, rfl⟩

/-- An access that is no write to CMD changes busData, IN and the operand registers alone (20_memory R96). -/
theorem serve_frame {a : HostAccess} (h : ∀ v, a ≠ .write 0 .b8 v) (s : State) :
    ∃ x m a0 a1 a2 a3, serve a s =
      .next { s with busData := x, inMem := m, arg0 := a0, arg1 := a1, arg2 := a2, arg3 := a3 } := by
  cases a with
  | read addr w => exact ⟨_, s.inMem, s.arg0, s.arg1, s.arg2, s.arg3, rfl⟩
  | write addr w v =>
    have hne : ¬ (addr = 0 ∧ w = .b8) := by
      rintro ⟨rfl, rfl⟩
      exact h v rfl
    rcases serve_write_cases hne v with ⟨i, he⟩ | he | he
    · obtain ⟨a0, a1, a2, a3, hf⟩ := regWrite_frame s i v
      exact ⟨s.busData, s.inMem, a0, a1, a2, a3, by rw [he, hf]⟩
    · exact ⟨s.busData, s.inMem, s.arg0, s.arg1, s.arg2, s.arg3, he s⟩
    · exact ⟨s.busData, _, s.arg0, s.arg1, s.arg2, s.arg3, by rw [he, writeWindow_frame]⟩

/-- Settles O7: a write to CMD runs the command its word decodes to, and the word of a command decodes to it; any
other access has a frame of its own. -/
theorem stepRunsDecodedCommand : Obligations.StepRunsDecodedCommand := by
  refine ⟨?_, fun s i h => step_withFetchWord h s, ?_, ?_⟩
  · intro s v rest i hb hd
    rw [step_write_cmd hb, runWord_of_decode hd]
  · intro s a rest hb hne
    obtain ⟨x, m, a0, a1, a2, a3, he⟩ := serve_frame hne { s with bus := rest }
    exact ⟨_, (step_cons hb).trans he, rfl, rfl, rfl, rfl, rfl, rfl, rfl, rfl⟩
  · intro s hb
    simp only [step, hb]

end Sys2Proof.Machine
end

section
/-! PROOFS. 20_memory R83 to R85: a region operand out of bounds. -/

namespace Sys2Proof.Machine

/-- `resolve_region()` without a region in bounds raises REGION_OUT_OF_BOUNDS(ARG0) (20_memory R85). -/
theorem resolveRegion_of_not_regionIs {sp : RegionSel} {s : State} (h : ∀ r, ¬ RegionIs sp s r) :
    resolveRegion sp s = .error { code := .regionOutOfBounds, info := s.arg0.toNat } := by
  cases hr : resolveRegion sp s with
  | ok r => exact absurd (resolveRegion_ok.1 hr) (h r)
  | error e => rw [resolveRegion_error hr]

/-- A region of IN that ends beyond IN_CAP is none in bounds (20_memory R83). -/
theorem not_regionIs_inp {s : State} (h : s.caps.inCap < s.arg0.toNat + s.arg1.toNat) (r : Region) :
    ¬ RegionIs .inp s r := by
  rintro ⟨hr, hb⟩
  cases hr
  exact absurd h (Nat.not_lt.2 hb)

/-- A region of RBSP that ends beyond its last byte is none in bounds (20_memory R83). -/
theorem not_regionIs_rbsp {s : State} (h : s.rbsp.length < s.arg0.toNat + s.arg1.toNat) (r : Region) :
    ¬ RegionIs .rbsp s r := by
  rintro ⟨hr, hb⟩
  cases hr
  exact absurd h (Nat.not_lt.2 hb)

/-- A DT index at or beyond DT_CNT, or an entry that ends beyond its space, names no region in bounds
(20_memory R84, R85). -/
theorem not_regionIs_dt {s : State} (h : s.dt.length ≤ s.arg0.toNat ∨
    ∃ e, s.dt[s.arg0.toNat]? = some e ∧ spaceSize s e.space < e.off.toNat + e.len.toNat) (r : Region) :
    ¬ RegionIs .dt s r := by
  rintro ⟨hr, hb⟩
  obtain ⟨e, he, rfl⟩ := Option.map_eq_some_iff.1 hr
  rcases h with h | ⟨e', he', h⟩
  · rw [List.getElem?_eq_none h] at he
    cases he
  · cases he.symm.trans he'
    exact absurd h (Nat.not_lt.2 hb)

/-- A command with a selected region resolves it first (60_exceptions R453). -/
theorem exec_regionOf_error {i : Instr} {sp : RegionSel} {s : State} {e : Err} (hi : regionOf i = some sp)
    (he : resolveRegion sp s = .error e) : exec i s = .next (errorPath (encode i) e s) := by
  cases i with
  | nop | reset | trackReset | readBits _ | skipBits _ | readUe | skipUe | readSe | skipSe | skipScalingList _
  | tsDemux _ _ | tsFlush | flvDemux _ _ => cases hi
  | brInit _ | splitAnnexb _ _ | splitLenpfx _ _ | epbRemove _ | avcSpsParse _ | hevcSpsParse _ | avccParse _
  | hvccParse _ | aacAscParse _ | adtsParse _ | mpaHdrParse _ | mpaScan _ =>
    cases hi
    exact congrArg (finish _ s) (bind_error.2 (.inl he))

/-- TS_DEMUX and FLV_DEMUX resolve their region of IN after the checks of the fault state and of MODE
(60_exceptions R453). -/
theorem exec_demux_region_error {i : Instr} {k : Mode} {s : State} {e : Err} (hi : callMode i = some k)
    (hn : i ≠ .tsFlush) (hf : s.status.fault = false) (hm : s.mode = .none ∨ s.mode = k)
    (he : resolveRegion .inp s = .error e) : exec i s = .next (errorPath (encode i) e s) := by
  have hfault : checkFault s = .ok () := checkFault_ok.2 hf
  have hmode : checkMode k s = .ok () := checkMode_ok.2 hm
  cases i with
  | tsFlush => exact absurd rfl hn
  | tsDemux _ _ | flvDemux _ _ =>
    cases hi
    exact congrArg (finish _ s)
      (bind_error.2 (.inr ⟨(), hfault, bind_error.2 (.inr ⟨(), hmode, bind_error.2 (.inl he)⟩)⟩))
  | _ => cases hi

/-- Settles O13: where no region is in bounds `resolve_region()` raises, and every command with a region operand
ends with what it raises. -/
theorem regionOutOfBounds : Obligations.RegionOutOfBounds := by
  refine ⟨fun i sp s hi h => exec_regionOf_error hi (resolveRegion_of_not_regionIs ?_),
    fun i k s hi hn hf hm h =>
      exec_demux_region_error hi hn hf hm (resolveRegion_of_not_regionIs (not_regionIs_inp h))⟩
  cases sp with
  | inp => exact not_regionIs_inp h
  | rbsp => exact not_regionIs_rbsp h
  | dt => exact not_regionIs_dt h

end Sys2Proof.Machine
end

section
/-! PROOFS. 20_memory R82, R86 to R89: an access outside REG, byte by byte, and IN. -/

namespace Sys2Proof.Machine

/-! ### Little-endian numbers (20_memory R82) -/

/-- Byte `j` of a little-endian number. -/
theorem getElem?_leBytes {n j : Nat} (h : j < n) (v : Nat) :
    (leBytes n v)[j]? = some (BitVec.ofNat 8 (v / 256 ^ j)) := by
  induction n generalizing j v with
  | zero => exact absurd h (Nat.not_lt_zero j)
  | succ n ih =>
    cases j with
    | zero => simp [leBytes]
    | succ j =>
      rw [leBytes, List.getElem?_cons_succ, ih (Nat.lt_of_succ_lt_succ h), Nat.div_div_eq_div_mul, Nat.pow_succ']

/-- A number is read back from its bytes, as far as they reach. -/
theorem leNat_leBytes (n v : Nat) : leNat (leBytes n v) = v % 256 ^ n := by
  induction n generalizing v with
  | zero => simp [leBytes, leNat, Nat.mod_one]
  | succ n ih => rw [leBytes, leNat, ih, BitVec.toNat_ofNat, Nat.pow_succ' (m := 256), Nat.mod_mul]

/-! ### Accesses that do not wrap (20_memory R86, R87) -/

/-- The addresses of an access rise by one from the first. -/
theorem accessAddrs_ofNat {a n : Nat} (h : a + n ≤ 2 ^ 32) :
    accessAddrs (BitVec.ofNat 32 a) n = List.range' a n := by
  rw [accessAddrs, List.range'_eq_map_range]
  refine List.map_congr_left fun k hk => ?_
  rw [List.mem_range] at hk
  rw [BitVec.toNat_add, BitVec.toNat_ofNat, BitVec.toNat_ofNat]
  omega

/-- An address past the first window is none of REG (20_memory R86). -/
theorem inReg_ofNat {a : Nat} (hlo : 2 ^ 24 ≤ a) (hhi : a < 2 ^ 32) : inReg (BitVec.ofNat 32 a) = false := by
  rw [inReg, BitVec.toNat_ofNat, Nat.mod_eq_of_lt hhi]
  exact decide_eq_false (Nat.not_lt.2 hlo)

theorem widthBytes_pos (w : AccessWidth) : 0 < widthBytes w := by
  cases w <;> decide

/-- A read outside REG gives the number whose bytes the windows show from its address on (20_memory R82, R87). -/
theorem busRead_ofNat {s : State} {a : Nat} {w : AccessWidth} {v : Nat} (hlo : 2 ^ 24 ≤ a)
    (hhi : a + widthBytes w ≤ 2 ^ 32)
    (hb : ∀ j < widthBytes w, windowByte s (a + j) = BitVec.ofNat 8 (v / 256 ^ j)) :
    busRead s (BitVec.ofNat 32 a) w = BitVec.ofNat 64 (v % 256 ^ widthBytes w) := by
  have hw := widthBytes_pos w
  have hbytes : (List.range' a (widthBytes w)).map (windowByte s) = leBytes (widthBytes w) v := by
    refine List.ext_getElem? fun j => ?_
    rcases Nat.lt_or_ge j (widthBytes w) with hj | hj
    · rw [getElem?_leBytes hj, List.getElem?_map, List.getElem?_range' hj, Option.map_some, Nat.one_mul, hb j hj]
    · rw [List.getElem?_eq_none (by simpa using hj), List.getElem?_eq_none (by simpa using hj)]
  rw [busRead, inReg_ofNat hlo (by omega), if_neg Bool.false_ne_true, accessAddrs_ofNat hhi, hbytes,
    leNat_leBytes]

/-- A read of one byte outside REG (20_memory R87). -/
theorem busRead_byte {s : State} {a : Nat} (hlo : 2 ^ 24 ≤ a) (hhi : a < 2 ^ 32) :
    busRead s (BitVec.ofNat 32 a) .b1 = (windowByte s a).setWidth 64 := by
  have hb : ∀ j < widthBytes .b1, windowByte s (a + j) = BitVec.ofNat 8 ((windowByte s a).toNat / 256 ^ j) := by
    intro j hj
    obtain rfl : j = 0 := Nat.lt_one_iff.1 hj
    rw [Nat.pow_zero, Nat.div_one, BitVec.ofNat_toNat, BitVec.setWidth_eq, Nat.add_zero]
  rw [busRead_ofNat (w := .b1) hlo hhi hb, Nat.mod_eq_of_lt (b := 256 ^ widthBytes .b1) (windowByte s a).isLt,
    BitVec.ofNat_toNat]

/-! ### IN (20_memory R89) -/

/-- The window and the offset in it of an address (20_memory R86). -/
theorem window_address {base n off : Nat} (hbase : base = 2 ^ 24 * n) (h : off < 2 ^ 24) :
    (base + off) / 2 ^ 24 = n ∧ (base + off) % 2 ^ 24 = off :=
  ⟨by omega, by omega⟩

/-- A byte of IN as the host reads it. -/
theorem windowByte_inp {s : State} {off : Nat} (h : off < s.caps.inCap) (hcap : s.caps.inCap ≤ 2 ^ 24) :
    windowByte s (2 ^ 24 + off) = memByte s.inMem off := by
  obtain ⟨hwin, hoff⟩ := window_address (base := 2 ^ 24) (n := 1) rfl (Nat.lt_of_lt_of_le h hcap)
  simp only [windowByte, hwin, hoff, if_pos h]

/-- A byte write inside IN. -/
theorem writeWindowByte_inp {s : State} {off : Nat} (h : off < s.caps.inCap) (hcap : s.caps.inCap ≤ 2 ^ 24)
    (b : Byte) : writeWindowByte s (2 ^ 24 + off) b = { s with inMem := memWrite s.inMem off b } := by
  obtain ⟨hwin, hoff⟩ := window_address (base := 2 ^ 24) (n := 1) rfl (Nat.lt_of_lt_of_le h hcap)
  rw [writeWindowByte, hwin, hoff, if_pos ⟨rfl, h⟩]

/-- After byte writes at rising offsets inside IN, the byte at an address is the one written there, if one was. -/
theorem memByte_foldl_writes {bs : Bytes} {s : State} {off : Nat} (h : off + bs.length ≤ s.caps.inCap)
    (hcap : s.caps.inCap ≤ 2 ^ 24) (a : Nat) :
    memByte (((List.range' (2 ^ 24 + off) bs.length).zip bs).foldl
      (fun s x => writeWindowByte s x.1 x.2) s).inMem a =
      if a < off then memByte s.inMem a else bs[a - off]?.getD (memByte s.inMem a) := by
  induction bs generalizing s off with
  | nil => simp
  | cons b bs ih =>
    rw [List.length_cons] at h
    rw [List.length_cons, List.range'_succ, List.zip_cons_cons, List.foldl_cons,
      writeWindowByte_inp (by omega) hcap, Nat.add_assoc,
      ih (s := { s with inMem := memWrite s.inMem off b }) (show off + 1 + bs.length ≤ s.caps.inCap by omega) hcap]
    rcases Nat.lt_trichotomy a off with ha | rfl | ha
    · rw [if_pos (by omega), if_pos ha, memByte_memWrite_other _ (by omega)]
    · rw [if_pos (by omega), if_neg (by omega), memByte_memWrite_self, Nat.sub_self, List.getElem?_cons_zero,
        Option.getD_some]
    · obtain ⟨d, rfl⟩ := Nat.exists_eq_add_of_lt ha
      rw [if_neg (by omega), if_neg (by omega), memByte_memWrite_other _ (by omega),
        show off + d + 1 - off = d + 1 by omega, show off + d + 1 - (off + 1) = d by omega,
        List.getElem?_cons_succ]

/-- What a write inside IN leaves at each address (20_memory R82, R87). -/
theorem memByte_writeWindow {s : State} {off : Nat} {w : AccessWidth} (h : off + widthBytes w ≤ s.caps.inCap)
    (hcap : s.caps.inCap ≤ 2 ^ 24) (v : Word64) (a : Nat) :
    memByte (writeWindow s (BitVec.ofNat 32 (2 ^ 24 + off)) w v).inMem a =
      if a < off then memByte s.inMem a
      else (leBytes (widthBytes w) v.toNat)[a - off]?.getD (memByte s.inMem a) := by
  have hlen : (leBytes (widthBytes w) v.toNat).length = widthBytes w := length_leBytes _ _
  rw [← memByte_foldl_writes (by rwa [hlen]) hcap a, writeWindow, accessAddrs_ofNat (by omega), hlen]

/-- Settles O57: the bytes that a write leaves at each address of IN are those that a read puts together. -/
theorem inReadsBack : Obligations.InReadsBack := by
  intro s off w v h hcap
  have hw := widthBytes_pos w
  have hbyte := memByte_writeWindow h hcap v
  have hframe := writeWindow_frame s (BitVec.ofNat 32 (2 ^ 24 + off)) w v
  have hserve := serve_write_window (inReg_ofNat (a := 2 ^ 24 + off) (by omega) (by omega)) w v s
  generalize writeWindow s (BitVec.ofNat 32 (2 ^ 24 + off)) w v = t at hbyte hframe hserve
  have hcaps : t.caps = s.caps := by rw [hframe]
  have hnew : ∀ k < widthBytes w, memByte t.inMem (off + k) = BitVec.ofNat 8 (v.toNat / 256 ^ k) := by
    intro k hk
    rw [hbyte, if_neg (by omega), Nat.add_sub_cancel_left, getElem?_leBytes hk, Option.getD_some]
  refine ⟨t, hserve, hframe, ?_, hnew, ?_⟩
  · refine busRead_ofNat (by omega) (by omega) fun j hj => ?_
    rw [Nat.add_assoc, windowByte_inp (by rw [hcaps]; omega) (by rwa [hcaps]), hnew j hj]
  · intro a ha
    rw [hbyte]
    split
    · rfl
    · rw [List.getElem?_eq_none (by rw [length_leBytes]; omega), Option.getD_none]

end Sys2Proof.Machine
end

section
/-! PROOFS. 70 R490: the power-on values. -/

namespace Sys2Proof.Machine

/-- At power-on every register but the constant ones reads 0 (10_state R33, 70 R490). -/
theorem regRead_reset {k : Nat} (h : k < 80 ∨ 94 < k) : regRead State.reset k = 0 := by
  rcases h with h | h
  · interval_cases k <;> rfl
  · exact regRead_of_ge h State.reset

/-- Settles O16: the registers as `regRead` shows them, and each field of the reset state by definition. -/
theorem powerOnRegisters : Obligations.PowerOnRegisters :=
  ⟨fun _ h => regRead_reset h, rfl, rfl, rfl, rfl, rfl, rfl, rfl, rfl, rfl, rfl, rfl, rfl, rfl, rfl, rfl, rfl, rfl,
    fun _ => rfl⟩

end Sys2Proof.Machine
end

section
/-! PROOFS. 20_memory R88, R92 to R95: the windows of records, of RBSP and SDATA, and of the configuration store. -/

namespace Sys2Proof.Machine

/-! ### What each window shows (20_memory R86) -/

theorem windowByte_rbsp {off : Nat} (h : off < 2 ^ 24) (s : State) :
    windowByte s (0x02000000 + off) = s.rbsp.getD off 0 := by
  simp only [windowByte, window_address (base := 0x02000000) (n := 2) rfl h]

theorem windowByte_dt {off : Nat} (h : off < 2 ^ 24) (s : State) :
    windowByte s (0x03000000 + off) = recordByte 32 dtBytes s.dt off := by
  simp only [windowByte, window_address (base := 0x03000000) (n := 3) rfl h]

theorem windowByte_vsq {off : Nat} (h : off < 2 ^ 24) (s : State) :
    windowByte s (0x04000000 + off) = recordByte 32 vsqBytes s.out.vsq off := by
  simp only [windowByte, window_address (base := 0x04000000) (n := 4) rfl h]

theorem windowByte_vut {off : Nat} (h : off < 2 ^ 24) (s : State) :
    windowByte s (0x05000000 + off) = recordByte 8 vutBytes s.out.vut off := by
  simp only [windowByte, window_address (base := 0x05000000) (n := 5) rfl h]

theorem windowByte_asq {off : Nat} (h : off < 2 ^ 24) (s : State) :
    windowByte s (0x06000000 + off) = recordByte 32 asqBytes s.out.asq off := by
  simp only [windowByte, window_address (base := 0x06000000) (n := 6) rfl h]

theorem windowByte_sdata {off : Nat} (h : off < 2 ^ 24) (s : State) :
    windowByte s (0x07000000 + off) = s.out.sdata.getD off 0 := by
  simp only [windowByte, window_address (base := 0x07000000) (n := 7) rfl h]

theorem windowByte_cfg {off : Nat} (h : off < 2 ^ 24) (s : State) :
    windowByte s (0x08000000 + off) = cfgByte s.trk off := by
  simp only [windowByte, window_address (base := 0x08000000) (n := 8) rfl h]

/-- The audio part of the configuration store (R95). -/
theorem windowByte_acfg {off : Nat} (h : off < 0xF000) (s : State) :
    windowByte s (0x08001000 + off) = s.trk.acfg.getD off 0 := by
  rw [show 0x08001000 + off = 0x08000000 + (0x1000 + off) by omega, windowByte_cfg (by omega), cfgByte,
    if_neg (by omega), if_pos (by omega), Nat.add_sub_cancel_left]

/-- The parameter sets' bytes in the configuration store (R95). -/
theorem windowByte_psBytes {off : Nat} (h : off < 2 ^ 24 - 2 ^ 16) (s : State) :
    windowByte s (0x08010000 + off) = (psBytes s.trk.psets).getD off 0 := by
  rw [show 0x08010000 + off = 0x08000000 + (0x10000 + off) by omega, windowByte_cfg (by omega), cfgByte,
    if_neg (by omega), if_neg (by omega), Nat.add_sub_cancel_left]

/-! ### Windows of records -/

/-- The `extent` bytes from host address `base` on show a table of records. -/
structure RecordWindow {α : Type} (s : State) (base extent size : Nat) (layout : α → Bytes) (l : List α) :
    Prop where
  aboveReg : 2 ^ 24 ≤ base
  onBus : base + extent ≤ 2 ^ 32
  shows : ∀ off < extent, windowByte s (base + off) = recordByte size layout l off

theorem dt_window (s : State) : RecordWindow s 0x03000000 (2 ^ 24) 32 dtBytes s.dt :=
  ⟨by decide, by decide, fun _ h => windowByte_dt h s⟩

theorem vsq_window (s : State) : RecordWindow s 0x04000000 (2 ^ 24) 32 vsqBytes s.out.vsq :=
  ⟨by decide, by decide, fun _ h => windowByte_vsq h s⟩

theorem vut_window (s : State) : RecordWindow s 0x05000000 (2 ^ 24) 8 vutBytes s.out.vut :=
  ⟨by decide, by decide, fun _ h => windowByte_vut h s⟩

theorem asq_window (s : State) : RecordWindow s 0x06000000 (2 ^ 24) 32 asqBytes s.out.asq :=
  ⟨by decide, by decide, fun _ h => windowByte_asq h s⟩

/-- A byte of record `k`, or 0 where there is no such record (R88). -/
theorem recordByte_at {α : Type} {size j : Nat} (hj : j < size) (layout : α → Bytes) (l : List α) (k : Nat) :
    recordByte size layout l (size * k + j) = (l[k]?.map fun e => (layout e).getD j 0).getD 0 := by
  have hdiv : (size * k + j) / size = k := by
    rw [Nat.mul_add_div (by omega), Nat.div_eq_of_lt hj, Nat.add_zero]
  have hmod : (size * k + j) % size = j := by rw [Nat.mul_add_mod, Nat.mod_eq_of_lt hj]
  rw [recordByte, hdiv, hmod]
  cases l[k]? <;> rfl

section
variable {α : Type} {s : State} {base extent size k : Nat} {layout : α → Bytes} {l : List α}

/-- A read of the bytes of record `k` from offset `o` on, whatever record or none stands there. -/
theorem RecordWindow.busRead_record (hw : RecordWindow s base extent size layout l) (hk : size * (k + 1) ≤ extent)
    {o : Nat} {w : AccessWidth} (ho : o + widthBytes w ≤ size) {v : Nat}
    (hv : ∀ j < widthBytes w,
      (l[k]?.map fun e => (layout e).getD (o + j) 0).getD 0 = BitVec.ofNat 8 (v / 256 ^ j)) :
    busRead s (BitVec.ofNat 32 (base + size * k + o)) w = BitVec.ofNat 64 (v % 256 ^ widthBytes w) := by
  have hlo := hw.aboveReg
  have hhi := hw.onBus
  rw [Nat.mul_succ] at hk
  refine busRead_ofNat (by omega) (by omega) fun j hj => ?_
  rw [show base + size * k + o + j = base + (size * k + (o + j)) by omega, hw.shows _ (by omega),
    recordByte_at (by omega), hv j hj]

/-- A field of record `k`: the number whose bytes stand at the field's offset in the record's layout (R92 to R95). -/
theorem RecordWindow.busRead_field (hw : RecordWindow s base extent size layout l)
    (hk : size * (k + 1) ≤ extent) {e : α} (he : l[k]? = some e) (o : Nat) {w : AccessWidth}
    (ho : o + widthBytes w ≤ size) {v : Nat} (hv : v < 256 ^ widthBytes w)
    (hf : slice (layout e) o (widthBytes w) = leBytes (widthBytes w) v) :
    busRead s (BitVec.ofNat 32 (base + size * k + o)) w = BitVec.ofNat 64 v := by
  have hbytes : ∀ j < widthBytes w,
      (l[k]?.map fun e => (layout e).getD (o + j) 0).getD 0 = BitVec.ofNat 8 (v / 256 ^ j) := by
    intro j hj
    have hget : (layout e)[o + j]? = (slice (layout e) o (widthBytes w))[j]? := by
      rw [slice, List.getElem?_take_of_lt hj, List.getElem?_drop]
    rw [he, Option.map_some, Option.getD_some, List.getD_eq_getElem?_getD, hget, hf, getElem?_leBytes hj,
      Option.getD_some]
  rw [hw.busRead_record hk ho hbytes, Nat.mod_eq_of_lt hv]

/-- A field of `n` bits, zero-extended (R87, R92 to R95). -/
theorem RecordWindow.busRead_bits (hw : RecordWindow s base extent size layout l)
    (hk : size * (k + 1) ≤ extent) {e : α} (he : l[k]? = some e) (o : Nat) {w : AccessWidth}
    (ho : o + widthBytes w ≤ size) {n : Nat} (x : BitVec n) (hn : 2 ^ n ≤ 256 ^ widthBytes w)
    (hf : slice (layout e) o (widthBytes w) = leBytes (widthBytes w) x.toNat) :
    busRead s (BitVec.ofNat 32 (base + size * k + o)) w = x.setWidth 64 := by
  rw [hw.busRead_field hk he o ho (Nat.lt_of_lt_of_le x.isLt hn) hf, BitVec.ofNat_toNat]

/-- A 64-bit field (R92 to R94). -/
theorem RecordWindow.busRead_word (hw : RecordWindow s base extent size layout l)
    (hk : size * (k + 1) ≤ extent) {e : α} (he : l[k]? = some e) (o : Nat) (ho : o + 8 ≤ size) (x : Word64)
    (hf : slice (layout e) o 8 = leBytes 8 x.toNat) :
    busRead s (BitVec.ofNat 32 (base + size * k + o)) .b8 = x := by
  rw [hw.busRead_bits hk he o (w := .b8) ho x (Nat.le_refl _) hf, BitVec.setWidth_eq]

/-- Past the last record there are zeros (R88). -/
theorem RecordWindow.busRead_beyond (hw : RecordWindow s base extent size layout l)
    (hk : size * (k + 1) ≤ extent) (hl : l.length ≤ k) {w : AccessWidth} (ho : widthBytes w ≤ size) :
    busRead s (BitVec.ofNat 32 (base + size * k)) w = 0 := by
  have hzero : ∀ j < widthBytes w,
      (l[k]?.map fun e => (layout e).getD (0 + j) 0).getD 0 = BitVec.ofNat 8 (0 / 256 ^ j) := by
    intro j _
    rw [List.getElem?_eq_none hl, Nat.zero_div]
    rfl
  have h := hw.busRead_record (o := 0) hk (by omega) hzero
  rwa [Nat.zero_mod] at h

end

/-- A record of a table within its capacity stands inside its window (R86). -/
theorem record_fits {α : Type} {l : List α} {k cap size extent : Nat} {e : α} (he : l[k]? = some e)
    (hl : l.length ≤ cap) (hcap : size * cap ≤ extent) : size * (k + 1) ≤ extent := by
  have hk : k < l.length := (List.getElem?_eq_some_iff.1 he).1
  exact (Nat.mul_le_mul_left size (by omega)).trans hcap

/-! ### The output tables -/

/-- The fields of a DT entry (R92). -/
theorem busRead_dt {s : State} {k : Nat} (hk : 32 * (k + 1) ≤ 2 ^ 24) {e : DtEntry} (he : s.dt[k]? = some e) :
    busRead s (BitVec.ofNat 32 (0x03000000 + 32 * k)) .b8 = e.pts ∧
    busRead s (BitVec.ofNat 32 (0x03000000 + 32 * k + 8)) .b4 = e.off.setWidth 64 ∧
    busRead s (BitVec.ofNat 32 (0x03000000 + 32 * k + 12)) .b4 = e.len.setWidth 64 ∧
    busRead s (BitVec.ofNat 32 (0x03000000 + 32 * k + 16)) .b4 = e.aux.setWidth 64 ∧
    busRead s (BitVec.ofNat 32 (0x03000000 + 32 * k + 20)) .b1 = BitVec.ofNat 64 (spaceCode e.space) := by
  have hspace : spaceCode e.space < 256 ^ widthBytes .b1 := by cases e.space <;> decide
  exact ⟨(dt_window s).busRead_word hk he 0 (by decide) e.pts rfl,
    (dt_window s).busRead_bits hk he 8 (by decide) e.off (by decide) rfl,
    (dt_window s).busRead_bits hk he 12 (by decide) e.len (by decide) rfl,
    (dt_window s).busRead_bits hk he 16 (by decide) e.aux (by decide) rfl,
    (dt_window s).busRead_field hk he 20 (by decide) hspace rfl⟩

/-- The fields of a VSQ entry (R93). -/
theorem busRead_vsq {s : State} {k : Nat} (hk : 32 * (k + 1) ≤ 2 ^ 24) {e : VideoSample}
    (he : s.out.vsq[k]? = some e) :
    busRead s (BitVec.ofNat 32 (0x04000000 + 32 * k)) .b8 = e.pts ∧
    busRead s (BitVec.ofNat 32 (0x04000000 + 32 * k + 8)) .b8 = e.dts ∧
    busRead s (BitVec.ofNat 32 (0x04000000 + 32 * k + 16)) .b4 = e.firstUnit.setWidth 64 ∧
    busRead s (BitVec.ofNat 32 (0x04000000 + 32 * k + 20)) .b4 = e.nunits.setWidth 64 ∧
    busRead s (BitVec.ofNat 32 (0x04000000 + 32 * k + 24)) .b1 = BitVec.ofNat 64 e.key.toNat := by
  have hkey : e.key.toNat < 256 ^ widthBytes .b1 := e.key.toNat_lt.trans (by decide)
  exact ⟨(vsq_window s).busRead_word hk he 0 (by decide) e.pts rfl,
    (vsq_window s).busRead_word hk he 8 (by decide) e.dts rfl,
    (vsq_window s).busRead_bits hk he 16 (by decide) e.firstUnit (by decide) rfl,
    (vsq_window s).busRead_bits hk he 20 (by decide) e.nunits (by decide) rfl,
    (vsq_window s).busRead_field hk he 24 (by decide) hkey rfl⟩

/-- The fields of a VUT entry (R93). -/
theorem busRead_vut {s : State} {k : Nat} (hk : 8 * (k + 1) ≤ 2 ^ 24) {e : VideoUnit}
    (he : s.out.vut[k]? = some e) :
    busRead s (BitVec.ofNat 32 (0x05000000 + 8 * k)) .b4 = e.off.setWidth 64 ∧
    busRead s (BitVec.ofNat 32 (0x05000000 + 8 * k + 4)) .b4 = e.len.setWidth 64 :=
  ⟨(vut_window s).busRead_bits hk he 0 (by decide) e.off (by decide) rfl,
    (vut_window s).busRead_bits hk he 4 (by decide) e.len (by decide) rfl⟩

/-- The fields of an ASQ entry (R94). -/
theorem busRead_asq {s : State} {k : Nat} (hk : 32 * (k + 1) ≤ 2 ^ 24) {e : AudioSample}
    (he : s.out.asq[k]? = some e) :
    busRead s (BitVec.ofNat 32 (0x06000000 + 32 * k)) .b8 = e.pts ∧
    busRead s (BitVec.ofNat 32 (0x06000000 + 32 * k + 8)) .b4 = e.off.setWidth 64 ∧
    busRead s (BitVec.ofNat 32 (0x06000000 + 32 * k + 12)) .b4 = e.len.setWidth 64 ∧
    busRead s (BitVec.ofNat 32 (0x06000000 + 32 * k + 16)) .b4 = e.nsamples.setWidth 64 :=
  ⟨(asq_window s).busRead_word hk he 0 (by decide) e.pts rfl,
    (asq_window s).busRead_bits hk he 8 (by decide) e.off (by decide) rfl,
    (asq_window s).busRead_bits hk he 12 (by decide) e.len (by decide) rfl,
    (asq_window s).busRead_bits hk he 16 (by decide) e.nsamples (by decide) rfl⟩

/-! ### The table of parameter sets (R95) -/

/-- The 16 bytes of a parameter set's row, behind which `x.1` bytes of parameter sets stand. -/
def psRow (x : Nat × PsEntry) : Bytes :=
  leBytes 4 (psKindCode x.2.kind) ++ leBytes 4 x.1 ++ leBytes 4 x.2.bytes.length ++ pad 4

/-- Each parameter set with the offset of its bytes. -/
def psRows (off : Nat) : List PsEntry → List (Nat × PsEntry)
  | [] => []
  | e :: rest => (off, e) :: psRows (off + e.bytes.length) rest

/-- The table is its rows one behind the other. -/
theorem psTable_eq_flatMap (off : Nat) (l : List PsEntry) : psTable off l = (psRows off l).flatMap psRow := by
  induction l generalizing off with
  | nil => rfl
  | cons e rest ih => rw [psTable, ih, psRows, List.flatMap_cons, psRow]

/-- The parameter sets' bytes are packed in table order. -/
theorem getElem?_psRows (off : Nat) (l : List PsEntry) (k : Nat) :
    (psRows off l)[k]? = l[k]?.map fun e => (off + (psBytes (l.take k)).length, e) := by
  induction l generalizing off k with
  | nil => rfl
  | cons e rest ih =>
    cases k with
    | zero => rfl
    | succ k =>
      rw [psRows, List.getElem?_cons_succ, List.getElem?_cons_succ, ih, List.take_succ_cons, psBytes, psBytes,
        List.flatMap_cons, List.length_append, Nat.add_assoc]

theorem length_psRows (off : Nat) (l : List PsEntry) : (psRows off l).length = l.length := by
  induction l generalizing off with
  | nil => rfl
  | cons e rest ih => rw [psRows, List.length_cons, List.length_cons, ih]

/-- Records of one size written one behind the other are a table of records. -/
theorem getD_flatMap_records {α : Type} {size : Nat} {layout : α → Bytes} (hs : 0 < size)
    (hlen : ∀ e, (layout e).length = size) (l : List α) (off : Nat) :
    (l.flatMap layout).getD off 0 = recordByte size layout l off := by
  induction l generalizing off with
  | nil => rfl
  | cons e rest ih =>
    rw [List.flatMap_cons]
    rcases Nat.lt_or_ge off size with h | h
    · rw [List.getD_append _ _ _ _ (by rwa [hlen]), recordByte, Nat.div_eq_of_lt h, Nat.mod_eq_of_lt h]
      rfl
    · obtain ⟨d, rfl⟩ := Nat.exists_eq_add_of_le h
      rw [List.getD_append_right _ _ _ _ (by rwa [hlen]), hlen, Nat.add_sub_cancel_left, ih, recordByte, recordByte,
        Nat.add_div_left _ hs, Nat.add_mod_left, List.getElem?_cons_succ]

theorem psTable_window (s : State) : RecordWindow s 0x08000000 0x1000 16 psRow (psRows 0 s.trk.psets) where
  aboveReg := by decide
  onBus := by decide
  shows off h := by
    rw [windowByte_cfg (h.trans (by decide)), cfgByte, if_pos h, psTable_eq_flatMap,
      getD_flatMap_records (layout := psRow) (size := 16) (by decide) (fun _ => rfl)]

/-- The fields of a row of the table (R95). -/
theorem busRead_psTable {s : State} (hs : s.trk.Ok s.caps) (hc : s.caps.Legal) {k : Nat} {e : PsEntry}
    (he : s.trk.psets[k]? = some e) :
    busRead s (BitVec.ofNat 32 (0x08000000 + 16 * k)) .b4 = BitVec.ofNat 64 (psKindCode e.kind) ∧
    busRead s (BitVec.ofNat 32 (0x08000000 + 16 * k + 4)) .b4 =
      BitVec.ofNat 64 (psBytes (s.trk.psets.take k)).length ∧
    busRead s (BitVec.ofNat 32 (0x08000000 + 16 * k + 8)) .b4 = BitVec.ofNat 64 e.bytes.length ∧
    busRead s (BitVec.ofNat 32 (0x08000000 + 16 * k + 12)) .b4 = 0 := by
  have hk : 16 * (k + 1) ≤ 0x1000 := record_fits he (hs.psLen.trans hc.psFits) (by decide)
  have hrow : (psRows 0 s.trk.psets)[k]? = some ((psBytes (s.trk.psets.take k)).length, e) := by
    rw [getElem?_psRows, he, Option.map_some, Nat.zero_add]
  have hsplit : psBytes s.trk.psets =
      psBytes (s.trk.psets.take k) ++ (e.bytes ++ psBytes (s.trk.psets.drop (k + 1))) := by
    obtain ⟨hlt, rfl⟩ := List.getElem?_eq_some_iff.1 he
    conv_lhs => rw [← List.take_append_drop k s.trk.psets, List.drop_eq_getElem_cons hlt, psBytes_append]
    rfl
  have hbytes : (psBytes s.trk.psets).length < 256 ^ 4 :=
    (hs.psBytes.trans hc.cfgFits).trans_lt (by decide)
  rw [hsplit, List.length_append, List.length_append] at hbytes
  have hkind : psKindCode e.kind < 256 ^ widthBytes .b4 := by cases e.kind <;> decide
  exact ⟨(psTable_window s).busRead_field hk hrow 0 (by decide) hkind rfl,
    (psTable_window s).busRead_field hk hrow 4 (by decide) (Nat.lt_of_add_right_lt hbytes) rfl,
    (psTable_window s).busRead_field hk hrow 8 (by decide)
      (Nat.lt_of_add_right_lt (Nat.lt_of_add_left_lt hbytes)) rfl,
    (psTable_window s).busRead_field hk hrow 12 (by decide) (v := 0) (by decide) rfl⟩

/-- Settles O58: each window of records shows its table, and the byte windows their bytes. -/
theorem recordWindows : Obligations.RecordWindows := by
  intro s hs k
  have hc := hs.caps
  refine ⟨fun e he => busRead_dt (record_fits he (hs.dt.trans hc.dtFits) (by decide)) he,
    fun e he => busRead_vsq (record_fits he (hs.out.vsqCap.trans hc.vsqFits) (by decide)) he,
    fun e he => busRead_vut (record_fits he (hs.out.vutCap.trans hc.vutFits) (by decide)) he,
    fun e he => busRead_asq (record_fits he (hs.out.asqCap.trans hc.asqFits) (by decide)) he,
    fun hk hl => (dt_window s).busRead_beyond (by omega) hl (by decide),
    fun hk hl => (vsq_window s).busRead_beyond (by omega) hl (by decide),
    fun hk hl => (vut_window s).busRead_beyond (by omega) hl (by decide),
    fun hk hl => (asq_window s).busRead_beyond (by omega) hl (by decide), ?_, ?_,
    fun hk hl => (psTable_window s).busRead_beyond (by omega) (by rwa [length_psRows]) (by decide), ?_, ?_⟩
  · intro hk
    rw [busRead_byte (by omega) (by omega), busRead_byte (by omega) (by omega), windowByte_rbsp hk,
      windowByte_sdata hk, List.getD_eq_getElem?_getD, List.getD_eq_getElem?_getD]
    exact ⟨rfl, rfl⟩
  · intro e he
    obtain ⟨hkind, hoff, hlen, hpad⟩ := busRead_psTable hs.trk hc he
    refine ⟨hkind.trans ?_, hoff, hlen, hpad⟩
    cases e.kind <;> rfl
  · intro hk
    rw [busRead_byte (by omega) (by omega), windowByte_acfg hk, List.getD_eq_getElem?_getD]
  · intro hk
    rw [busRead_byte (by omega) (by omega), windowByte_psBytes hk, List.getD_eq_getElem?_getD]
    rfl

end Sys2Proof.Machine
end

section
/-! PROOFS. 30_encoding R110 to R122: the decoder and the encoder are inverse, and what an illegal word raises. -/

namespace Sys2Proof

/-! ### The fields of a word (R110 to R114) -/

/-- A word is its four fields (30_encoding R110). -/
theorem mkWord_eq_of_fields {w : Word32} {opc : BitVec 8} (h : opcField w = opc) :
    mkWord opc (spField w) (flField w) (immField w) = w := by
  subst h
  refine BitVec.eq_of_getLsbD_eq fun k hk => ?_
  simp only [mkWord, opcField, spField, flField, immField, BitVec.getLsbD_append, BitVec.getLsbD_extractLsb']
  interval_cases k <;> rfl

/-- Fixed bits of a word whose pattern has none set in FL are zeros of FL (30_encoding R113, R117). -/
theorem flField_and_eq_zero {w mask pattern : Word32} (hp : flField pattern = 0) (h : w &&& mask = pattern) :
    flField w &&& flField mask = 0 := by
  rw [← hp, ← h]
  exact BitVec.extractLsb'_and.symm

/-- Fixed bits of a word whose pattern has none set in IMM are zeros of IMM (30_encoding R114, R117). -/
theorem immField_and_eq_zero {w mask pattern : Word32} (hp : immField pattern = 0) (h : w &&& mask = pattern) :
    immField w &&& immField mask = 0 := by
  rw [← hp, ← h]
  exact BitVec.extractLsb'_and.symm

/-- SP is 0 where no other value is legal (30_encoding R121). -/
theorem spField_eq_zero {w : Word32} (h : (spField w).toNat ≤ 0) : spField w = 0 :=
  BitVec.eq_of_toNat_eq (Nat.le_zero.1 h)

/-- A legal SP is the code of the selector read from it (30_encoding R112). -/
theorem selCode_selOf {w : Word32} (h : (spField w).toNat ≤ 2) : selCode (selOf w) = spField w := by
  unfold selOf
  revert h
  generalize spField w = x
  revert x
  decide

/-- FL with zeros above bit 0 is the flag read from it (30_encoding R113). -/
theorem mkFlags_flag_zero {w : Word32} (h : flField w &&& 0xE = 0) : mkFlags false (flag w 0) = flField w := by
  unfold flag
  revert h
  generalize flField w = x
  revert x
  decide

/-- FL with zeros above bit 1 is the two flags read from it (30_encoding R113). -/
theorem mkFlags_flag_flag {w : Word32} (h : flField w &&& 0xC = 0) :
    mkFlags (flag w 1) (flag w 0) = flField w := by
  unfold flag
  revert h
  generalize flField w = x
  revert x
  decide

/-- An immediate with zeros from bit `n` on is its low `n` bits (30_encoding R114). -/
theorem setWidth_setWidth_of_and_eq_zero {n : Nat} {x m : BitVec 16} (hm : ∀ k < 16, n ≤ k → m.getLsbD k = true)
    (h : x &&& m = 0) : (x.setWidth n).setWidth 16 = x := by
  refine BitVec.eq_of_getLsbD_eq fun k hk => ?_
  have hk0 : (x.getLsbD k && m.getLsbD k) = false := by rw [← BitVec.getLsbD_and, h]; exact BitVec.getLsbD_zero
  rw [BitVec.getLsbD_setWidth, BitVec.getLsbD_setWidth, decide_eq_true hk, Bool.true_and]
  by_cases hkn : k < n
  · rw [decide_eq_true hkn, Bool.true_and]
  · rw [hm k hk (Nat.le_of_not_lt hkn), Bool.and_true] at hk0
    rw [decide_eq_false hkn, Bool.false_and, hk0]

/-! ### The rows of R117's table -/

/-- The command that a row builds from a word with legal SP and the row's fixed bits has that word: the fields of
the command and the fixed bits are all of the word (30_encoding R117). -/
def OpRow.Faithful (r : OpRow) : Prop :=
  ∀ w : Word32, opcField w = r.opc → (spField w).toNat ≤ r.maxSp → w &&& r.mask = r.pattern →
    encode (r.build w) = w

/-- It suffices that the command's word has the SP, FL and IMM of the word, given that the fixed bits of FL and
of IMM are zeros. -/
theorem OpRow.Faithful.of_fields {r : OpRow} {fl : BitVec 4} {imm : BitVec 16}
    (hpattern : flField r.pattern = 0 ∧ immField r.pattern = 0)
    (hmask : flField r.mask = fl ∧ immField r.mask = imm)
    (h : ∀ w : Word32, (spField w).toNat ≤ r.maxSp → flField w &&& fl = 0 → immField w &&& imm = 0 →
      encode (r.build w) = mkWord r.opc (spField w) (flField w) (immField w)) : r.Faithful := by
  obtain ⟨rfl, rfl⟩ := hmask
  intro w hopc hsp hfix
  rw [h w hsp (flField_and_eq_zero hpattern.1 hfix) (immField_and_eq_zero hpattern.2 hfix),
    mkWord_eq_of_fields hopc]

/-- A row whose bits are all fixed is faithful. -/
theorem OpRow.Faithful.of_fixed {opc : BitVec 8} {pattern : Word32} {i : Instr} (h : encode i = pattern) :
    (OpRow.mk opc 0 pattern 0xFFFFFFFF fun _ => i).Faithful := by
  intro w _ _ hfix
  exact h.trans (hfix.symm.trans BitVec.and_allOnes)

/-- A row whose bits are all fixed but SP is faithful. -/
theorem OpRow.Faithful.of_selector {opc : BitVec 8} {pattern : Word32} {c : RegionSel → Instr}
    (hpattern : flField pattern = 0 ∧ immField pattern = 0)
    (hc : ∀ sp, encode (c sp) = mkWord opc (selCode sp) 0 0) :
    (OpRow.mk opc 2 pattern 0xFF0FFFFF fun w => c (selOf w)).Faithful := by
  have hmask : flField 0xFF0FFFFF = BitVec.allOnes 4 ∧ immField 0xFF0FFFFF = BitVec.allOnes 16 := by decide
  refine of_fields hpattern hmask fun w hsp hf hi => ?_
  rw [BitVec.and_allOnes] at hf hi
  rw [hc, selCode_selOf hsp, hf, hi]

/-- A row whose bits are all fixed but the two flags is faithful. -/
theorem OpRow.Faithful.of_flags {opc : BitVec 8} {pattern : Word32} {c : Bool → Bool → Instr}
    (hpattern : flField pattern = 0 ∧ immField pattern = 0)
    (hc : ∀ disc contig, encode (c disc contig) = mkWord opc 0 (mkFlags contig disc) 0) :
    (OpRow.mk opc 0 pattern 0xFFFCFFFF fun w => c (flag w 0) (flag w 1)).Faithful := by
  have hmask : flField 0xFFFCFFFF = 0xC ∧ immField 0xFFFCFFFF = BitVec.allOnes 16 := by decide
  refine of_fields hpattern hmask fun w hsp hf hi => ?_
  rw [BitVec.and_allOnes] at hi
  rw [hc, mkFlags_flag_flag hf, spField_eq_zero hsp, hi]

/-- A row whose bits are all fixed but the `n` low bits of IMM is faithful. -/
theorem OpRow.Faithful.of_immediate {n : Nat} {opc : BitVec 8} {pattern mask : Word32} {c : BitVec n → Instr}
    (hpattern : flField pattern = 0 ∧ immField pattern = 0) (hmask : flField mask = BitVec.allOnes 4)
    (himm : ∀ k < 16, n ≤ k → (immField mask).getLsbD k = true)
    (hc : ∀ x, encode (c x) = mkWord opc 0 0 (x.setWidth 16)) :
    (OpRow.mk opc 0 pattern mask fun w => c ((immField w).setWidth n)).Faithful := by
  refine of_fields hpattern ⟨hmask, rfl⟩ fun w hsp hf hi => ?_
  rw [BitVec.and_allOnes] at hf
  rw [hc, setWidth_setWidth_of_and_eq_zero himm hi, spField_eq_zero hsp, hf]

/-- SKIP_BITS has all of IMM. -/
theorem OpRow.Faithful.skipBits : opRows[5].Faithful := by
  refine of_fields (fl := BitVec.allOnes 4) (imm := 0) (by decide) (by decide) fun w hsp hf _ => ?_
  rw [BitVec.and_allOnes] at hf
  rw [spField_eq_zero hsp, hf]
  rfl

/-- SPLIT_ANNEXB has a selector and one flag. -/
theorem OpRow.Faithful.splitAnnexb : opRows[11].Faithful := by
  refine of_fields (fl := 0xE) (imm := BitVec.allOnes 16) (by decide) (by decide)
    fun w hsp hf hi => ?_
  rw [BitVec.and_allOnes] at hi
  rw [← selCode_selOf hsp, ← mkFlags_flag_zero hf, hi]
  rfl

/-- SPLIT_LENPFX has a selector and an immediate of 3 bits. -/
theorem OpRow.Faithful.splitLenpfx : opRows[12].Faithful := by
  refine of_fields (fl := BitVec.allOnes 4) (imm := 0xFFF8) (by decide) (by decide)
    fun w hsp hf hi => ?_
  rw [BitVec.and_allOnes] at hf
  rw [← selCode_selOf hsp, hf, ← setWidth_setWidth_of_and_eq_zero (n := 3) (by decide) hi]
  rfl

/-- Every row is faithful, each by which of its fields are not fixed (30_encoding R117). -/
theorem faithful_of_mem : ∀ r ∈ opRows, r.Faithful := by
  simp only [opRows, List.forall_mem_cons]
  exact ⟨
    -- NOP, RESET, TRACK_RESET
    .of_fixed rfl, .of_fixed rfl, .of_fixed rfl,
    -- BR_INIT, READ_BITS, SKIP_BITS, READ_UE, SKIP_UE, READ_SE, SKIP_SE, SKIP_SCALING_LIST
    .of_selector (by decide) fun _ => rfl,
    .of_immediate (by decide) rfl (by decide) fun _ => rfl,
    .skipBits, .of_fixed rfl, .of_fixed rfl, .of_fixed rfl, .of_fixed rfl,
    .of_immediate (by decide) rfl (by decide) fun _ => rfl,
    -- SPLIT_ANNEXB, SPLIT_LENPFX, EPB_REMOVE
    .splitAnnexb, .splitLenpfx, .of_selector (by decide) fun _ => rfl,
    -- the parsers and MPA_SCAN
    .of_selector (by decide) fun _ => rfl, .of_selector (by decide) fun _ => rfl,
    .of_selector (by decide) fun _ => rfl, .of_selector (by decide) fun _ => rfl,
    .of_selector (by decide) fun _ => rfl, .of_selector (by decide) fun _ => rfl,
    .of_selector (by decide) fun _ => rfl, .of_selector (by decide) fun _ => rfl,
    -- TS_DEMUX, TS_FLUSH, FLV_DEMUX
    .of_flags (by decide) fun _ _ => rfl, .of_fixed rfl, .of_flags (by decide) fun _ _ => rfl,
    List.forall_mem_nil _⟩

/-- A row allows the values 1 and 2 of SP exactly when its command has a selected region (30_encoding R112,
R121). -/
theorem maxSp_of_mem {r : OpRow} (h : r ∈ opRows) (w : Word32) :
    r.maxSp = if (Machine.regionOf (r.build w)).isSome then 2 else 0 := by
  obtain ⟨k, hk, rfl⟩ := List.mem_iff_getElem.1 h
  have hk : k < 25 := hk
  interval_cases k <;> rfl

/-- The command of a row has the row's opcode (30_encoding R116). -/
theorem opcField_encode_build : ∀ r ∈ opRows, opcField (encode (r.build r.pattern)) = r.opc := by decide

/-- The opcodes of R120's list are those of no row. -/
theorem undefinedOpcode_iff_find (opc : BitVec 8) :
    Machine.undefinedOpcode opc.toNat = true ↔ opRows.find? (fun r => r.opc == opc) = none := by
  simp only [← Option.not_isSome_iff_eq_none]
  revert opc
  decide

/-! ### What the decoder answers (R118) -/

/-- A word with the opcode of a row takes the checks of R118 against it. -/
theorem decode_of_row {w : Word32} {r : OpRow} (hr : r ∈ opRows) (hopc : r.opc = opcField w) :
    decode w = if r.maxSp < (spField w).toNat then .error (.reservedSpace (spField w))
      else if w &&& r.mask ≠ r.pattern then .error (.reservedField (lowField w))
      else if (r.build w).wellFormed then .ok (r.build w)
      else .error (.reservedField (lowField w)) := by
  rw [decode, ← hopc, Machine.find_row hr]

/-- What it takes for a word to decode to a command (30_encoding R118). -/
theorem decode_ok {w : Word32} {i : Instr} (h : decode w = .ok i) :
    ∃ r ∈ opRows, r.opc = opcField w ∧ (spField w).toNat ≤ r.maxSp ∧ w &&& r.mask = r.pattern ∧
      r.build w = i ∧ i.wellFormed = true := by
  cases hf : opRows.find? (fun r => r.opc == opcField w) with
  | none => rw [decode, hf] at h; cases h
  | some r =>
    have hr := List.mem_of_find?_eq_some hf
    have hopc : r.opc = opcField w := eq_of_beq (List.find?_some hf :)
    rw [decode_of_row hr hopc] at h
    split_ifs at h with hsp hfix hwf
    cases h
    exact ⟨r, hr, hopc, Nat.not_lt.1 hsp, not_not.1 hfix, rfl, hwf⟩

/-- A word whose opcode is in R120's list has an undefined opcode. -/
theorem decode_of_undefinedOpcode {w : Word32} (h : Machine.undefinedOpcode (opcField w).toNat = true) :
    decode w = .error (.undefinedOpcode (opcField w)) := by
  rw [decode, (undefinedOpcode_iff_find _).1 h]

/-- A word whose SP is above the largest of its row has a reserved SP (30_encoding R121). -/
theorem decode_of_maxSp_lt {w : Word32} {r : OpRow} (hr : r ∈ opRows) (hopc : r.opc = opcField w)
    (h : r.maxSp < (spField w).toNat) : decode w = .error (.reservedSpace (spField w)) := by
  rw [decode_of_row hr hopc, if_pos h]

/-- A word with an opcode and an SP of its row is legal, or has a reserved flag or immediate (30_encoding R122). -/
theorem decode_of_le_maxSp {w : Word32} {r : OpRow} (hr : r ∈ opRows) (hopc : r.opc = opcField w)
    (h : (spField w).toNat ≤ r.maxSp) :
    decode w = .error (.reservedField (lowField w)) ∨ decode w = .ok (r.build w) := by
  rw [decode_of_row hr hopc, if_neg (Nat.not_lt.2 h)]
  split_ifs
  · exact .inl rfl
  · exact .inr rfl
  · exact .inl rfl

/-- The word of the command a word decodes to is that word (30_encoding R117, R118). -/
theorem encode_of_decode {w : Word32} {i : Instr} (h : decode w = .ok i) : encode i = w := by
  obtain ⟨r, hr, hopc, hsp, hfix, rfl, -⟩ := decode_ok h
  exact faithful_of_mem r hr w hopc.symm hsp hfix

/-! ### The row of a command -/

/-- Every command shares its opcode, and whether it has a selected region, with a well-formed one: only an
immediate can be out of range. -/
theorem exists_wellFormed_opcField_eq (i : Instr) : ∃ j : Instr, j.wellFormed = true ∧
    opcField (encode j) = opcField (encode i) ∧ (Machine.regionOf j).isSome = (Machine.regionOf i).isSome := by
  by_cases h : i.wellFormed = true
  · exact ⟨i, h, rfl, rfl⟩
  · cases i with
    | readBits n => exact ⟨.readBits 0, rfl, by simp only [encode, Machine.opcField_mkWord], rfl⟩
    | splitLenpfx sp n => exact ⟨.splitLenpfx sp 1, rfl, by simp only [encode, Machine.opcField_mkWord], rfl⟩
    | _ => exact absurd rfl h

/-- The row with a command's opcode, and the largest SP it allows (30_encoding R116, R121). -/
theorem exists_row (i : Instr) : ∃ r ∈ opRows, r.opc = opcField (encode i) ∧
    r.maxSp = if (Machine.regionOf i).isSome then 2 else 0 := by
  obtain ⟨j, hwf, hopc, hregion⟩ := exists_wellFormed_opcField_eq i
  obtain ⟨r, hr, hro, -, -, hbuild, -⟩ := decode_ok (Machine.decode_encode_of_wellFormed hwf)
  exact ⟨r, hr, hro.trans hopc, by rw [maxSp_of_mem hr (encode j), hbuild, hregion]⟩

/-- R120's list is that of the opcodes of no command. -/
theorem undefinedOpcode_iff (opc : BitVec 8) :
    Machine.undefinedOpcode opc.toNat = true ↔ ∀ i, opcField (encode i) ≠ opc := by
  rw [undefinedOpcode_iff_find, List.find?_eq_none]
  constructor
  · intro h i hi
    obtain ⟨r, hr, hopc, -⟩ := exists_row i
    exact h r hr (beq_iff_eq.2 (hopc.trans hi))
  · intro h r hr hopc
    exact h (r.build r.pattern) ((opcField_encode_build r hr).trans (beq_iff_eq.1 hopc))

end Sys2Proof
end

section
/-! PROOFS. 30_encoding R118 to R122: a write of an illegal word to CMD. -/

namespace Sys2Proof.Machine

/-- The write of a word to CMD runs it on the state before (10_state R34). -/
theorem step_issue (w : Word32) (s : State) : step (issue w s) = runWord w s := by
  rw [step_write_cmd (v := w.setWidth 64) (rest := s.bus) rfl, BitVec.setWidth_setWidth_of_le _ (by decide),
    BitVec.setWidth_eq]
  rfl

/-- The write of an illegal word to CMD takes the error path with ILLEGAL_COMMAND (30_encoding R118). -/
theorem step_issue_of_decode_error {w : Word32} {e : DecodeError} (h : decode w = .error e) (s : State) :
    step (issue w s) = .next (errorPath w { code := .illegalCommand, info := illegalInfo e } s) := by
  rw [step_issue, runWord, h]

/-- Settles O1, by the case split over the commands of `decode_encode_of_wellFormed`. -/
theorem decodeOfEncode : Obligations.DecodeOfEncode :=
  fun _ => decode_encode_of_wellFormed

/-- Settles O2: the row that accepted the word is faithful to it. -/
theorem encodeOfDecode : Obligations.EncodeOfDecode := by
  intro w i h
  obtain ⟨-, -, -, -, -, -, hwf⟩ := decode_ok h
  exact ⟨encode_of_decode h, hwf⟩

/-- Settles O4: R120's list is that of the opcodes of no row, where the decoder's first check fails. -/
theorem undefinedOpcodes : Obligations.UndefinedOpcodes :=
  ⟨undefinedOpcode_iff, fun _ s h => step_issue_of_decode_error (decode_of_undefinedOpcode h) s⟩

/-- Settles O5: the SP is above the largest that the command's row allows. -/
theorem reservedSpaces : Obligations.ReservedSpaces := by
  intro w s i hopc h
  obtain ⟨r, hr, hro, hmax⟩ := exists_row i
  have hlt : r.maxSp < (spField w).toNat := by
    rw [hmax]
    rcases h with h | ⟨hne, hnone⟩
    · split_ifs <;> omega
    · rw [hnone]
      exact Nat.pos_of_ne_zero fun h0 => hne (BitVec.eq_of_toNat_eq h0)
  exact step_issue_of_decode_error (decode_of_maxSp_lt hr (hro.trans hopc.symm) hlt) s

/-- Settles O6: the command's row allows the SP, and a word that decoded would be the word of a command. -/
theorem reservedFields : Obligations.ReservedFields := by
  intro w s i hopc h hnone
  obtain ⟨r, hr, hro, hmax⟩ := exists_row i
  have hle : (spField w).toNat ≤ r.maxSp := by
    rcases h with h0 | ⟨h2, hsome⟩
    · rw [h0]
      exact Nat.zero_le _
    · rwa [hmax, if_pos hsome]
  rcases decode_of_le_maxSp hr (hro.trans hopc.symm) hle with he | hok
  · exact step_issue_of_decode_error he s
  · obtain ⟨henc, hwf⟩ := encodeOfDecode w _ hok
    exact absurd henc (hnone _ hwf)

/-- Settles O3: the decoder evaluated on the eleven words of 30_encoding R133. -/
theorem workedEncodings : Obligations.WorkedEncodings :=
  ⟨rfl, rfl, rfl, rfl, rfl, rfl, rfl, step_issue_of_decode_error (e := .reservedField 0x00021) rfl,
    step_issue_of_decode_error (e := .reservedField 0x20000) rfl,
    step_issue_of_decode_error (e := .reservedSpace 1) rfl,
    step_issue_of_decode_error (e := .undefinedOpcode 0x9A) rfl⟩

end Sys2Proof.Machine
end

section
/-! PROOFS. 40_control R140 to R147: how a command ends, NOP, RESET and TRACK_RESET. -/

namespace Sys2Proof.Machine

/-! ### NOP (R141) -/

/-- Of the words with opcode 0 only 0 decodes: the row of NOP fixes every bit (30_encoding R117). -/
theorem decode_error_of_opcField_zero {w : Word32} (h0 : opcField w = 0) (hw : w ≠ 0) :
    ∃ e, decode w = .error e := by
  have hrow : opRows[0] ∈ opRows := List.getElem_mem _
  rw [decode_of_row hrow h0.symm]
  split_ifs with hsp hfix
  · exact ⟨_, rfl⟩
  · exact ⟨_, rfl⟩
  · exact absurd (BitVec.and_allOnes.symm.trans (not_not.1 hfix)) hw
  · exact ⟨_, rfl⟩

/-- Settles O14: NOP's arm by definition, its word by computation, and any other word with opcode 0 by the decoder. -/
theorem nopChangesNothing : Obligations.NopChangesNothing := by
  refine ⟨fun _ => rfl, by decide, fun w s h0 hw => ?_⟩
  obtain ⟨e, he⟩ := decode_error_of_opcField_zero h0 hw
  exact ⟨_, step_issue_of_decode_error he s⟩

/-! ### The two ends of a command (R140) -/

/-- A command that completes keeps FAULT, but RESET clears it (60_exceptions R458). -/
theorem Effect.fault {i : Instr} {s s' : State} (h : Effect i s s') :
    s'.status.fault = (s.status.fault && !decide (i = .reset)) := by
  cases i with
  | nop => exact h.elim
  | reset =>
    rw [show s' = resetState s from h]
    exact (Bool.and_false _).symm
  | trackReset | tsDemux _ _ | tsFlush | flvDemux _ _ =>
    rw [h.1]
    exact (Bool.and_true _).symm
  | _ =>
    rw [show s' = _ from h]
    exact (Bool.and_true _).symm

/-- `complete()` gives the registers of a command that completed (R140). -/
theorem completed_complete (i : Instr) (s : State) : Completed i (complete (encode i) s) := ⟨rfl, rfl, rfl⟩

/-- Settles O8: every command answers a next state, which is that of `complete()` or that of the error path. -/
theorem commandCompletesOrFails : Obligations.CommandCompletesOrFails := by
  intro i s hn
  obtain ⟨t, ht⟩ := exec_next i s
  refine ⟨t, ht, ?_⟩
  rcases exec_effect ht hn with ⟨s', he, rfl⟩ | ⟨e, rfl⟩
  · exact .inl ⟨completed_complete i s', he.fault⟩
  · exact .inr ⟨⟨e.code, e.info, rfl⟩, errByte_ne_zero e.code⟩

/-! ### RESET (R142) -/

/-- The registers that hold neither a constant nor the last command's word show none of what RESET keeps
(70 R491). -/
theorem regRead_kept {k : Nat} (h7 : k ≠ 7) (h : k < 80) (s : State) (b : List HostAccess) (x w : Word64)
    (c : Config.Caps) (m : Memory) :
    regRead { s with bus := b, busData := x, caps := c, inMem := m, errCmd := w } k = regRead s k := by
  rcases Nat.lt_or_gt_of_ne h7 with hlow | hhigh <;> interval_cases k <;> rfl

/-- After RESET every register reads 0 but the constant ones and ERR_CMD (70 R491). -/
theorem regRead_resetState {k : Nat} (h7 : k ≠ 7) (h : k < 80 ∨ 94 < k) (w : Word32) (s : State) :
    regRead (complete w (resetState s)) k = 0 := by
  rcases h with h | h
  · exact (regRead_kept h7 h State.reset s.bus s.busData (w.setWidth 64) s.caps s.inMem).trans
      (regRead_reset (.inl h))
  · exact regRead_of_ge h _

/-- The constant registers show the identity and the capacities alone (10_state R44). -/
theorem regRead_const {k : Nat} (h1 : 80 ≤ k) (h2 : k ≤ 94) (s : State) :
    regRead s k = regRead { State.reset with caps := s.caps } k := by
  interval_cases k <;> rfl

/-- Settles O15: the reset state with the RESET word in ERR_CMD, register by register. -/
theorem resetGivesPowerOnState : Obligations.ResetGivesPowerOnState := fun s =>
  ⟨complete (encode .reset) (resetState s), rfl, completed_complete _ _, rfl, rfl, rfl, rfl, rfl, rfl, rfl,
    fun _ h7 h => regRead_resetState h7 h _ s,
    fun _ h1 h2 => (regRead_const h1 h2 _).trans (regRead_const h1 h2 s).symm⟩

/-! ### TRACK_RESET (R143) -/

/-- Outside the fault state TRACK_RESET completes (R143). -/
theorem exec_trackReset {s : State} (h : s.status.fault = false) :
    exec .trackReset s = .next (complete (encode .trackReset) (trackReset s)) :=
  congrArg (finish .trackReset s) (bind_ok.2 ⟨(), checkFault_ok.2 h, rfl⟩)

/-- The track registers and the counters are those of the track (10_state R46, R47): 0 when it is just reset. -/
theorem regRead_trackReset {k : Nat} (h : (41 ≤ k ∧ k ≤ 57) ∨ (59 ≤ k ∧ k ≤ 69)) (w : Word32) (s : State) :
    regRead (complete w (trackReset s)) k = 0 := by
  have hreset : regRead (complete w (trackReset s)) k = regRead State.reset k := by
    rcases h with ⟨h1, h2⟩ | ⟨h1, h2⟩ <;> interval_cases k <;> rfl
  exact hreset.trans (regRead_reset (.inl (by omega)))

/-- The registers before those of the track are no part of it (10_state R38 to R45). -/
theorem regRead_trackReset_kept {k : Nat} (h1 : 8 ≤ k) (h2 : k ≤ 35) (w : Word32) (s : State) :
    regRead (complete w (trackReset s)) k = regRead s k := by
  interval_cases k <;> rfl

/-- Settles O17: the registers of the track read from the reset track, everything else by the frame of the track
reset. -/
theorem trackResetClearsTrack : Obligations.TrackResetClearsTrack := by
  intro s hf
  refine ⟨_, exec_trackReset hf, completed_complete _ _, fun k h1 h2 => regRead_trackReset (.inl ⟨h1, h2⟩) _ s,
    fun k h1 h2 => regRead_trackReset (.inr ⟨h1, h2⟩) _ s, rfl, rfl, rfl, rfl, rfl, rfl, rfl, rfl, rfl, rfl, rfl,
    rfl, rfl, rfl, rfl, rfl, rfl, rfl, rfl, rfl, rfl, rfl, rfl, rfl, rfl, rfl,
    fun _ h1 h2 => regRead_trackReset_kept h1 h2 _ s⟩

/-! ### MODE (R148) -/

/-- What a command that completes leaves in MODE (R148). -/
theorem Effect.mode {i : Instr} {s s' : State} (h : Effect i s s') :
    s'.mode = if i = .reset then Mode.none else (callMode i).getD s.mode := by
  cases i with
  | nop => exact h.elim
  | reset =>
    rw [show s' = resetState s from h]
    rfl
  | trackReset | tsDemux _ _ | tsFlush | flvDemux _ _ =>
    rw [h.1]
    rfl
  | _ =>
    rw [show s' = _ from h]
    rfl

/-- A demux call with the other container latched is refused after the check of the fault state (R148,
60_exceptions R453). -/
theorem exec_otherMode {i : Instr} {k : Mode} {s : State} (hi : callMode i = some k)
    (hf : s.status.fault = false) (hn : s.mode ≠ .none) (hk : s.mode ≠ k) :
    exec i s = .next (errorPath (encode i) { code := .illegalCommand, info := modeCode s.mode } s) := by
  have hfault : checkFault s = .ok () := checkFault_ok.2 hf
  have hmode : checkMode k s = .error { code := .illegalCommand, info := modeCode s.mode } :=
    check_error.2 ⟨by simp [hn, hk], rfl⟩
  cases i with
  | tsDemux _ _ | tsFlush | flvDemux _ _ =>
    cases hi
    exact congrArg (finish _ s) (bind_error.2 (.inr ⟨(), hfault, bind_error.2 (.inl hmode)⟩))
  | _ => cases hi

/-- Settles O19: MODE after a command that completes is that of its effect, and a failing one keeps it. -/
theorem modeLatch : Obligations.ModeLatch := by
  refine ⟨rfl, fun i s t h => ?_, fun i k s hi hf hn hk => exec_otherMode hi hf hn hk⟩
  by_cases hnop : i = .nop
  · subst hnop
    cases h
    rfl
  by_cases hr : i = .reset
  · subst hr
    cases h
    rfl
  rcases exec_effect h hnop with ⟨s', he, rfl⟩ | ⟨e, rfl⟩
  · rw [complete_mode, he.mode]
    cases callMode i <;> rfl
  · rw [if_neg hr]
    cases callMode i with
    | none => rfl
    | some k => exact (if_neg (errByte_ne_zero e.code)).symm

end Sys2Proof.Machine
end

section
/-! PROOFS. 40_control R143, R149, R150: calls that differ in DISC or CONTIG alone. -/

namespace Sys2Proof.Machine

/-! ### Two runs side by side -/

/-- Two runs fail with the same error, or leave states that agree under `g` and `g'`. -/
def EndAlike (g g' : State → State) (r r' : Except Err State) : Prop := r.map g = r'.map g'

section
variable {g g' : State → State} {r r' : Except Err State}

theorem EndAlike.cases (h : EndAlike g g' r r') : (∃ e, r = .error e ∧ r' = .error e) ∨
    ∃ s s', r = .ok s ∧ r' = .ok s' ∧ g s = g' s' := by
  cases r <;> cases r' <;> simp_all [EndAlike, Except.map]

theorem EndAlike.ok {s s' : State} (h : g s = g' s') : EndAlike g g' (.ok s) (.ok s') := congrArg Except.ok h

/-- A step that both runs share. -/
theorem EndAlike.bind {α : Type} {x : Except Err α} {f f' : α → Except Err State}
    (h : ∀ a, EndAlike g g' (f a) (f' a)) : EndAlike g g' (x >>= f) (x >>= f') := by
  cases x with
  | error e => rfl
  | ok a => exact h a

/-- When one of two such runs completes, so does the other, for whichever command it is. -/
theorem EndAlike.completes (hr : EndAlike g g' r r') {i : Instr} {s t : State} (h : finish i s r = .next t)
    (herr : t.status.err = 0) : ∃ s₁ s₂, t = complete (encode i) s₁ ∧ g s₁ = g' s₂ ∧
      ∀ j s', finish j s' r' = .next (complete (encode j) s₂) := by
  rcases hr.cases with ⟨e, rfl, rfl⟩ | ⟨s₁, s₂, rfl, rfl, hs⟩
  · cases h
    exact absurd herr (errByte_ne_zero e.code)
  · cases h
    exact ⟨s₁, s₂, rfl, hs, fun _ _ => rfl⟩

end

/-- A command that ends with STATUS.ERR 0 has had its effect (40_control R140). -/
theorem exec_effect_of_ok {i : Instr} {s t : State} (hn : i ≠ .nop) (h : exec i s = .next t)
    (herr : t.status.err = 0) : ∃ s', Effect i s s' ∧ t = complete (encode i) s' :=
  (exec_effect h hn).resolve_right fun ⟨e, he⟩ =>
    errByte_ne_zero e.code ((congrArg (·.status.err) he).symm.trans herr)

/-! ### CONTIG (R150) -/

/-- Two runs that fail alike, or leave states that differ in CONTIG alone. -/
abbrev AlikeButContig (c : Bool) (r r' : Except Err State) : Prop := EndAlike (State.withContig · c) id r r'

/-- Two such runs of a command end in states that differ in CONTIG alone. -/
theorem AlikeButContig.exists_next {i : Instr} {s t : State} {b c : Bool} {r r' : Except Err State}
    (hr : AlikeButContig c r r') (h : finish i s r = .next t) :
    ∃ c, finish i (s.withContig b) r' = .next (t.withContig c) := by
  rcases EndAlike.cases hr with ⟨e, rfl, rfl⟩ | ⟨s', s'', rfl, rfl, hs⟩
  · cases h
    exact ⟨b, rfl⟩
  · cases h
    cases hs
    exact ⟨c, rfl⟩

/-- A bit-reader primitive does not see CONTIG. -/
theorem withReader_alikeButContig {α : Type} (p : BitP α) (s : State) (b : Bool)
    {f f' : α × State → Except Err State} (h : ∀ v s', AlikeButContig b (f (v, s')) (f' (v, s'.withContig b))) :
    AlikeButContig b (withReader p s >>= f) (withReader p (s.withContig b) >>= f') := by
  simp only [withReader, bind_assoc, pure_bind]
  exact .bind fun _ => .bind fun x => h x.1 _

/-- The runs of TS_DEMUX from states that differ in CONTIG alone, with any two flags. -/
theorem tsDemux_alikeButContig (disc c d b : Bool) (s : State) : ∃ r r', AlikeButContig d r r' ∧
    exec (.tsDemux disc c) s = finish (.tsDemux disc c) s r ∧
    exec (.tsDemux disc d) (s.withContig b) = finish (.tsDemux disc d) (s.withContig b) r' := by
  refine ⟨_, _, ?_, rfl, rfl⟩
  cases disc <;>
    exact .bind fun _ => .bind fun _ => .bind fun _ => .bind fun _ => .bind fun _ => .ok rfl

/-- The runs of FLV_DEMUX from states that differ in CONTIG alone, with any two flags. -/
theorem flvDemux_alikeButContig (disc c d b : Bool) (s : State) : ∃ r r', AlikeButContig d r r' ∧
    exec (.flvDemux disc c) s = finish (.flvDemux disc c) s r ∧
    exec (.flvDemux disc d) (s.withContig b) = finish (.flvDemux disc d) (s.withContig b) r' := by
  refine ⟨_, _, ?_, rfl, rfl⟩
  cases disc <;>
    exact .bind fun _ => .bind fun _ => .bind fun _ => .bind fun _ => .bind fun _ => .bind fun _ => .ok rfl

/-- No command reads CONTIG (R150): from states that differ in it alone, every command takes the same steps. -/
theorem exec_withContig {i : Instr} {s t : State} (b : Bool) (h : exec i s = .next t) :
    ∃ c, exec i (s.withContig b) = .next (t.withContig c) := by
  cases i with
  | nop =>
    cases h
    exact ⟨b, rfl⟩
  | reset =>
    cases h
    exact ⟨false, rfl⟩
  | trackReset | brInit _ => exact AlikeButContig.exists_next (c := b) (.bind fun _ => .ok rfl) h
  | readBits _ | skipBits _ | readUe | skipUe | readSe | skipSe | skipScalingList _ =>
    exact AlikeButContig.exists_next (c := b) (withReader_alikeButContig _ s b fun _ _ => .ok rfl) h
  | splitAnnexb _ _ | splitLenpfx _ _ | epbRemove _ | avcSpsParse _ | hevcSpsParse _ | aacAscParse _
  | mpaHdrParse _ | adtsParse _ | mpaScan _ =>
    exact AlikeButContig.exists_next (c := b) (.bind fun _ => .bind fun _ => .ok rfl) h
  | avccParse _ | hvccParse _ =>
    exact AlikeButContig.exists_next (c := b) (.bind fun _ => .bind fun _ => .bind fun _ => .ok rfl) h
  | tsDemux disc c =>
    obtain ⟨r, r', hr, he, he'⟩ := tsDemux_alikeButContig disc c c b s
    rw [he']
    exact hr.exists_next (he.symm.trans h)
  | flvDemux disc c =>
    obtain ⟨r, r', hr, he, he'⟩ := flvDemux_alikeButContig disc c c b s
    rw [he']
    exact hr.exists_next (he.symm.trans h)
  | tsFlush =>
    exact AlikeButContig.exists_next (c := b)
      (.bind fun _ => .bind fun _ => .bind fun _ => .bind fun _ => .bind fun _ => .ok rfl) h

/-- When a call with one flag completes, so does the call with the other, with the same state but for CONTIG and
ERR_CMD. -/
theorem AlikeButContig.completes {i j : Instr} {s s' t : State} {d : Bool} {r r' : Except Err State}
    (hr : AlikeButContig d r r') (h : finish i s r = .next t) (herr : t.status.err = 0) :
    finish j s' r' = .next { t.withContig d with errCmd := (encode j).setWidth 64 } := by
  obtain ⟨s₁, s₂, rfl, hs, hnext⟩ := EndAlike.completes hr h herr
  cases hs
  exact hnext j s'

/-- A demux call that completes latches its CONTIG flag (R149, R150). -/
theorem contig_of_call {call : Bool → Bool → Instr} (hc : call = .tsDemux ∨ call = .flvDemux) {disc c : Bool}
    {s t : State} (h : exec (call disc c) s = .next t) (herr : t.status.err = 0) : t.status.contig = c := by
  rcases hc with rfl | rfl <;>
  · obtain ⟨s', he, rfl⟩ := exec_effect_of_ok Instr.noConfusion h herr
    exact (congrArg (·.status.contig) he.1 :)

/-- Settles O20: both clauses set two runs side by side, which take the same steps. -/
theorem contigIsOnlyLatched : Obligations.ContigIsOnlyLatched := by
  refine ⟨fun i s t b h => exec_withContig b h, fun call disc c d s t hc h herr =>
    ⟨contig_of_call hc h herr, ?_⟩⟩
  rcases hc with rfl | rfl
  · obtain ⟨r, r', hr, he, he'⟩ := tsDemux_alikeButContig disc c d s.status.contig s
    exact he'.trans (hr.completes (he.symm.trans h) herr)
  · obtain ⟨r, r', hr, he, he'⟩ := flvDemux_alikeButContig disc c d s.status.contig s
    exact he'.trans (hr.completes (he.symm.trans h) herr)

/-! ### DISC (R143, R149) -/

/-- Two runs that fail alike, or leave states that differ in the error registers alone. -/
abbrev AlikeButErr (w : Word32) (r r' : Except Err State) : Prop := EndAlike (complete w) (complete w) r r'

/-- TS_DEMUX after a track reset takes the steps of the call with DISC. -/
theorem tsDemux_alike_disc (contig : Bool) (w w' : Word32) (s : State) : ∃ r r', AlikeButErr w r r' ∧
    exec (.tsDemux false contig) (complete w' (trackReset s)) =
      finish (.tsDemux false contig) (complete w' (trackReset s)) r ∧
    exec (.tsDemux true contig) s = finish (.tsDemux true contig) s r' := by
  have hin (r : Region) : tsInput false (complete w' (trackReset s)) (regionBytes (complete w' (trackReset s)) r) =
      tsInput true s (regionBytes s r) := rfl
  refine ⟨_, _, ?_, rfl, rfl⟩
  simp only [hin]
  exact .bind fun _ => .bind fun _ => .bind fun _ => .bind fun _ => .bind fun _ => .ok rfl

/-- FLV_DEMUX after a track reset takes the steps of the call with DISC: either way the header is still to come. -/
theorem flvDemux_alike_disc (contig : Bool) (w w' : Word32) (s : State) : ∃ r r', AlikeButErr w r r' ∧
    exec (.flvDemux false contig) (complete w' (trackReset s)) =
      finish (.flvDemux false contig) (complete w' (trackReset s)) r ∧
    exec (.flvDemux true contig) s = finish (.flvDemux true contig) s r' := by
  have hseen : (s.trk.flvHdr && !true) = false := Bool.and_false _
  refine ⟨_, _, ?_, rfl, rfl⟩
  rw [hseen]
  exact .bind fun _ => .bind fun _ => .bind fun _ => .bind fun _ => .bind fun _ => .bind fun _ => .ok rfl

/-- When one of two such runs completes, so does the other, with the same state but for ERR_CMD. -/
theorem AlikeButErr.completes {i j : Instr} {s s' t : State} {r r' : Except Err State}
    (hr : AlikeButErr (encode j) r r') (h : finish i s r = .next t) (herr : t.status.err = 0) :
    finish j s' r' = .next { t with errCmd := (encode j).setWidth 64 } := by
  obtain ⟨s₁, s₂, rfl, hs, hnext⟩ := EndAlike.completes hr h herr
  rw [hnext j s', ← hs]
  rfl

/-- A demux call completes outside the fault state only (60_exceptions R453). -/
theorem fault_of_call {call : Bool → Bool → Instr} (hc : call = .tsDemux ∨ call = .flvDemux) {disc c : Bool}
    {s t : State} (h : exec (call disc c) s = .next t) (herr : t.status.err = 0) : s.status.fault = false := by
  rcases hc with rfl | rfl <;>
  · obtain ⟨s', ⟨-, hf, -⟩, rfl⟩ := exec_effect_of_ok Instr.noConfusion h herr
    exact hf

/-- Where TRACK_RESET leaves no fault state it has completed: it keeps FAULT (R147). -/
theorem exec_trackReset_of_fault_false {s s' : State} (h : exec .trackReset s = .next s')
    (hf : s'.status.fault = false) : s' = complete (encode .trackReset) (trackReset s) := by
  rcases exec_effect h Instr.noConfusion with ⟨s₁, ⟨rfl, -⟩, rfl⟩ | ⟨e, rfl⟩
  · rfl
  · have hs : s.status.fault = false := (Bool.or_eq_false_iff.1 hf).1
    exact (Host.Outcome.next.inj ((exec_trackReset hs).symm.trans h)).symm

/-- Settles O18: the second command finds the state that the track reset leaves, and takes the steps of the call
with DISC. -/
theorem trackResetThenCall : Obligations.TrackResetThenCall := by
  intro call contig s s' t hc hreset hcall herr
  obtain rfl := exec_trackReset_of_fault_false hreset (fault_of_call hc hcall herr)
  rcases hc with rfl | rfl
  · obtain ⟨r, r', hr, he, he'⟩ := tsDemux_alike_disc contig (encode (.tsDemux true contig)) _ s
    exact he'.trans (hr.completes (he.symm.trans hcall) herr)
  · obtain ⟨r, r', hr, he, he'⟩ := flvDemux_alike_disc contig (encode (.flvDemux true contig)) _ s
    exact he'.trans (hr.completes (he.symm.trans hcall) herr)

end Sys2Proof.Machine
end

section
/-! PROOFS. 46_ts_demux R350 to R371: a TS_DEMUX call that completes, and what a packet does to its stream. -/

namespace Sys2Proof.Machine

/-! ### The call (R350 to R352) -/

/-- Past its checks a TS_DEMUX completes when its packets are dispatched (R350, 40_control R149). -/
theorem exec_tsDemux_ok {disc contig : Bool} {s : State} {r : Region} {d : Bytes} {x : Dmx}
    (hf : s.status.fault = false) (hm : s.mode = .none ∨ s.mode = .ts) (hr : RegionIs .inp s r)
    (hd : d = tsInput disc s (regionBytes s r)) (hsync : ∀ k < d.length / 188, d[188 * k]? = some 0x47)
    (hx : dispatchAll s.caps ((List.range (d.length / 188)).map fun k => slice d (188 * k) 188)
      { trk := if disc then Track.reset else s.trk, out := Outputs.empty } = .ok x) :
    exec (.tsDemux disc contig) s = .next (complete (encode (.tsDemux disc contig))
      { s with
        mode := .ts, status := { s.status with contig := contig }, out := x.out
        trk := { x.trk with tsRem := d.drop (d.length / 188 * 188) } }) := by
  rw [← packets_eq] at hx
  have hv : validatePackets 0 (packets (d.length / 188) d) = .ok () := by
    refine validatePackets_ok (fun p hp => ?_) 0
    rw [packets_eq] at hp
    obtain ⟨k, hk, rfl⟩ := List.mem_map.1 hp
    exact byteAt_slice (hsync k (List.mem_range.1 hk))
  subst hd
  refine congrArg (finish _ s) (a₂ := .ok _) ?_
  refine bind_ok.2 ⟨(), checkFault_ok.2 hf, bind_ok.2 ⟨(), checkMode_ok.2 hm, ?_⟩⟩
  refine bind_ok.2 ⟨r, resolveRegion_ok.2 hr, bind_ok.2 ⟨(), hv, ?_⟩⟩
  refine bind_ok.2 ⟨x, ?_, ?_⟩
  · rwa [preamble_caps, dmxOf_preamble]
  · rw [preamble_eq, Nat.mul_comm 188]
    rfl

/-- Less than one packet holds no packet to check or to dispatch, and is held back whole (R352). -/
theorem exec_tsDemux_short {disc contig : Bool} {s : State} {r : Region} {d : Bytes}
    (hf : s.status.fault = false) (hm : s.mode = .none ∨ s.mode = .ts) (hr : RegionIs .inp s r)
    (hd : d = tsInput disc s (regionBytes s r)) (hlen : d.length < 188) :
    exec (.tsDemux disc contig) s = .next (complete (encode (.tsDemux disc contig))
      { s with
        mode := .ts, status := { s.status with contig := contig }, out := Outputs.empty
        trk := { (if disc then Track.reset else s.trk) with tsRem := d } }) := by
  have h0 : d.length / 188 = 0 := Nat.div_eq_of_lt hlen
  have h := exec_tsDemux_ok (contig := contig) hf hm hr hd (by simp only [h0, Nat.not_lt_zero, false_implies,
    implies_true]) (by rw [h0]; rfl)
  rwa [h0] at h

/-! ### A packet of an elementary stream (R355, R370, R371) -/

/-- A written packet has a payload or an adaptation field (R353). -/
theorem TsBody.control_ne_zero (b : TsBody) : b.control ≠ 0 := by cases b <;> exact Nat.noConfusion

/-- The dispatcher's test of an elementary stream's PID (R355). -/
theorem esPid_matches (e : EsPid) (pid : BitVec 13) :
    (e.known && decide (pid.toNat = e.pid.toNat)) = decide (e = { pid, known := true }) := by
  obtain ⟨q, known⟩ := e
  cases known with
  | false => simp
  | true => simp [← BitVec.toNat_inj, eq_comm]

/-- Once the PMT is parsed, a packet whose PID no earlier branch takes goes to the stream of its PID, or is
discarded (R355). -/
theorem dispatch_of_parsed (c : Config.Caps) {k : TsPacketCode} {d : Dmx} (hk : k.Valid)
    (hp : d.trk.pmtPid.parsed = true) (h0 : k.pid ≠ 0) (hnull : k.pid ≠ 0x1FFF)
    (hpmt : d.trk.pmtPid.known = true → k.pid ≠ d.trk.pmtPid.pid) :
    dispatch c k.bytes d =
      if d.trk.vPid = { pid := k.pid, known := true } then esPacket c .video k.start k.body.payload d
      else if d.trk.aPid = { pid := k.pid, known := true } then esPacket c .audio k.start k.body.payload d
      else .ok d := by
  have h0' : k.pid.toNat ≠ 0 := fun h => h0 (BitVec.eq_of_toNat_eq h)
  have hnull' : k.pid.toNat ≠ 0x1FFF := fun h => hnull (BitVec.eq_of_toNat_eq h)
  have hpmt' : ¬ (d.trk.pmtPid.known && decide (k.pid.toNat = d.trk.pmtPid.pid.toNat)) = true := fun h => by
    rw [Bool.and_eq_true, decide_eq_true_eq] at h
    exact hpmt h.1 (BitVec.eq_of_toNat_eq h.2)
  simp only [dispatch, dispatchWith, packet_afc, packet_pid, packet_pusi, packet_payload hk, k.body.control_ne_zero,
    h0', hnull', hpmt', hp, esPid_matches, decide_eq_true_eq, Bool.false_eq_true,
    if_false, if_true]

/-- A packet that carries a stream goes to it (R355, R370). -/
theorem dispatch_of_carries (c : Config.Caps) {k : TsPacketCode} {st : Stream} {d : Dmx} (hk : k.Valid)
    (h : Carries d.trk st k.pid) : dispatch c k.bytes d = esPacket c st k.start k.body.payload d := by
  obtain ⟨hp, h0, hnull, hpmt, hst⟩ := h
  rw [dispatch_of_parsed c hk hp h0 hnull hpmt]
  cases st with
  | video => rw [if_pos hst]
  | audio => rw [if_neg hst.2, if_pos hst.1]

/-- Once the PMT is parsed, a packet that carries no stream is discarded: one of the PAT, the PMT or PID 0x1FFF
because nothing is left to parse (R355). -/
theorem dispatch_of_not_carries (c : Config.Caps) {k : TsPacketCode} {d : Dmx} (hk : k.Valid)
    (hknown : d.trk.pmtPid.known = true) (hp : d.trk.pmtPid.parsed = true) (h : ∀ st, ¬ Carries d.trk st k.pid) :
    dispatch c k.bytes d = .ok d := by
  by_cases hother : k.pid ≠ 0 ∧ k.pid ≠ 0x1FFF ∧ k.pid ≠ d.trk.pmtPid.pid
  · obtain ⟨h0, hnull, hpmt⟩ := hother
    have hv : d.trk.vPid ≠ { pid := k.pid, known := true } := fun hv => h .video ⟨hp, h0, hnull, fun _ => hpmt, hv⟩
    have ha : d.trk.aPid ≠ { pid := k.pid, known := true } :=
      fun ha => h .audio ⟨hp, h0, hnull, fun _ => hpmt, ha, hv⟩
    rw [dispatch_of_parsed c hk hp h0 hnull fun _ => hpmt, if_neg hv, if_neg ha]
  · have hpid : k.pid.toNat = 0 ∨ k.pid.toNat = 0x1FFF ∨ k.pid.toNat = d.trk.pmtPid.pid.toNat := by
      by_contra hne
      exact hother ⟨fun e => hne (.inl (e ▸ rfl)), fun e => hne (.inr (.inl (e ▸ rfl))),
        fun e => hne (.inr (.inr (e ▸ rfl)))⟩
    simp only [dispatch, dispatchWith, packet_afc, packet_pid, hknown, hp, Bool.not_true, Bool.and_false,
      Bool.true_and, Bool.false_eq_true, decide_eq_true_eq, if_false, k.body.control_ne_zero]
    rcases hpid with h | h | h <;> simp only [h, if_true, ite_self]

/-- A packet that starts a PES flushes the one pending, when it holds bytes, and starts the next (R370, R371). -/
theorem esPacket_start (c : Config.Caps) {st : Stream} {pl : Bytes} {d d' : Dmx}
    (hf : if (pending st d).getD [] = [] then d' = d else flushPes c st ((pending st d).getD []) d = .ok d')
    (hl : pl.length ≤ c.pendCap) : esPacket c st true pl d = .ok (setPending st (some pl) d') := by
  have hflush : flushPending c st d = .ok d' := by
    unfold flushPending
    cases hp : pending st d with
    | none =>
      rw [hp] at hf
      exact congrArg _ (Eq.symm hf)
    | some p =>
      simp only [hp, Option.getD_some] at hf ⊢
      split_ifs at hf ⊢ with he
      · rw [hf]
      · exact hf
  exact bind_ok.2 ⟨d', hflush, bind_ok.2 ⟨(), checkCap_ok.2 hl, rfl⟩⟩

/-- A packet that does not start a PES extends the one pending (R370, R371). -/
theorem esPacket_more (c : Config.Caps) {st : Stream} {p pl : Bytes} {d : Dmx} (hp : pending st d = some p)
    (hl : (p ++ pl).length ≤ c.pendCap) :
    esPacket c st false pl d = .ok (setPending st (some (p ++ pl)) d) := by
  simp only [esPacket, Bool.false_eq_true, if_false, hp]
  exact bind_ok.2 ⟨(), checkCap_ok.2 hl, rfl⟩

/-- Without a pending PES such a packet is discarded (R370). -/
theorem esPacket_none (c : Config.Caps) {st : Stream} {pl : Bytes} {d : Dmx} (hp : pending st d = none) :
    esPacket c st false pl d = .ok d := by
  simp only [esPacket, Bool.false_eq_true, if_false, hp]

/-- Settles O43: the call by its steps, a packet by the branch of the dispatcher that takes it. -/
theorem tsDemuxCompletes : Obligations.TsDemuxCompletes := by
  refine ⟨fun disc contig s r d hf hm hr hd =>
      ⟨fun x hsync hx => exec_tsDemux_ok hf hm hr hd hsync hx, fun hlen => exec_tsDemux_short hf hm hr hd hlen⟩,
    fun c k st d hk hc => ?_, fun c k d hk hknown hp h => dispatch_of_not_carries c hk hknown hp h⟩
  rw [dispatch_of_carries c hk hc]
  refine ⟨fun d' hs hf hl => ?_, fun p hs hp hl => ?_, fun hs hp => ?_⟩ <;> rw [hs]
  · exact esPacket_start c hf hl
  · exact esPacket_more c hp hl
  · exact esPacket_none c hp

end Sys2Proof.Machine
end

section
/-! PROOFS. 00_scope R12: reading bytes that were written one field after another. -/

namespace Sys2Proof.Machine

/-! ### Big-endian numbers -/

@[simp] theorem length_beBytes (n v : Nat) : (beBytes n v).length = n := by
  induction n generalizing v with
  | zero => rfl
  | succ n ih => simp [beBytes, ih]

/-- The number of a sequence with one more byte. -/
theorem beNat_concat (b : Bytes) (x : Byte) : beNat (b ++ [x]) = beNat b * 256 + x.toNat := by
  simp [beNat]

/-- The big-endian bytes of a number give it back. -/
theorem beNat_beBytes {n v : Nat} (h : v < 256 ^ n) : beNat (beBytes n v) = v := by
  induction n generalizing v with
  | zero => exact (Nat.lt_one_iff.1 h).symm
  | succ n ih =>
    rw [beBytes, beNat_concat, ih (by rw [Nat.pow_succ] at h; omega), BitVec.toNat_ofNat]
    omega

/-! ### Fields of a sequence, by what stands before them -/

section
variable {b pre post : Bytes} {i n : Nat}

theorem slice_of_eq {x : Bytes} (hb : b = pre ++ (x ++ post)) (hi : pre.length = i) (hn : x.length = n) :
    slice b i n = x := by
  subst hb hi hn
  rw [slice, List.drop_left, List.take_left]

theorem beAt_of_eq {v : Nat} (hb : b = pre ++ (beBytes n v ++ post)) (hi : pre.length = i) (hv : v < 256 ^ n) :
    beAt b i n = v := by
  rw [beAt, slice_of_eq hb hi (length_beBytes n v), beNat_beBytes hv]

theorem byteAt_of_eq {x : Byte} (hb : b = pre ++ (x :: post)) (hi : pre.length = i) : byteAt b i = x.toNat := by
  subst hb hi
  simp [byteAt]

end

end Sys2Proof.Machine
end

section
/-! PROOFS. 45_audio R300 to R304: a written AudioSpecificConfig. -/

namespace Sys2Proof.Machine

/-- A read that is followed by no more bits. -/
theorem reads_bind_last {α β : Type} {p : BitP α} {f : α → BitP β} {bs : List Bool} {a : α} {b : β}
    (hp : Reads p bs a) (hf : Reads (f a) [] b) : Reads (p >>= f) bs b :=
  List.append_nil bs ▸ reads_bind hp hf

/-- An object type, from 32 on behind the escape value (R301). -/
theorem reads_ascObjectType {n : Nat} (h : n < 31 ∨ (32 ≤ n ∧ n < 96)) :
    Reads ascObjectType (if n < 31 then natBits 5 n else natBits 5 31 ++ natBits 6 (n - 32)) n := by
  split_ifs with h31
  · refine reads_bind_last (reads_u (v := n) (by omega)) ?_
    rw [if_neg (Nat.ne_of_lt h31)]
    exact reads_pure n
  · obtain ⟨h32, h96⟩ := h.resolve_left h31
    refine reads_bind (reads_u (n := 5) (v := 31) (by decide)) ?_
    rw [if_pos rfl]
    refine reads_bind_last (reads_u (v := n - 32) (by omega)) ?_
    rw [Nat.add_sub_cancel' h32]
    exact reads_pure n

/-- The rates of R300 are those of the model's table. -/
theorem aacRate_eq (i : Nat) : aacRate i = aacRates.getD i 0 := rfl

/-- The channel counts of R304 are those of the model. -/
theorem chanMap_eq (c : BitVec 4) : chanMap c.toNat = channelCount c.toNat := by
  revert c
  decide

/-- The bits of a sample rate: an index, or the rate itself behind index 15 (R301). -/
theorem reads_ascRate {x : AscCode} (hx : x.Valid) :
    Reads ascRate (match x.rate with
      | .inl index => natBits 4 index.toNat
      | .inr hz => natBits 4 15 ++ natBits 24 hz.toNat) x.hz := by
  obtain ⟨-, hindex, -⟩ := hx
  unfold AscCode.hz
  cases hr : x.rate with
  | inl index =>
    have h13 : index.toNat < 13 := hindex index hr
    refine reads_bind_last (reads_u (n := 4) (v := index.toNat) index.isLt) ?_
    rw [if_neg (by omega)]
    exact reads_bind (as := []) (reads_demand _ (decide_eq_true h13)) (reads_pure _)
  | inr hz =>
    refine reads_bind (reads_u (n := 4) (v := 15) (by decide)) ?_
    rw [if_pos rfl]
    exact reads_u hz.isLt

/-- A written AudioSpecificConfig is parsed to its fields (R301, R304). -/
theorem asc_of_written {x : AscCode} {b : Bytes} (hx : x.Valid) (hb : StartsWith b x.bits) :
    asc b = .ok { objectType := x.objectType, rate := x.hz, channels := channelCount x.channels.toNat } := by
  refine parseBytes_reads (bs := x.bits) ?_ hb
  unfold AscCode.bits
  rw [List.append_assoc]
  refine reads_bind (reads_ascObjectType hx.1) (reads_bind (reads_ascRate hx) ?_)
  refine reads_bind (as := []) (reads_demand _ (decide_eq_true hx.2.2)) ?_
  refine reads_bind_last (reads_u (n := 4) (v := x.channels.toNat) x.channels.isLt) ?_
  rw [chanMap_eq]
  exact reads_pure _

end Sys2Proof.Machine
end

section
/-! PROOFS. 42_nal R202: units written behind their lengths. -/

namespace Sys2Proof.Machine

/-- Bytes too short for a length, or for the unit of their length, which is not 0 (R202). -/
def UnitResidue (w : Nat) (rest : Bytes) : Prop :=
  rest.length < w ∨ (beNat (rest.take w) ≠ 0 ∧ rest.length < w + beNat (rest.take w))

/-- The places of units behind lengths of `w` bytes from offset `p` on, the empty ones left out (R202). -/
def prefixedUnits (w : Nat) : Nat → List Bytes → List NalUnit
  | _, [] => []
  | p, u :: us =>
    if u = [] then prefixedUnits w (p + w) us
    else { start := p + w, len := u.length, pfx := w } :: prefixedUnits w (p + w + u.length) us

@[simp] theorem length_lengthPrefixed (w : Nat) (u : Bytes) : (lengthPrefixed w u).length = w + u.length := by
  simp [lengthPrefixed]

/-- The scan of written units gives their places, and the offset of the residue (R202). -/
theorem lenpfxFrom_written {w : Nat} {us : List Bytes} {rest : Bytes} (hw : 0 < w)
    (hus : ∀ u ∈ us, u.length < 256 ^ w) (hrest : UnitResidue w rest) (p fuel : Nat)
    (hfuel : (us.flatMap (lengthPrefixed w) ++ rest).length < fuel) :
    lenpfxFrom w fuel p (us.flatMap (lengthPrefixed w) ++ rest) =
      (prefixedUnits w p us, p + (us.flatMap (lengthPrefixed w)).length) := by
  induction us generalizing p fuel with
  | nil =>
    obtain ⟨fuel, rfl⟩ := Nat.exists_eq_add_one.2 (Nat.zero_lt_of_lt hfuel)
    rcases hrest with hshort | ⟨hne, hshort⟩
    · simp [lenpfxFrom, hshort, prefixedUnits]
    · simp [lenpfxFrom, hshort, hne, prefixedUnits]
  | cons u us ih =>
    obtain ⟨fuel, rfl⟩ := Nat.exists_eq_add_one.2 (Nat.zero_lt_of_lt hfuel)
    have hu : u.length < 256 ^ w := hus u List.mem_cons_self
    have ih := fun p => ih (fun v hv => hus v (List.mem_cons_of_mem _ hv)) p fuel
    rw [List.flatMap_cons, List.append_assoc] at hfuel ⊢
    generalize hmore : us.flatMap (lengthPrefixed w) ++ rest = more at hfuel ih ⊢
    have hlen : (lengthPrefixed w u ++ more).length = w + u.length + more.length := by simp
    have htake : beNat ((lengthPrefixed w u ++ more).take w) = u.length := by
      rw [lengthPrefixed, List.append_assoc, List.take_left' (length_beBytes w _), beNat_beBytes hu]
    have hdrop : (lengthPrefixed w u ++ more).drop (w + u.length) = more :=
      List.drop_left' (length_lengthPrefixed w u)
    rw [lenpfxFrom, if_neg (by omega)]
    simp only [htake, List.length_append, length_lengthPrefixed]
    by_cases hu0 : u = []
    · have hdrop0 : (lengthPrefixed w u ++ more).drop w = more := by simp [hu0]
      rw [if_pos (List.length_eq_zero_iff.2 hu0), hdrop0, ih _ (by omega), prefixedUnits, if_pos hu0]
      simp [hu0, Nat.add_assoc]
    · have hpos : u.length ≠ 0 := fun h => hu0 (List.length_eq_zero_iff.1 h)
      rw [if_neg hpos, if_neg (by omega), hdrop, ih _ (by omega), prefixedUnits, if_neg hu0]
      simp [Nat.add_assoc]

/-- The units of a sequence written behind their lengths (R202). -/
theorem lenpfxUnits_written {w : Nat} {us : List Bytes} {rest : Bytes} (hw : 0 < w)
    (hus : ∀ u ∈ us, u.length < 256 ^ w) (hrest : UnitResidue w rest) :
    lenpfxUnits (us.flatMap (lengthPrefixed w) ++ rest) w =
      (prefixedUnits w 0 us, (us.flatMap (lengthPrefixed w)).length) := by
  rw [lenpfxUnits, lenpfxFrom_written hw hus hrest 0 _ (Nat.lt_succ_self _), Nat.zero_add]

/-- The places of written units name their bytes. -/
theorem prefixedUnits_slices (w : Nat) (us : List Bytes) (pre rest : Bytes) :
    (prefixedUnits w pre.length us).map
        (fun x => slice (pre ++ (us.flatMap (lengthPrefixed w) ++ rest)) x.start x.len) =
      us.filter fun u => decide (u ≠ []) := by
  induction us generalizing pre with
  | nil => rfl
  | cons u us ih =>
    have hpre : (pre ++ lengthPrefixed w u).length = pre.length + w + u.length := by simp [Nat.add_assoc]
    have hbytes : pre ++ ((u :: us).flatMap (lengthPrefixed w) ++ rest) =
        (pre ++ lengthPrefixed w u) ++ (us.flatMap (lengthPrefixed w) ++ rest) := by simp
    have ih := ih (pre ++ lengthPrefixed w u)
    rw [hpre] at ih
    rw [hbytes, prefixedUnits]
    by_cases hu0 : u = []
    · subst hu0
      simpa using ih
    · have hslice : slice ((pre ++ lengthPrefixed w u) ++ (us.flatMap (lengthPrefixed w) ++ rest))
          (pre.length + w) u.length = u :=
        slice_of_eq (pre := pre ++ beBytes w u.length) (post := us.flatMap (lengthPrefixed w) ++ rest)
          (by simp [lengthPrefixed]) (by simp) rfl
      rw [if_neg hu0, List.map_cons, hslice, ih, List.filter_cons_of_pos (by simpa using hu0)]

end Sys2Proof.Machine
end

section
/-! PROOFS. 43_avc_paramsets R240, 44_hevc_paramsets R280: written decoder configuration records. -/

namespace Sys2Proof.Machine

/-! ### Entries and the units they name -/

/-- The entries of a record name the parameter sets in its bytes, one by one. -/
def Lists (b : Bytes) (es : List RecordEntry) (ps : List PsEntry) : Prop :=
  List.Forall₂ (fun e p => e.kind = p.kind ∧ e.len = p.bytes.length ∧ slice b e.start e.len = p.bytes) es ps

section
variable {b : Bytes} {es : List RecordEntry} {ps : List PsEntry}

theorem Lists.append {es' : List RecordEntry} {ps' : List PsEntry} (h : Lists b es ps) (h' : Lists b es' ps') :
    Lists b (es ++ es') (ps ++ ps') := List.rel_append h h'

theorem Lists.recordPs (h : Lists b es ps) : recordPs b es = ps := by
  induction h with
  | nil => rfl
  | cons h _ ih =>
    obtain ⟨hk, -, hs⟩ := h
    rw [Machine.recordPs, List.map_cons, hk, hs]
    exact congrArg _ ih

theorem Lists.recordLen (h : Lists b es ps) : recordLen es = (psBytes ps).length := by
  induction h with
  | nil => rfl
  | cons h _ ih =>
    rw [Machine.recordLen] at ih ⊢
    rw [List.map_cons, List.sum_cons, ih, h.2.1, psBytes, psBytes, List.flatMap_cons, List.length_append]

theorem Lists.length (h : Lists b es ps) : es.length = ps.length := List.Forall₂.length_eq h

/-- The first SPS entry names the first SPS (R240). -/
theorem Lists.firstSps (h : Lists b es ps) (parse : Bytes → Except Err SpsInfo) {u : Bytes}
    (hu : ps.find? (fun p => p.kind = .sps) = some { kind := .sps, bytes := u }) :
    firstSps parse b es = parse u := by
  induction h with
  | nil => cases hu
  | @cons e p es ps h _ ih =>
    obtain ⟨hk, hl, hs⟩ := h
    by_cases hp : p.kind = .sps
    · rw [List.find?_cons_of_pos (by simpa using hp)] at hu
      cases hu
      rw [Machine.firstSps, List.find?_cons_of_pos (by simpa using hk.trans hp)]
      exact congrArg parse hs
    · rw [List.find?_cons_of_neg (by simpa using hp)] at hu
      rw [Machine.firstSps, List.find?_cons_of_neg (by simpa [hk] using hp)]
      exact ih hu

end

@[simp] theorem listedUnits_cons (u : Bytes) (us : List Bytes) :
    listedUnits (u :: us) = beBytes 2 u.length ++ (u ++ listedUnits us) := by
  simp [listedUnits, lengthPrefixed]

/-- The entries of a written list name its units. -/
theorem lists_listed (kind : PsKind) (us : List Bytes) (pre post : Bytes) :
    Lists (pre ++ (listedUnits us ++ post)) (listedEntries kind pre.length us)
      (us.map fun u => { kind, bytes := u }) := by
  induction us generalizing pre with
  | nil => exact .nil
  | cons u us ih =>
    have hmore := ih (pre ++ (beBytes 2 u.length ++ u))
    simp only [List.length_append, length_beBytes, List.append_assoc] at hmore
    rw [← Nat.add_assoc] at hmore
    rw [listedUnits_cons, List.append_assoc, List.append_assoc]
    have hslice : slice (pre ++ (beBytes 2 u.length ++ (u ++ (listedUnits us ++ post)))) (pre.length + 2)
        u.length = u :=
      slice_of_eq (pre := pre ++ beBytes 2 u.length) (List.append_assoc _ _ _).symm (by simp) rfl
    exact .cons ⟨rfl, rfl, hslice⟩ hmore

/-- A written list of units is walked to its end, and listed when it has a kind (R240, 44 R280). -/
theorem recordEntries_written (kind : Option PsKind) {us : List Bytes} (hus : ∀ u ∈ us, u.length < 2 ^ 16)
    (pre post : Bytes) :
    recordEntries (pre ++ (listedUnits us ++ post)) kind us.length pre.length =
      .ok (kind.elim [] (listedEntries · pre.length us), pre.length + (listedUnits us).length) := by
  induction us generalizing pre with
  | nil => cases kind <;> rfl
  | cons u us ih =>
    have ih := ih (fun v hv => hus v (List.mem_cons_of_mem _ hv)) (pre ++ (beBytes 2 u.length ++ u))
    simp only [List.length_append, length_beBytes, List.append_assoc] at ih
    rw [← Nat.add_assoc] at ih
    rw [listedUnits_cons, List.append_assoc, List.append_assoc]
    set r := pre ++ (beBytes 2 u.length ++ (u ++ (listedUnits us ++ post))) with hr
    have hn : beAt r pre.length 2 = u.length := beAt_of_eq hr rfl (hus u List.mem_cons_self)
    have hlen : r.length = pre.length + 2 + u.length + (listedUnits us ++ post).length := by
      simp [hr, Nat.add_assoc]
    refine bind_ok.2 ⟨(), check_ok.2 (decide_eq_true (by omega)), ?_⟩
    rw [hn]
    refine bind_ok.2 ⟨(), check_ok.2 (decide_eq_true (by omega)), ?_⟩
    refine bind_ok.2 ⟨_, ih, ?_⟩
    cases kind <;> simp [listedEntries, Nat.add_assoc, pure, Except.pure]

/-! ### avcC (43_avc_paramsets R240) -/

/-- The six bytes of an avcC record before its SPS units. -/
def AvcRecord.head (x : AvcRecord) : Bytes :=
  x.profileBytes.toList ++ [x.lengthByte, BitVec.ofNat 8 (x.reserved.toNat * 32 + x.sps.length)]

theorem AvcRecord.length_head (x : AvcRecord) : x.head.length = 6 := by simp [head]

/-- The record by its SPS units. -/
theorem AvcRecord.bytes_eq (x : AvcRecord) : x.bytes =
    x.head ++ (listedUnits x.sps ++ (BitVec.ofNat 8 x.pps.length :: (listedUnits x.pps ++ x.tail))) := by
  simp [bytes, head]

/-- The record by its PPS units. -/
theorem AvcRecord.bytes_eq_pps (x : AvcRecord) : x.bytes =
    (x.head ++ (listedUnits x.sps ++ [BitVec.ofNat 8 x.pps.length])) ++ (listedUnits x.pps ++ x.tail) := by
  simp [bytes_eq]

theorem AvcRecord.length_before_pps (x : AvcRecord) :
    (x.head ++ (listedUnits x.sps ++ [BitVec.ofNat 8 x.pps.length])).length = 7 + (listedUnits x.sps).length := by
  simp only [List.length_append, length_head, List.length_singleton]
  omega

/-- The entries of an avcC record name its parameter sets. -/
theorem AvcRecord.lists (x : AvcRecord) : Lists x.bytes x.entries x.psets := by
  refine .append ?_ ?_
  · rw [← x.length_head, x.bytes_eq]
    exact lists_listed .sps x.sps _ _
  · rw [← x.length_before_pps, x.bytes_eq_pps]
    exact lists_listed .pps x.pps _ _

/-- The first SPS of an avcC record comes first. -/
theorem AvcRecord.find_sps {x : AvcRecord} {u : Bytes} (h : x.sps.head? = some u) :
    x.psets.find? (fun p => p.kind = .sps) = some { kind := .sps, bytes := u } := by
  obtain ⟨us, hus⟩ := List.head?_eq_some_iff.1 h
  simp [psets, hus]

/-- A written avcC record is parsed to its length size, its entries and its first SPS's results. -/
theorem avcc_of_written {x : AvcRecord} {g : SpsInfo} (hx : x.Valid)
    (hg : ∃ u, x.sps.head? = some u ∧ avcSps u = .ok g) :
    avcc x.bytes = .ok { lensize := x.lengthByte.toNat % 4 + 1, ents := x.entries, sps := g } := by
  obtain ⟨hs, hp, hu⟩ := hx
  obtain ⟨u, hhead, hparse⟩ := hg
  have hreserved := x.reserved.isLt
  have hlen : x.bytes.length = 7 + (listedUnits x.sps).length + (listedUnits x.pps ++ x.tail).length := by
    rw [x.bytes_eq_pps, List.length_append, x.length_before_pps]
  have h4 : byteAt x.bytes 4 = x.lengthByte.toNat :=
    byteAt_of_eq (pre := x.profileBytes.toList) (by simp [AvcRecord.bytes]; rfl) (by simp)
  have h5 : byteAt x.bytes 5 % 32 = x.sps.length := by
    rw [byteAt_of_eq (pre := x.profileBytes.toList ++ [x.lengthByte])
      (by simp [AvcRecord.bytes]; exact ⟨rfl, rfl⟩) (by simp), BitVec.toNat_ofNat]
    omega
  have hcount : byteAt x.bytes (6 + (listedUnits x.sps).length) = x.pps.length := by
    rw [byteAt_of_eq (pre := x.head ++ listedUnits x.sps)
      (by simp [x.bytes_eq]; exact ⟨rfl, rfl⟩) (by simp [x.length_head]), BitVec.toNat_ofNat]
    omega
  have hsps : recordEntries x.bytes (some .sps) x.sps.length 6 =
      .ok (listedEntries .sps 6 x.sps, 6 + (listedUnits x.sps).length) := by
    rw [x.bytes_eq, ← x.length_head]
    exact recordEntries_written _ (fun v hv => hu v (List.mem_append_left _ hv)) _ _
  have hpps : recordEntries x.bytes (some .pps) x.pps.length (7 + (listedUnits x.sps).length) =
      .ok (listedEntries .pps (7 + (listedUnits x.sps).length) x.pps,
        7 + (listedUnits x.sps).length + (listedUnits x.pps).length) := by
    rw [x.bytes_eq_pps, ← x.length_before_pps]
    exact recordEntries_written _ (fun v hv => hu v (List.mem_append_right _ hv)) _ _
  refine bind_ok.2 ⟨(), check_ok.2 (decide_eq_true (by omega)), ?_⟩
  rw [h4, h5, hsps]
  refine bind_ok.2 ⟨_, rfl, bind_ok.2 ⟨(), check_ok.2 (decide_eq_true (by omega)), ?_⟩⟩
  rw [hcount, Nat.add_right_comm 6, hpps]
  refine bind_ok.2 ⟨_, rfl, bind_ok.2 ⟨g, ?_, rfl⟩⟩
  rw [← hparse]
  exact x.lists.firstSps avcSps (AvcRecord.find_sps hhead)

/-! ### hvcC (44_hevc_paramsets R280) -/

/-- The parameter sets of an array: none for other types. -/
def HevcArray.psets (a : HevcArray) : List PsEntry :=
  a.kind.elim [] fun k => a.units.map fun u => { kind := k, bytes := u }

theorem HevcRecord.psets_eq (x : HevcRecord) : x.psets = x.arrays.flatMap HevcArray.psets := by
  unfold psets
  congr 1
  funext a
  unfold HevcArray.psets
  cases a.kind <;> rfl

theorem arrayEntries_cons (p : Nat) (a : HevcArray) (as : List HevcArray) :
    arrayEntries p (a :: as) =
      a.kind.elim [] (listedEntries · (p + 3) a.units) ++ arrayEntries (p + a.bytes.length) as := by
  rw [arrayEntries]
  cases a.kind <;> rfl

/-- The kind of a NAL unit type (R280). -/
theorem HevcArray.hevcKind_eq (a : HevcArray) : hevcKind a.nalType.toNat = a.kind := by
  simp only [hevcKind, kind, ← BitVec.toNat_inj]
  rfl

@[simp] theorem HevcArray.length_bytes (a : HevcArray) : a.bytes.length = 3 + (listedUnits a.units).length := by
  simp only [bytes, List.length_cons, List.length_append, length_beBytes]
  omega

/-- The three bytes of an array before its units. -/
def HevcArray.head (a : HevcArray) : Bytes :=
  BitVec.ofNat 8 (a.flags.toNat * 64 + a.nalType.toNat) :: beBytes 2 a.units.length

theorem HevcArray.length_head (a : HevcArray) : a.head.length = 3 := by simp [head]

theorem HevcArray.bytes_eq (a : HevcArray) : a.bytes = a.head ++ listedUnits a.units := rfl

/-- The entries of written arrays name their parameter sets. -/
theorem lists_arrays (as : List HevcArray) (pre post : Bytes) :
    Lists (pre ++ (as.flatMap HevcArray.bytes ++ post)) (arrayEntries pre.length as)
      (as.flatMap HevcArray.psets) := by
  induction as generalizing pre with
  | nil => exact .nil
  | cons a as ih =>
    have hmore := ih (pre ++ a.bytes)
    rw [List.length_append] at hmore
    rw [List.flatMap_cons, List.flatMap_cons, arrayEntries_cons]
    refine .append ?_ (by simpa using hmore)
    unfold HevcArray.psets
    cases a.kind with
    | none => exact .nil
    | some k =>
      have h := lists_listed k a.units (pre ++ a.head) (as.flatMap HevcArray.bytes ++ post)
      rw [List.length_append, a.length_head] at h
      simpa [a.bytes_eq] using h

/-- Written arrays are walked to their end (R280). -/
theorem hvccArrays_written {as : List HevcArray}
    (has : ∀ a ∈ as, a.units.length < 2 ^ 16 ∧ ∀ u ∈ a.units, u.length < 2 ^ 16) (pre post : Bytes) :
    hvccArrays (pre ++ (as.flatMap HevcArray.bytes ++ post)) as.length pre.length =
      .ok (arrayEntries pre.length as) := by
  induction as generalizing pre with
  | nil => rfl
  | cons a as ih =>
    obtain ⟨hn, hu⟩ := has a List.mem_cons_self
    have hflags := a.flags.isLt
    have htype := a.nalType.isLt
    have hmore := ih (fun b hb => has b (List.mem_cons_of_mem _ hb)) (pre ++ a.bytes)
    have hents := recordEntries_written a.kind hu (pre ++ a.head) (as.flatMap HevcArray.bytes ++ post)
    rw [List.length_append, a.length_head] at hents
    rw [List.length_append] at hmore
    rw [arrayEntries_cons]
    set r := pre ++ ((a :: as).flatMap HevcArray.bytes ++ post) with hr
    have hr1 : (pre ++ a.bytes) ++ (as.flatMap HevcArray.bytes ++ post) = r := by simp [hr]
    have hr2 : (pre ++ a.head) ++ (listedUnits a.units ++ (as.flatMap HevcArray.bytes ++ post)) = r := by
      simp [hr, a.bytes_eq]
    have hlen : r.length = pre.length + a.bytes.length + (as.flatMap HevcArray.bytes ++ post).length := by
      rw [← hr1, List.length_append, List.length_append]
    have hcount : beAt r (pre.length + 1) 2 = a.units.length :=
      beAt_of_eq (pre := pre ++ [BitVec.ofNat 8 (a.flags.toNat * 64 + a.nalType.toNat)])
        (by simp [← hr2, HevcArray.head]; rfl) (by simp) hn
    have hkind : hevcKind (byteAt r pre.length % 64) = a.kind := by
      rw [byteAt_of_eq (pre := pre) (by simp [← hr2, HevcArray.head]; exact ⟨rfl, rfl⟩) rfl, BitVec.toNat_ofNat,
        ← a.hevcKind_eq]
      congr 1
      omega
    rw [hr1] at hmore
    rw [hr2] at hents
    rw [a.length_bytes] at hlen hmore ⊢
    refine bind_ok.2 ⟨(), check_ok.2 (decide_eq_true (by omega)), ?_⟩
    rw [hkind, hcount, hents]
    exact bind_ok.2 ⟨_, rfl, bind_ok.2 ⟨_, by rw [Nat.add_assoc]; exact hmore, rfl⟩⟩

/-- The entries of an hvcC record name its parameter sets. -/
theorem HevcRecord.lists (x : HevcRecord) : Lists x.bytes x.entries x.psets := by
  have h := lists_arrays x.arrays (x.header.toList ++ [x.lengthByte, BitVec.ofNat 8 x.arrays.length]) x.tail
  rw [x.psets_eq]
  simpa [bytes, entries] using h

theorem HevcArray.kind_eq_sps (a : HevcArray) : a.kind = some .sps ↔ a.nalType = 33 := by
  unfold kind
  split_ifs with h32 h33 h34 <;> simp_all

/-- The parameter sets of an array are of its kind. -/
theorem HevcArray.kind_of_mem {a : HevcArray} {p : PsEntry} (h : p ∈ a.psets) : a.kind = some p.kind := by
  unfold psets at h
  cases hk : a.kind with
  | none =>
    rw [hk] at h
    cases h
  | some k =>
    rw [hk] at h
    obtain ⟨u, -, rfl⟩ := List.mem_map.1 h
    rfl

/-- The first SPS of an array: its first unit, when its type is 33. -/
theorem HevcArray.find_sps (a : HevcArray) : a.psets.find? (fun p => p.kind = .sps) =
    (if a.nalType = 33 then a.units.head? else none).map fun u => { kind := .sps, bytes := u } := by
  by_cases h33 : a.nalType = 33
  · rw [psets, a.kind_eq_sps.2 h33, if_pos h33]
    cases a.units <;> rfl
  · rw [if_neg h33, Option.map_none, List.find?_eq_none]
    intro p hp hsps
    exact h33 (a.kind_eq_sps.1 (of_decide_eq_true hsps ▸ HevcArray.kind_of_mem hp))

/-- The first SPS of an hvcC record is the first unit of its arrays of type 33. -/
theorem HevcRecord.find_sps {x : HevcRecord} {u : Bytes} (h : x.firstSps = some u) :
    x.psets.find? (fun p => p.kind = .sps) = some { kind := .sps, bytes := u } := by
  have harrays (as : List HevcArray) : (as.flatMap HevcArray.psets).find? (fun p => p.kind = .sps) =
      ((as.filter fun a => a.nalType = 33).flatMap HevcArray.units).head?.map fun u =>
        { kind := .sps, bytes := u } := by
    induction as with
    | nil => rfl
    | cons a as ih =>
      rw [List.flatMap_cons, List.find?_append, ih, a.find_sps]
      by_cases h33 : a.nalType = 33
      · rw [if_pos h33, List.filter_cons_of_pos (by simpa using h33), List.flatMap_cons, List.head?_append]
        cases a.units.head? <;> rfl
      · rw [if_neg h33, List.filter_cons_of_neg (by simpa using h33)]
        rfl
  rw [x.psets_eq, harrays]
  exact congrArg _ h

/-- A written hvcC record is parsed to its length size, its entries and its first SPS's results. -/
theorem hvcc_of_written {x : HevcRecord} {g : SpsInfo} (hx : x.Valid)
    (hg : ∃ u, x.firstSps = some u ∧ hevcSps u = .ok g) :
    hvcc x.bytes = .ok { lensize := x.lengthByte.toNat % 4 + 1, ents := x.entries, sps := g } := by
  obtain ⟨hn, has⟩ := hx
  obtain ⟨u, hfirst, hparse⟩ := hg
  have h21 : byteAt x.bytes 21 = x.lengthByte.toNat :=
    byteAt_of_eq (pre := x.header.toList) (by simp [HevcRecord.bytes]; rfl) (by simp)
  have h22 : byteAt x.bytes 22 = x.arrays.length := by
    rw [byteAt_of_eq (pre := x.header.toList ++ [x.lengthByte])
      (by simp [HevcRecord.bytes]; exact ⟨rfl, rfl⟩) (by simp), BitVec.toNat_ofNat, Nat.mod_eq_of_lt hn]
  have hlen : 23 ≤ x.bytes.length := by
    simp [HevcRecord.bytes]
    omega
  have hents := hvccArrays_written has (x.header.toList ++ [x.lengthByte, BitVec.ofNat 8 x.arrays.length]) x.tail
  refine bind_ok.2 ⟨(), check_ok.2 (decide_eq_true hlen), ?_⟩
  rw [h21, h22]
  refine bind_ok.2 ⟨x.entries, by simpa [HevcRecord.bytes, HevcRecord.entries] using hents, bind_ok.2 ⟨g, ?_, rfl⟩⟩
  rw [← hparse]
  exact x.lists.firstSps hevcSps (HevcRecord.find_sps hfirst)

end Sys2Proof.Machine
end

section
/-! PROOFS. 47_flv_demux R410 to R415: an FLV_DEMUX call that completes, its header and its tags. -/

namespace Sys2Proof.Machine

/-! ### The call (R410) -/

/-- Past its checks an FLV_DEMUX completes when its tags are handled and the rest fits (R410, 40_control R149). -/
theorem exec_flvDemux_ok {disc contig : Bool} {s : State} {r : Region} {b rest : Bytes} {x : Dmx}
    (hf : s.status.fault = false) (hm : s.mode = .none ∨ s.mode = .flv) (hr : RegionIs .inp s r)
    (hb : b = flvInput disc s (regionBytes s r)) (hv : validateStart (s.trk.flvHdr && !disc) b = .ok ())
    (hx : flvBody s.caps b { trk := if disc then Track.reset else s.trk, out := Outputs.empty } = .ok (rest, x))
    (hcap : rest.length ≤ s.caps.remCap) :
    exec (.flvDemux disc contig) s = .next (complete (encode (.flvDemux disc contig))
      { s with
        mode := .flv, status := { s.status with contig := contig }, out := x.out
        trk := { x.trk with flvRem := rest } }) := by
  subst hb
  refine congrArg (finish _ s) (a₂ := .ok _) ?_
  refine bind_ok.2 ⟨(), checkFault_ok.2 hf, bind_ok.2 ⟨(), checkMode_ok.2 hm, ?_⟩⟩
  refine bind_ok.2 ⟨r, resolveRegion_ok.2 hr, bind_ok.2 ⟨(), hv, ?_⟩⟩
  refine bind_ok.2 ⟨(rest, x), ?_, bind_ok.2 ⟨(), ?_, ?_⟩⟩
  · rwa [preamble_caps, dmxOf_preamble]
  · rw [preamble_caps]
    exact checkCap_ok.2 hcap
  · rw [preamble_eq]
    rfl

/-- Before the header, fewer than 9 bytes are held back (R412). -/
theorem flvBody_short (c : Config.Caps) {b : Bytes} {d : Dmx} (hd : d.trk.flvHdr = false) (hb : b.length < 9) :
    flvBody c b d = .ok (b, d) := by
  rw [flvBody, hd, if_neg Bool.false_ne_true, if_pos hb]

/-! ### The tag scan (R413) -/

/-- Bytes too short for a whole tag are held back. -/
theorem flvTags_partial (c : Config.Caps) (fuel : Nat) {b : Bytes} (hb : PartialTag b) (d : Dmx) :
    flvTags c fuel b d = .ok (b, d) := by
  cases fuel with
  | zero => rfl
  | succ fuel =>
    rw [flvTags]
    by_cases h11 : b.length < 11
    · rw [if_pos h11]
    · rw [if_neg h11]
      exact if_pos (hb.resolve_left h11)

/-- Fuel beyond the number of bytes changes nothing: a round consumes bytes. -/
theorem flvTags_fuel (c : Config.Caps) {m n : Nat} {b : Bytes} (hm : b.length ≤ m) (hn : b.length ≤ n) (d : Dmx) :
    flvTags c m b d = flvTags c n b d := by
  induction m generalizing n b d with
  | zero =>
    have hb : PartialTag b := .inl (by omega)
    rw [flvTags_partial c 0 hb, flvTags_partial c n hb]
  | succ m ih =>
    by_cases hb : PartialTag b
    · rw [flvTags_partial c _ hb, flvTags_partial c n hb]
    · obtain ⟨h11, hsize⟩ := not_or.1 hb
      obtain ⟨n, rfl⟩ : ∃ k, n = k + 1 := ⟨n - 1, by omega⟩
      rw [flvTags, flvTags, if_neg h11, if_neg h11]
      refine ite_congr rfl (fun _ => rfl) fun _ => bind_congr fun d' => ?_
      exact ih (by rw [List.length_drop]; omega) (by rw [List.length_drop]; omega) d'

/-! ### A written tag (R414) -/

theorem FlvTagCode.length_bytes (x : FlvTagCode) : x.bytes.length = 11 + x.payload.length := by
  simp only [bytes, List.length_cons, List.length_append, length_beBytes, List.length_nil]
  omega

theorem FlvTagCode.length_whole (x : FlvTagCode) (trailer : BitVec 32) :
    (x.whole trailer).length = 11 + x.payload.length + 4 := by
  rw [whole, List.length_append, length_beBytes, x.length_bytes]

/-- The size field (R413). -/
theorem FlvTagCode.size_field {x : FlvTagCode} (hx : x.Valid) (post : Bytes) :
    beAt (x.bytes ++ post) 1 3 = x.payload.length :=
  beAt_of_eq (pre := [x.type]) (by simp [bytes]; rfl) rfl hx

/-- The timestamp of R414, from its two fields. -/
theorem FlvTagCode.flvTimestamp_eq {x : FlvTagCode} : flvTimestamp x.bytes = x.timestamp.toNat := by
  have hlow : beAt x.bytes 4 3 = x.timestamp.toNat % 2 ^ 24 :=
    beAt_of_eq (pre := x.type :: beBytes 3 x.payload.length) (by simp [bytes]; rfl) (by simp)
      (Nat.mod_lt _ (by decide))
  have hhigh : byteAt x.bytes 7 = x.timestamp.toNat / 2 ^ 24 := by
    have h := x.timestamp.isLt
    rw [byteAt_of_eq (pre := x.type :: (beBytes 3 x.payload.length ++ beBytes 3 (x.timestamp.toNat % 2 ^ 24)))
      (by simp [bytes]; exact ⟨rfl, rfl⟩) (by simp), BitVec.toNat_ofNat]
    omega
  rw [flvTimestamp, hlow, hhigh]
  omega

/-- The payload follows eleven bytes (R414). -/
theorem FlvTagCode.drop_header (x : FlvTagCode) : x.bytes.drop 11 = x.payload := by
  have hb : x.bytes = (x.type :: (beBytes 3 x.payload.length ++ beBytes 3 (x.timestamp.toNat % 2 ^ 24)
      ++ [BitVec.ofNat 8 (x.timestamp.toNat / 2 ^ 24)] ++ beBytes 3 x.streamId.toNat)) ++ x.payload := rfl
  rw [hb]
  exact List.drop_left' (by simp)

/-- A written tag is handled by its type, at its timestamp (R415). -/
theorem flvTag_written (c : Config.Caps) (x : FlvTagCode) (d : Dmx) :
    flvTag c x.bytes d =
      if x.type = 8 then flvAudioTag c x.timestamp.toNat x.payload d
      else if x.type = 9 then flvVideoTag c x.timestamp.toNat x.payload d
      else .ok d := by
  have htype : byteAt x.bytes 0 = x.type.toNat := rfl
  rw [flvTag, htype, x.flvTimestamp_eq, x.drop_header]
  simp only [← BitVec.toNat_inj]
  rfl

/-- A whole tag is handled, and the scan goes on behind its trailer (R413). -/
theorem flvTags_whole (c : Config.Caps) (fuel : Nat) {x : FlvTagCode} (hx : x.Valid) (trailer : BitVec 32)
    (b : Bytes) (d : Dmx) :
    flvTags c (fuel + 1) (x.whole trailer ++ b) d = flvTag c x.bytes d >>= flvTags c fuel b := by
  have hsize : beAt (x.whole trailer ++ b) 1 3 = x.payload.length := by
    rw [FlvTagCode.whole, List.append_assoc, x.size_field hx]
  have hlen : (x.whole trailer ++ b).length = 11 + x.payload.length + 4 + b.length := by
    rw [List.length_append, x.length_whole]
  have htake : (x.whole trailer ++ b).take (11 + x.payload.length) = x.bytes := by
    rw [FlvTagCode.whole, List.append_assoc, List.take_left' x.length_bytes]
  have hdrop : (x.whole trailer ++ b).drop (11 + x.payload.length + 4) = b := List.drop_left' (x.length_whole trailer)
  rw [flvTags]
  simp only [hsize, htake, hdrop]
  rw [if_neg (by omega), if_neg (by omega)]

/-- Whole tags are handled in order, and a partial one after them is held back (R413). -/
theorem flvTags_written (c : Config.Caps) {xs : List (FlvTagCode × BitVec 32)} {rest : Bytes}
    (hxs : ∀ x ∈ xs, x.1.Valid) (hrest : PartialTag rest) {fuel : Nat} (hfuel : xs.length ≤ fuel) (d : Dmx) :
    flvTags c fuel (xs.flatMap (fun x => x.1.whole x.2) ++ rest) d =
      (xs.foldlM (fun d x => flvTag c x.1.bytes d) d).map fun d => (rest, d) := by
  induction xs generalizing fuel d with
  | nil => exact flvTags_partial c fuel hrest d
  | cons x xs ih =>
    obtain ⟨fuel, rfl⟩ := Nat.exists_eq_add_one.2 (Nat.zero_lt_of_lt hfuel)
    rw [List.flatMap_cons, List.append_assoc, flvTags_whole c fuel (hxs x List.mem_cons_self), List.foldlM_cons]
    cases flvTag c x.1.bytes d with
    | error e => rfl
    | ok d' => exact ih (fun y hy => hxs y (List.mem_cons_of_mem _ hy)) (Nat.le_of_succ_le_succ hfuel) d'

/-- With the header seen, the call is the tag scan over its bytes. -/
theorem flvBody_of_seen (c : Config.Caps) (b : Bytes) {d : Dmx} (hd : d.trk.flvHdr = true) :
    flvBody c b d = flvTags c b.length b d := by
  rw [flvBody, if_pos hd, flvFrom, List.drop_zero, ← hd]

/-- A written header is skipped: its size counts from the start of the file, and four bytes follow it (R412). -/
theorem flvBody_header (c : Config.Caps) (flags : Byte) {extra : Bytes} (hlen : 9 + extra.length < 2 ^ 32)
    (prev : BitVec 32) (b : Bytes) {d : Dmx} (hd : d.trk.flvHdr = false) :
    flvBody c ([0x46, 0x4C, 0x56, 0x01, flags] ++ beBytes 4 (9 + extra.length) ++ extra
        ++ beBytes 4 prev.toNat ++ b) d =
      flvBody c b { d with trk := { d.trk with flvHdr := true } } := by
  set h := [0x46, 0x4C, 0x56, 0x01, flags] ++ beBytes 4 (9 + extra.length) ++ extra ++ beBytes 4 prev.toNat with hh
  have hhead : h.length = 9 + extra.length + 4 := by
    simp [hh]
    omega
  have hsize : beAt (h ++ b) 5 4 = 9 + extra.length :=
    beAt_of_eq (pre := [0x46, 0x4C, 0x56, 0x01, flags]) (by simp [hh]; rfl) rfl hlen
  have hall : (h ++ b).length = 9 + extra.length + 4 + b.length := by rw [List.length_append, hhead]
  rw [flvBody_of_seen c b rfl, flvBody, if_neg (by rw [hd]; exact Bool.false_ne_true), if_neg (by omega), hsize,
    if_neg (by omega), flvFrom, List.drop_left' hhead]
  exact flvTags_fuel c (by omega) (Nat.le_refl _) _

/-- Written tags with the header seen (R413). -/
theorem flvBody_tags (c : Config.Caps) {xs : List (FlvTagCode × BitVec 32)} {rest : Bytes}
    (hxs : ∀ x ∈ xs, x.1.Valid) (hrest : PartialTag rest) {d : Dmx} (hd : d.trk.flvHdr = true) :
    flvBody c (xs.flatMap (fun x => x.1.whole x.2) ++ rest) d =
      (xs.foldlM (fun d x => flvTag c x.1.bytes d) d).map fun d => (rest, d) := by
  have hcount : xs.length ≤ (xs.flatMap fun x => x.1.whole x.2).length := by
    rw [List.length_flatMap, ← List.length_map (as := xs) (fun x => (x.1.whole x.2).length)]
    refine List.length_le_sum_of_one_le _ fun n hn => ?_
    obtain ⟨x, -, rfl⟩ := List.mem_map.1 hn
    rw [x.1.length_whole]
    omega
  rw [flvBody_of_seen c _ hd]
  refine flvTags_written c hxs hrest ?_ d
  rw [List.length_append]
  omega

end Sys2Proof.Machine
end

section
/-! PROOFS. 47_flv_demux R420 to R430: what a written audio or video tag does. -/

namespace Sys2Proof.Machine

/-! ### Audio tags (R420 to R425) -/

/-- A written AAC payload goes by its packet type (R420). -/
theorem flvAudioTag_flvAac (c : Config.Caps) (ts : Nat) (low : BitVec 4) (packetType : Byte) (body : Bytes) (d : Dmx) :
    flvAudioTag c ts (flvAac low packetType body) d =
      if packetType.toNat = 0 then .ok (flvAudioConfig body d)
      else if packetType.toNat = 1 then flvAudioFrame c ts body d
      else .ok d := by
  have hformat : byteAt (flvAac low packetType body) 0 / 16 = 10 := by
    have h := low.isLt
    change (BitVec.ofNat 8 (10 * 16 + low.toNat)).toNat / 16 = 10
    rw [BitVec.toNat_ofNat]
    omega
  have hlen : ¬ (flvAac low packetType body).length < 2 := by simp [flvAac]
  rw [flvAudioTag, if_neg (by simp [hformat, hlen])]
  rfl

theorem flvAudioTag_config (c : Config.Caps) (ts : Nat) (low : BitVec 4) (cfg : Bytes) (d : Dmx) :
    flvAudioTag c ts (flvAac low 0 cfg) d = .ok (flvAudioConfig cfg d) :=
  flvAudioTag_flvAac c ts low 0 cfg d

theorem flvAudioTag_frame (c : Config.Caps) (ts : Nat) (low : BitVec 4) (f : Bytes) (d : Dmx) :
    flvAudioTag c ts (flvAac low 1 f) d = flvAudioFrame c ts f d :=
  flvAudioTag_flvAac c ts low 1 f d

/-- A payload of another format or packet type is ignored (R420). -/
theorem flvAudioTag_ignored (c : Config.Caps) (ts : Nat) {p : Bytes} (d : Dmx)
    (h : p.length < 2 ∨ byteAt p 0 / 16 ≠ 10 ∨ 2 ≤ byteAt p 1) : flvAudioTag c ts p d = .ok d := by
  rw [flvAudioTag]
  rcases h with h | h | h
  · rw [if_pos (.inl h)]
  · rw [if_pos (.inr h)]
  · rw [if_neg (show byteAt p 1 ≠ 0 by omega), if_neg (show byteAt p 1 ≠ 1 by omega), ite_self]

/-- A sequence header that parses and fits configures the track (R421). -/
theorem flvAudioConfig_ok_of_asc {cfg : Bytes} {a : AscInfo} {d : Dmx} (ha : d.trk.aExists = false)
    (hp : asc cfg = .ok a) (hfit : cfg.length ≤ 256) :
    flvAudioConfig cfg d = { d with trk := { d.trk with
      aCodec := .aac
      aRate := BitVec.ofNat 64 a.rate
      aChannels := BitVec.ofNat 64 a.channels
      aInfo := BitVec.ofNat 64 a.objectType
      acfg := cfg
      aExists := true } } := by
  rw [flvAudioConfig, ha, if_neg Bool.false_ne_true, hp]
  exact if_neg (Nat.not_lt.2 hfit)

/-- One that does not parse or fit is counted (R424). -/
theorem flvAudioConfig_fails {cfg : Bytes} {d : Dmx} (ha : d.trk.aExists = false)
    (h : (∃ e, asc cfg = .error e) ∨ 256 < cfg.length) : flvAudioConfig cfg d = countCfgFail d := by
  rw [flvAudioConfig, ha, if_neg Bool.false_ne_true]
  rcases h with ⟨e, he⟩ | hlong
  · rw [he]
  · cases asc cfg with
    | error e => rfl
    | ok a => exact if_pos hlong

/-- A raw frame of a configured track is one audio sample (R425). -/
theorem flvAudioFrame_ok {c : Config.Caps} {f : Bytes} {d : Dmx} (ts : BitVec 32) (ha : d.trk.aExists = true)
    (hfit : AudioFits c d.out [(f, 1024)]) :
    flvAudioFrame c ts.toNat f d = .ok { d with out := { d.out with
      asq := d.out.asq ++ [{ pts := ts.setWidth 64, off := BitVec.ofNat 32 d.out.sdata.length
                             len := BitVec.ofNat 32 f.length, nsamples := 1024 }]
      sdata := d.out.sdata ++ f } } := by
  obtain ⟨hq, hs⟩ := hfit
  rw [List.flatMap_singleton] at hs
  rw [flvAudioFrame, if_pos ha, BitVec.ofNat_toNat]
  exact bind_ok.2 ⟨_, emitAudio_ok.2 ⟨rfl, hq, hs⟩, rfl⟩

/-- Every clause on audio tags (R420 to R425). -/
theorem flvAudioTag_does (c : Config.Caps) (ts : BitVec 32) (p : Bytes) (d : Dmx) :
    FlvAudioTagDoes c ts p d (flvAudioTag c ts.toNat p d) where
  ignored h := flvAudioTag_ignored c _ d h
  configures low x cfg hp hx hcfg hfit ha := by
    rw [hp, flvAudioTag_config, flvAudioConfig_ok_of_asc ha (asc_of_written hx hcfg) hfit]
  fails low cfg hp ha h := by rw [hp, flvAudioTag_config, flvAudioConfig_fails ha h]
  repeated low cfg hp ha := by rw [hp, flvAudioTag_config, flvAudioConfig, if_pos ha]
  frame low f hp ha hfit := by
    rw [hp, flvAudioTag_frame, flvAudioFrame_ok ts ha hfit]
  early low f hp ha := by
    rw [hp, flvAudioTag_frame, flvAudioFrame, ha, if_neg Bool.false_ne_true]

/-! ### Video tags (R426 to R430) -/

/-- The CodecID of a family is that family's (R427). -/
theorem flvFamily_of_codecId {codec : VCodec} {id : BitVec 4} (h : flvCodecId codec = some id) :
    flvFamily id.toNat = codec ∧ codec ≠ .none := by
  cases codec <;> cases h <;> decide

/-- The composition offset is signed (R426). -/
theorem sext24_toNat (v : BitVec 24) : sext24 v.toNat = v.toInt := by
  have h := v.isLt
  rw [sext24, BitVec.toInt_eq_toNat_cond]
  split_ifs <;> omega

/-- A written video payload goes by its family and its packet type (R426). -/
theorem flvVideoTag_flvVideo (c : Config.Caps) (ts : Nat) (ft id : BitVec 4) (packetType : Byte) (cts : BitVec 24)
    (body : Bytes) (d : Dmx) :
    flvVideoTag c ts (flvVideo ft id packetType cts body) d =
      if flvFamily id.toNat = .none then .ok d
      else if d.trk.vCodec ≠ .none ∧ flvFamily id.toNat ≠ d.trk.vCodec then .ok d
      else if packetType.toNat = 0 then .ok (flvVideoConfig c (flvFamily id.toNat) body d)
      else if packetType.toNat = 1 then flvVideoFrame c ts cts.toInt ft.toNat body d
      else .ok d := by
  have hft := ft.isLt
  have hid := id.isLt
  set p := flvVideo ft id packetType cts body with hp
  have h0 : byteAt p 0 = ft.toNat * 16 + id.toNat := by
    change (BitVec.ofNat 8 (ft.toNat * 16 + id.toNat)).toNat = _
    rw [BitVec.toNat_ofNat]
    omega
  have h1 : byteAt p 1 = packetType.toNat := rfl
  have hcts : beAt p 2 3 = cts.toNat :=
    beAt_of_eq (pre := [BitVec.ofNat 8 (ft.toNat * 16 + id.toNat), packetType]) hp rfl cts.isLt
  have hbody : p.drop 5 = body := rfl
  have hlen : ¬ p.length < 5 := by simp [hp, flvVideo]
  have hlow : (ft.toNat * 16 + id.toNat) % 16 = id.toNat := by omega
  have hhigh : (ft.toNat * 16 + id.toNat) / 16 = ft.toNat := by omega
  simp only [flvVideoTag, h0, h1, hcts, hbody, hlow, hhigh, if_neg hlen, sext24_toNat]

/-- Nothing comes of a payload that is too short, or of another codec or packet type (R426). -/
theorem flvVideoTag_ignored (c : Config.Caps) (ts : Nat) {p : Bytes} (d : Dmx)
    (h : p.length < 5 ∨ (byteAt p 0 % 16 ≠ 7 ∧ byteAt p 0 % 16 ≠ 12) ∨ 2 ≤ byteAt p 1) :
    flvVideoTag c ts p d = .ok d := by
  simp only [flvVideoTag]
  rcases h with h | ⟨h7, h12⟩ | h
  · rw [if_pos h]
  · rw [flvFamily, if_neg h7, if_neg h12, if_pos rfl, ite_self]
  · rw [if_neg (show byteAt p 1 ≠ 0 by omega), if_neg (show byteAt p 1 ≠ 1 by omega), ite_self, ite_self, ite_self]

/-- Nor of one of the other family, once the family is fixed (R427). -/
theorem flvVideoTag_otherFamily (c : Config.Caps) (ts : Nat) {p : Bytes} {d : Dmx}
    (h : (d.trk.vCodec = .avc ∧ byteAt p 0 % 16 = 12) ∨ (d.trk.vCodec = .hevc ∧ byteAt p 0 % 16 = 7)) :
    flvVideoTag c ts p d = .ok d := by
  have hother : d.trk.vCodec ≠ .none ∧ flvFamily (byteAt p 0 % 16) ≠ d.trk.vCodec := by
    rcases h with ⟨hv, hid⟩ | ⟨hv, hid⟩ <;> rw [hv, hid] <;> decide
  simp only [flvVideoTag]
  rw [if_pos hother, ite_self, ite_self]

section
variable (c : Config.Caps) (ts : Nat) {codec : VCodec} {ft id : BitVec 4} {cts : BitVec 24} {body : Bytes} {d : Dmx}

/-- A payload of the track's family goes by its packet type (R426, R427). -/
theorem flvVideoTag_family (hid : flvCodecId codec = some id) (hv : d.trk.vCodec = .none ∨ d.trk.vCodec = codec)
    (packetType : Byte) : flvVideoTag c ts (flvVideo ft id packetType cts body) d =
      if packetType.toNat = 0 then .ok (flvVideoConfig c codec body d)
      else if packetType.toNat = 1 then flvVideoFrame c ts cts.toInt ft.toNat body d
      else .ok d := by
  obtain ⟨hfam, hne⟩ := flvFamily_of_codecId hid
  have hsame : ¬ (d.trk.vCodec ≠ .none ∧ codec ≠ d.trk.vCodec) := fun h => hv.elim h.1 (h.2 ·.symm)
  rw [flvVideoTag_flvVideo, hfam, if_neg hne, if_neg hsame]

theorem flvVideoTag_config (hid : flvCodecId codec = some id) (hv : d.trk.vCodec = .none ∨ d.trk.vCodec = codec) :
    flvVideoTag c ts (flvVideo ft id 0 cts body) d = .ok (flvVideoConfig c codec body d) :=
  flvVideoTag_family c ts hid hv 0

theorem flvVideoTag_frame (hid : flvCodecId codec = some id) (hv : d.trk.vCodec = .none ∨ d.trk.vCodec = codec) :
    flvVideoTag c ts (flvVideo ft id 1 cts body) d = flvVideoFrame c ts cts.toInt ft.toNat body d :=
  flvVideoTag_family c ts hid hv 1

/-- A later record is ignored, whatever its family (R428). -/
theorem flvVideoTag_repeated (hv : d.trk.vExists = true) :
    flvVideoTag c ts (flvVideo ft id 0 cts body) d = .ok d := by
  have hconfig : flvVideoConfig c (flvFamily id.toNat) body d = d := if_pos hv
  rw [flvVideoTag_flvVideo, hconfig, if_pos (show (0 : Byte).toNat = 0 from rfl), ite_self, ite_self]

end

/-- A record that parses configures the track when its parameter sets fit, and is counted otherwise (R428). -/
theorem flvVideoConfig_of_record {c : Config.Caps} {codec : VCodec} {cfg : Bytes} {d : Dmx} {lengthByte : Byte}
    {es : List RecordEntry} {ps : List PsEntry} {g : SpsInfo} (hv : d.trk.vExists = false)
    (hp : (if codec = .avc then avcc cfg else hvcc cfg) =
      .ok { lensize := lengthByte.toNat % 4 + 1, ents := es, sps := g })
    (hl : Lists cfg es ps) :
    flvVideoConfig c codec cfg d =
      if RecordFits c ps then { d with trk := d.trk.withRecord codec lengthByte ps g } else countCfgFail d := by
  have hany (k : PsKind) : es.any (fun e => e.kind = k) = ps.any (fun e => e.kind = k) := by
    rw [← recordPs_any cfg es k, hl.recordPs]
  rw [flvVideoConfig, hv, if_neg Bool.false_ne_true, hp]
  simp only [hl.length, hl.recordLen, hl.recordPs, hany, psBytes]
  by_cases hfit : RecordFits c ps
  · rw [if_pos hfit, if_neg (by rw [not_or, Nat.not_lt, Nat.not_lt]; exact hfit)]
    rfl
  · rw [if_neg hfit, if_pos (by rw [not_and_or, Nat.not_le, Nat.not_le] at hfit; exact hfit)]

/-- One that does not parse is counted (R429). -/
theorem flvVideoConfig_fails {c : Config.Caps} {codec : VCodec} {cfg : Bytes} {d : Dmx} (hv : d.trk.vExists = false)
    (h : ∃ e, (if codec = .avc then avcc cfg else hvcc cfg) = .error e) :
    flvVideoConfig c codec cfg d = countCfgFail d := by
  obtain ⟨e, he⟩ := h
  rw [flvVideoConfig, hv, if_neg Bool.false_ne_true, he]

/-- A frame of a configured track is one video sample of its units that are not empty, or nothing (R430). -/
theorem flvVideoFrame_ok {c : Config.Caps} {ts : BitVec 32} {cts : BitVec 24} {ft : BitVec 4} {us : List Bytes}
    {rest : Bytes} {d : Dmx} (hv : d.trk.vExists = true) (hw : 0 < d.trk.vLensize.toNat)
    (hus : ∀ u ∈ us, u.length < 256 ^ d.trk.vLensize.toNat) (hrest : UnitResidue d.trk.vLensize.toNat rest)
    (hfit : (us.filter fun u => decide (u ≠ [])) ≠ [] → VideoFits c d.out (us.filter fun u => decide (u ≠ []))) :
    flvVideoFrame c ts.toNat cts.toInt ft.toNat (us.flatMap (lengthPrefixed d.trk.vLensize.toNat) ++ rest) d =
      .ok (if us.all (fun u => decide (u = [])) then d
        else { d with out := (d.out.withVideo
          { pts := BitVec.ofInt 64 (ts.toNat + cts.toInt), dts := ts.setWidth 64 } (decide (ft = 1))
          (us.filter fun u => decide (u ≠ []))) }) := by
  have hunits := congrArg Prod.fst (lenpfxUnits_written hw hus hrest)
  have hslices := prefixedUnits_slices d.trk.vLensize.toNat us [] rest
  have hkey : (ft.toNat = 1) = (ft = 1) := propext (by rw [← BitVec.toNat_inj]; rfl)
  have hempty : us.all (fun u => decide (u = [])) = true ↔ (us.filter fun u => decide (u ≠ [])) = [] := by
    simp [List.filter_eq_nil_iff]
  simp only [List.nil_append, List.length_nil] at hslices
  simp only [flvVideoFrame, if_pos hv, hunits, hslices, hkey, BitVec.ofNat_toNat]
  by_cases hnone : (us.filter fun u => decide (u ≠ [])) = []
  · rw [if_pos (List.map_eq_nil_iff.1 (hslices.trans hnone)), if_pos (hempty.2 hnone)]
  · have hsome : prefixedUnits d.trk.vLensize.toNat 0 us ≠ [] := fun h => hnone (by rw [← hslices, h]; rfl)
    obtain ⟨hq, hvut, hs⟩ := hfit hnone
    rw [if_neg hsome, if_neg (fun h => hnone (hempty.1 h))]
    exact bind_ok.2 ⟨_, emitVideo_ok.2 ⟨rfl, hq, fun _ => ⟨hvut, hs⟩⟩, rfl⟩

/-- Every clause on video tags (R426 to R430). -/
theorem flvVideoTag_does (c : Config.Caps) (ts : BitVec 32) (p : Bytes) (d : Dmx) :
    FlvVideoTagDoes c ts p d (flvVideoTag c ts.toNat p d) where
  ignored h := flvVideoTag_ignored c _ d h
  otherFamily h := flvVideoTag_otherFamily c _ h
  avcConfig ft cts x g hp hv hc hx hg := by
    rw [hp, flvVideoTag_config c _ (codec := .avc) rfl hc,
      flvVideoConfig_of_record hv ((if_pos rfl).trans (avcc_of_written hx hg)) x.lists]
  hevcConfig ft cts x g hp hv hc hx hg := by
    rw [hp, flvVideoTag_config c _ (codec := .hevc) rfl hc,
      flvVideoConfig_of_record hv ((if_neg VCodec.noConfusion).trans (hvcc_of_written hx hg)) x.lists]
  fails codec id ft cts body hid hp hv hc h := by
    rw [hp, flvVideoTag_config c _ hid hc, flvVideoConfig_fails hv h]
  repeated ft id cts body hp hv := by rw [hp, flvVideoTag_repeated c _ hv]
  frame codec id ft cts us rest hid hp hv hc hw1 _ hus hrest hfit := by
    rw [hp, flvVideoTag_frame c _ hid hc, flvVideoFrame_ok hv hw1 hus hrest hfit]
  early codec id ft cts body hid hp hv hc := by
    rw [hp, flvVideoTag_frame c _ hid hc, flvVideoFrame, hv, if_neg Bool.false_ne_true]

/-- Settles O52: the call by its steps, its body by the header and the tag scan, a tag by its type and payload. -/
theorem flvDemuxCompletes : Obligations.FlvDemuxCompletes := by
  refine ⟨fun disc contig s r b hf hm hr hb hstart => ?_, fun c flags extra b prev d hd hlen =>
      flvBody_header c flags hlen prev b hd, fun c xs rest d hd hxs hrest => flvBody_tags c hxs hrest hd,
    fun c x d _ => ?_⟩
  · have hv : validateStart (s.trk.flvHdr && !disc) b = .ok () :=
      validateStart_ok (hstart.imp (fun ⟨h1, h2⟩ => by rw [h1, h2]; rfl) id)
    refine ⟨fun rest x hx hcap => exec_flvDemux_ok hf hm hr hb hv hx hcap, fun hseen hlen hcap =>
      exec_flvDemux_ok hf hm hr hb hv (flvBody_short _ ?_ hlen) hcap⟩
    cases disc with
    | true => rfl
    | false => exact hseen.resolve_right Bool.false_ne_true
  · rw [flvTag_written]
    refine ⟨fun ⟨h8, h9⟩ => by rw [if_neg h8, if_neg h9], fun h8 => ?_, fun h9 => ?_⟩
    · rw [if_pos h8]
      exact flvAudioTag_does c _ _ d
    · rw [h9, if_neg (by decide), if_pos rfl]
      exact flvVideoTag_does c _ _ d

end Sys2Proof.Machine
end

section
/-! PROOFS. 41_bitreader R160 to R168: BR_INIT and the commands that read or skip at BR_POS. -/

namespace Sys2Proof.Machine

/-! ### A primitive run at BR_POS (R160) -/

/-- The cursor on which the bit reader runs a primitive (R160). -/
def State.brCursor (s : State) : Cursor :=
  { bytes := sliceBytes s, nbits := s.br.nbits.toNat, pos := s.br.pos.toNat }

/-- Within its space, the slice is read whole (41_bitreader section 2). -/
theorem brSlice_of_sliceIn {s : State} (hs : SliceIn s) : brSlice s = .ok (sliceBytes s) :=
  brSlice_ok.2 ⟨hs, rfl⟩

/-- BR_POS moved forward, by its number (the sum is taken modulo 2^64 on both sides). -/
theorem advance_eq (n : Nat) (s : State) :
    advance n s = { s with br := { s.br with pos := BitVec.ofNat 64 (s.br.pos.toNat + n) } } := by
  rw [advance, BitVec.ofNat_add, BitVec.ofNat_toNat, BitVec.setWidth_eq]

section
variable {α : Type} {p : BitP α} {s : State}

/-- A primitive that moves the cursor over `n` bits moves BR_POS by `n`. -/
theorem withReader_of_ok {n : Nat} {v : α} (hs : SliceIn s)
    (hp : p s.brCursor = .ok (v, { s.brCursor with pos := s.br.pos.toNat + n })) :
    withReader p s = .ok (v, advance n s) :=
  withReader_ok.2 ⟨_, _, brSlice_of_sliceIn hs, hp, advance_eq n s⟩

/-- A primitive that raises makes the command raise the same. -/
theorem withReader_of_error {e : Err} (hs : SliceIn s) (hp : p s.brCursor = .error e) :
    withReader p s = .error e :=
  bind_error.2 (.inr ⟨_, brSlice_of_sliceIn hs, bind_error.2 (.inl hp)⟩)

/-- A primitive at whose cursor the bits of a written value stand gives the value back. -/
theorem withReader_of_reads {bs : List Bool} {v : α} (hp : Reads p bs v) (h : ReaderHas s bs) :
    withReader p s = .ok (v, advance bs.length s) := by
  obtain ⟨hs, hfit, hbits⟩ := h
  exact withReader_of_ok hs (hp s.brCursor hfit hbits)

/-- A command that runs a primitive and then writes its result completes with that result. -/
theorem finish_reader_ok {i : Instr} {f : α × State → Except Err State} {x : α × State} {t : State}
    (hr : withReader p s = .ok x) (ht : f x = .ok t) :
    finish i s (withReader p s >>= f) = .next (complete (encode i) t) := by
  rw [bind_ok.2 ⟨x, hr, ht⟩, finish_ok]

/-- A command whose primitive raises takes the error path. -/
theorem finish_reader_error {i : Instr} {f : α × State → Except Err State} {e : Err} (hs : SliceIn s)
    (hp : p s.brCursor = .error e) :
    finish i s (withReader p s >>= f) = .next (errorPath (encode i) e s) := by
  rw [bind_error.2 (.inl (withReader_of_error hs hp)), finish_error]

end

/-! ### BR_INIT (R161) -/

/-- Settles O21: a region in bounds resolves, and BR_INIT writes the reader's registers alone. -/
theorem brInitPointsReader : Obligations.BrInitPointsReader := by
  intro sp s r hr
  exact congrArg (finish (.brInit sp) s) (bind_ok.2 ⟨r, resolveRegion_ok.2 hr, rfl⟩)

/-! ### READ_BITS and SKIP_BITS (R162, R163) -/

/-- `u(n)` raises at its own start when fewer than `n` bits remain (R170). -/
theorem u_truncated {n : Nat} {c : Cursor} (h : c.nbits < c.pos + n) :
    u n c = .error { code := .truncatedBitstream, info := c.pos } := if_pos h

/-- `skip(n)` raises at its own start when fewer than `n` bits remain (R171). -/
theorem skip_truncated {n : Nat} {c : Cursor} (h : c.nbits < c.pos + n) :
    skip n c = .error { code := .truncatedBitstream, info := c.pos } := if_pos h

/-- Settles O22: both primitives check the end and nothing else; READ_BITS reads the written bits back. -/
theorem readAndSkipBits : Obligations.ReadAndSkipBits := by
  refine ⟨fun n v s _ hv h => ?_, fun n s hs hfit => ?_, fun n s hs hend => ?_, fun n s hs hend => ?_⟩
  · have hr := withReader_of_reads (reads_u hv) h
    rw [natBits_length] at hr
    exact finish_reader_ok hr rfl
  · exact finish_reader_ok (withReader_of_ok (v := ()) hs (skip_ok.2 ⟨hfit, rfl⟩)) rfl
  · exact finish_reader_error hs (u_truncated hend)
  · exact finish_reader_error hs (skip_truncated hend)

/-! ### Exp-Golomb codes (R164 to R167) -/

/-- Settles O23: `ue()` reads the written code back. -/
theorem unsignedRoundTrip : Obligations.UnsignedRoundTrip := by
  intro v s hv h
  have hr := withReader_of_reads (reads_ue hv) h
  exact ⟨finish_reader_ok hr rfl, finish_reader_ok hr rfl⟩

/-- Settles O24: `se()` reads the written code back. -/
theorem signedRoundTrip : Obligations.SignedRoundTrip := by
  intro v s hv h
  have hr := withReader_of_reads (reads_se hv) h
  exact ⟨finish_reader_ok hr rfl, finish_reader_ok hr rfl⟩

/-- The loop of `ue()` counts the zeros it meets, one unit of fuel each (R172). -/
theorem zeroRun_zeros {c : Cursor} (start fuel : Nat) {p k : Nat} (z : Nat) (hfit : p + k ≤ c.nbits)
    (hzeros : BitsAt c.bytes p (List.replicate k false)) :
    zeroRun c start (k + fuel) p z = zeroRun c start fuel (p + k) (z + k) := by
  induction k generalizing p z with
  | zero => rw [Nat.zero_add, Nat.add_zero, Nat.add_zero]
  | succ k ih =>
    rw [List.replicate_succ, ← List.singleton_append, bitsAt_append] at hzeros
    obtain ⟨hfirst, hrest⟩ := hzeros
    rw [List.length_singleton] at hrest
    have hbit : ¬ bitAt c.bytes p = true := by
      rw [show bitAt c.bytes p = false from bitsAt_iff.1 hfirst 0 Nat.one_pos]
      exact Bool.false_ne_true
    rw [Nat.succ_add, zeroRun, if_neg (by omega), if_neg hbit, ih (z + 1) (by omega) hrest,
      Nat.succ_add_eq_add_succ, Nat.succ_add_eq_add_succ]

/-- 32 zeros are no code, whatever follows (R172). -/
theorem ue_overflow {c : Cursor} (hfit : c.pos + 32 ≤ c.nbits)
    (hzeros : BitsAt c.bytes c.pos (List.replicate 32 false)) :
    ue c = .error { code := .egOverflow, info := c.pos } := by
  rw [ue, zeroRun_zeros c.pos 0 0 hfit hzeros, zeroRun]

/-- The end comes within the zeros (R172). -/
theorem ue_truncated_zeros {c : Cursor} {z : Nat} (hz : z < 32) (hend : c.pos + z = c.nbits)
    (hzeros : BitsAt c.bytes c.pos (List.replicate z false)) :
    ue c = .error { code := .truncatedBitstream, info := c.pos } := by
  obtain ⟨m, hm⟩ : ∃ m, 32 = z + (m + 1) := ⟨31 - z, by omega⟩
  rw [ue, hm, zeroRun_zeros c.pos (m + 1) 0 hend.le hzeros, zeroRun, if_pos hend.ge]

/-- The end comes within the suffix (R172). -/
theorem ue_truncated_suffix {c : Cursor} {z : Nat} (hz : z < 32) (hfit : c.pos + z < c.nbits)
    (hend : c.nbits < c.pos + z + 1 + z)
    (hbits : BitsAt c.bytes c.pos (List.replicate z false ++ [true])) :
    ue c = .error { code := .truncatedBitstream, info := c.pos } := by
  obtain ⟨m, hm⟩ : ∃ m, 32 = z + (m + 1) := ⟨31 - z, by omega⟩
  obtain ⟨hzeros, hone⟩ := bitsAt_append.1 hbits
  rw [List.length_replicate] at hone
  have hbit : bitAt c.bytes (c.pos + z) = true := bitsAt_iff.1 hone 0 Nat.one_pos
  have hrun : zeroRun c c.pos 32 c.pos 0 = .ok z := by
    rw [hm, zeroRun_zeros c.pos (m + 1) 0 hfit.le hzeros, zeroRun, if_neg (Nat.not_le.2 hfit), if_pos hbit,
      Nat.zero_add]
  simp only [ue, hrun, if_pos hend]

/-- `se()` raises what `ue()` raises (R173). -/
theorem se_error {c : Cursor} {e : Err} (h : ue c = .error e) : se c = .error e :=
  bind_error.2 (.inl h)

/-- The four Exp-Golomb commands raise what `ue()` raises at BR_POS. -/
theorem exec_expGolomb_error {i : Instr} {s : State} {e : Err}
    (hi : i = .readUe ∨ i = .skipUe ∨ i = .readSe ∨ i = .skipSe) (hs : SliceIn s)
    (h : ue s.brCursor = .error e) : exec i s = .next (errorPath (encode i) e s) := by
  rcases hi with rfl | rfl | rfl | rfl
  · exact finish_reader_error hs h
  · exact finish_reader_error hs h
  · exact finish_reader_error hs (se_error h)
  · exact finish_reader_error hs (se_error h)

/-- Settles O25: the three ways in which `ue()` fails. -/
theorem expGolombFailures : Obligations.ExpGolombFailures := by
  intro i s hi
  refine ⟨fun ⟨hs, hfit, hbits⟩ => ?_, fun z hz ⟨hs, hfit, hbits⟩ hend => ?_,
    fun z hz ⟨hs, hfit, hbits⟩ hend => ?_⟩
  · exact exec_expGolomb_error hi hs (ue_overflow hfit hbits)
  · exact exec_expGolomb_error hi hs (ue_truncated_zeros hz hend hbits)
  · rw [List.length_append, List.length_replicate] at hfit
    exact exec_expGolomb_error hi hs (ue_truncated_suffix hz hfit hend hbits)

/-! ### SKIP_SCALING_LIST (R168, R174) -/

/-- The deltas coded for the `n` entries left of a scaling list, the running entry being `last`. -/
structure ScalingRest (last : Int) (n : Nat) (ds : List Int) : Prop where
  /-- each has a code -/
  range : ∀ d ∈ ds, SeRange d
  /-- there is at most one an entry -/
  length_le : ds.length ≤ n
  /-- none but the last makes the running entry 0 -/
  entry_ne : ∀ k < ds.length, 0 < k → (last + (ds.take k).sum) % 256 ≠ 0
  /-- they are all of the list, or the last makes the running entry 0 -/
  complete : ds.length = n ∨ (ds ≠ [] ∧ (last + ds.sum) % 256 = 0)

/-- A whole list starts with the running entry 8 (R174). -/
theorem scalingCode_iff {size : Nat} {ds : List Int} : ScalingCode size ds ↔ ScalingRest 8 size ds :=
  ⟨fun ⟨hrange, hlen, hentry, hend⟩ => ⟨hrange, hlen, hentry, hend⟩,
    fun h => ⟨h.range, h.length_le, h.entry_ne, h.complete⟩⟩

/-- With no entry left there is no delta. -/
theorem ScalingRest.eq_nil {last : Int} {ds : List Int} (h : ScalingRest last 0 ds) : ds = [] :=
  List.eq_nil_of_length_eq_zero (Nat.le_zero.1 h.length_le)

/-- An entry left has a delta of its own. -/
theorem ScalingRest.ne_nil {last : Int} {n : Nat} {ds : List Int} (h : ScalingRest last (n + 1) ds) : ds ≠ [] :=
  h.complete.elim List.ne_nil_of_length_eq_add_one And.left

/-- A delta that makes the running entry 0 is the last one. -/
theorem ScalingRest.tail_eq_nil {last d : Int} {n : Nat} {ds : List Int} (h : ScalingRest last n (d :: ds))
    (h0 : (last + d) % 256 = 0) : ds = [] := by
  by_contra hne
  refine h.entry_ne 1 (Nat.succ_lt_succ (List.length_pos_of_ne_nil hne)) Nat.one_pos ?_
  rwa [List.take_succ_cons, List.take_zero, List.sum_singleton]

/-- Behind any other delta come those of the entries then left. -/
theorem ScalingRest.tail {last d : Int} {n : Nat} {ds : List Int} (h : ScalingRest last (n + 1) (d :: ds))
    (h0 : (last + d) % 256 ≠ 0) : ScalingRest ((last + d) % 256) n ds := by
  have hsum (x : Int) : ((last + d) % 256 + x) % 256 = (last + (d + x)) % 256 := by
    rw [Int.emod_add_emod, Int.add_assoc]
  refine ⟨fun x hx => h.range x (List.mem_cons_of_mem d hx), Nat.le_of_succ_le_succ h.length_le, fun k hk _ => ?_, ?_⟩
  · have hentry := h.entry_ne (k + 1) (Nat.succ_lt_succ hk) k.succ_pos
    rwa [List.take_succ_cons, List.sum_cons, ← hsum] at hentry
  · rcases h.complete with hall | ⟨-, hzero⟩
    · exact .inl (Nat.succ_injective hall)
    · rw [List.sum_cons] at hzero
      refine .inr ⟨?_, (hsum _).trans hzero⟩
      rintro rfl
      exact h0 (by rwa [List.sum_nil, Int.add_zero] at hzero)

/-- Once the running entry is 0, no delta is coded (R174). -/
theorem scalingFrom_zero (n : Nat) (last : Int) : scalingFrom n last 0 = pure () := by
  induction n with
  | zero => rfl
  | succ n ih => rw [scalingFrom, if_pos rfl, ih]

/-- The loop of `scaling_list` moves over the deltas of the entries left (R174). -/
theorem reads_scalingFrom {n : Nat} {last next : Int} {ds : List Int} (h : ScalingRest last n ds) (hnext : next ≠ 0) :
    Reads (scalingFrom n last next) (ds.flatMap seBits) () := by
  induction n generalizing last next ds with
  | zero =>
    rw [h.eq_nil]
    exact reads_pure ()
  | succ n ih =>
    obtain ⟨d, ds, rfl⟩ := List.exists_cons_of_ne_nil h.ne_nil
    have hentry : (last + d + 256) % 256 = (last + d) % 256 := Int.add_emod_right _ _
    rw [scalingFrom, if_neg hnext]
    refine reads_bind (reads_se (h.range d List.mem_cons_self)) ?_
    simp only [hentry]
    by_cases h0 : (last + d) % 256 = 0
    · rw [h.tail_eq_nil h0, h0, scalingFrom_zero]
      exact reads_pure ()
    · rw [if_neg h0]
      exact ih (h.tail h0) h0

/-- Settles O26: `scaling_list` reads the deltas, starting with the running entry 8. -/
theorem scalingListSkipped : Obligations.ScalingListSkipped := by
  intro size ds s hds h
  have hread : Reads (scalingList size.toNat) (ds.flatMap seBits) () :=
    reads_scalingFrom (scalingCode_iff.1 hds) (by decide)
  exact finish_reader_ok (withReader_of_reads hread h) rfl

end Sys2Proof.Machine
end

section
/-! PROOFS. 42_nal R190 to R203: Annex B, length prefixes and emulation prevention. -/

namespace Sys2Proof.Machine

/-! ### Annex B (R190, R191, R192) -/

/-- What an Annex B scan delimits: a start code and the bytes behind it, up to the next one. -/
structure CodedUnit where
  code : Bytes
  unit : Bytes

/-- The bytes they stand for. -/
def CodedUnit.bytes (u : CodedUnit) : Bytes := u.code ++ u.unit

/-- A start code of 3 or 4 bytes, and no other one behind it. -/
structure CodedUnit.Valid (u : CodedUnit) : Prop where
  code : u.code = [0, 0, 1] ∨ u.code = [0, 0, 0, 1]
  unit : ¬ ([0, 0, 1] : Bytes) <:+: u.unit

@[simp] theorem CodedUnit.length_bytes (u : CodedUnit) : u.bytes.length = u.code.length + u.unit.length :=
  List.length_append

/-- The start codes of delimited units that stand one behind the other from offset `p` on. -/
def codesAt : Nat → List CodedUnit → List StartCode
  | _, [] => []
  | p, u :: us => { at_ := p, len := u.code.length } :: codesAt (p + u.bytes.length) us

/-- Their places. -/
def unitsAt : Nat → List CodedUnit → List NalUnit
  | _, [] => []
  | p, u :: us =>
    { start := p + u.code.length, len := u.unit.length, pfx := u.code.length } :: unitsAt (p + u.bytes.length) us

/-- The bytes of a scan with its lookback: the zero byte before them is theirs when it may begin a start code of
4 bytes (R190). -/
def withLookback (zeroBefore : Bool) (b : Bytes) : Bytes := if zeroBefore then 0 :: b else b

/-- A byte put before bytes without a start code makes one exactly when it is the first zero of `00 00 01`. -/
theorem startCode_infix_cons {a : Byte} {l : Bytes} (hl : ¬ ([0, 0, 1] : Bytes) <:+: l) :
    ([0, 0, 1] : Bytes) <:+: a :: l ↔ 0 = a ∧ ([0, 1] : Bytes) <+: l := by
  rw [List.infix_cons_iff, or_iff_left hl, List.cons_prefix_cons]

/-- The lookback makes no start code of 3 bytes where `00 01` does not follow. -/
theorem not_startCode_infix_withLookback {z : Bool} {l : Bytes} (hz : z = true → ¬ ([0, 1] : Bytes) <+: l)
    (hl : ¬ ([0, 0, 1] : Bytes) <:+: l) : ¬ ([0, 0, 1] : Bytes) <:+: withLookback z l := by
  cases z with
  | false => exact hl
  | true => exact fun h => hz rfl ((startCode_infix_cons hl).1 h).2

theorem length_withLookback (z : Bool) (l : Bytes) : (withLookback z l).length = z.toNat + l.length := by
  cases z <;> simp [withLookback, Nat.add_comm]

theorem withLookback_append (z : Bool) (l m : Bytes) : withLookback z (l ++ m) = withLookback z l ++ m := by
  cases z <;> rfl

/-- The lookback holds the byte before exactly when that is 0; bytes cut behind it can be cut before it. -/
theorem exists_lead_of_lookback {a : Byte} {b lead post : Bytes}
    (h : withLookback (decide (a = 0)) b = lead ++ post) (hl : ¬ ([0, 0, 1] : Bytes) <:+: lead) :
    ∃ lead', a :: b = lead' ++ post ∧ ¬ ([0, 0, 1] : Bytes) <:+: lead' ∧
      lead'.length + (decide (a = 0)).toNat = lead.length + 1 := by
  by_cases ha : a = 0
  · subst ha
    exact ⟨lead, h, hl, rfl⟩
  · rw [decide_eq_false ha] at h ⊢
    exact ⟨a :: lead, congrArg (a :: ·) h, fun hc => ha ((startCode_infix_cons hl).1 hc).1.symm, rfl⟩

/-- The scan cuts the bytes into a lead and delimited units, and finds the start codes of these; the byte before
must not begin a start code of 3 bytes, which the scan would have taken already (R190). -/
theorem startCodesFrom_parts (z : Bool) (i : Nat) (b : Bytes) (hi : z.toNat ≤ i)
    (hz : z = true → ¬ ([0, 1] : Bytes) <+: b) :
    ∃ lead us, withLookback z b = lead ++ us.flatMap CodedUnit.bytes ∧ ¬ ([0, 0, 1] : Bytes) <:+: lead ∧
      (∀ u ∈ us, u.Valid) ∧ startCodesFrom z i b = codesAt (i - z.toNat + lead.length) us := by
  fun_induction startCodesFrom z i b with
  | case1 z i a b c rest h ih =>
    obtain ⟨rfl, rfl, rfl⟩ := h
    obtain ⟨lead, us, hbytes, hlead, hus, hcodes⟩ := ih (Nat.zero_le _) nofun
    rw [withLookback, if_neg Bool.false_ne_true] at hbytes
    subst hbytes
    have hcode : withLookback z [0, 0, 1] = [0, 0, 1] ∨ withLookback z [0, 0, 1] = [0, 0, 0, 1] := by
      cases z
      · exact .inl rfl
      · exact .inr rfl
    refine ⟨[], ⟨withLookback z [0, 0, 1], lead⟩ :: us, ?_, by simp,
      List.forall_mem_cons.2 ⟨⟨hcode, hlead⟩, hus⟩, ?_⟩
    · simpa [CodedUnit.bytes] using withLookback_append z [0, 0, 1] (lead ++ us.flatMap CodedUnit.bytes)
    · have hnext : i + 3 + lead.length = i - z.toNat + (z.toNat + 3 + lead.length) := by omega
      rw [hcodes, Bool.toNat_false, Nat.sub_zero, hnext]
      cases z <;> simp [codesAt, withLookback]
  | case2 z i a b c rest h ih =>
    have hstep (ha : decide (a = 0) = true) : ¬ ([0, 1] : Bytes) <+: b :: c :: rest := by
      simp only [List.cons_prefix_cons, List.nil_prefix, and_true]
      exact fun ⟨hb, hc⟩ => h ⟨of_decide_eq_true ha, hb.symm, hc.symm⟩
    have hzero : (decide (a = 0)).toNat ≤ 1 := Bool.toNat_le _
    obtain ⟨lead₀, us, hbytes, hlead, hus, hcodes⟩ := ih (hzero.trans (Nat.le_add_left 1 i)) hstep
    obtain ⟨lead, hbytes, hlead, hlen⟩ := exists_lead_of_lookback hbytes hlead
    have hat : i + 1 - (decide (a = 0)).toNat + lead₀.length = i + lead.length := by omega
    refine ⟨withLookback z lead, us, by rw [hbytes, withLookback_append], ?_, hus, ?_⟩
    · refine not_startCode_infix_withLookback (fun h h01 => hz h ?_) hlead
      rw [hbytes]
      exact h01.trans (List.prefix_append _ _)
    · rw [hcodes, hat, length_withLookback, ← Nat.add_assoc, Nat.sub_add_cancel hi]
  | case3 b z i hshort =>
    refine ⟨withLookback z b, [], by simp, not_startCode_infix_withLookback hz ?_, nofun, rfl⟩
    intro h
    match b, h.length_le with
    | a :: b :: c :: rest, _ => exact hshort a b c rest rfl

/-- The scan of a whole sequence cuts it into a lead and delimited units (R190). -/
theorem startCodes_parts (b : Bytes) :
    ∃ lead us, b = lead ++ us.flatMap CodedUnit.bytes ∧ ¬ ([0, 0, 1] : Bytes) <:+: lead ∧
      (∀ u ∈ us, CodedUnit.Valid u) ∧ startCodes b = codesAt lead.length us := by
  obtain ⟨lead, us, hbytes, hlead, hus, hcodes⟩ := startCodesFrom_parts false 0 b (Nat.le_refl 0) nofun
  rw [Bool.toNat_false, Nat.sub_zero, Nat.zero_add] at hcodes
  exact ⟨lead, us, hbytes, hlead, hus, hcodes⟩

/-- The start codes of delimited units and one more. -/
theorem codesAt_concat (p : Nat) (us : List CodedUnit) (v : CodedUnit) :
    codesAt p (us ++ [v]) =
      codesAt p us ++ [{ at_ := p + (us.flatMap CodedUnit.bytes).length, len := v.code.length }] := by
  induction us generalizing p with
  | nil => rfl
  | cons u us ih => simp [codesAt, ih, Nat.add_assoc]

/-- The unit in front of another start code ends there (R191). -/
theorem unitsOf_codesAt_cons (total : Nat) (endDelim : Bool) (p : Nat) (u v : CodedUnit) (us : List CodedUnit) :
    unitsOf total endDelim (codesAt p (u :: v :: us)) =
      { start := p + u.code.length, len := u.unit.length, pfx := u.code.length }
        :: unitsOf total endDelim (codesAt (p + u.bytes.length) (v :: us)) := by
  simp [codesAt, unitsOf, ← Nat.add_assoc]

/-- With ENDDELIM every unit is delimited, the last one by the end of the bytes (R192). -/
theorem unitsOf_codesAt_endDelim (p : Nat) (us : List CodedUnit) :
    unitsOf (p + (us.flatMap CodedUnit.bytes).length) true (codesAt p us) = unitsAt p us := by
  induction us generalizing p with
  | nil => rfl
  | cons u us ih =>
    have hlen : p + ((u :: us).flatMap CodedUnit.bytes).length =
        p + u.bytes.length + (us.flatMap CodedUnit.bytes).length := by simp [Nat.add_assoc]
    rw [hlen]
    cases us with
    | nil => simp [codesAt, unitsOf, unitsAt, ← Nat.add_assoc]
    | cons v us => exact (unitsOf_codesAt_cons _ true p u v us).trans (congrArg _ (ih _))

/-- Without it the last start code delimits no unit (R191). -/
theorem unitsOf_codesAt_hold (total p : Nat) (us : List CodedUnit) (v : CodedUnit) :
    unitsOf total false (codesAt p (us ++ [v])) = unitsAt p us := by
  induction us generalizing p with
  | nil => rfl
  | cons u us ih =>
    obtain ⟨w, ws, hcons⟩ := List.exists_cons_of_ne_nil (List.concat_ne_nil v us)
    rw [List.cons_append, hcons, unitsOf_codesAt_cons, ← hcons, ih, unitsAt]

/-- What Annex B framing answers when the scan finds a start code: the first and the last one bound it (R191). -/
theorem annexbUnits_of_codes {b : Bytes} {p : Nat} {us : List CodedUnit} {v : CodedUnit} (endDelim : Bool)
    (h : startCodes b = codesAt p (us ++ [v])) :
    annexbUnits b endDelim =
      { units := unitsOf b.length endDelim (codesAt p (us ++ [v])), lead := p
        resStart := if endDelim then b.length else p + (us.flatMap CodedUnit.bytes).length } := by
  have hlast : (codesAt p (us ++ [v])).getLast? =
      some { at_ := p + (us.flatMap CodedUnit.bytes).length, len := v.code.length } := by
    rw [codesAt_concat, List.getLast?_concat]
  obtain ⟨n, hhead⟩ : ∃ n, (codesAt p (us ++ [v])).head? = some { at_ := p, len := n } := by
    cases us <;> exact ⟨_, rfl⟩
  simp only [annexbUnits, h, hhead, hlast]

/-- Annex B framing cuts the bytes into a lead, delimited units and a residue (R191, R192). -/
structure AnnexBCut (b : Bytes) (endDelim : Bool) (lead : Bytes) (us : List CodedUnit) (residue : Bytes) : Prop where
  /-- they are the bytes -/
  bytes : b = lead ++ us.flatMap CodedUnit.bytes ++ residue
  /-- no start code stands in the lead -/
  lead_free : ¬ ([0, 0, 1] : Bytes) <:+: lead
  /-- each unit stands behind its start code -/
  units_valid : ∀ u ∈ us, u.Valid
  /-- the residue is what the last start code does not delimit -/
  residue_valid : residue = [] ∨ (endDelim = false ∧ ∃ v : CodedUnit, v.Valid ∧ residue = v.bytes)
  /-- their places are the answer -/
  answer : annexbUnits b endDelim =
    { units := unitsAt lead.length us, lead := lead.length
      resStart := (lead ++ us.flatMap CodedUnit.bytes).length }

section
variable {b lead residue : Bytes} {endDelim : Bool} {us : List CodedUnit}

theorem AnnexBCut.take_lead (h : AnnexBCut b endDelim lead us residue) : b.take lead.length = lead := by
  rw [h.bytes, List.append_assoc, List.take_left]

theorem AnnexBCut.drop_residue (h : AnnexBCut b endDelim lead us residue) :
    b.drop (lead ++ us.flatMap CodedUnit.bytes).length = residue := by
  rw [h.bytes, List.drop_left]

end

/-- Every byte sequence is cut so, in either mode. -/
theorem exists_annexBCut (b : Bytes) (endDelim : Bool) : ∃ lead us residue, AnnexBCut b endDelim lead us residue := by
  obtain ⟨lead, us, hbytes, hlead, hus, hcodes⟩ := startCodes_parts b
  have hlen : b.length = lead.length + (us.flatMap CodedUnit.bytes).length := by
    rw [hbytes, List.length_append]
  rcases List.eq_nil_or_concat us with rfl | ⟨us, v, rfl⟩
  · refine ⟨lead, [], [], by simpa using hbytes, hlead, hus, .inl rfl, ?_⟩
    simpa [annexbUnits, hcodes, codesAt, unitsAt] using hlen
  · rw [List.concat_eq_append] at hbytes hus hcodes hlen
    cases endDelim with
    | true =>
      refine ⟨lead, us ++ [v], [], by simpa using hbytes, hlead, hus, .inl rfl, ?_⟩
      rw [annexbUnits_of_codes true hcodes, hlen, unitsOf_codesAt_endDelim]
      simp
    | false =>
      refine ⟨lead, us, v.bytes, by simpa using hbytes, hlead, fun u hu => hus u (by simp [hu]),
        .inr ⟨rfl, v, hus v (by simp), rfl⟩, ?_⟩
      rw [annexbUnits_of_codes false hcodes, unitsOf_codesAt_hold]
      simp

/-- The place names the delimited unit in the bytes. -/
structure CodedUnit.StandsAt (b : Bytes) (u : CodedUnit) (x : NalUnit) : Prop where
  /-- of its start code -/
  pfx : x.pfx = u.code.length
  code : slice b (x.start - x.pfx) x.pfx = u.code
  unit : slice b x.start x.len = u.unit
  within : x.start + x.len ≤ b.length

/-- Delimited units stand at their places. -/
theorem unitsAt_standsAt {b pre : Bytes} {us : List CodedUnit} {post : Bytes}
    (hb : b = pre ++ us.flatMap CodedUnit.bytes ++ post) :
    List.Forall₂ (CodedUnit.StandsAt b) us (unitsAt pre.length us) := by
  induction us generalizing pre with
  | nil => exact .nil
  | cons u us ih =>
    have hnext : b = (pre ++ u.bytes) ++ us.flatMap CodedUnit.bytes ++ post := by simp [hb]
    have hcut : b = pre ++ (u.code ++ (u.unit ++ (us.flatMap CodedUnit.bytes ++ post))) := by
      simp [hb, CodedUnit.bytes]
    have ih := ih hnext
    rw [List.length_append] at ih
    refine .cons ⟨rfl, slice_of_eq hcut (Nat.add_sub_cancel _ _).symm rfl, ?_, ?_⟩ ih
    · exact slice_of_eq (hcut.trans (List.append_assoc _ _ _).symm) List.length_append rfl
    · simp only [hcut, List.length_append]
      omega

/-- Units at their places, each behind its start code, are the delimited bytes (R193). -/
theorem flatMap_withStartCode {b : Bytes} {us : List CodedUnit} {xs : List NalUnit}
    (h : List.Forall₂ (CodedUnit.StandsAt b) us xs) :
    xs.flatMap (withStartCode b) = us.flatMap CodedUnit.bytes := by
  induction h with
  | nil => rfl
  | cons hx _ ih => rw [List.flatMap_cons, List.flatMap_cons, ih, withStartCode, hx.code, hx.unit, CodedUnit.bytes]

/-- Each place is that of a delimited unit. -/
theorem exists_standsAt_of_mem {b : Bytes} {us : List CodedUnit} {xs : List NalUnit}
    (h : List.Forall₂ (CodedUnit.StandsAt b) us xs) {x : NalUnit} (hx : x ∈ xs) :
    ∃ u ∈ us, u.StandsAt b x := by
  induction h with
  | nil => cases hx
  | cons hu _ ih =>
    rcases List.mem_cons.1 hx with rfl | hx
    · exact ⟨_, List.mem_cons_self, hu⟩
    · obtain ⟨u, hmem, hu⟩ := ih hx
      exact ⟨u, List.mem_cons_of_mem _ hmem, hu⟩

/-- Settles O28: lead, delimited units and residue are the bytes. -/
theorem annexBRoundTrip : Obligations.AnnexBRoundTrip := by
  intro b endDelim
  obtain ⟨lead, us, residue, h⟩ := exists_annexBCut b endDelim
  rw [h.answer, flatMap_withStartCode (unitsAt_standsAt h.bytes)]
  dsimp only
  rw [h.take_lead, h.drop_residue, ← h.bytes]

/-- Settles O29: the lead, the units and the residue of the cut hold no start code but the units' own. -/
theorem annexBUnits : Obligations.AnnexBUnits := by
  intro b endDelim
  obtain ⟨lead, us, residue, h⟩ := exists_annexBCut b endDelim
  rw [h.answer]
  dsimp only
  rw [h.take_lead, h.drop_residue]
  refine ⟨fun x hx => ?_, h.lead_free, h.residue_valid.imp id ?_, fun hmode => ?_⟩
  · obtain ⟨u, hu, hstands⟩ := exists_standsAt_of_mem (unitsAt_standsAt h.bytes) hx
    have hvalid := h.units_valid u hu
    refine ⟨hvalid.code.imp (fun h3 => ?_) (fun h4 => ?_), hstands.within, hstands.unit ▸ hvalid.unit⟩
    · have hpfx : x.pfx = 3 := by rw [hstands.pfx, h3]; rfl
      exact ⟨hpfx, by rw [← h3, ← hstands.code, hpfx]⟩
    · have hpfx : x.pfx = 4 := by rw [hstands.pfx, h4]; rfl
      exact ⟨hpfx, by rw [← h4, ← hstands.code, hpfx]⟩
  · rintro ⟨-, v, hv, rfl⟩
    exact ⟨v.code, v.unit, hv.code, rfl, hv.unit⟩
  · exact h.residue_valid.resolve_right fun ⟨hhold, _⟩ => Bool.false_ne_true (hhold.symm.trans hmode)

/-! ### Commands that check the size of a region's result (60_exceptions R453) -/

section
variable {i : Instr} {sp : RegionSel} {s : State} {r : Region} {cap : Nat} {size : Region → Nat} {f : Region → State}

/-- A result that fits is committed. -/
theorem finish_region_fits (hr : RegionIs sp s r) (hfit : size r ≤ cap) :
    finish i s (do
      let r ← resolveRegion sp s
      check (size r ≤ cap) .capacityExceeded (size r)
      return f r) = .next (complete (encode i) (f r)) := by
  have hcheck : check (size r ≤ cap) .capacityExceeded (size r) = .ok () := check_ok.2 (decide_eq_true hfit)
  rw [bind_ok.2 ⟨r, resolveRegion_ok.2 hr, (bind_ok (b := f r)).2 ⟨(), hcheck, rfl⟩⟩, finish_ok]

/-- A larger one raises CAPACITY_EXCEEDED with its size. -/
theorem finish_region_exceeds (hr : RegionIs sp s r) (hover : cap < size r) :
    finish i s (do
      let r ← resolveRegion sp s
      check (size r ≤ cap) .capacityExceeded (size r)
      return f r) = .next (errorPath (encode i) { code := .capacityExceeded, info := size r } s) := by
  have hcheck : check (size r ≤ cap) .capacityExceeded (size r) =
      .error { code := .capacityExceeded, info := size r } :=
    check_error.2 ⟨decide_eq_false (Nat.not_le.2 hover), rfl⟩
  rw [bind_error.2 (.inr ⟨r, resolveRegion_ok.2 hr, bind_error.2 (.inl hcheck)⟩), finish_error]

end

/-- Settles O30: the command commits the units of the region's bytes when DT holds them. -/
theorem splitAnnexbResult : Obligations.SplitAnnexbResult := by
  rintro sp endDelim s r _ hr rfl
  exact ⟨finish_region_fits (size := fun r => (annexbUnits (regionBytes s r) endDelim).units.length) hr,
    finish_region_exceeds (size := fun r => (annexbUnits (regionBytes s r) endDelim).units.length) hr⟩

/-! ### Length prefixes (R202, R203) -/

/-- A part of the bytes read is the read of that part (00_scope R15). -/
theorem memRead_slice {s : State} (hm : s.inMem.wf) {off len i n : Nat} (h : i + n ≤ len) (sp : ByteSpace) :
    memRead s sp (off + i) n = slice (memRead s sp off len) i n := by
  cases sp with
  | inp =>
    simp only [memRead, slice, memRange_eq hm, ← List.map_drop, ← List.map_take, List.drop_range', Nat.mul_one]
    rw [List.take_range'_of_length_ge (Nat.le_sub_of_add_le' h)]
  | rbsp =>
    simp only [memRead, slice, List.drop_take, List.drop_drop, List.take_take]
    congr 1
    omega

/-- The places of written units lie within the bytes written, each behind its length. -/
theorem prefixedUnits_within {w : Nat} {us : List Bytes} {p : Nat} {x : NalUnit} (hx : x ∈ prefixedUnits w p us) :
    x.start + x.len ≤ p + (us.flatMap (lengthPrefixed w)).length ∧ x.pfx = w := by
  induction us generalizing p with
  | nil => cases hx
  | cons u us ih =>
    have hlen : p + ((u :: us).flatMap (lengthPrefixed w)).length =
        p + w + u.length + (us.flatMap (lengthPrefixed w)).length := by simp [Nat.add_assoc]
    rw [hlen]
    rw [prefixedUnits] at hx
    split at hx
    · obtain ⟨hin, hpfx⟩ := ih hx
      exact ⟨by omega, hpfx⟩
    · rcases List.mem_cons.1 hx with rfl | hx
      · exact ⟨by simp, rfl⟩
      · exact ih hx

/-- The entries of units in a region of a space smaller than `2^32` read back the units' bytes (R194, R203). -/
theorem unitEntries_read {s : State} (hm : s.inMem.wf) {r : Region} (hr : r.off + r.len ≤ spaceSize s r.space)
    (hsize : spaceSize s r.space < 2 ^ 32) {xs : List NalUnit} (hxs : ∀ x ∈ xs, x.start + x.len ≤ r.len) :
    (unitEntries r xs).map (fun e => memRead s e.space e.off.toNat e.len.toNat) =
      xs.map fun x => slice (regionBytes s r) x.start x.len := by
  rw [unitEntries, List.map_map]
  refine List.map_congr_left fun x hx => ?_
  have hin := hxs x hx
  have hoff : (BitVec.ofNat 32 (r.off + x.start)).toNat = r.off + x.start := Nat.mod_eq_of_lt (by omega)
  have hlen : (BitVec.ofNat 32 x.len).toNat = x.len := Nat.mod_eq_of_lt (by omega)
  simp only [Function.comp_apply, hoff, hlen]
  exact memRead_slice hm hin r.space

/-- Settles O31: the scan finds the places of the written units, and the entries made of them read these back. -/
theorem splitLenpfxOfWritten : Obligations.SplitLenpfxOfWritten := by
  intro sp width s r us rest hr hw _ hm hus hrest hbytes hcap hsize
  have hunits := lenpfxUnits_written hw hus hrest
  rw [← hbytes] at hunits
  have hslices := prefixedUnits_slices width.toNat us [] rest
  rw [List.nil_append, ← hbytes, List.length_nil] at hslices
  have hlen : r.len = (us.flatMap (lengthPrefixed width.toNat)).length + rest.length := by
    rw [← List.length_append, ← hbytes, regionBytes, length_memRead hr.2]
  have hfit : (lenpfxUnits (regionBytes s r) width.toNat).1.length ≤ s.caps.dtCap := by
    rwa [hunits, ← List.length_map, hslices]
  refine ⟨_, finish_region_fits
    (size := fun r => (lenpfxUnits (regionBytes s r) width.toNat).1.length) hr hfit, ?_, ?_, fun e he => ?_⟩
  · have hoff : r.off + (us.flatMap (lengthPrefixed width.toNat)).length = r.off + r.len - rest.length := by omega
    have hres : r.len - (us.flatMap (lengthPrefixed width.toNat)).length = rest.length := by omega
    rw [hunits, hoff, hres]
  · rw [hunits, ← hslices]
    refine unitEntries_read hm hr.2 hsize fun x hx => ?_
    have := (prefixedUnits_within hx).1
    omega
  · rw [hunits, unitEntries] at he
    obtain ⟨x, hx, rfl⟩ := List.mem_map.1 he
    refine ⟨rfl, ?_, rfl⟩
    dsimp only
    rw [(prefixedUnits_within hx).2, BitVec.ofNat_toNat]

/-! ### Emulation prevention (R200, R201) -/

/-- Each byte is kept or dropped (R200). -/
theorem epbFrom_length (z : Nat) (b : Bytes) : (epbFrom z b).1.length + (epbFrom z b).2 = b.length := by
  fun_induction epbFrom z b with
  | case1 => rfl
  | case2 z b rest h r ih => simp only [r, List.length_cons]; omega
  | case3 z b rest h r ih => simp only [r, List.length_cons]; omega

/-- The bytes kept of an escaped sequence are the sequence, from the same number of zero bytes on (R200). -/
theorem epbFrom_epbEscape (z : Nat) (b : Bytes) : (epbFrom z (epbEscape z b)).1 = b := by
  fun_induction epbEscape z b with
  | case1 => rfl
  | case2 z b rest h ih =>
    have hkeep : ¬ (2 ≤ 0 ∧ b = 0x03) := fun ⟨h0, _⟩ => by omega
    rw [epbFrom, if_pos ⟨h.1, rfl⟩, epbFrom, if_neg hkeep]
    exact congrArg (b :: ·) ih
  | case3 z b rest h ih =>
    have hkeep : ¬ (2 ≤ z ∧ b = 0x03) := fun ⟨hz, hb⟩ => h ⟨hz, hb ▸ Nat.le_refl 3⟩
    rw [epbFrom, if_neg hkeep]
    exact congrArg (b :: ·) ih

/-- Settles O32: the region's bytes are kept as the sequence, and the others are those dropped. -/
theorem epbRemoveUndoesEscaping : Obligations.EpbRemoveUndoesEscaping := by
  intro sp s r b hr hbytes hcap
  have hkept : (epbRemove (regionBytes s r)).1 = b := by rw [hbytes, epbRemove, epbFrom_epbEscape]
  have hdropped : (epbRemove (regionBytes s r)).2 = r.len - b.length := by
    have hsum := epbFrom_length 0 (regionBytes s r)
    rw [← epbRemove, hkept, regionBytes, length_memRead hr.2] at hsum
    exact Nat.eq_sub_of_add_eq' hsum
  rw [← hdropped, ← hkept]
  rw [← hkept] at hcap
  exact finish_region_fits (size := fun r => (epbRemove (regionBytes s r)).1.length) hr hcap

end Sys2Proof.Machine
end

section
/-! PROOFS. 43_avc_paramsets R221 to R241: a written AVC SPS, AVC_SPS_PARSE and AVCC_PARSE. -/

namespace Sys2Proof.Machine

/-! ### Scaling matrices (R221, 41_bitreader R174) -/

/-- `scaling_list` moves over the deltas of a whole list. -/
theorem reads_scalingList {size : Nat} {ds : List Int} (h : ScalingCode size ds) :
    Reads (scalingList size) (ds.flatMap seBits) () :=
  reads_scalingFrom (scalingCode_iff.1 h) (by decide)

/-- The lists of a matrix from list `i` on, each absent or coded. -/
theorem reads_avcScalingLists {ls : List (Option (List Int))} {i : Nat} (h : MatrixValid i ls) :
    Reads (avcScalingLists ls.length i) (ls.flatMap scalingBits) () := by
  induction ls generalizing i with
  | nil => exact reads_pure ()
  | cons l ls ih =>
    obtain ⟨hl, hrest⟩ := h
    rw [List.flatMap_cons]
    cases l with
    | none => exact reads_bind (reads_flag false) (reads_bind (as := []) (reads_pure ()) (ih hrest))
    | some ds =>
      exact reads_bind (as := [true]) (reads_flag true) (reads_bind (reads_scalingList hl) (ih hrest))

/-! ### The fields of a high profile (R221, R222) -/

/-- separate_colour_plane_flag as `avc_sps` takes it: 0 where it is not coded. -/
def AvcHighCode.plane (x : AvcHighCode) : Nat := if x.chroma = 3 then x.separate.toNat else 0

/-- The chroma and scaling-matrix fields are read back. -/
theorem reads_avcChroma {x : AvcHighCode} (hx : x.Valid) : Reads avcChroma x.bits (x.chroma, x.plane) := by
  obtain ⟨hchroma, hluma, hdepth, hmatrix⟩ := hx
  have hplane : Reads (codedIf (x.chroma = 3) (u 1) 0) (if x.chroma = 3 then [x.separate] else []) x.plane := by
    refine reads_codedIf (fun h3 => ?_) fun h3 => ?_
    · rw [AvcHighCode.plane, if_pos (of_decide_eq_true h3), if_pos (of_decide_eq_true h3)]
      exact reads_flag x.separate
    · rw [AvcHighCode.plane, if_neg (of_decide_eq_false h3), if_neg (of_decide_eq_false h3)]
      exact ⟨rfl, rfl⟩
  unfold AvcHighCode.bits
  simp only [List.append_assoc]
  refine reads_bind (reads_ue (by unfold UeRange; omega)) ?_
  refine reads_bind (as := []) (reads_demand _ (decide_eq_true hchroma)) ?_
  refine reads_bind hplane (reads_bind (reads_ue hluma) (reads_bind (reads_ue hdepth) ?_))
  refine reads_bind (reads_flag x.bypass) ?_
  generalize x.matrix = matrix at hmatrix ⊢
  cases matrix with
  | none => exact reads_bind (reads_flag false) (reads_bind (as := []) (reads_pure ()) (reads_pure _))
  | some ls =>
    obtain ⟨hlen, hls⟩ := hmatrix
    refine reads_bind (as := [true]) (reads_flag true) ?_
    rw [← hlen]
    exact reads_bind_last (reads_avcScalingLists hls) (reads_pure _)

/-! ### Picture order count, cropping, aspect ratio (R221, R223, R225, R226) -/

/-- The picture-order-count fields of each type are read. -/
theorem reads_avcPicOrder {x : PocCode} (hx : x.Valid) : Reads avcPicOrder x.bits () := by
  cases x with
  | lsb n => exact reads_bind (reads_ue (by decide)) (reads_bind_last (reads_ue hx) (reads_pure ()))
  | absent => exact reads_bind_last (reads_ue (by decide)) (reads_demand 0x03 rfl)
  | cycle z a b os =>
    obtain ⟨ha, hb, hcount, hos⟩ := hx
    unfold PocCode.bits
    simp only [List.append_assoc]
    refine reads_bind (reads_ue (by decide)) (reads_bind (reads_flag z) ?_)
    refine reads_bind (reads_se ha) (reads_bind (reads_se hb) ?_)
    refine reads_bind (reads_ue (by unfold UeRange; omega)) ?_
    refine reads_bind (as := []) (reads_demand _ (decide_eq_true hcount)) ?_
    exact reads_times rfl fun d hd => reads_bind_last (reads_se (hos d hd)) (reads_pure ())

/-- The crop offsets are read back, as zeros where they are absent. -/
theorem reads_cropOffsets {x : CropCode} (hx : CropValid x) :
    Reads cropOffsets (cropBits x)
      ((cropValues x).1, (cropValues x).2.1, (cropValues x).2.2.1, (cropValues x).2.2.2) := by
  obtain ⟨hl, hr, ht, hb⟩ := hx
  cases x with
  | none => exact reads_bind (reads_flag false) (reads_pure _)
  | some v =>
    unfold cropBits
    simp only [List.append_assoc]
    refine reads_bind (as := [true]) (reads_flag true) ?_
    exact reads_bind (reads_ue hl) (reads_bind (reads_ue hr)
      (reads_bind (reads_ue ht) (reads_bind_last (reads_ue hb) (reads_pure _))))

/-- The ratio of an aspect_ratio_idc: one of the sixteen, else 1:1. -/
theorem sarTable_eq (i : BitVec 8) : (sarTable i.toNat).getD (1, 1) = (SarCode.idc i).ratio := by
  revert i
  decide

/-- The aspect ratio is read back in each of its coded forms. -/
theorem reads_vuiSar {x : SarCode} (hx : x.Valid) : Reads vuiSar x.bits (x.ratio.1, x.ratio.2) := by
  cases x with
  | noVui => exact reads_bind_last (reads_flag false) (reads_pure _)
  | noInfo => exact reads_bind (reads_flag true) (reads_bind_last (reads_flag false) (reads_pure _))
  | idc i =>
    have hi : i.toNat ≠ 255 := fun h => hx (congrArg SarCode.idc (BitVec.eq_of_toNat_eq h))
    refine reads_bind (as := [true]) (reads_flag true) (reads_bind (as := [true]) (reads_flag true) ?_)
    refine reads_bind_last (reads_u (n := 8) (v := i.toNat) i.isLt) ?_
    rw [if_neg hi, sarTable_eq]
    exact reads_pure _
  | extended w h =>
    unfold SarCode.bits
    simp only [List.append_assoc]
    refine reads_bind (as := [true]) (reads_flag true) (reads_bind (as := [true]) (reads_flag true) ?_)
    refine reads_bind (reads_u (n := 8) (v := 255) (by decide)) ?_
    exact reads_bind (reads_u (n := 16) w.isLt) (reads_bind_last (reads_u (n := 16) h.isLt) (reads_pure _))

/-! ### The picture size (R224) -/

/-- A picture that is not empty has its size. -/
theorem reads_positiveDims {w h : Int} (info : Nat) (hsize : 0 < w ∧ 0 < h) :
    Reads (positiveDims w h info) [] (w.toNat, h.toNat) :=
  reads_bind (as := []) (reads_demand info (decide_eq_true hsize)) (reads_pure _)

/-- separate_colour_plane_flag of an SPS as `avc_sps` takes it: 0 where it is not coded. -/
def AvcSpsCode.plane (x : AvcSpsCode) : Nat := if x.isHigh then x.high.plane else 0

/-- ChromaArrayType, from the two fields as they are read. -/
theorem AvcSpsCode.arrayType_eq (x : AvcSpsCode) : x.arrayType = if x.plane = 1 then 0 else x.chroma := by
  unfold arrayType plane AvcHighCode.plane
  cases x.isHigh
  · simp
  · by_cases h3 : x.high.chroma = 3
    · cases hs : x.high.separate <;> simp [h3]
    · simp [h3]

theorem AvcSpsCode.chroma_le {x : AvcSpsCode} (hx : x.Valid) : x.chroma ≤ 3 := by
  unfold chroma
  split_ifs with h
  · exact (hx.high h).1
  · decide

/-- The vertical factor of field coding. -/
theorem AvcSpsCode.fields_eq (x : AvcSpsCode) : 2 - x.frameMbsOnly.toNat = x.fields := by
  unfold fields
  cases x.frameMbsOnly <;> rfl

/-- The crop units of a valid SPS. -/
theorem avcCropUnits_eq {x : AvcSpsCode} (hx : x.Valid) :
    avcCropUnits x.chroma x.plane x.frameMbsOnly.toNat =
      (if x.arrayType = 1 ∨ x.arrayType = 2 then 2 else 1, (if x.arrayType = 1 then 2 else 1) * x.fields) := by
  have hle : x.arrayType ≤ 3 := by
    have := AvcSpsCode.chroma_le hx
    rw [x.arrayType_eq]
    split_ifs <;> omega
  unfold avcCropUnits
  simp only [← x.arrayType_eq, x.fields_eq]
  generalize x.arrayType = t at hle ⊢
  interval_cases t <;> simp

/-- The width, from the two natural numbers that `avc_dims` takes apart. -/
theorem AvcSpsCode.width_eq (x : AvcSpsCode) :
    x.width = ((x.widthMbs + 1) * 16 : Nat) - ((if x.arrayType = 1 ∨ x.arrayType = 2 then 2 else 1)
      * ((cropValues x.crop).1 + (cropValues x.crop).2.1) : Nat) := by
  unfold width
  push_cast
  rfl

/-- The height, from the two natural numbers that `avc_dims` takes apart. -/
theorem AvcSpsCode.height_eq (x : AvcSpsCode) :
    x.height = (x.fields * (x.heightMaps + 1) * 16 : Nat) - ((if x.arrayType = 1 then 2 else 1) * x.fields
      * ((cropValues x.crop).2.2.1 + (cropValues x.crop).2.2.2) : Nat) := by
  unfold height
  push_cast
  rfl

/-! ### The SPS (R221, R232) -/

/-- What `avc_sps` returns for the SPS. -/
def AvcSpsCode.info (x : AvcSpsCode) : SpsInfo :=
  { width := x.width.toNat, height := x.height.toNat, sarNum := x.sar.ratio.1, sarDen := x.sar.ratio.2
    codec0 := (1 <<< 60) ||| (x.profile.toNat <<< 16) ||| (x.constraints.toNat <<< 8) ||| x.level.toNat
    codec1 := 0, chroma := x.chroma }

/-- The fields of a high profile, with the values that stand for them in the other profiles (R222). -/
theorem reads_highFields {x : AvcSpsCode} (hx : x.Valid) :
    Reads (codedIf (x.profile.toNat ∈ highProfiles) avcChroma (1, 0)) (if x.isHigh then x.high.bits else [])
      (x.chroma, x.plane) := by
  unfold AvcSpsCode.chroma AvcSpsCode.plane
  refine reads_codedIf (fun h => ?_) fun h => ?_
  · have h : x.isHigh = true := h
    simp only [h, if_true]
    exact reads_avcChroma (hx.high h)
  · have h : x.isHigh = false := h
    simp [h]

/-- mb_adaptive_frame_field_flag, coded with field coding only. -/
theorem reads_mbaff (frameMbsOnly mbaff : Bool) :
    Reads (codedIf (frameMbsOnly.toNat = 0) (u 1) 0) (if frameMbsOnly then [] else [mbaff])
      (if frameMbsOnly then 0 else mbaff.toNat) := by
  cases frameMbsOnly
  · exact reads_flag mbaff
  · exact reads_pure 0

/-- `avc_sps` reads the bits of a valid SPS as its fields. -/
theorem reads_avcSpsBits {x : AvcSpsCode} (hx : x.Valid) : Reads avcSpsBits x.bits x.info := by
  unfold AvcSpsCode.bits
  simp only [List.append_assoc]
  refine reads_bind (reads_flag x.forbidden) (reads_bind (reads_u (n := 2) x.refIdc.isLt) ?_)
  refine reads_bind (reads_u (n := 5) (v := 7) (by decide)) (reads_bind (as := []) (reads_demand _ rfl) ?_)
  refine reads_bind (reads_u (n := 8) x.profile.isLt) (reads_bind (reads_u (n := 8) x.constraints.isLt) ?_)
  refine reads_bind (reads_u (n := 8) x.level.isLt) (reads_bind (reads_ue hx.spsId) ?_)
  refine reads_bind (reads_highFields hx) (reads_bind (reads_ue hx.log2FrameNum) ?_)
  refine reads_bind (reads_avcPicOrder hx.poc) (reads_bind (reads_ue hx.refFrames) ?_)
  refine reads_bind (reads_flag x.gaps) (reads_bind (reads_ue hx.widthMbs) (reads_bind (reads_ue hx.heightMaps) ?_))
  refine reads_bind (reads_flag x.frameMbsOnly) (reads_bind (reads_mbaff x.frameMbsOnly x.mbaff) ?_)
  refine reads_bind (reads_flag x.direct) (reads_bind (reads_cropOffsets hx.crop) ?_)
  refine reads_bind_last (reads_vuiSar hx.sar) ?_
  simp only [avcCropUnits_eq hx, x.fields_eq, ← x.width_eq, ← x.height_eq]
  exact reads_bind (as := []) (reads_positiveDims _ hx.size) (reads_pure _)

/-- The descriptor's fields stand side by side (R232). -/
theorem codecWord_eq (profile constraints level : BitVec 8) :
    (1 <<< 60) ||| (profile.toNat <<< 16) ||| (constraints.toNat <<< 8) ||| level.toNat =
      2 ^ 60 + profile.toNat * 2 ^ 16 + constraints.toNat * 2 ^ 8 + level.toNat := by
  have hp := profile.isLt
  have hc := constraints.isLt
  have hl := level.isLt
  simp only [Nat.or_assoc]
  rw [← Nat.shiftLeft_add_eq_or_of_lt (i := 8) hl, ← Nat.shiftLeft_add_eq_or_of_lt (i := 16) (by omega),
    ← Nat.shiftLeft_add_eq_or_of_lt (i := 60) (by omega)]
  omega

/-- The registers take the results (R230). -/
theorem spsRegsOf_info {x : AvcSpsCode} (hx : x.Valid) : spsRegsOf x.info = x.regs := by
  obtain ⟨hw, hh⟩ := hx.size
  have hofInt {v : Int} (hv : 0 < v) : BitVec.ofNat 64 v.toNat = BitVec.ofInt 64 v := by
    rw [← BitVec.ofInt_natCast, Int.toNat_of_nonneg hv.le]
  simp only [spsRegsOf, geometryOf, AvcSpsCode.info, AvcSpsCode.regs, hofInt hw, hofInt hh, codecWord_eq]
  rfl

/-- `avc_sps` of a unit that starts with a written SPS once its escapes are removed (R221). -/
theorem avcSps_of_written {x : AvcSpsCode} {b : Bytes} (hx : x.Valid) (hb : StartsWith (epbRemove b).1 x.bits) :
    avcSps b = .ok x.info := parseBytes_reads (reads_avcSpsBits hx) hb

/-- Settles O33: the region's unit is parsed to the fields of the SPS, and the registers take them. -/
theorem avcSpsOfWritten : Obligations.AvcSpsOfWritten := by
  intro sp s r x hr hx hb
  rw [← spsRegsOf_info hx]
  refine congrArg (finish (.avcSpsParse sp) s) (bind_ok.2 ⟨r, resolveRegion_ok.2 hr, ?_⟩)
  exact bind_ok.2 ⟨x.info, avcSps_of_written hx hb, rfl⟩

/-! ### The record (R240, R241) -/

/-- Settles O35: the region's record is parsed to its entries and its first SPS's results, and committed. -/
theorem avccOfWritten : Obligations.AvccOfWritten := by
  intro sp s r x g hr hx hbytes hg hcap
  refine congrArg (finish (.avccParse sp) s) (bind_ok.2 ⟨r, resolveRegion_ok.2 hr, ?_⟩)
  rw [hbytes]
  refine bind_ok.2 ⟨_, avcc_of_written hx hg, ?_⟩
  exact bind_ok.2 ⟨(), check_ok.2 (decide_eq_true hcap), rfl⟩

end Sys2Proof.Machine
end

section
/-! PROOFS. 44_hevc_paramsets R261 to R281: a written HEVC SPS, HEVC_SPS_PARSE and HVCC_PARSE. -/

namespace Sys2Proof.Machine

/-- A field that is coded only under a condition is read back, as the absent value where it is not coded. -/
theorem reads_codedIf_ite {α : Type} {coded : Prop} [Decidable coded] {p : BitP α} {absent v : α} {bs : List Bool}
    (h : Reads p bs v) :
    Reads (codedIf coded p absent) (if coded then bs else []) (if coded then v else absent) := by
  by_cases hcoded : coded
  · rwa [if_pos hcoded, if_pos hcoded, decide_eq_true hcoded]
  · rw [if_neg hcoded, if_neg hcoded, decide_eq_false hcoded]
    exact reads_pure absent

/-! ### profile_tier_level (R262) -/

/-- The presence flags of a sub-layer, as they are read. -/
def SubLayerCode.flags (x : SubLayerCode) : Nat × Nat := (x.profile.isSome.toNat, x.level.isSome.toNat)

/-- The profile bits of a sub-layer, where they are present. -/
def SubLayerCode.profileBits (x : SubLayerCode) : List Bool :=
  match x.profile with
  | some bits => bits.toList
  | none => []

/-- The level of a sub-layer, where it is present. -/
def SubLayerCode.levelBits (x : SubLayerCode) : List Bool :=
  match x.level with
  | some v => natBits 8 v.toNat
  | none => []

theorem subLayerBits_eq (xs : List SubLayerCode) (padding : List Bool) :
    subLayerBits xs padding = (xs.flatMap fun x => [x.profile.isSome, x.level.isSome])
      ++ (padding ++ xs.flatMap fun x => x.profileBits ++ x.levelBits) := List.append_assoc _ _ _

/-- The presence flags are read back. -/
theorem reads_subLayerFlags (xs : List SubLayerCode) :
    Reads (subLayerFlags xs.length) (xs.flatMap fun x => [x.profile.isSome, x.level.isSome])
      (xs.map SubLayerCode.flags) := by
  induction xs with
  | nil => exact reads_pure []
  | cons x xs ih =>
    exact reads_bind (as := [_]) (reads_flag _) (reads_bind (as := [_]) (reads_flag _)
      (reads_bind_last ih (reads_pure _)))

/-- The profile bits are moved over where they are present. -/
theorem reads_subLayerProfile (x : SubLayerCode) :
    Reads (codedIf (x.flags.1 = 1) (skip 88) ()) x.profileBits () := by
  unfold SubLayerCode.flags SubLayerCode.profileBits
  cases x.profile with
  | none => exact reads_pure ()
  | some bits =>
    have h := reads_skip bits.toList
    rwa [Vector.length_toList] at h

/-- The level is moved over where it is present. -/
theorem reads_subLayerLevel (x : SubLayerCode) : Reads (codedIf (x.flags.2 = 1) (skip 8) ()) x.levelBits () := by
  unfold SubLayerCode.flags SubLayerCode.levelBits
  cases x.level with
  | none => exact reads_pure ()
  | some v =>
    have h := reads_skip (natBits 8 v.toNat)
    rwa [natBits_length] at h

/-- The fields that the flags of the sub-layers announce are moved over. -/
theorem reads_subLayerFields (xs : List SubLayerCode) :
    Reads (subLayerFields (xs.map SubLayerCode.flags)) (xs.flatMap fun x => x.profileBits ++ x.levelBits) () := by
  induction xs with
  | nil => exact reads_pure ()
  | cons x xs ih =>
    rw [List.flatMap_cons, List.append_assoc]
    exact reads_bind (reads_subLayerProfile x) (reads_bind (reads_subLayerLevel x) ih)

/-- `n` pairs of reserved bits are moved over. -/
theorem reads_reservedPairs {n : Nat} {bs : List Bool} (h : bs.length = 2 * n) :
    Reads (times n (do let _ ← u 2; pure ())) bs () := by
  induction n generalizing bs with
  | zero =>
    obtain rfl := List.length_eq_zero_iff.1 h
    exact reads_pure ()
  | succ n ih =>
    obtain ⟨a, b, rest, rfl⟩ : ∃ a b rest, bs = a :: b :: rest := by
      match bs with
      | a :: b :: rest => exact ⟨a, b, rest, rfl⟩
    have hpair : natBits 2 (2 * a.toNat + b.toNat) = [a, b] := by cases a <;> cases b <;> rfl
    have hlt : 2 * a.toNat + b.toNat < 2 ^ 2 := by
      have := a.toNat_le
      have := b.toNat_le
      omega
    refine reads_bind (as := [a, b]) (reads_bind_last (hpair ▸ reads_u hlt) (reads_pure ())) (ih ?_)
    simp only [List.length_cons] at h
    omega

/-- The general fields of the SPS's profile_tier_level. -/
def HevcSpsCode.ptl (x : HevcSpsCode) : ProfileTierLevel :=
  { space := x.space.toNat, tier := x.tier.toNat, profile := x.profile.toNat, compat := x.compat.toNat
    constraints := x.constraints.toNat, level := x.level.toNat }

/-- The bits of profile_tier_level. -/
def HevcSpsCode.ptlBits (x : HevcSpsCode) : List Bool :=
  natBits 2 x.space.toNat ++ ([x.tier] ++ (natBits 5 x.profile.toNat ++ (natBits 32 x.compat.toNat
    ++ (natBits 48 x.constraints.toNat ++ (natBits 8 x.level.toNat ++ subLayerBits x.subLayers x.padding)))))

/-- The general fields are read back, and the sub-layers are moved over. -/
theorem reads_profileTierLevel {x : HevcSpsCode} (hx : x.Valid) :
    Reads (profileTierLevel x.subLayers.length) x.ptlBits x.ptl := by
  obtain ⟨-, hpadding⟩ := hx.subLayers
  have hpad : Reads (codedIf (0 < x.subLayers.length) (times (8 - x.subLayers.length)
      (do let _ ← u 2; pure ())) ()) x.padding () := by
    refine reads_codedIf (fun h => ?_) fun h => ?_
    · rw [if_neg (Nat.ne_of_gt (of_decide_eq_true h))] at hpadding
      exact reads_reservedPairs hpadding
    · rw [if_pos (Nat.eq_zero_of_not_pos (of_decide_eq_false h))] at hpadding
      exact ⟨List.length_eq_zero_iff.1 hpadding, rfl⟩
  rw [HevcSpsCode.ptlBits, subLayerBits_eq]
  refine reads_bind (reads_u (n := 2) x.space.isLt) (reads_bind (reads_flag x.tier) ?_)
  refine reads_bind (reads_u (n := 5) x.profile.isLt) (reads_bind (reads_u (n := 32) x.compat.isLt) ?_)
  refine reads_bind (reads_u (n := 48) x.constraints.isLt) (reads_bind (reads_u (n := 8) x.level.isLt) ?_)
  refine reads_bind (reads_subLayerFlags _) (reads_bind hpad ?_)
  exact reads_bind_last (reads_subLayerFields _) (reads_pure _)

/-! ### Scaling lists (R263) -/

/-- A predicted or a coded matrix is moved over. -/
theorem reads_scalingMatrix {sizeId : Nat} (hsize : sizeId ≤ 3) {x : MatrixCode} (hx : x.Valid sizeId) :
    Reads (scalingMatrix sizeId) (x.bits sizeId) () := by
  cases x with
  | predicted d => exact reads_bind (as := [_]) (reads_flag false) (reads_bind_last (reads_ue hx) (reads_pure ()))
  | coded dc ds =>
    obtain ⟨hdc, hlen, hds⟩ := hx
    have hcount : min 64 (1 <<< (4 + (sizeId <<< 1))) = ds.length := by
      rw [hlen]
      interval_cases sizeId <;> rfl
    refine reads_bind (as := [_]) (reads_flag true) (reads_bind (reads_codedIf_ite (reads_se hdc)) ?_)
    exact reads_times hcount fun d hd => reads_bind_last (reads_se (hds d hd)) (reads_pure ())

/-- The matrices of one sizeId, one after the other. -/
theorem reads_scalingMatrices {n sizeId : Nat} (hsize : sizeId ≤ 3) {ms : List (Nat × MatrixCode)}
    (hsizes : ms.map Prod.fst = List.replicate n sizeId) (hms : ∀ m ∈ ms, m.2.Valid m.1) :
    Reads (times n (scalingMatrix sizeId)) (ms.flatMap fun m => m.2.bits m.1) () := by
  refine reads_times (by simpa using (congrArg List.length hsizes).symm) fun m hm => ?_
  have hm1 : m.1 = sizeId := List.eq_of_mem_replicate (hsizes ▸ List.mem_map_of_mem hm)
  have hvalid := hms m hm
  rw [hm1] at hvalid ⊢
  exact reads_scalingMatrix hsize hvalid

/-- The twenty matrices, by their sizeId. -/
theorem reads_scalingListData {ms : List (Nat × MatrixCode)} (hsizes : ms.map Prod.fst = matrixSizes)
    (hms : ∀ m ∈ ms, m.2.Valid m.1) : Reads scalingListData (ms.flatMap fun m => m.2.bits m.1) () := by
  have hruns : matrixSizes = List.replicate 6 0 ++ (List.replicate 6 1 ++ (List.replicate 6 2
      ++ List.replicate 2 3)) := rfl
  obtain ⟨m0, ms, rfl, h0, hsizes⟩ := List.map_eq_append_iff.1 (hsizes.trans hruns)
  obtain ⟨m1, ms, rfl, h1, hsizes⟩ := List.map_eq_append_iff.1 hsizes
  obtain ⟨m2, m3, rfl, h2, h3⟩ := List.map_eq_append_iff.1 hsizes
  simp only [List.forall_mem_append] at hms
  obtain ⟨hm0, hm1, hm2, hm3⟩ := hms
  simp only [List.flatMap_append]
  exact reads_bind (reads_scalingMatrices (by decide) h0 hm0) (reads_bind (reads_scalingMatrices (by decide) h1 hm1)
    (reads_bind (reads_scalingMatrices (by decide) h2 hm2) (reads_scalingMatrices (by decide) h3 hm3)))

/-- The scaling-list fields in each of their forms. -/
theorem reads_hevcScaling {x : HevcScaling} (hx : x.Valid) : Reads hevcScaling x.bits () := by
  cases x with
  | disabled => exact reads_bind_last (reads_flag false) (reads_pure ())
  | default => exact reads_bind (as := [_]) (reads_flag true) (reads_bind_last (reads_flag false) (reads_pure ()))
  | coded ms =>
    obtain ⟨hlen, hms⟩ := hx
    refine reads_bind (as := [_]) (reads_flag true) (reads_bind (as := [_]) (reads_flag true) ?_)
    exact reads_scalingListData (List.map_fst_zip hlen.symm.le) hms

/-! ### Short-term reference picture sets (R264) -/

/-- The sums start with the first step, which the others are moved by. -/
theorem pocSums_cons (sign : Int) (p : Nat × Bool) (xs : List (Nat × Bool)) :
    pocSums sign (p :: xs) =
      sign * (p.1 + 1) :: (pocSums sign xs).map fun poc => sign * (p.1 + 1) + poc := by
  simp [pocSums, List.range_succ_eq_map, Int.mul_add]

/-- Explicit entries are read as their running sums from `prev` on. -/
theorem reads_explicitPocs (sign : Int) {xs : List (Nat × Bool)} (hxs : ∀ p ∈ xs, UeRange p.1) (prev : Int) :
    Reads (explicitPocs sign xs.length prev) (xs.flatMap fun p => ueBits p.1 ++ [p.2])
      ((pocSums sign xs).map fun poc => prev + poc) := by
  induction xs generalizing prev with
  | nil => exact reads_pure []
  | cons p xs ih =>
    obtain ⟨hp, hxs⟩ := List.forall_mem_cons.1 hxs
    rw [List.flatMap_cons, List.append_assoc, pocSums_cons, List.map_cons, List.map_map]
    refine reads_bind (reads_ue hp) (reads_bind (reads_flag p.2) (reads_bind_last (ih hxs _) ?_))
    simp only [Function.comp_def, Int.add_assoc]
    exact reads_pure _

/-- The flags of the kept pictures: a delta flag is coded where the used flag is 0. -/
theorem reads_useDeltaFlags (flags : List (Bool × Bool)) :
    Reads (useDeltaFlags flags.length) (flags.flatMap fun f => f.1 :: (if f.1 then [] else [f.2]))
      (flags.map fun f => f.1 || f.2) := by
  induction flags with
  | nil => exact reads_pure []
  | cons f flags ih =>
    obtain ⟨used, useDelta⟩ := f
    have hdelta : Reads (codedIf (used.toNat = 0) (u 1) 1) (if used then [] else [useDelta])
        (used || useDelta).toNat := by
      cases used
      · exact reads_flag useDelta
      · exact reads_pure 1
    have hkeep : decide ((used || useDelta).toNat = 1) = (used || useDelta) := by
      cases used || useDelta <;> rfl
    rw [List.flatMap_cons, List.map_cons, List.cons_append]
    refine reads_bind (as := [_]) (reads_flag used) (reads_bind hdelta (reads_bind_last ih ?_))
    rw [hkeep]
    exact reads_pure _

/-- The lists of the pictures, before and after. -/
def refPicSetOf (pocs : List Int × List Int) : RefPicSet := { s0 := pocs.1, s1 := pocs.2 }

theorem movedPocs_cons (keep : Int → Bool) (delta : Int) (x : Int × Bool) (xs : List (Int × Bool)) :
    movedPocs keep delta (x :: xs) =
      (if keep (x.1 + delta) && x.2 then [x.1 + delta] else []) ++ movedPocs keep delta xs := by
  unfold movedPocs
  cases hu : x.2 <;> cases hk : keep (x.1 + delta) <;> simp [hu, hk]

/-- Pictures kept, moved and sorted out by sign. -/
theorem movedPocs_eq (keep : Int → Bool) (delta : Int) (xs : List (Int × Bool)) :
    movedPocs keep delta xs = ((xs.filter (·.2)).map fun x => x.1 + delta).filter keep := by
  induction xs with
  | nil => rfl
  | cons x xs ih =>
    rw [movedPocs_cons, ih]
    cases hu : x.2 <;> cases hk : keep (x.1 + delta) <;> simp [hu, hk]

/-- The current picture, moved from 0 by the delta. -/
theorem movedPocs_own (keep : Int → Bool) (delta : Int) (own : Bool) :
    movedPocs keep delta [(0, own)] = if keep delta && own then [delta] else [] := by
  rw [movedPocs_cons, Int.zero_add]
  exact List.append_nil _

theorem movedPocs_append (keep : Int → Bool) (delta : Int) (xs ys : List (Int × Bool)) :
    movedPocs keep delta (xs ++ ys) = movedPocs keep delta xs ++ movedPocs keep delta ys :=
  List.filterMap_append

/-- An inter-predicted set is the set before it, moved. -/
theorem interRps_eq (prev : List Int × List Int) (sign : Bool) (a : Nat) (flags : List (Bool × Bool)) :
    interRps (refPicSetOf prev) ((1 - 2 * (sign.toNat : Int)) * (a + 1)) (flags.map fun f => f.1 || f.2) =
      refPicSetOf ((RpsCode.inter sign a flags).pocs prev) := by
  have hsign : 1 - 2 * (sign.toNat : Int) = if sign then -1 else 1 := by cases sign <;> rfl
  simp only [RpsCode.pocs, ← movedPocs_eq, movedPocs_append, movedPocs_own, hsign]
  rfl

/-- An explicit set is read back. -/
theorem reads_explicitRps {neg pos : List (Nat × Bool)} {prev : List Int × List Int}
    (hx : (RpsCode.explicit neg pos).Valid prev) :
    Reads explicitRps (RpsCode.explicit neg pos).bits (refPicSetOf ((RpsCode.explicit neg pos).pocs prev)) := by
  obtain ⟨hn, hp, hall⟩ := hx
  obtain ⟨hneg, hpos⟩ := List.forall_mem_append.1 hall
  have hentries (sign : Int) {xs : List (Nat × Bool)} (hxs : ∀ p ∈ xs, UeRange p.1) :
      Reads (explicitPocs sign xs.length 0) (xs.flatMap fun p => ueBits p.1 ++ [p.2]) (pocSums sign xs) := by
    simpa using reads_explicitPocs sign hxs 0
  rw [RpsCode.bits, List.flatMap_append, List.append_assoc]
  refine reads_bind (reads_ue (by unfold UeRange; omega)) (reads_bind (reads_ue (by unfold UeRange; omega)) ?_)
  refine reads_bind (as := []) (reads_demand _ (decide_eq_true ⟨hn, hp⟩)) ?_
  exact reads_bind (hentries (-1) hneg) (reads_bind_last (hentries 1 hpos) (reads_pure _))

/-- A set behind another, with its prediction flag. -/
theorem reads_stRefPicSet {x : RpsCode} {prev : List Int × List Int} (hx : x.Valid prev) :
    Reads (stRefPicSet (some (refPicSetOf prev))) (x.predicted :: x.bits) (refPicSetOf (x.pocs prev)) := by
  cases x with
  | explicit neg pos => exact reads_bind (as := [_]) (reads_flag false) (reads_explicitRps hx)
  | inter sign a flags =>
    obtain ⟨ha, hlen⟩ := hx
    refine reads_bind (as := [_]) (reads_flag true) (reads_bind (as := [_]) (reads_flag sign) ?_)
    refine reads_bind (reads_ue ha) (reads_bind_last (a := flags.map fun f => f.1 || f.2) ?_ ?_)
    · have h := reads_useDeltaFlags flags
      rwa [hlen] at h
    · rw [interRps_eq]
      exact reads_pure _

/-- The sets behind another. -/
theorem reads_stRefPicSets_some {xs : List RpsCode} {prev : List Int × List Int} (hxs : RpsSets.Valid prev xs) :
    Reads (stRefPicSets xs.length (some (refPicSetOf prev))) (xs.flatMap fun x => x.predicted :: x.bits) () := by
  induction xs generalizing prev with
  | nil => exact reads_pure ()
  | cons x xs ih =>
    obtain ⟨hx, hrest⟩ := hxs
    exact reads_bind (reads_stRefPicSet hx) (ih hrest)

/-- The sets of an SPS, of which the first is explicit and has no prediction flag. -/
theorem reads_stRefPicSets {xs : List RpsCode} (hfirst : xs.head?.all (fun x => !x.predicted))
    (hxs : RpsSets.Valid ([], []) xs) : Reads (stRefPicSets xs.length none) (rpsBits xs) () := by
  cases xs with
  | nil => exact reads_pure ()
  | cons x xs =>
    obtain ⟨hx, hrest⟩ := hxs
    cases x with
    | inter => cases hfirst
    | explicit => exact reads_bind (reads_explicitRps hx) (reads_stRefPicSets_some hrest)

/-! ### Ordering, block sizes, PCM, long-term pictures (R261, R265) -/

/-- The bits of the sub-layer ordering information. -/
def HevcSpsCode.orderingBits (x : HevcSpsCode) : List Bool :=
  [x.orderingPresent] ++ x.ordering.flatMap fun o => ueBits o.1 ++ ueBits o.2.1 ++ ueBits o.2.2

/-- The bits of the block sizes and depths. -/
def HevcSpsCode.blockBits (x : HevcSpsCode) : List Bool :=
  ueBits x.blocks.1 ++ (ueBits x.blocks.2.1 ++ (ueBits x.blocks.2.2.1 ++ (ueBits x.blocks.2.2.2.1
    ++ (ueBits x.blocks.2.2.2.2.1 ++ ueBits x.blocks.2.2.2.2.2))))

/-- The sub-layer ordering information, for every sub-layer or for the highest alone. -/
theorem reads_subLayerOrdering {x : HevcSpsCode} (hx : x.Valid) :
    Reads (subLayerOrdering x.subLayers.length) x.orderingBits () := by
  obtain ⟨hlen, hall⟩ := hx.ordering
  refine reads_bind (reads_flag _) (reads_times ?_ fun o ho => ?_)
  · rw [hlen]
    cases x.orderingPresent <;> rfl
  · obtain ⟨h1, h2, h3⟩ := hall o ho
    rw [List.append_assoc]
    exact reads_bind (reads_ue h1) (reads_bind (reads_ue h2) (reads_bind_last (reads_ue h3) (reads_pure ())))

/-- The block sizes and depths. -/
theorem reads_blocks {x : HevcSpsCode} (hx : x.Valid) :
    Reads (times 6 (do let _ ← ue; pure ())) x.blockBits () := by
  have hue {v : Nat} (h : UeRange v) : Reads (do let _ ← ue; pure ()) (ueBits v) () :=
    reads_bind_last (reads_ue h) (reads_pure ())
  obtain ⟨h1, h2, h3, h4, h5, h6⟩ := hx.blocks
  exact reads_bind (hue h1) (reads_bind (hue h2) (reads_bind (hue h3) (reads_bind (hue h4) (reads_bind (hue h5)
    (reads_bind_last (hue h6) (reads_pure ()))))))

/-- The PCM fields, absent or coded. -/
theorem reads_hevcPcm {x : Option PcmCode} (hx : ∀ y, x = some y → UeRange y.log2Min ∧ UeRange y.log2Diff) :
    Reads hevcPcm (pcmBits x) () := by
  cases x with
  | none => exact reads_bind_last (reads_flag false) (reads_pure ())
  | some y =>
    obtain ⟨hmin, hdiff⟩ := hx y rfl
    unfold pcmBits
    simp only [List.append_assoc]
    refine reads_bind (as := [_]) (reads_flag true) (reads_bind (reads_u (n := 4) y.depthLuma.isLt) ?_)
    refine reads_bind (reads_u (n := 4) y.depthChroma.isLt) (reads_bind (reads_ue hmin) ?_)
    exact reads_bind (reads_ue hdiff) (reads_bind_last (reads_flag y.loopFilter) (reads_pure ()))

/-- The long-term pictures, absent or coded. -/
theorem reads_longTermPics {n : Nat} {x : Option (List (Nat × Bool))}
    (hx : ∀ ps, x = some ps → ps.length ≤ 32 ∧ ∀ p ∈ ps, p.1 < 2 ^ n) :
    Reads (longTermPics n) (longTermBits n x) () := by
  cases x with
  | none => exact reads_bind_last (reads_flag false) (reads_pure ())
  | some ps =>
    obtain ⟨hlen, hps⟩ := hx ps rfl
    refine reads_bind (as := [_]) (reads_flag true) (reads_bind (reads_ue (by unfold UeRange; omega)) ?_)
    refine reads_bind (as := []) (reads_demand _ (decide_eq_true hlen)) (reads_times rfl fun p hp => ?_)
    exact reads_bind (reads_u (hps p hp)) (reads_bind_last (reads_flag p.2) (reads_pure ()))

/-! ### The picture size (R266) -/

/-- The width, from the two natural numbers that `hevc_sps` takes apart. -/
theorem HevcSpsCode.width_eq (x : HevcSpsCode) :
    x.width = (x.lumaWidth : Int) - ((hevcSubSampling x.chroma).1
      * ((cropValues x.window).1 + (cropValues x.window).2.1) : Nat) := by
  unfold width hevcSubSampling
  by_cases h1 : x.chroma = 1 <;> by_cases h2 : x.chroma = 2 <;> simp [h1, h2]

/-- The height, from the two natural numbers that `hevc_sps` takes apart. -/
theorem HevcSpsCode.height_eq (x : HevcSpsCode) :
    x.height = (x.lumaHeight : Int) - ((hevcSubSampling x.chroma).2
      * ((cropValues x.window).2.2.1 + (cropValues x.window).2.2.2) : Nat) := by
  unfold height hevcSubSampling
  by_cases h1 : x.chroma = 1 <;> by_cases h2 : x.chroma = 2 <;> simp [h1, h2]

/-! ### The SPS (R261, R270) -/

/-- What `hevc_sps` returns for the SPS. -/
def HevcSpsCode.info (x : HevcSpsCode) : SpsInfo :=
  { width := x.width.toNat, height := x.height.toNat, sarNum := x.sar.ratio.1, sarDen := x.sar.ratio.2
    codec0 := hevcCodec0 x.ptl, codec1 := x.ptl.constraints, chroma := x.chroma }

/-- The bits of the SPS, with those of each part of `hevc_sps` together. -/
theorem HevcSpsCode.bits_eq (x : HevcSpsCode) : x.bits =
    [x.forbidden] ++ (natBits 6 33 ++ (natBits 6 0 ++ (natBits 3 x.temporalId.toNat
    ++ (natBits 4 x.vpsId.toNat ++ (natBits 3 x.subLayers.length ++ ([x.nesting] ++ (x.ptlBits
    ++ (ueBits x.spsId ++ (ueBits x.chroma ++ ((if x.chroma = 3 then [x.separate] else [])
    ++ (ueBits x.lumaWidth ++ (ueBits x.lumaHeight ++ (cropBits x.window
    ++ (ueBits x.depthLuma ++ (ueBits x.depthChroma ++ (ueBits x.log2Lsb
    ++ (x.orderingBits ++ (x.blockBits ++ (x.scaling.bits ++ ([x.amp] ++ ([x.sao] ++ (pcmBits x.pcm
    ++ (ueBits x.sets.length ++ (rpsBits x.sets ++ (longTermBits (x.log2Lsb + 4) x.longTerm
    ++ ([x.mvp] ++ ([x.smoothing] ++ x.sar.bits))))))))))))))))))))))))))) := by
  unfold bits ptlBits orderingBits blockBits
  simp only [List.append_assoc]

/-- `hevc_sps` reads the bits of a valid SPS as its fields. -/
theorem reads_hevcSpsBits {x : HevcSpsCode} (hx : x.Valid) : Reads hevcSpsBits x.bits x.info := by
  obtain ⟨hwidth, hheight⟩ := hx.luma
  obtain ⟨hluma, hdepth⟩ := hx.depth
  obtain ⟨hnum, hfirst, hsets⟩ := hx.sets
  have hsub := hx.subLayers.1
  have hchroma := hx.chroma
  have hlsb := hx.log2Lsb
  rw [x.bits_eq]
  refine reads_bind (reads_flag x.forbidden) (reads_bind (reads_u (n := 6) (v := 33) (by decide)) ?_)
  refine reads_bind (reads_u (n := 6) (v := 0) (by decide)) (reads_bind (reads_u (n := 3) x.temporalId.isLt) ?_)
  refine reads_bind (as := []) (reads_demand _ rfl) (reads_bind (reads_u (n := 4) x.vpsId.isLt) ?_)
  refine reads_bind (reads_u (n := 3) (by omega)) (reads_bind (reads_flag x.nesting) ?_)
  refine reads_bind (reads_profileTierLevel hx) (reads_bind (reads_ue hx.spsId) ?_)
  refine reads_bind (reads_ue (by unfold UeRange; omega)) ?_
  refine reads_bind (as := []) (reads_demand _ (decide_eq_true hchroma)) ?_
  refine reads_bind (reads_codedIf_ite (reads_flag x.separate)) (reads_bind (reads_ue hwidth) ?_)
  refine reads_bind (reads_ue hheight) (reads_bind (reads_cropOffsets hx.window) ?_)
  refine reads_bind (reads_ue hluma) (reads_bind (reads_ue hdepth) ?_)
  refine reads_bind (reads_ue (by unfold UeRange; omega)) ?_
  refine reads_bind (as := []) (reads_demand _ (decide_eq_true hlsb)) ?_
  refine reads_bind (reads_subLayerOrdering hx) (reads_bind (reads_blocks hx) ?_)
  refine reads_bind (reads_hevcScaling hx.scaling) (reads_bind (reads_flag x.amp) ?_)
  refine reads_bind (reads_flag x.sao) (reads_bind (reads_hevcPcm hx.pcm) ?_)
  refine reads_bind (reads_ue (by unfold UeRange; omega)) ?_
  refine reads_bind (as := []) (reads_demand _ (decide_eq_true hnum)) ?_
  refine reads_bind (reads_stRefPicSets hfirst hsets) (reads_bind (reads_longTermPics hx.longTerm) ?_)
  refine reads_bind (reads_flag x.mvp) (reads_bind (reads_flag x.smoothing) ?_)
  refine reads_bind_last (reads_vuiSar hx.sar) ?_
  simp only [← x.width_eq, ← x.height_eq]
  exact reads_bind (as := []) (reads_positiveDims _ hx.size) (reads_pure _)

/-- The descriptor's fields stand side by side (R270). -/
theorem HevcSpsCode.codec0_eq (x : HevcSpsCode) :
    hevcCodec0 x.ptl = 2 * 2 ^ 60 + x.compat.toNat * 2 ^ 16 + x.space.toNat * 2 ^ 14
      + x.tier.toNat * 2 ^ 13 + x.profile.toNat * 2 ^ 8 + x.level.toNat := by
  have hcompat := x.compat.isLt
  have hspace := x.space.isLt
  have htier := x.tier.toNat_le
  have hprofile := x.profile.isLt
  have hlevel := x.level.isLt
  simp only [hevcCodec0, HevcSpsCode.ptl, Nat.or_assoc]
  rw [← Nat.shiftLeft_add_eq_or_of_lt (i := 8) hlevel, ← Nat.shiftLeft_add_eq_or_of_lt (i := 13) (by omega),
    ← Nat.shiftLeft_add_eq_or_of_lt (i := 14) (by omega), ← Nat.shiftLeft_add_eq_or_of_lt (i := 16) (by omega),
    ← Nat.shiftLeft_add_eq_or_of_lt (i := 60) (by omega)]
  omega

/-- The registers take the results (R269). -/
theorem HevcSpsCode.spsRegsOf_info {x : HevcSpsCode} (hx : x.Valid) : spsRegsOf x.info = x.regs := by
  obtain ⟨hw, hh⟩ := hx.size
  have hofInt {v : Int} (hv : 0 < v) : BitVec.ofNat 64 v.toNat = BitVec.ofInt 64 v := by
    rw [← BitVec.ofInt_natCast, Int.toNat_of_nonneg hv.le]
  simp only [spsRegsOf, geometryOf, HevcSpsCode.info, HevcSpsCode.regs, hofInt hw, hofInt hh, codec0_eq]
  rfl

/-- `hevc_sps` of a unit that starts with a written SPS once its escapes are removed (R261). -/
theorem hevcSps_of_written {x : HevcSpsCode} {b : Bytes} (hx : x.Valid) (hb : StartsWith (epbRemove b).1 x.bits) :
    hevcSps b = .ok x.info := parseBytes_reads (reads_hevcSpsBits hx) hb

/-- Settles O34: the region's unit is parsed to the fields of the SPS, and the registers take them. -/
theorem hevcSpsOfWritten : Obligations.HevcSpsOfWritten := by
  intro sp s r x hr hx hb
  rw [← HevcSpsCode.spsRegsOf_info hx]
  refine congrArg (finish (.hevcSpsParse sp) s) (bind_ok.2 ⟨r, resolveRegion_ok.2 hr, ?_⟩)
  exact bind_ok.2 ⟨x.info, hevcSps_of_written hx hb, rfl⟩

/-! ### The record (R280, R281) -/

/-- Settles O36: the region's record is parsed to its entries and its first SPS's results, and committed. -/
theorem hvccOfWritten : Obligations.HvccOfWritten := by
  intro sp s r x g hr hx hbytes hg hcap
  refine congrArg (finish (.hvccParse sp) s) (bind_ok.2 ⟨r, resolveRegion_ok.2 hr, ?_⟩)
  rw [hbytes]
  refine bind_ok.2 ⟨_, hvcc_of_written hx hg, ?_⟩
  exact bind_ok.2 ⟨(), check_ok.2 (decide_eq_true hcap), rfl⟩

end Sys2Proof.Machine
end

section
/-! PROOFS. 45_audio R305, R314, R326: AAC_ASC_PARSE, and the commit of a scan that finds a run of frames. -/

namespace Sys2Proof.Machine

/-! ### AAC_ASC_PARSE (R305) -/

/-- Settles O37: the region's bits are parsed to the fields written, and AUD_* take them. -/
theorem ascOfWritten : Obligations.AscOfWritten := by
  intro sp s r x hr hx hb
  refine congrArg (finish (.aacAscParse sp) s) (bind_ok.2 ⟨r, resolveRegion_ok.2 hr, ?_⟩)
  exact bind_ok.2 ⟨_, asc_of_written hx hb, rfl⟩

/-! ### Scans that find a run of frames (R314, R326) -/

/-- A scan whose frames are the entries `dt`, that is not broken off, and whose first header is `h`. -/
structure Scanned {η : Type} (r : Region) (x : Scan η) (dt : List DtEntry) (h : η) : Prop where
  entries : frameEntries r x.frames = dt
  broken : x.broken = false
  first : x.first = some h

section
variable {η : Type} {r : Region} {x : Scan η} {dt : List DtEntry} {h : η}

/-- One more frame before the others. -/
theorem Scanned.cons (hx : Scanned r x dt h) (f : Frame) :
    Scanned r { x with frames := f :: x.frames }
      ({ pts := BitVec.ofInt 64 f.pts, off := BitVec.ofNat 32 (r.off + f.off)
         len := BitVec.ofNat 32 f.len, aux := BitVec.ofNat 32 f.ns, space := r.space } :: dt) h :=
  ⟨congrArg _ hx.entries, hx.broken, hx.first⟩

/-- The scan is committed when DT holds its entries. -/
theorem Scanned.commitScan_eq (hx : Scanned r x dt h) (regs : η → AudRegs) {s : State}
    (hcap : dt.length ≤ s.caps.dtCap) :
    commitScan r x regs s =
      .ok { s with dt, status := { s.status with broken := false }, aud := regs h } := by
  have hlen : x.frames.length ≤ s.caps.dtCap := by
    rwa [← hx.entries, frameEntries, List.length_map] at hcap
  refine bind_ok.2 ⟨(), check_ok.2 (decide_eq_true hlen), ?_⟩
  rw [hx.entries, hx.broken, hx.first]
  rfl

/-- A command that commits the scan of its region. -/
theorem Scanned.finish_eq {i : Instr} {sp : RegionSel} {s : State} {scan : Region → Scan η} (hr : RegionIs sp s r)
    (hx : Scanned r (scan r) dt h) (regs : η → AudRegs) (hcap : dt.length ≤ s.caps.dtCap) :
    finish i s (do
      let r ← resolveRegion sp s
      commitScan r (scan r) regs s) = .next (complete (encode i)
        { s with dt, status := { s.status with broken := false }, aud := regs h }) :=
  congrArg (finish i s) (bind_ok.2 ⟨r, resolveRegion_ok.2 hr, hx.commitScan_eq regs hcap⟩)

end

/-- No more frames than bytes: the fuel of a scan does not run out. -/
theorem exists_fuel {α : Type} {f : α → Bytes} {x : α} {xs : List α} (h : ∀ y ∈ x :: xs, 1 ≤ (f y).length) :
    ∃ fuel, ((x :: xs).flatMap f).length = fuel + 1 ∧ xs.length ≤ fuel := by
  have hle := List.length_le_sum_of_one_le ((x :: xs).map fun y => (f y).length) (by simpa using h)
  rw [List.length_map, List.length_cons, ← List.length_flatMap] at hle
  exact ⟨((x :: xs).flatMap f).length - 1, by omega, by omega⟩

end Sys2Proof.Machine
end

section
/-! PROOFS. 45_audio R310 to R314: written ADTS frames and ADTS_PARSE. -/

namespace Sys2Proof.Machine

/-! ### An ADTS frame (R310, R311) -/

/-- The header fields that the parser takes from the frame. -/
def AdtsCode.hdr (x : AdtsCode) : AdtsHdr :=
  { aot := x.profile.toNat + 1, sfi := x.rateIndex.toNat, ch := x.channels.toNat, flen := x.flen
    hl := 7 + x.crc.length }

theorem AdtsCode.length_bytes (x : AdtsCode) : x.bytes.length = x.flen := by
  simp [bytes, flen]
  omega

/-- A written frame starts at a sync position. -/
theorem AdtsCode.adtsSync_bytes (x : AdtsCode) (rest : Bytes) :
    adtsSync ((x.bytes ++ rest).getD 0 0) ((x.bytes ++ rest).getD 1 0) = true := by
  have hbits (id protectionAbsent : Bool) :
      adtsSync 0xFF (BitVec.ofNat 8 (0xF0 + id.toNat * 8 + protectionAbsent.toNat)) = true := by
    revert id protectionAbsent
    decide
  exact hbits x.id x.protectionAbsent

/-- The parser takes the fields written. -/
theorem AdtsCode.adtsHdr_bytes {x : AdtsCode} (hx : x.Valid) (rest : Bytes) : adtsHdr (x.bytes ++ rest) = x.hdr := by
  obtain ⟨-, hcrc, hflen⟩ := hx
  have hid := x.id.toNat_le
  have hprofile := x.profile.isLt
  have hrate := x.rateIndex.isLt
  have hprivate := x.private_.toNat_le
  have hchannels := x.channels.isLt
  have hflags := x.flags.isLt
  have hfullness := x.fullness.isLt
  have hhl : 7 + x.crc.length = if x.protectionAbsent.toNat = 1 then 7 else 9 := by
    rw [hcrc]
    cases x.protectionAbsent <;> rfl
  have hprotection := x.protectionAbsent.toNat_le
  simp only [adtsHdr, AdtsCode.hdr, AdtsHdr.mk.injEq, hhl, byteAt, AdtsCode.bytes, List.cons_append,
    List.getD_cons_succ, List.getD_cons_zero, BitVec.toNat_ofNat]
  have hbit : (0xF0 + x.id.toNat * 8 + x.protectionAbsent.toNat) % 2 ^ 8 % 2 = x.protectionAbsent.toNat := by omega
  exact ⟨by omega, by omega, by omega, by omega, by rw [hbit]⟩

/-- What the scan does at a whole frame. -/
theorem adtsFrom_frame (pts0 : Int) (ts fuel o n : Nat) (first : Option AdtsHdr) {b : Bytes}
    (hsync : adtsSync (b.getD 0 0) (b.getD 1 0) = true) (hheader : 7 ≤ b.length) (hsfi : (adtsHdr b).sfi ≤ 12)
    (hhl : (adtsHdr b).hl ≤ (adtsHdr b).flen) (hwhole : (adtsHdr b).flen ≤ b.length) :
    adtsFrom pts0 ts (fuel + 1) o n first b =
      let x := adtsFrom pts0 ts fuel (o + (adtsHdr b).flen) (n + 1) (some (first.getD (adtsHdr b)))
        (b.drop (adtsHdr b).flen)
      { x with frames :=
          { off := o + (adtsHdr b).hl, len := (adtsHdr b).flen - (adtsHdr b).hl
            pts := pts0 + (n * 1024 * ts / aacRate (first.getD (adtsHdr b)).sfi : Nat), ns := 1024 } :: x.frames } := by
  obtain _ | ⟨a, _ | ⟨c, rest⟩⟩ := b
  · simp at hheader
  · simp at hheader
  · have hs : adtsSync a c = true := hsync
    rw [adtsFrom, if_neg (by simp [hs]), if_neg (by omega), if_neg (by omega), if_neg (by omega)]

/-- The scan lists a written frame and goes on behind it. -/
theorem adtsFrom_written_frame (pts0 : Int) (ts fuel o n : Nat) (first : Option AdtsHdr) {x : AdtsCode} (hx : x.Valid)
    (rest : Bytes) :
    adtsFrom pts0 ts (fuel + 1) o n first (x.bytes ++ rest) =
      let t := adtsFrom pts0 ts fuel (o + x.flen) (n + 1) (some (first.getD x.hdr)) rest
      { t with frames :=
          { off := o + (7 + x.crc.length), len := x.payload.length
            pts := pts0 + (n * 1024 * ts / aacRate (first.getD x.hdr).sfi : Nat), ns := 1024 } :: t.frames } := by
  have hhdr := AdtsCode.adtsHdr_bytes hx rest
  have hlen : (x.bytes ++ rest).length = x.flen + rest.length := by rw [List.length_append, x.length_bytes]
  have hheader : 7 ≤ (x.bytes ++ rest).length := by rw [hlen, AdtsCode.flen]; omega
  have hsfi : (adtsHdr (x.bytes ++ rest)).sfi ≤ 12 := hhdr ▸ Nat.le_of_lt_succ hx.1
  have hhl : (adtsHdr (x.bytes ++ rest)).hl ≤ (adtsHdr (x.bytes ++ rest)).flen := hhdr ▸ Nat.le_add_right _ _
  have hwhole : (adtsHdr (x.bytes ++ rest)).flen ≤ (x.bytes ++ rest).length := by
    rw [hhdr, hlen]
    exact Nat.le_add_right _ _
  have hpayload : x.hdr.flen - x.hdr.hl = x.payload.length := Nat.add_sub_cancel_left _ _
  have hdrop : (x.bytes ++ rest).drop x.hdr.flen = rest := List.drop_left' x.length_bytes
  rw [adtsFrom_frame pts0 ts fuel o n first (x.adtsSync_bytes rest) hheader hsfi hhl hwhole, hhdr, hpayload, hdrop]
  rfl

theorem length_adtsEntries (r : Region) (pts0 : Int) (ts rate k p : Nat) (xs : List AdtsCode) :
    (adtsEntries r pts0 ts rate k p xs).length = xs.length := by
  induction xs generalizing k p with
  | nil => rfl
  | cons x xs ih => exact congrArg (· + 1) (ih _ _)

/-- A written frame before others (R312). -/
theorem scanned_adts_cons {r : Region} {pts0 : Int} {ts fuel o n : Nat} {first : Option AdtsHdr} {h : AdtsHdr}
    {x : AdtsCode} {xs : List AdtsCode} (hx : x.Valid) (hfirst : first.getD x.hdr = h)
    (hxs : Scanned r (adtsFrom pts0 ts fuel (o + x.flen) (n + 1) (some h) (xs.flatMap AdtsCode.bytes))
      (adtsEntries r pts0 ts (aacRate h.sfi) (n + 1) (o + x.flen) xs) h) :
    Scanned r (adtsFrom pts0 ts (fuel + 1) o n first ((x :: xs).flatMap AdtsCode.bytes))
      (adtsEntries r pts0 ts (aacRate h.sfi) n o (x :: xs)) h := by
  rw [List.flatMap_cons, adtsFrom_written_frame pts0 ts fuel o n first hx, hfirst, adtsEntries,
    Nat.add_assoc (r.off + o), Nat.add_assoc r.off]
  exact hxs.cons _

/-- The scan of written frames, with `h` the first header found (R312). -/
theorem scanned_adts (r : Region) (pts0 : Int) (ts : Nat) (h : AdtsHdr) {xs : List AdtsCode}
    (hxs : ∀ x ∈ xs, x.Valid) {fuel : Nat} (hfuel : xs.length ≤ fuel) (o n : Nat) :
    Scanned r (adtsFrom pts0 ts fuel o n (some h) (xs.flatMap AdtsCode.bytes))
      (adtsEntries r pts0 ts (aacRate h.sfi) n o xs) h := by
  induction xs generalizing fuel o n with
  | nil => cases fuel <;> exact ⟨rfl, rfl, rfl⟩
  | cons x xs ih =>
    obtain ⟨hx, hrest⟩ := List.forall_mem_cons.1 hxs
    cases fuel with
    | zero => cases hfuel
    | succ fuel => exact scanned_adts_cons hx rfl (ih hrest (Nat.le_of_succ_le_succ hfuel) _ _)

/-- The whole scan of written frames (R311, R312). -/
theorem adtsFrames_written (r : Region) (pts0 : Int) (ts : Nat) {x : AdtsCode} {xs : List AdtsCode}
    (hxs : ∀ y ∈ x :: xs, y.Valid) :
    Scanned r (adtsFrames ((x :: xs).flatMap AdtsCode.bytes) pts0 ts)
      (adtsEntries r pts0 ts (aacRates.getD x.rateIndex.toNat 0) 0 0 (x :: xs)) x.hdr := by
  obtain ⟨hx, hrest⟩ := List.forall_mem_cons.1 hxs
  obtain ⟨fuel, hlen, hfuel⟩ := exists_fuel (f := AdtsCode.bytes) (x := x) (xs := xs)
    fun y _ => by rw [y.length_bytes, AdtsCode.flen]; omega
  rw [adtsFrames, hlen]
  exact scanned_adts_cons hx rfl (scanned_adts r pts0 ts x.hdr hrest hfuel _ _)

/-- The header gives the registers (R313, R314). -/
theorem AdtsCode.adtsAudRegs_hdr (x : AdtsCode) : adtsAudRegs x.hdr = x.regs := by
  have hchannels : chanMap x.channels.toNat = channelCount x.channels.toNat := chanMap_eq (x.channels.setWidth 4)
  have hasc : (adtsAsc x.hdr).1 * 256 + (adtsAsc x.hdr).2 =
      (x.profile.toNat + 1) * 2048 + x.rateIndex.toNat * 128 + x.channels.toNat * 8 := by
    simp only [adtsAsc, hdr]
    omega
  rw [adtsAudRegs, hasc]
  simp only [hdr, hchannels, aacRate_eq]
  rfl

/-- Settles O38: the scan of the region's frames lists them and is committed. -/
theorem adtsOfWritten : Obligations.AdtsOfWritten := by
  intro sp s r x xs hr hxs hbytes hcap
  have hscan := adtsFrames_written r s.arg2.toInt s.arg3.toNat hxs
  rw [← hbytes] at hscan
  rw [← x.adtsAudRegs_hdr]
  exact Scanned.finish_eq (scan := fun r => adtsFrames (regionBytes s r) s.arg2.toInt s.arg3.toNat) hr hscan
    adtsAudRegs (by rwa [length_adtsEntries])

end Sys2Proof.Machine
end

section
/-! PROOFS. 45_audio R320 to R326: written MPEG audio headers and frames, MPA_HDR_PARSE and MPA_SCAN. -/

namespace Sys2Proof.Machine

/-! ### An MPEG audio header (R320 to R323) -/

/-- What the parser returns for the header. -/
def MpaCode.hdr (x : MpaCode) : MpaHdr :=
  { bitrate := x.bitrate, rate := x.hz
    channels := if x.mode.toNat = 3 then 1 else 2
    info := x.layer.toNat + x.version.toNat * 4 + x.mode.toNat * 16 + x.padding.toNat * 64
      + x.protection.toNat * 128 + x.bitrateIndex.toNat * 256 + x.rateIndex.toNat * 4096
    flen := x.flen, ns := x.samples }

/-- A header with a layer starts at a sync position. -/
theorem MpaCode.mpaSync_bytes {x : MpaCode} (hlayer : x.layer ≠ 0) (rest : Bytes) :
    mpaSync ((x.bytes ++ rest).getD 0 0) ((x.bytes ++ rest).getD 1 0) = true := by
  have hbits : ∀ (version layer : BitVec 2) (protection : Bool), layer ≠ 0 →
      mpaSync 0xFF (BitVec.ofNat 8 (0xE0 + version.toNat * 8 + layer.toNat * 2 + protection.toNat)) = true := by
    decide
  exact hbits x.version x.layer x.protection hlayer

/-- The bitrate of the table's row and column, in the model's columns (R321). -/
theorem MpaCode.bitrate_eq {x : MpaCode} (hlayer : x.layer ≠ 0) :
    1000 * (mpaColumn x.version.toNat x.layer.toNat).getD (x.bitrateIndex.toNat - 1) 0 = x.bitrate := by
  have htable : ∀ (version layer : BitVec 2) (index : BitVec 4), layer ≠ 0 →
      (mpaColumn version.toNat layer.toNat).getD (index.toNat - 1) 0 =
        (mpaBitrates.getD (index.toNat - 1) []).getD
          (if version = 3 then 3 - layer.toNat else if layer = 3 then 3 else 4) 0 := by decide
  exact congrArg (1000 * ·) (htable x.version x.layer x.bitrateIndex hlayer)

/-- The sample rate, in the model's three columns (R321). -/
theorem MpaCode.hz_eq (x : MpaCode) : mpaRate x.version.toNat x.rateIndex.toNat = x.hz := by
  have htable : ∀ version index : BitVec 2, mpaRate version.toNat index.toNat =
      [44100, 48000, 32000].getD index.toNat 0 / (if version = 3 then 1 else if version = 2 then 2 else 4) := by
    decide
  exact htable x.version x.rateIndex

/-- The model's coefficient, slot and samples (R322). -/
theorem MpaCode.mpaShape_eq (x : MpaCode) : mpaShape x.version.toNat x.layer.toNat =
    if x.layer = 3 then (12, 4, x.samples) else (x.samples / 8, 1, x.samples) := by
  have htable : ∀ version layer : BitVec 2, mpaShape version.toNat layer.toNat =
      let samples := if layer = 3 then 384 else if layer = 2 ∨ version = 3 then 1152 else 576
      if layer = 3 then (12, 4, samples) else (samples / 8, 1, samples) := by decide
  exact htable x.version x.layer

theorem MpaCode.samples_eq (x : MpaCode) : (mpaShape x.version.toNat x.layer.toNat).2.2 = x.samples := by
  rw [x.mpaShape_eq]
  split <;> rfl

theorem MpaCode.flen_eq (x : MpaCode) :
    ((mpaShape x.version.toNat x.layer.toNat).1 * x.bitrate / x.hz + x.padding.toNat)
      * (mpaShape x.version.toNat x.layer.toNat).2.1 = x.flen := by
  rw [x.mpaShape_eq, flen]
  split
  · rfl
  · exact Nat.mul_one _

/-- A field above others of `i` bits. -/
theorem or_shiftLeft_eq {low i : Nat} (a : Nat) (h : low < 2 ^ i) : low ||| (a <<< i) = low + a * 2 ^ i := by
  rw [Nat.or_comm, ← Nat.shiftLeft_add_eq_or_of_lt h, Nat.shiftLeft_eq, Nat.add_comm]

/-- The fields that the parser reads from the bytes (R320). -/
theorem MpaCode.fields_eq (x : MpaCode) (rest : Bytes) :
    (byteAt (x.bytes ++ rest) 1 / 8 % 4 = x.version.toNat ∧ byteAt (x.bytes ++ rest) 1 / 2 % 4 = x.layer.toNat ∧
      byteAt (x.bytes ++ rest) 1 % 2 = x.protection.toNat) ∧
    (byteAt (x.bytes ++ rest) 2 / 16 = x.bitrateIndex.toNat ∧
      byteAt (x.bytes ++ rest) 2 / 4 % 4 = x.rateIndex.toNat ∧
      byteAt (x.bytes ++ rest) 2 / 2 % 2 = x.padding.toNat) ∧
    byteAt (x.bytes ++ rest) 3 / 64 = x.mode.toNat := by
  have hversion := x.version.isLt
  have hlayer := x.layer.isLt
  have hprotection := x.protection.toNat_le
  have hbitrate := x.bitrateIndex.isLt
  have hrate := x.rateIndex.isLt
  have hpadding := x.padding.toNat_le
  have hprivate := x.private_.toNat_le
  have hmode := x.mode.isLt
  have hlow := x.low.isLt
  simp only [byteAt, bytes, List.cons_append, List.getD_cons_succ, List.getD_cons_zero, BitVec.toNat_ofNat]
  omega

/-- The fields stand side by side in AUD_INFO (10_state R45). -/
theorem MpaCode.info_eq (x : MpaCode) :
    x.layer.toNat ||| (x.version.toNat <<< 2) ||| (x.mode.toNat <<< 4) ||| (x.padding.toNat <<< 6)
      ||| (x.protection.toNat <<< 7) ||| (x.bitrateIndex.toNat <<< 8) ||| (x.rateIndex.toNat <<< 12) =
        x.hdr.info := by
  have hlayer := x.layer.isLt
  have hversion := x.version.isLt
  have hmode := x.mode.isLt
  have hpadding := x.padding.toNat_le
  have hprotection := x.protection.toNat_le
  have hbitrate := x.bitrateIndex.isLt
  rw [or_shiftLeft_eq (i := 2) _ hlayer, or_shiftLeft_eq (i := 4) _ (by omega), or_shiftLeft_eq (i := 6) _ (by omega),
    or_shiftLeft_eq (i := 7) _ (by omega), or_shiftLeft_eq (i := 8) _ (by omega),
    or_shiftLeft_eq (i := 12) _ (by omega)]
  rfl

/-- What the parser does with a header that has a layer: the three checks, in order (R323). -/
theorem MpaCode.mpaHdr_bytes {x : MpaCode} (hlayer : x.layer ≠ 0) (rest : Bytes) :
    mpaHdr (x.bytes ++ rest) = (do
      check (x.version ≠ 1) .syntaxInvalid 0x42
      check (x.bitrateIndex ≠ 0 ∧ x.bitrateIndex ≠ 15) .syntaxInvalid 0x43
      check (x.rateIndex ≠ 3) .syntaxInvalid 0x44
      return x.hdr) := by
  obtain ⟨⟨hversion, hl, hprotection⟩, ⟨hbitrate, hrate, hpadding⟩, hmode⟩ := x.fields_eq rest
  have hlen : 4 ≤ (x.bytes ++ rest).length := by simp [bytes]
  have hv1 : x.version.toNat ≠ 1 ↔ x.version ≠ 1 := (BitVec.toNat_inj (y := 1)).not
  have hb0 : x.bitrateIndex.toNat ≠ 0 ↔ x.bitrateIndex ≠ 0 := (BitVec.toNat_inj (y := 0)).not
  have hb15 : x.bitrateIndex.toNat ≠ 15 ↔ x.bitrateIndex ≠ 15 := (BitVec.toNat_inj (y := 15)).not
  have hr3 : x.rateIndex.toNat ≠ 3 ↔ x.rateIndex ≠ 3 := (BitVec.toNat_inj (y := 3)).not
  simp only [mpaHdr, hversion, hl, hprotection, hbitrate, hrate, hpadding, hmode, x.mpaSync_bytes hlayer, hlen,
    x.bitrate_eq hlayer, x.hz_eq, x.samples_eq, x.flen_eq, x.info_eq, hv1, hb0, hb15, hr3]
  rfl

/-- A valid header is parsed to its fields. -/
theorem MpaCode.mpaHdr_valid {x : MpaCode} (hx : x.Valid) (rest : Bytes) : mpaHdr (x.bytes ++ rest) = .ok x.hdr := by
  obtain ⟨hlayer, hversion, hb0, hb15, hrate⟩ := hx
  rw [x.mpaHdr_bytes hlayer]
  refine bind_ok.2 ⟨(), check_ok.2 (decide_eq_true hversion), ?_⟩
  refine bind_ok.2 ⟨(), check_ok.2 (decide_eq_true ⟨hb0, hb15⟩), ?_⟩
  exact bind_ok.2 ⟨(), check_ok.2 (decide_eq_true hrate), rfl⟩

/-- Any other header that has a layer is rejected by the first of the checks that fails. -/
theorem MpaCode.mpaHdr_invalid {x : MpaCode} (hlayer : x.layer ≠ 0) (hx : ¬ x.Valid) (rest : Bytes) :
    mpaHdr (x.bytes ++ rest) = .error
      { code := .syntaxInvalid
        info := if x.version = 1 then 0x42
          else if x.bitrateIndex = 0 ∨ x.bitrateIndex = 15 then 0x43 else 0x44 } := by
  have hfails {p : Prop} [Decidable p] (hp : ¬ p) (info : Nat) :
      check p .syntaxInvalid info = .error { code := .syntaxInvalid, info } :=
    check_error.2 ⟨decide_eq_false hp, rfl⟩
  rw [x.mpaHdr_bytes hlayer]
  by_cases hversion : x.version = 1
  · rw [if_pos hversion]
    exact bind_error.2 (.inl (hfails (not_not_intro hversion) _))
  rw [if_neg hversion]
  refine bind_error.2 (.inr ⟨(), check_ok.2 (decide_eq_true hversion), ?_⟩)
  by_cases hbitrate : x.bitrateIndex = 0 ∨ x.bitrateIndex = 15
  · rw [if_pos hbitrate]
    exact bind_error.2 (.inl (hfails (by rwa [← not_or, not_not]) _))
  rw [if_neg hbitrate]
  obtain ⟨hb0, hb15⟩ := not_or.1 hbitrate
  refine bind_error.2 (.inr ⟨(), check_ok.2 (decide_eq_true ⟨hb0, hb15⟩), ?_⟩)
  exact bind_error.2 (.inl (hfails (fun hrate => hx ⟨hlayer, hversion, hb0, hb15, hrate⟩) _))

/-- The header gives the registers (R324). -/
theorem MpaCode.mpaAudRegs_hdr (x : MpaCode) : mpaAudRegs x.hdr = x.regs := by
  have hmode : x.mode.toNat = 3 ↔ x.mode = 3 := BitVec.toNat_inj (y := 3)
  have hchannels : BitVec.ofNat 64 (if x.mode.toNat = 3 then 1 else 2) = if x.mode = 3 then 1 else 2 := by
    simp only [hmode]
    split <;> rfl
  rw [mpaAudRegs, MpaCode.regs, ← hchannels]
  rfl

/-! ### MPA_HDR_PARSE (R324) -/

/-- Settles O39: the region's header is parsed to its fields, and AUD_* take them. -/
theorem mpaHeaderOfWritten : Obligations.MpaHeaderOfWritten := by
  intro sp s r x rest hr hx hbytes
  rw [← x.mpaAudRegs_hdr]
  refine congrArg (finish (.mpaHdrParse sp) s) (bind_ok.2 ⟨r, resolveRegion_ok.2 hr, ?_⟩)
  rw [hbytes]
  exact bind_ok.2 ⟨x.hdr, x.mpaHdr_valid hx rest, rfl⟩

/-- What MPA_HDR_PARSE does when the parser rejects the region. -/
theorem exec_mpaHdrParse_error {sp : RegionSel} {s : State} {r : Region} {e : Err} (hr : RegionIs sp s r)
    (he : mpaHdr (regionBytes s r) = .error e) :
    exec (.mpaHdrParse sp) s = .next (errorPath (encode (.mpaHdrParse sp)) e s) :=
  congrArg (finish (.mpaHdrParse sp) s)
    (bind_error.2 (.inr ⟨r, resolveRegion_ok.2 hr, bind_error.2 (.inl he)⟩))

/-- Fewer than 4 bytes are no header (R323). -/
theorem mpaHdr_short {b : Bytes} (h : b.length < 4) :
    mpaHdr b = .error { code := .truncatedInput, info := b.length } :=
  bind_error.2 (.inl (check_error.2 ⟨decide_eq_false (Nat.not_le.2 h), rfl⟩))

/-- Settles O40: a short region fails before its bytes are read, a header at the first of the checks it fails. -/
theorem mpaHeaderRejected : Obligations.MpaHeaderRejected := by
  intro sp s r hr
  refine ⟨fun hshort => ?_, fun x rest hbytes hlayer hx => ?_⟩
  · have hlen : (regionBytes s r).length = r.len := length_memRead hr.2
    rw [← hlen] at hshort ⊢
    exact exec_mpaHdrParse_error hr (mpaHdr_short hshort)
  · exact exec_mpaHdrParse_error hr (hbytes ▸ x.mpaHdr_invalid hlayer hx rest)

/-! ### The smallest frame (R322) -/

/-- MPEG-1 has the highest rates, twice those of MPEG-2 (R321). -/
theorem mpaRate_le {version sri : Nat} (h : sri < 3) :
    mpaRate version sri ≤ if version = 3 then 48000 else 24000 := by
  unfold mpaRate
  split_ifs <;> interval_cases sri <;> decide

/-- A column has 14 rows; the lowest bitrate, in kbit/s, is 8 for Layers II and III of MPEG-2 and 32 elsewhere
(R321). -/
theorem mpaColumn_bounds (version layer : Nat) : (mpaColumn version layer).length = 14 ∧
    ∀ k ∈ mpaColumn version layer, (if version = 3 ∨ layer = 3 then 32 else 8) ≤ k := by
  unfold mpaColumn
  by_cases hv : version = 3
  · simp only [if_pos hv, if_pos (Or.inl hv : version = 3 ∨ layer = 3)]
    split_ifs <;> decide
  · by_cases hl : layer = 3
    · simp only [if_neg hv, if_pos hl, if_pos (Or.inr hl : version = 3 ∨ layer = 3)]
      decide
    · simp only [if_neg hv, if_neg hl, if_neg (not_or.2 ⟨hv, hl⟩)]
      decide

/-- The lowest bitrate, row by row. -/
theorem le_mpaColumn (version layer : Nat) {row : Nat} (h : row < 14) :
    (if version = 3 ∨ layer = 3 then 32 else 8) ≤ (mpaColumn version layer).getD row 0 := by
  obtain ⟨hlen, hle⟩ := mpaColumn_bounds version layer
  have hrow : row < (mpaColumn version layer).length := hlen ▸ h
  rw [List.getD_eq_getElem _ _ hrow]
  exact hle _ (List.getElem_mem hrow)

/-- Layers II and III count in slots of one byte, at 72 bytes or more per bitrate over rate (R322). -/
theorem mpaShape_of_ne_three {layer : Nat} (version : Nat) (h : layer ≠ 3) :
    72 ≤ (mpaShape version layer).1 ∧ (mpaShape version layer).2.1 = 1 := by
  unfold mpaShape
  rw [if_neg h]
  split_ifs <;> decide

/-- The lowest bitrate at the highest rate gives the smallest frame of a version and layer. -/
theorem le_mpaFrame (version layer pad : Nat) {row sri : Nat} (hrow : row < 14) (hsri : sri < 3) :
    24 ≤ ((mpaShape version layer).1 * (1000 * (mpaColumn version layer).getD row 0) / mpaRate version sri + pad)
      * (mpaShape version layer).2.1 := by
  have hpos : 0 < mpaRate version sri := (mpaRate_pos hsri).1
  have hrate := mpaRate_le (version := version) hsri
  have hbitrate := le_mpaColumn version layer hrow
  by_cases hl : layer = 3
  · have hslots : 6 ≤ 12 * (1000 * (mpaColumn version layer).getD row 0) / mpaRate version sri := by
      rw [Nat.le_div_iff_mul_le hpos]
      rw [if_pos (.inr hl)] at hbitrate
      split at hrate <;> omega
    rw [mpaShape, if_pos hl]
    dsimp only
    omega
  · obtain ⟨hcoefficient, hslot⟩ := mpaShape_of_ne_three version hl
    have hbytes : 24 ≤ (mpaShape version layer).1 * (1000 * (mpaColumn version layer).getD row 0)
        / mpaRate version sri := by
      rw [Nat.le_div_iff_mul_le hpos]
      refine Nat.le_trans ?_ (Nat.mul_le_mul_right _ hcoefficient)
      split at hrate <;> split at hbitrate <;> omega
    rw [hslot]
    omega

/-- The bound of R322 for every header that passes the checks of R323. -/
theorem mpaHdr_flen {b : Bytes} {h : MpaHdr} (hb : mpaHdr b = .ok h) : 24 ≤ h.flen := by
  simp only [mpaHdr, bind_ok, check_ok, decide_eq_true_eq, pure, Except.pure, Except.ok.injEq] at hb
  obtain ⟨-, -, -, -, -, -, -, ⟨hb0, hb15⟩, -, hsri, rfl⟩ := hb
  have hbyte : byteAt b 2 < 256 := BitVec.isLt _
  exact le_mpaFrame _ _ _ (by omega) (by omega)

/-- A header of MPEG-2 Layer III at 8 kbit/s and 24000 Hz. -/
def smallestMpaCode : MpaCode :=
  { version := 2, layer := 1, protection := true, bitrateIndex := 1, rateIndex := 1, padding := false
    private_ := false, mode := 1, low := 0x24 }

/-- Settles O41: the bound, and a header that reaches it. -/
theorem smallestMpaFrame : Obligations.SmallestMpaFrame := by
  refine ⟨fun b h => mpaHdr_flen, ?_⟩
  exact ⟨smallestMpaCode.bytes ++ [], smallestMpaCode.hdr, smallestMpaCode.mpaHdr_valid (by decide) [],
    by decide, by decide, by decide⟩

/-! ### MPA_SCAN (R325, R326) -/

/-- A written frame: a header and the rest of the frame. -/
def mpaFrameBytes (x : MpaCode × Bytes) : Bytes := x.1.bytes ++ x.2

/-- A valid header and as many bytes behind it as its frame length says. -/
def MpaFrameValid (x : MpaCode × Bytes) : Prop := x.1.Valid ∧ 4 + x.2.length = x.1.flen

theorem length_mpaFrameBytes {x : MpaCode × Bytes} (hx : MpaFrameValid x) : (mpaFrameBytes x).length = x.1.flen := by
  rw [← hx.2, mpaFrameBytes, List.length_append]
  rfl

/-- What the scan does at a whole frame. -/
theorem mpaFrom_frame (pts0 : Int) (ts fuel o n : Nat) (first : Option MpaHdr) {b : Bytes} {h : MpaHdr}
    (hsync : mpaSync (b.getD 0 0) (b.getD 1 0) = true) (hb : mpaHdr b = .ok h) (hwhole : h.flen ≤ b.length) :
    mpaFrom pts0 ts (fuel + 1) o n first b =
      let x := mpaFrom pts0 ts fuel (o + h.flen) (n + h.ns) (some (first.getD h)) (b.drop h.flen)
      { x with frames :=
          { off := o, len := h.flen, pts := pts0 + (n * ts / (first.getD h).rate : Nat), ns := h.ns }
            :: x.frames } := by
  have hsmall := mpaHdr_flen hb
  obtain _ | ⟨a, _ | ⟨c, rest⟩⟩ := b
  · simp at hwhole; omega
  · simp at hwhole; omega
  · have hs : mpaSync a c = true := hsync
    rw [mpaFrom, if_neg (by simp [hs]), if_neg (by omega)]
    simp only [hb]
    rw [if_neg (by omega)]

/-- The scan lists a written frame and goes on behind it. -/
theorem mpaFrom_written_frame (pts0 : Int) (ts fuel o n : Nat) (first : Option MpaHdr) {x : MpaCode × Bytes}
    (hx : MpaFrameValid x) (rest : Bytes) :
    mpaFrom pts0 ts (fuel + 1) o n first (mpaFrameBytes x ++ rest) =
      let t := mpaFrom pts0 ts fuel (o + x.1.flen) (n + x.1.samples) (some (first.getD x.1.hdr)) rest
      { t with frames :=
          { off := o, len := x.1.flen, pts := pts0 + (n * ts / (first.getD x.1.hdr).rate : Nat), ns := x.1.samples }
            :: t.frames } := by
  have hlen := length_mpaFrameBytes hx
  have hdrop : (mpaFrameBytes x ++ rest).drop x.1.hdr.flen = rest := List.drop_left' hlen
  have happend : mpaFrameBytes x ++ rest = x.1.bytes ++ (x.2 ++ rest) := List.append_assoc _ _ _
  have hsync := MpaCode.mpaSync_bytes hx.1.1 (x.2 ++ rest)
  rw [← happend] at hsync
  have hhdr : mpaHdr (mpaFrameBytes x ++ rest) = .ok x.1.hdr := happend ▸ MpaCode.mpaHdr_valid hx.1 (x.2 ++ rest)
  have hwhole : x.1.hdr.flen ≤ (mpaFrameBytes x ++ rest).length := by
    rw [List.length_append, hlen]
    exact Nat.le_add_right _ _
  rw [mpaFrom_frame pts0 ts fuel o n first hsync hhdr hwhole, hdrop]
  rfl

theorem length_mpaEntries (r : Region) (pts0 : Int) (ts rate n p : Nat) (xs : List MpaCode) :
    (mpaEntries r pts0 ts rate n p xs).length = xs.length := by
  induction xs generalizing n p with
  | nil => rfl
  | cons x xs ih => exact congrArg (· + 1) (ih _ _)

/-- A written frame before others (R325). -/
theorem scanned_mpa_cons {r : Region} {pts0 : Int} {ts fuel o n : Nat} {first : Option MpaHdr} {h : MpaHdr}
    {x : MpaCode × Bytes} {xs : List (MpaCode × Bytes)} (hx : MpaFrameValid x) (hfirst : first.getD x.1.hdr = h)
    (hxs : Scanned r (mpaFrom pts0 ts fuel (o + x.1.flen) (n + x.1.samples) (some h) (xs.flatMap mpaFrameBytes))
      (mpaEntries r pts0 ts h.rate (n + x.1.samples) (o + x.1.flen) (xs.map (·.1))) h) :
    Scanned r (mpaFrom pts0 ts (fuel + 1) o n first ((x :: xs).flatMap mpaFrameBytes))
      (mpaEntries r pts0 ts h.rate n o ((x :: xs).map (·.1))) h := by
  rw [List.flatMap_cons, mpaFrom_written_frame pts0 ts fuel o n first hx, hfirst]
  exact hxs.cons _

/-- The scan of written frames, with `h` the first header found (R325). -/
theorem scanned_mpa (r : Region) (pts0 : Int) (ts : Nat) (h : MpaHdr) {xs : List (MpaCode × Bytes)}
    (hxs : ∀ x ∈ xs, MpaFrameValid x) {fuel : Nat} (hfuel : xs.length ≤ fuel) (o n : Nat) :
    Scanned r (mpaFrom pts0 ts fuel o n (some h) (xs.flatMap mpaFrameBytes))
      (mpaEntries r pts0 ts h.rate n o (xs.map (·.1))) h := by
  induction xs generalizing fuel o n with
  | nil => cases fuel <;> exact ⟨rfl, rfl, rfl⟩
  | cons x xs ih =>
    obtain ⟨hx, hrest⟩ := List.forall_mem_cons.1 hxs
    cases fuel with
    | zero => cases hfuel
    | succ fuel => exact scanned_mpa_cons hx rfl (ih hrest (Nat.le_of_succ_le_succ hfuel) _ _)

/-- The whole scan of written frames (R325). -/
theorem mpaFrames_written (r : Region) (pts0 : Int) (ts : Nat) {x : MpaCode × Bytes} {xs : List (MpaCode × Bytes)}
    (hxs : ∀ y ∈ x :: xs, MpaFrameValid y) :
    Scanned r (mpaFrames ((x :: xs).flatMap mpaFrameBytes) pts0 ts)
      (mpaEntries r pts0 ts x.1.hz 0 0 ((x :: xs).map (·.1))) x.1.hdr := by
  obtain ⟨hx, hrest⟩ := List.forall_mem_cons.1 hxs
  obtain ⟨fuel, hlen, hfuel⟩ := exists_fuel (f := mpaFrameBytes) (x := x) (xs := xs)
    fun y hy => by rw [length_mpaFrameBytes (hxs y hy), ← (hxs y hy).2]; omega
  rw [mpaFrames, hlen]
  exact scanned_mpa_cons hx rfl (scanned_mpa r pts0 ts x.1.hdr hrest hfuel _ _)

/-- Settles O42: the scan of the region's frames lists them and is committed. -/
theorem mpaScanOfWritten : Obligations.MpaScanOfWritten := by
  intro sp s r x xs hr hxs hbytes hcap
  have hscan : Scanned r (mpaFrames (regionBytes s r) s.arg2.toInt s.arg3.toNat) _ x.1.hdr :=
    hbytes ▸ mpaFrames_written r s.arg2.toInt s.arg3.toNat hxs
  rw [← x.1.mpaAudRegs_hdr]
  exact Scanned.finish_eq (scan := fun r => mpaFrames (regionBytes s r) s.arg2.toInt s.arg3.toNat) hr hscan
    mpaAudRegs (by rwa [length_mpaEntries, List.length_map])

end Sys2Proof.Machine
end

section
/-! PROOFS. 46_ts_demux R385 to R387: the capture of a parameter set, by its kind. -/

namespace Sys2Proof.Machine

/-- The kinds of parameter sets, once the codec family is known (R385). -/
theorem paramKind_eq {codec : VCodec} (hc : codec ≠ .none) (ty : Nat) : paramKind codec ty = psKindOf codec ty := by
  cases codec with
  | none => exact absurd rfl hc
  | avc | hevc => rfl

/-- A parameter set of a kind that the track does not hold yet: it is stored when it fits, an SPS when it parses, and
counted otherwise. -/
def captureNew (c : Config.Caps) (k : PsKind) (u : Bytes) (d : Dmx) : Dmx :=
  if k = .sps then
    match (if d.trk.vCodec = .avc then avcSps u else hevcSps u) with
    | .error _ => countCfgFail d
    | .ok g =>
      if StoreFits c d.trk u then
        { d with trk := { d.trk.store .sps u with vGeo := (spsRegsOf g).geo } }.withVExists
      else countCfgFail d
  else (if StoreFits c d.trk u then { d with trk := d.trk.store k u } else countCfgFail d).withVExists

section
variable (c : Config.Caps) {ty : Nat} (u : Bytes) {d : Dmx} {k : PsKind}

theorem capture_none (h : paramKind d.trk.vCodec ty = none) : capture c ty u d = d := by
  simp only [capture, h]

theorem capture_held (h : paramKind d.trk.vCodec ty = some k) (hk : d.trk.holds k = true) :
    capture c ty u d = d.withVExists := by
  simp only [capture, h]
  cases k <;> exact if_pos hk

/-- Storing succeeds when the unit fits, and only then (R386). -/
theorem storePs_fits (k : PsKind) {t : Track} (h : StoreFits c t u) :
    storePs c k u t = some { t with psets := t.psets ++ [{ kind := k, bytes := u }] } :=
  storePs_some.2 ⟨h.1, h.2, rfl⟩

theorem storePs_full (k : PsKind) {t : Track} (h : ¬ StoreFits c t u) : storePs c k u t = none := by
  refine Option.eq_none_iff_forall_ne_some.2 fun t' ht => h ?_
  obtain ⟨hlen, hbytes, -⟩ := storePs_some.1 ht
  exact ⟨hlen, hbytes⟩

theorem capture_new (h : paramKind d.trk.vCodec ty = some k) (hk : d.trk.holds k = false) :
    capture c ty u d = captureNew c k u d := by
  have hk' : d.trk.holds k ≠ true := by simp [hk]
  cases k with
  | sps =>
    simp only [capture, captureNew, h, if_true]
    refine (if_neg hk').trans ?_
    cases (if d.trk.vCodec = .avc then avcSps u else hevcSps u) with
    | error e => rfl
    | ok g =>
      dsimp only
      by_cases hfit : StoreFits c d.trk u
      · rw [storePs_fits c u .sps hfit, if_pos hfit]
        simp [refreshVExists, updateVExists, Dmx.withVExists, Track.store, spsRegsOf]
      · rw [storePs_full c u .sps hfit, if_neg hfit]
  | pps | vps =>
    simp only [capture, captureNew, h, storeOrCount, reduceCtorEq, if_false]
    refine (if_neg hk').trans ?_
    by_cases hfit : StoreFits c d.trk u
    · rw [storePs_fits c u _ hfit, if_pos hfit]
      simp [refreshVExists, updateVExists, Dmx.withVExists, Track.store]
    · rw [storePs_full c u _ hfit, if_neg hfit]
      rfl

end

/-- The three things that capture can do. -/
theorem capture_cases (c : Config.Caps) (ty : Nat) (u : Bytes) (d : Dmx) :
    (paramKind d.trk.vCodec ty = none ∧ capture c ty u d = d) ∨
      ∃ k, paramKind d.trk.vCodec ty = some k ∧
        ((d.trk.holds k = true ∧ capture c ty u d = d.withVExists) ∨
          (d.trk.holds k = false ∧ capture c ty u d = captureNew c k u d)) := by
  cases h : paramKind d.trk.vCodec ty with
  | none => exact .inl ⟨rfl, capture_none c u h⟩
  | some k =>
    refine .inr ⟨k, rfl, ?_⟩
    cases hk : d.trk.holds k with
    | true => exact .inl ⟨rfl, capture_held c u h hk⟩
    | false => exact .inr ⟨rfl, capture_new c u h hk⟩

end Sys2Proof.Machine
end

section
/-! PROOFS. 46_ts_demux R355, R368, R400: what flushing a PES leaves of the track, and the PIDs that a packet keeps. -/

namespace Sys2Proof.Machine

/-! ### What a flushed PES leaves unchanged (R379 to R400) -/

/-- The part of the track that the dispatcher reads, and the remainder. -/
structure Routing where
  pmtPid : PmtPid
  vPid : EsPid
  aPid : EsPid
  vCodec : VCodec
  aCodec : ACodec
  fifo : List Bytes
  tsRem : Bytes

def Track.routing (t : Track) : Routing :=
  { pmtPid := t.pmtPid, vPid := t.vPid, aPid := t.aPid, vCodec := t.vCodec, aCodec := t.aCodec, fifo := t.fifo
    tsRem := t.tsRem }

/-- The operation leaves the routing as it was. -/
def KeepsRouting (f : Dmx → Except Err Dmx) : Prop :=
  ∀ d d', f d = .ok d' → d'.trk.routing = d.trk.routing

theorem keepsRouting_ok {f : Dmx → Dmx} (h : ∀ d, (f d).trk.routing = d.trk.routing) :
    KeepsRouting fun d => .ok (f d) := by
  intro d d' hf
  cases hf
  exact h d

theorem KeepsRouting.bind {f g : Dmx → Except Err Dmx} (hf : KeepsRouting f) (hg : KeepsRouting g) :
    KeepsRouting fun d => f d >>= g := by
  intro d d' h
  obtain ⟨e, he, h⟩ := bind_ok.1 h
  exact (hg e d' h).trans (hf d e he)

/-- Closing an open sample, by the timestamps it takes: its own, or the last ones, and then it is counted (R389). -/
theorem closeOpen_of_opened (c : Config.Caps) {d : Dmx} {o : OpenSample} (ho : d.trk.opened = some o) :
    closeOpen c d =
      let d₀ : Dmx := { d with trk := { d.trk with opened := none } }
      let d₁ := if o.lacks then countDropped 1 d₀ else d₀
      match (if o.lacks then d.trk.lastV else o.stamp) with
      | none => .ok d₁
      | some stamp => closeStamped c stamp o d₁ := by
  obtain ⟨stamp, key, units⟩ := o
  simp only [closeOpen, ho]
  cases stamp with
  | some stamp => rfl
  | none => cases d.trk.lastV <;> rfl

theorem closeStamped_routing (c : Config.Caps) (stamp : Stamp) (o : OpenSample) :
    KeepsRouting (closeStamped c stamp o) := by
  intro d d' h
  rcases closeStamped_ok h with ⟨-, _, -, rfl⟩ | ⟨-, rfl⟩ <;> rfl

theorem closeOpen_routing (c : Config.Caps) : KeepsRouting (closeOpen c) := by
  intro d d' h
  cases ho : d.trk.opened with
  | none =>
    simp only [closeOpen, ho] at h
    cases h
    rfl
  | some o =>
    rw [closeOpen_of_opened c ho] at h
    have hcount : (if o.lacks then countDropped 1 { d with trk := { d.trk with opened := none } }
        else { d with trk := { d.trk with opened := none } }).trk.routing = d.trk.routing := by
      split <;> rfl
    dsimp only at h
    split at h
    · cases h
      exact hcount
    · exact (closeStamped_routing c _ o _ d' h).trans hcount

/-- What capture writes: the configuration store with its flags, the geometry, and a counter (R385 to R387). -/
theorem capture_frame {c : Config.Caps} {ty : Nat} {u : Bytes} {d d' : Dmx} (h : capture c ty u d = d') :
    d' = { d with trk := { d.trk with
      psets := d'.trk.psets, vGeo := d'.trk.vGeo, haveSps := d'.trk.haveSps, havePps := d'.trk.havePps
      haveVps := d'.trk.haveVps, vExists := d'.trk.vExists, cnt := d'.trk.cnt } } := by
  subst h
  obtain ⟨-, h⟩ | ⟨k, -, ⟨-, h⟩ | ⟨-, h⟩⟩ := capture_cases c ty u d
  · rw [h]
  · rw [h]
    rfl
  · rw [h]
    generalize hnew : captureNew c k u d = d'
    unfold captureNew at hnew
    split at hnew
    · split at hnew
      · subst hnew; rfl
      · split at hnew <;> subst hnew <;> rfl
    · split at hnew <;> subst hnew <;> rfl

theorem capture_routing (c : Config.Caps) (ty : Nat) (unit : Bytes) (d : Dmx) :
    (capture c ty unit d).trk.routing = d.trk.routing := by
  rw [capture_frame (rfl : capture c ty unit d = _)]
  rfl

theorem appendUnit_routing (c : Config.Caps) (key : Bool) (unit : Bytes) : KeepsRouting (appendUnit c key unit) := by
  intro d d' h
  cases ho : d.trk.opened with
  | none =>
    simp only [appendUnit, ho] at h
    cases h
    rfl
  | some o =>
    obtain ⟨-, -, rfl⟩ := (appendUnit_ok ho).1 h
    rfl

theorem beginSample_routing (c : Config.Caps) (opens : Bool) (stamp : Option Stamp) :
    KeepsRouting (beginSample c opens stamp) := by
  cases opens with
  | true => exact (closeOpen_routing c).bind (keepsRouting_ok fun _ => rfl)
  | false => exact keepsRouting_ok (f := id) fun _ => rfl

theorem videoUnit_routing (c : Config.Caps) (opens : Bool) (stamp : Option Stamp) (ty : Nat) (unit : Bytes) :
    KeepsRouting (videoUnit c opens stamp ty unit) :=
  (beginSample_routing c opens stamp).bind fun d d' h =>
    (appendUnit_routing c _ unit _ d' h).trans (capture_routing c ty unit d)

theorem videoUnits_routing (c : Config.Caps) (has : Bool) (stamp : Stamp) (pl : Bytes) (us : List NalUnit)
    (avail first : Bool) : KeepsRouting (videoUnits c has stamp pl us avail first) := by
  induction us generalizing avail first with
  | nil => exact keepsRouting_ok (f := id) fun _ => rfl
  | cons x us ih =>
    intro d d' h
    rw [videoUnits] at h
    split at h
    · exact ih avail first d d' h
    · exact (videoUnit_routing c _ _ _ _).bind (ih _ _) d d' h

theorem noteAudio_routing (pl : Bytes) (d : Dmx) :
    (noteAudio (scanAudio pl d.trk).2.1 (scanAudio pl d.trk).2.2 d).trk.routing = d.trk.routing := by
  have hconf : ((scanAudio pl d.trk).2.2 d.trk).routing = d.trk.routing := by
    unfold scanAudio
    split
    · dsimp only
      cases (adtsFrames pl 0 0).first <;> rfl
    · dsimp only
      cases (mpaFrames pl 0 0).first <;> rfl
  unfold noteAudio
  cases d.trk.aExists <;> cases (scanAudio pl d.trk).2.1
  · exact hconf
  · exact hconf
  · rfl
  · rfl

theorem emitAudioPes_routing (c : Config.Caps) (p0 : Option Int) (frames : List Frame) (pl : Bytes) :
    KeepsRouting (emitAudioPes c p0 frames pl) := by
  intro d d' h
  cases p0 with
  | none => cases h; rfl
  | some p0 =>
    obtain ⟨_, -, h⟩ := bind_ok.1 h
    cases h
    rfl

theorem audioPes_routing (c : Config.Caps) (has : Bool) (pts : Nat) (pl : Bytes) :
    KeepsRouting (audioPes c has pts pl) := fun d d' h =>
  (emitAudioPes_routing c _ _ pl _ d' h).trans (noteAudio_routing pl d)

theorem flushPes_routing (c : Config.Caps) (st : Stream) (p : Bytes) : KeepsRouting (flushPes c st p) := by
  intro d d' h
  unfold flushPes at h
  split at h
  · cases h; rfl
  · cases st with
    | video => exact videoUnits_routing c _ _ _ _ _ _ d d' h
    | audio => exact audioPes_routing c _ _ _ d d' h

theorem flushPending_routing (c : Config.Caps) (st : Stream) : KeepsRouting (flushPending c st) := by
  intro d d' h
  unfold flushPending at h
  split at h
  · cases h; rfl
  · split at h
    · cases h; rfl
    · exact flushPes_routing c st _ d d' h

theorem setPending_routing (st : Stream) (p : Option Bytes) (d : Dmx) :
    (setPending st p d).trk.routing = d.trk.routing := by
  cases st <;> rfl

theorem drainPending_routing (c : Config.Caps) (st : Stream) : KeepsRouting (drainPending c st) :=
  (flushPending_routing c st).bind (keepsRouting_ok fun d => setPending_routing st none d)

theorem esPacket_routing (c : Config.Caps) (st : Stream) (pusi : Bool) (pl : Bytes) :
    KeepsRouting (esPacket c st pusi pl) := by
  intro d d' h
  unfold esPacket at h
  split at h
  · obtain ⟨e, he, h⟩ := bind_ok.1 h
    obtain ⟨_, -, h⟩ := bind_ok.1 h
    cases h
    exact (setPending_routing st _ e).trans (flushPending_routing c st d e he)
  · split at h
    · cases h; rfl
    · obtain ⟨_, -, h⟩ := bind_ok.1 h
      cases h
      exact setPending_routing st _ d

/-! ### The PIDs that a packet keeps (R355, R368) -/

/-- What is known of the streams stays known, and as it was. -/
structure PidsFixed (t t' : Track) : Prop where
  pmt : t.pmtPid.known = true → t'.pmtPid.known = true ∧ t'.pmtPid.pid = t.pmtPid.pid
  parsed : t.pmtPid.parsed = true → t.pmtPid.known = true →
    t'.pmtPid = t.pmtPid ∧ t'.vPid = t.vPid ∧ t'.aPid = t.aPid
  video : t.vPid.known = true → t'.vPid = t.vPid ∧ t'.vCodec = t.vCodec
  audio : t.aPid.known = true → t'.aPid = t.aPid ∧ t'.aCodec = t.aCodec

theorem pidsFixed_of_eq {t t' : Track} (hpmt : t'.pmtPid = t.pmtPid) (hv : t'.vPid = t.vPid) (ha : t'.aPid = t.aPid)
    (hvc : t'.vCodec = t.vCodec) (hac : t'.aCodec = t.aCodec) : PidsFixed t t' where
  pmt h := ⟨hpmt ▸ h, by rw [hpmt]⟩
  parsed _ _ := ⟨hpmt, hv, ha⟩
  video _ := ⟨hv, hvc⟩
  audio _ := ⟨ha, hac⟩

theorem pidsFixed_of_routing {t t' : Track} (h : t'.routing = t.routing) : PidsFixed t t' :=
  pidsFixed_of_eq (congrArg Routing.pmtPid h) (congrArg Routing.vPid h) (congrArg Routing.aPid h)
    (congrArg Routing.vCodec h) (congrArg Routing.aCodec h)

theorem PidsFixed.refl (t : Track) : PidsFixed t t := pidsFixed_of_routing rfl

theorem PidsFixed.trans {t u v : Track} (h : PidsFixed t u) (h' : PidsFixed u v) : PidsFixed t v where
  pmt hk := by
    obtain ⟨hu, hpid⟩ := h.pmt hk
    obtain ⟨hv, hpid'⟩ := h'.pmt hu
    exact ⟨hv, hpid'.trans hpid⟩
  parsed hp hk := by
    obtain ⟨hpmt, hv, ha⟩ := h.parsed hp hk
    obtain ⟨hpmt', hv', ha'⟩ := h'.parsed (hpmt ▸ hp) (hpmt ▸ hk)
    exact ⟨hpmt'.trans hpmt, hv'.trans hv, ha'.trans ha⟩
  video hk := by
    obtain ⟨hv, hc⟩ := h.video hk
    obtain ⟨hv', hc'⟩ := h'.video (hv ▸ hk)
    exact ⟨hv'.trans hv, hc'.trans hc⟩
  audio hk := by
    obtain ⟨ha, hc⟩ := h.audio hk
    obtain ⟨ha', hc'⟩ := h'.audio (ha ▸ hk)
    exact ⟨ha'.trans ha, hc'.trans hc⟩

/-- A stream of the PMT: a kind whose PID is known keeps it (R368). -/
theorem classify_fixed (t : Track) (x : Nat × Nat) :
    (classify t x).pmtPid = t.pmtPid ∧
      (t.vPid.known = true → (classify t x).vPid = t.vPid ∧ (classify t x).vCodec = t.vCodec) ∧
      (t.aPid.known = true → (classify t x).aPid = t.aPid ∧ (classify t x).aCodec = t.aCodec) := by
  obtain ⟨st, epid⟩ := x
  unfold classify
  dsimp only
  split
  · rename_i hv
    refine ⟨rfl, fun hk => ?_, fun _ => ⟨rfl, rfl⟩⟩
    simp [hk] at hv
  · split
    · rename_i ha
      refine ⟨rfl, fun _ => ⟨rfl, rfl⟩, fun hk => ?_⟩
      simp [hk] at ha
    · exact ⟨rfl, fun _ => ⟨rfl, rfl⟩, fun _ => ⟨rfl, rfl⟩⟩

theorem classifyAll_fixed (xs : List (Nat × Nat)) (t : Track) :
    (xs.foldl classify t).pmtPid = t.pmtPid ∧
      (t.vPid.known = true → (xs.foldl classify t).vPid = t.vPid ∧ (xs.foldl classify t).vCodec = t.vCodec) ∧
      (t.aPid.known = true → (xs.foldl classify t).aPid = t.aPid ∧ (xs.foldl classify t).aCodec = t.aCodec) := by
  induction xs generalizing t with
  | nil => exact ⟨rfl, fun _ => ⟨rfl, rfl⟩, fun _ => ⟨rfl, rfl⟩⟩
  | cons x xs ih =>
    obtain ⟨hp, hv, ha⟩ := classify_fixed t x
    obtain ⟨hp', hv', ha'⟩ := ih (classify t x)
    refine ⟨hp'.trans hp, fun hk => ?_, fun hk => ?_⟩
    · obtain ⟨h1, h2⟩ := hv hk
      obtain ⟨h3, h4⟩ := hv' (h1 ▸ hk)
      exact ⟨h3.trans h1, h4.trans h2⟩
    · obtain ⟨h1, h2⟩ := ha hk
      obtain ⟨h3, h4⟩ := ha' (h1 ▸ hk)
      exact ⟨h3.trans h1, h4.trans h2⟩

/-- The operation keeps the PIDs that are known. -/
def KeepsPids (f : Dmx → Except Err Dmx) : Prop := ∀ d d', f d = .ok d' → PidsFixed d.trk d'.trk

/-- A packet keeps them when its redispatch does: a PAT and a PMT are parsed once (R355). -/
theorem dispatchWith_pids {f : Dmx → Except Err Dmx} (hf : KeepsPids f) (c : Config.Caps) (k : Bytes) :
    KeepsPids (dispatchWith f c k) := by
  intro d d' h
  unfold dispatchWith at h
  dsimp only at h
  have ret : ∀ {e : Dmx}, (.ok e : Except Err Dmx) = .ok d' → PidsFixed d.trk e.trk → PidsFixed d.trk d'.trk := by
    rintro e he hk
    cases he
    exact hk
  split at h
  · exact ret h (.refl _)
  split at h
  · exact ret h (.refl _)
  split at h
  · split at h
    · rename_i hpat
      rw [Bool.and_eq_true, Bool.not_eq_true'] at hpat
      have hunknown : d.trk.pmtPid.known ≠ true := by simp [hpat.2]
      split at h
      · exact ret h (.refl _)
      · refine PidsFixed.trans ?_ (hf _ d' h)
        exact ⟨fun hk => absurd hk hunknown, fun _ hk => absurd hk hunknown, fun _ => ⟨rfl, rfl⟩, fun _ => ⟨rfl, rfl⟩⟩
    · exact ret h (.refl _)
  split at h
  · split at h
    · rename_i hpmt
      rw [Bool.and_eq_true, Bool.not_eq_true'] at hpmt
      split at h
      · exact ret h (.refl _)
      · rename_i streams _
        obtain ⟨hp, hv, ha⟩ := classifyAll_fixed streams d.trk
        refine PidsFixed.trans ?_ (hf _ d' h)
        refine ⟨fun hk => ?_, fun hpd => absurd hpd (by simp [hpmt.2]), hv, ha⟩
        dsimp only
        rw [hp]
        exact ⟨hk, rfl⟩
    · exact ret h (.refl _)
  split at h
  · split at h
    · exact pidsFixed_of_routing (esPacket_routing c _ _ _ d d' h)
    split at h
    · exact pidsFixed_of_routing (esPacket_routing c _ _ _ d d' h)
    · exact ret h (.refl _)
  · refine ret h ?_
    unfold fifoPush
    split
    · exact pidsFixed_of_eq rfl rfl rfl rfl rfl
    · exact pidsFixed_of_routing rfl

theorem foldlM_pids {f : Bytes → Dmx → Except Err Dmx} (hf : ∀ k, KeepsPids (f k)) (ks : List Bytes) :
    KeepsPids fun d => ks.foldlM (fun d k => f k d) d := by
  induction ks with
  | nil =>
    intro d d' h
    cases h
    exact .refl _
  | cons k ks ih =>
    intro d d' h
    simp only [List.foldlM_cons] at h
    obtain ⟨e, he, h⟩ := bind_ok.1 h
    exact (hf k d e he).trans (ih e d' h)

theorem redispatchWith_pids {f : Bytes → Dmx → Except Err Dmx} (hf : ∀ k, KeepsPids (f k)) :
    KeepsPids (redispatchWith f) := fun d d' h =>
  (pidsFixed_of_eq (t := d.trk) (t' := { d.trk with fifo := [] }) rfl rfl rfl rfl rfl).trans
    (foldlM_pids hf d.trk.fifo { d with trk := { d.trk with fifo := [] } } d' h)

theorem dispatchParsed_pids (c : Config.Caps) (k : Bytes) : KeepsPids (dispatchParsed c k) :=
  dispatchWith_pids (fun d d' h => by cases h; exact .refl _) c k

theorem dispatchKnown_pids (c : Config.Caps) (k : Bytes) : KeepsPids (dispatchKnown c k) :=
  dispatchWith_pids (redispatchWith_pids (dispatchParsed_pids c)) c k

theorem dispatch_pids (c : Config.Caps) (k : Bytes) : KeepsPids (dispatch c k) :=
  dispatchWith_pids (redispatchWith_pids (dispatchKnown_pids c)) c k

/-- Settles O48: every packet keeps the PIDs that are known, and so do all of a call. -/
theorem pidsStayFixed : Obligations.PidsStayFixed := by
  intro c ks d d' h
  obtain ⟨hpmt, hparsed, hvideo, haudio⟩ := foldlM_pids (dispatch_pids c) ks d d' h
  exact ⟨hpmt, hparsed, hvideo, haudio⟩

end Sys2Proof.Machine
end

section
/-! PROOFS. 46_ts_demux R352, R370, R400: flushing a PES does not see what the stream holds back; TS_FLUSH. -/

namespace Sys2Proof.Machine

/-! ### What the stream holds back (10_state R61, R62) -/

/-- The remainder and the pending buffers. -/
structure Held where
  tsRem : Bytes
  pendV : Option Bytes
  pendA : Option Bytes

def Track.held (t : Track) : Held := { tsRem := t.tsRem, pendV := t.pendV, pendA := t.pendA }

/-- The working state with other bytes held back. -/
def Dmx.withHeld (d : Dmx) (h : Held) : Dmx :=
  { d with trk := { d.trk with tsRem := h.tsRem, pendV := h.pendV, pendA := h.pendA } }

@[simp] theorem Dmx.withHeld_out (d : Dmx) (h : Held) : (d.withHeld h).out = d.out := rfl
@[simp] theorem Dmx.withHeld_self (d : Dmx) : d.withHeld d.trk.held = d := rfl
@[simp] theorem Dmx.withHeld_held (d : Dmx) (h : Held) : (d.withHeld h).trk.held = h := rfl

/-- The operation does the same whatever is held back. -/
def Unheld (f : Dmx → Except Err Dmx) : Prop :=
  ∀ (h : Held) (d : Dmx), f (d.withHeld h) = (f d).map (·.withHeld h)

/-- So it leaves what is held back as it was. -/
theorem Unheld.held {f : Dmx → Except Err Dmx} (hf : Unheld f) {d d' : Dmx} (h : f d = .ok d') :
    d'.trk.held = d.trk.held := by
  have hself := hf d.trk.held d
  rw [Dmx.withHeld_self, h] at hself
  rw [Except.ok.inj hself, Dmx.withHeld_held]

theorem Unheld.ok {f : Dmx → Except Err Dmx} (hf : Unheld f) {d d' : Dmx} (h : f d = .ok d') (x : Held) :
    f (d.withHeld x) = .ok (d'.withHeld x) := by
  rw [hf, h]
  rfl

theorem unheld_ok {f : Dmx → Dmx} (hf : ∀ h d, f (d.withHeld h) = (f d).withHeld h) : Unheld fun d => .ok (f d) :=
  fun h d => congrArg Except.ok (hf h d)

theorem Unheld.bind {f g : Dmx → Except Err Dmx} (hf : Unheld f) (hg : Unheld g) : Unheld fun d => f d >>= g := by
  intro h d
  dsimp only
  rw [hf]
  cases f d with
  | error e => rfl
  | ok d' => exact hg h d'

/-! ### Video (R380 to R390) -/

theorem closeStamped_unheld (c : Config.Caps) (stamp : Stamp) (o : OpenSample) : Unheld (closeStamped c stamp o) := by
  intro h d
  have hv : (d.withHeld h).trk.vExists = d.trk.vExists := rfl
  cases hx : d.trk.vExists
  · simp only [closeStamped, hv, hx, Bool.false_eq_true, if_false]
    rfl
  · simp only [closeStamped, hv, hx, if_true, Dmx.withHeld_out]
    cases emitVideo c stamp o.key o.units d.out <;> rfl

theorem closeOpen_unheld (c : Config.Caps) : Unheld (closeOpen c) := by
  intro h d
  cases ho : d.trk.opened with
  | none =>
    have ho' : (d.withHeld h).trk.opened = none := ho
    simp only [closeOpen, ho, ho']
    rfl
  | some o =>
    have ho' : (d.withHeld h).trk.opened = some o := ho
    have hl : (d.withHeld h).trk.lastV = d.trk.lastV := rfl
    rw [closeOpen_of_opened c ho, closeOpen_of_opened c ho', hl]
    cases (if o.lacks then d.trk.lastV else o.stamp) with
    | none => cases o.lacks <;> rfl
    | some stamp =>
      cases o.lacks
      · exact closeStamped_unheld c stamp o h { d with trk := { d.trk with opened := none } }
      · exact closeStamped_unheld c stamp o h (countDropped 1 { d with trk := { d.trk with opened := none } })

/-- The working state with another open sample and other bytes held back. -/
def Dmx.withApart (d : Dmx) (x : Option OpenSample) (h : Held) : Dmx :=
  { d with trk := { d.trk with opened := x, tsRem := h.tsRem, pendV := h.pendV, pendA := h.pendA } }

/-- Capture sees neither the open sample nor what is held back (R385). -/
theorem capture_withApart (c : Config.Caps) (ty : Nat) (u : Bytes) (x : Option OpenSample) (h : Held) (d : Dmx) :
    capture c ty u (d.withApart x h) = (capture c ty u d).withApart x h := by
  obtain ⟨hkind, hd⟩ | ⟨k, hkind, ⟨hk, hd⟩ | ⟨hk, hd⟩⟩ := capture_cases c ty u d
  · rw [hd, capture_none c u (d := d.withApart x h) hkind]
  · rw [hd, capture_held c u (d := d.withApart x h) hkind hk]
    rfl
  · have hcodec : (d.withApart x h).trk.vCodec = d.trk.vCodec := rfl
    have hfits : StoreFits c (d.withApart x h).trk u ↔ StoreFits c d.trk u := .rfl
    rw [hd, capture_new c u (d := d.withApart x h) hkind hk]
    unfold captureNew
    rw [hcodec]
    by_cases hsps : k = .sps
    · rw [if_pos hsps, if_pos hsps]
      cases (if d.trk.vCodec = .avc then avcSps u else hevcSps u) with
      | error e => rfl
      | ok g =>
        dsimp only
        by_cases hfit : StoreFits c d.trk u
        · rw [if_pos hfit, if_pos (hfits.2 hfit)]
          rfl
        · rw [if_neg hfit, if_neg (hfits.not.2 hfit)]
          rfl
    · rw [if_neg hsps, if_neg hsps]
      by_cases hfit : StoreFits c d.trk u
      · rw [if_pos hfit, if_pos (hfits.2 hfit)]
        rfl
      · rw [if_neg hfit, if_neg (hfits.not.2 hfit)]
        rfl

theorem capture_opened (c : Config.Caps) (ty : Nat) (u : Bytes) (d : Dmx) :
    (capture c ty u d).trk.opened = d.trk.opened :=
  congrArg (·.trk.opened) (capture_frame (rfl : capture c ty u d = _))

theorem capture_held_eq (c : Config.Caps) (ty : Nat) (u : Bytes) (d : Dmx) :
    (capture c ty u d).trk.held = d.trk.held :=
  congrArg (·.trk.held) (capture_frame (rfl : capture c ty u d = _))

theorem capture_withHeld (c : Config.Caps) (ty : Nat) (u : Bytes) (h : Held) (d : Dmx) :
    capture c ty u (d.withHeld h) = (capture c ty u d).withHeld h := by
  refine (capture_withApart c ty u d.trk.opened h d).trans ?_
  rw [← capture_opened c ty u d]
  rfl

theorem appendUnit_unheld (c : Config.Caps) (key : Bool) (unit : Bytes) : Unheld (appendUnit c key unit) := by
  intro h d
  have ho : (d.withHeld h).trk.opened = d.trk.opened := rfl
  unfold appendUnit
  rw [ho]
  cases d.trk.opened with
  | none => rfl
  | some o =>
    dsimp only
    cases checkOpen c (o.units ++ [unit]) <;> rfl

theorem beginSample_unheld (c : Config.Caps) (opens : Bool) (stamp : Option Stamp) :
    Unheld (beginSample c opens stamp) := by
  cases opens with
  | true => exact (closeOpen_unheld c).bind (unheld_ok fun _ _ => rfl)
  | false => exact unheld_ok (f := id) fun _ _ => rfl

theorem videoUnit_unheld (c : Config.Caps) (opens : Bool) (stamp : Option Stamp) (ty : Nat) (unit : Bytes) :
    Unheld (videoUnit c opens stamp ty unit) := by
  refine (beginSample_unheld c opens stamp).bind fun h d => ?_
  rw [capture_withHeld]
  exact appendUnit_unheld c _ unit h _

theorem videoUnits_unheld (c : Config.Caps) (has : Bool) (stamp : Stamp) (pl : Bytes) (us : List NalUnit)
    (avail first : Bool) : Unheld (videoUnits c has stamp pl us avail first) := by
  induction us generalizing avail first with
  | nil => exact unheld_ok (f := id) fun _ _ => rfl
  | cons x us ih =>
    intro h d
    have hc : (d.withHeld h).trk.vCodec = d.trk.vCodec := rfl
    have ho (ty : Nat) (b : Bool) : opensSample (d.withHeld h).trk ty b = opensSample d.trk ty b := rfl
    simp only [videoUnits, hc, ho]
    split
    · exact ih avail first h d
    · exact (videoUnit_unheld c _ _ _ _).bind (ih _ _) h d

/-! ### Audio (R395, R396) -/

theorem audioPes_unheld (c : Config.Caps) (has : Bool) (pts : Nat) (pl : Bytes) : Unheld (audioPes c has pts pl) := by
  intro h d
  have hscan : scanAudio pl (d.withHeld h).trk = scanAudio pl d.trk := rfl
  have hnext : (d.withHeld h).trk.aNext = d.trk.aNext := rfl
  have hnote : noteAudio (scanAudio pl d.trk).2.1 (scanAudio pl d.trk).2.2 (d.withHeld h) =
      (noteAudio (scanAudio pl d.trk).2.1 (scanAudio pl d.trk).2.2 d).withHeld h := by
    have hx : (d.withHeld h).trk.aExists = d.trk.aExists := rfl
    have hconf : (scanAudio pl d.trk).2.2 (d.withHeld h).trk =
        ({ d with trk := (scanAudio pl d.trk).2.2 d.trk }.withHeld h).trk := by
      unfold scanAudio
      split
      · dsimp only
        cases (adtsFrames pl 0 0).first <;> rfl
      · dsimp only
        cases (mpaFrames pl 0 0).first <;> rfl
    unfold noteAudio
    rw [hx, hconf]
    cases d.trk.aExists <;> cases (scanAudio pl d.trk).2.1 <;> rfl
  simp only [audioPes, hscan, hnext, hnote]
  generalize noteAudio (scanAudio pl d.trk).2.1 (scanAudio pl d.trk).2.2 d = e
  cases (if has then some (pts : Int) else d.trk.aNext.map (·.toInt)) with
  | none => rfl
  | some p0 =>
    have hrate : (e.withHeld h).trk.aRate = e.trk.aRate := rfl
    simp only [emitAudioPes, hrate, Dmx.withHeld_out]
    cases emitFrames c p0 e.trk.aRate.toNat pl (scanAudio pl d.trk).1 0 e.out <;> rfl

/-! ### A PES (R379) -/

theorem flushPes_unheld (c : Config.Caps) (st : Stream) (p : Bytes) : Unheld (flushPes c st p) := by
  unfold flushPes
  cases parsePes p with
  | none => exact unheld_ok fun _ _ => rfl
  | some x =>
    cases st with
    | video => exact videoUnits_unheld c _ _ _ _ _ _
    | audio => exact audioPes_unheld c _ _ _

/-! ### TS_FLUSH (R400) -/

/-- Flushing a pending buffer, by the bytes it holds. -/
theorem flushPending_eq (c : Config.Caps) (st : Stream) (d : Dmx) :
    flushPending c st d =
      if (pending st d).getD [] = [] then .ok d else flushPes c st ((pending st d).getD []) d := by
  unfold flushPending
  cases pending st d <;> rfl

/-- A pending buffer that comes out as `d'` says, and is absent then. -/
theorem drainPending_of_flush {c : Config.Caps} {st : Stream} {d d' : Dmx}
    (h : if (pending st d).getD [] = [] then d' = d else flushPes c st ((pending st d).getD []) d = .ok d') :
    drainPending c st d = .ok (setPending st none d') := by
  have hflush : flushPending c st d = .ok d' := by
    rw [flushPending_eq]
    split_ifs at h ⊢ with he
    · rw [h]
    · exact h
  exact bind_ok.2 ⟨d', hflush, rfl⟩

/-- What flushing a buffer leaves pending. -/
theorem held_of_flush {c : Config.Caps} {st : Stream} {p : Bytes} {d d' : Dmx}
    (h : if p = [] then d' = d else flushPes c st p d = .ok d') : d'.trk.held = d.trk.held := by
  split_ifs at h
  · rw [h]
  · exact (flushPes_unheld c st p).held h

/-- Flushing a buffer, whatever else is held back. -/
theorem flush_withHeld {c : Config.Caps} {st : Stream} {p : Bytes} {d d' : Dmx} (x : Held)
    (h : if p = [] then d' = d else flushPes c st p d = .ok d') :
    if p = [] then d'.withHeld x = d.withHeld x else flushPes c st p (d.withHeld x) = .ok (d'.withHeld x) := by
  split_ifs at h ⊢
  · rw [h]
  · exact (flushPes_unheld c st p).ok h x

/-- Outside the fault state and FLV mode TS_FLUSH completes when video, audio and the open sample come out. -/
theorem exec_tsFlush_ok {s : State} {v a x : Dmx} (hf : s.status.fault = false) (hm : s.mode = .none ∨ s.mode = .ts)
    (hv : if s.trk.pendV.getD [] = [] then v = { trk := s.trk, out := Outputs.empty }
      else flushPes s.caps .video (s.trk.pendV.getD []) { trk := s.trk, out := Outputs.empty } = .ok v)
    (ha : if s.trk.pendA.getD [] = [] then a = v else flushPes s.caps .audio (s.trk.pendA.getD []) v = .ok a)
    (hx : closeOpen s.caps a = .ok x) :
    exec .tsFlush s = .next (complete (encode .tsFlush)
      { s with mode := .ts, out := x.out, trk := { x.trk with pendV := none, pendA := none } }) := by
  have hheldV : v.trk.held = s.trk.held := held_of_flush hv
  have hheldA : a.trk.held = s.trk.held := (held_of_flush ha).trans hheldV
  have hheldX : x.trk.held = s.trk.held := ((closeOpen_unheld _).held hx).trans hheldA
  let noVideo : Held := { s.trk.held with pendV := none }
  let drained : Held := { noVideo with pendA := none }
  have hv' : setPending .video none v = v.withHeld noVideo := by
    change v.withHeld { v.trk.held with pendV := none } = _
    rw [hheldV]
  have hdrainV : drainPending s.caps .video { trk := s.trk, out := Outputs.empty } = .ok (v.withHeld noVideo) := by
    rw [← hv']
    exact drainPending_of_flush hv
  have hdrainA : drainPending s.caps .audio (v.withHeld noVideo) = .ok (a.withHeld drained) :=
    drainPending_of_flush (st := .audio) (d' := a.withHeld noVideo) (flush_withHeld noVideo ha)
  have hclose : closeOpen s.caps (a.withHeld drained) = .ok (x.withHeld drained) := (closeOpen_unheld _).ok hx drained
  have hstate : withDmx (preamble .ts false s.status.contig s) (x.withHeld drained) =
      { s with mode := .ts, out := x.out, trk := { x.trk with pendV := none, pendA := none } } := by
    have hrem : x.trk.tsRem = s.trk.tsRem := congrArg Held.tsRem hheldX
    rw [preamble_eq]
    simp only [withDmx, Dmx.withHeld, drained, noVideo, Track.held, ← hrem]
  refine congrArg (finish _ s) (a₂ := .ok _) ?_
  refine bind_ok.2 ⟨(), checkFault_ok.2 hf, bind_ok.2 ⟨(), checkMode_ok.2 hm, ?_⟩⟩
  dsimp only
  refine bind_ok.2 ⟨v.withHeld noVideo, ?_, bind_ok.2 ⟨a.withHeld drained, ?_, bind_ok.2
    ⟨x.withHeld drained, ?_, congrArg Except.ok hstate⟩⟩⟩
  · rw [preamble_caps, dmxOf_preamble]
    exact hdrainV
  · rw [preamble_caps]
    exact hdrainA
  · rw [preamble_caps]
    exact hclose

/-- Closing leaves no sample open (R389). -/
theorem closeOpen_opened {c : Config.Caps} {d d' : Dmx} (h : closeOpen c d = .ok d') : d'.trk.opened = none := by
  cases ho : d.trk.opened with
  | none =>
    simp only [closeOpen, ho] at h
    cases h
    exact ho
  | some o =>
    rw [closeOpen_of_opened c ho] at h
    have hclosed : (if o.lacks then countDropped 1 { d with trk := { d.trk with opened := none } }
        else { d with trk := { d.trk with opened := none } }).trk.opened = none := by
      split <;> rfl
    dsimp only at h
    split at h
    · cases h
      exact hclosed
    · rcases closeStamped_ok h with ⟨-, _, -, rfl⟩ | ⟨-, rfl⟩ <;> exact hclosed

/-- Draining a buffer leaves it absent, and the other one as it was. -/
theorem drainPending_held {c : Config.Caps} {st : Stream} {d d' : Dmx} (h : drainPending c st d = .ok d') :
    d'.trk.held = match st with
      | .video => { d.trk.held with pendV := none }
      | .audio => { d.trk.held with pendA := none } := by
  obtain ⟨e, he, h⟩ := bind_ok.1 h
  cases h
  have hheld : e.trk.held = d.trk.held := by
    rw [flushPending_eq] at he
    split at he
    · cases he; rfl
    · exact (flushPes_unheld c st _).held he
  cases st <;> rw [← hheld] <;> rfl

/-- Settles O45: the three parts of a flush that completes, and what every one of them keeps. -/
theorem tsFlushCompletes : Obligations.TsFlushCompletes := by
  refine ⟨fun s v a x hf hm hv ha hx => exec_tsFlush_ok hf hm hv ha hx, fun s hf hm hv ha ho => ?_, fun s t h herr => ?_⟩
  · refine exec_tsFlush_ok (v := { trk := s.trk, out := Outputs.empty }) (a := { trk := s.trk, out := Outputs.empty })
      (x := { trk := s.trk, out := Outputs.empty }) hf hm ?_ ?_ ?_
    · rcases hv with hv | hv <;> rw [hv] <;> rfl
    · rcases ha with ha | ha <;> rw [ha] <;> rfl
    · simp only [closeOpen, ho]
  · rcases finish_cases h with ⟨s', hok, rfl⟩ | ⟨e, -, rfl⟩
    · obtain ⟨_, -, hok⟩ := bind_ok.1 hok
      obtain ⟨_, -, hok⟩ := bind_ok.1 hok
      obtain ⟨v, hv, hok⟩ := bind_ok.1 hok
      obtain ⟨a, ha, hok⟩ := bind_ok.1 hok
      obtain ⟨x, hx, hok⟩ := bind_ok.1 hok
      cases hok
      have hheldV := drainPending_held hv
      have hheldA := drainPending_held ha
      have hheld := (closeOpen_unheld _).held hx
      rw [hheldA, hheldV] at hheld
      have hroutes : x.trk.routing = s.trk.routing :=
        ((closeOpen_routing _ _ _ hx).trans (drainPending_routing _ _ _ _ ha)).trans (drainPending_routing _ _ _ _ hv)
      have hclosed := closeOpen_opened hx
      refine ⟨congrArg Held.pendV hheld, congrArg Held.pendA hheld, hclosed, ?_, congrArg Routing.tsRem hroutes,
        congrArg Routing.fifo hroutes, congrArg Routing.pmtPid hroutes, congrArg Routing.vPid hroutes,
        congrArg Routing.aPid hroutes, congrArg Routing.vCodec hroutes, congrArg Routing.aCodec hroutes, rfl, rfl⟩
      exact congrArg Option.isSome hclosed
    · exact absurd herr (errByte_ne_zero _)

/-! ### A packet without its sync byte (R351) -/

/-- The validation fails at the first packet without its sync byte. -/
theorem validatePackets_error {ks : List Bytes} {k : Nat} {p : Bytes} (hp : ks[k]? = some p) (hbad : byteAt p 0 ≠ 0x47)
    (hgood : ∀ j < k, ∀ q, ks[j]? = some q → byteAt q 0 = 0x47) (i : Nat) :
    validatePackets i ks = .error { code := .fatalFormat, info := i + k } := by
  induction ks generalizing k i with
  | nil => cases hp
  | cons q ks ih =>
    cases k with
    | zero =>
      cases hp
      rw [validatePackets, if_neg hbad]
      rfl
    | succ k =>
      rw [validatePackets, if_pos (hgood 0 (Nat.succ_pos k) q rfl),
        ih hp (fun j hj => hgood (j + 1) (Nat.succ_lt_succ hj)), Nat.add_right_comm, Nat.add_assoc]

/-- Settles O44: the validation comes before the preamble, and it fails at packet `k`. -/
theorem tsBadSyncIsFatal : Obligations.TsBadSyncIsFatal := by
  intro disc contig s r d k hf hm hr hd hk hbad hgood
  have hpacket : ∀ j < d.length / 188, (packets (d.length / 188) d)[j]? = some (slice d (188 * j) 188) := by
    intro j hj
    rw [packets_eq, List.getElem?_map, List.getElem?_range hj]
    rfl
  have hsync : byteAt (slice d (188 * k) 188) 0 ≠ 0x47 := by
    obtain ⟨b, hb⟩ : ∃ b, d[188 * k]? = some b := ⟨_, List.getElem?_eq_getElem (by omega)⟩
    rw [byteAt_slice hb]
    intro h47
    exact hbad (hb.trans (congrArg some (BitVec.eq_of_toNat_eq h47)))
  have hvalidate : validatePackets 0 (packets (d.length / 188) d) = .error { code := .fatalFormat, info := k } := by
    rw [validatePackets_error (hpacket k hk) hsync, Nat.zero_add]
    intro j hj q hq
    rw [hpacket j (hj.trans hk)] at hq
    cases hq
    exact byteAt_slice (hgood j hj)
  subst hd
  have hexec : exec (.tsDemux disc contig) s = .next (errorPath (encode (.tsDemux disc contig))
      { code := .fatalFormat, info := k } s) := by
    refine congrArg (finish _ s) (a₂ := .error _) ?_
    refine bind_error.2 (.inr ⟨(), checkFault_ok.2 hf, bind_error.2 (.inr ⟨(), checkMode_ok.2 hm, ?_⟩)⟩)
    exact bind_error.2 (.inr ⟨r, resolveRegion_ok.2 hr, bind_error.2 (.inl hvalidate)⟩)
  exact ⟨_, hexec, rfl, Bool.or_true _, rfl, rfl, rfl⟩

end Sys2Proof.Machine
end

section
/-! PROOFS. 46_ts_demux R350, R352, R370: a transport stream cut at any bytes. -/

namespace Sys2Proof.Machine

/-! ### The remainder is not looked at (R352) -/

/-- The working state with another remainder. -/
def Dmx.withTsRem (d : Dmx) (r : Bytes) : Dmx := d.withHeld { d.trk.held with tsRem := r }

/-- The operation does the same whatever the remainder is. -/
def IgnoresRem (f : Dmx → Except Err Dmx) : Prop :=
  ∀ (r : Bytes) (d : Dmx), f (d.withTsRem r) = (f d).map (·.withTsRem r)

theorem Unheld.ignoresRem {f : Dmx → Except Err Dmx} (hf : Unheld f) : IgnoresRem f := by
  intro r d
  have happart := hf { d.trk.held with tsRem := r } d
  cases h : f d with
  | error e =>
    rw [h] at happart
    exact happart
  | ok d' =>
    rw [h, ← hf.held h] at happart
    rw [Dmx.withTsRem, ← hf.held h]
    exact happart

theorem ignoresRem_ok {f : Dmx → Dmx} (hf : ∀ r d, f (d.withTsRem r) = (f d).withTsRem r) :
    IgnoresRem fun d => .ok (f d) :=
  fun r d => congrArg Except.ok (hf r d)

theorem IgnoresRem.bind {f g : Dmx → Except Err Dmx} (hf : IgnoresRem f) (hg : IgnoresRem g) :
    IgnoresRem fun d => f d >>= g := by
  intro r d
  dsimp only
  rw [hf]
  cases f d with
  | error e => rfl
  | ok d' => exact hg r d'

/-- A choice that both runs make alike. -/
theorem ite_eq_map_ite {p : Prop} [Decidable p] {g : Dmx → Dmx} {a a' b b' : Except Err Dmx} (ha : a' = a.map g)
    (hb : b' = b.map g) : (if p then a' else b') = (if p then a else b).map g := by
  split
  · exact ha
  · exact hb

theorem flushPending_ignoresRem (c : Config.Caps) (st : Stream) : IgnoresRem (flushPending c st) := by
  intro r d
  have hp : pending st (d.withTsRem r) = pending st d := by cases st <;> rfl
  rw [flushPending_eq, flushPending_eq, hp]
  exact ite_eq_map_ite rfl ((flushPes_unheld c st _).ignoresRem r d)

theorem setChecked_ignoresRem (c : Config.Caps) (st : Stream) (n : Nat) (p : Option Bytes) :
    IgnoresRem fun d => do
      checkCap n c.pendCap 84
      return setPending st p d := by
  intro r d
  dsimp only
  cases checkCap n c.pendCap 84 with
  | error e => rfl
  | ok _ => cases st <;> rfl

theorem esPacket_ignoresRem (c : Config.Caps) (st : Stream) (pusi : Bool) (pl : Bytes) :
    IgnoresRem (esPacket c st pusi pl) := by
  intro r d
  have hp : pending st (d.withTsRem r) = pending st d := by cases st <;> rfl
  unfold esPacket
  rw [hp]
  refine ite_eq_map_ite ((flushPending_ignoresRem c st).bind (setChecked_ignoresRem c st _ _) r d) ?_
  cases pending st d with
  | none => rfl
  | some p => exact setChecked_ignoresRem c st _ _ r d

theorem fifoPush_withTsRem (c : Config.Caps) (k r : Bytes) (d : Dmx) :
    fifoPush c k (d.withTsRem r) = (fifoPush c k d).withTsRem r := by
  have hfifo : (d.withTsRem r).trk.fifo = d.trk.fifo := rfl
  unfold fifoPush
  rw [hfifo]
  split <;> rfl

theorem classify_withTsRem (r : Bytes) (t : Track) (x : Nat × Nat) :
    classify { t with tsRem := r } x = { classify t x with tsRem := r } := by
  unfold classify
  dsimp only
  split
  · rfl
  · split <;> rfl

theorem classifyAll_withTsRem (r : Bytes) (xs : List (Nat × Nat)) (t : Track) :
    xs.foldl classify { t with tsRem := r } = { xs.foldl classify t with tsRem := r } := by
  induction xs generalizing t with
  | nil => rfl
  | cons x xs ih => rw [List.foldl_cons, List.foldl_cons, ← ih, classify_withTsRem]

/-- A packet ignores the remainder when its redispatch does (R355). -/
theorem dispatchWith_ignoresRem {f : Dmx → Except Err Dmx} (hf : IgnoresRem f) (c : Config.Caps) (k : Bytes) :
    IgnoresRem (dispatchWith f c k) := by
  intro r d
  refine ite_eq_map_ite rfl (ite_eq_map_ite rfl (ite_eq_map_ite (ite_eq_map_ite ?_ rfl)
    (ite_eq_map_ite (ite_eq_map_ite ?_ rfl) (ite_eq_map_ite (ite_eq_map_ite ?_ (ite_eq_map_ite ?_ rfl)) ?_))))
  · cases parsePat (pktPayload k) with
    | none => rfl
    | some x =>
      exact hf r { d with trk := { d.trk with
        pmtPid := { pid := BitVec.ofNat 13 x, known := true, parsed := false } } }
  · cases parsePmt (pktPayload k) with
    | none => rfl
    | some streams =>
      have hstreams : streams.foldl classify (d.withTsRem r).trk = { streams.foldl classify d.trk with tsRem := r } :=
        classifyAll_withTsRem r streams d.trk
      dsimp only
      rw [hstreams]
      exact hf r { d with trk := { streams.foldl classify d.trk with
        pmtPid := { (streams.foldl classify d.trk).pmtPid with parsed := true } } }
  · exact esPacket_ignoresRem c .video _ _ r d
  · exact esPacket_ignoresRem c .audio _ _ r d
  · exact congrArg Except.ok (fifoPush_withTsRem c k r d)

theorem foldlM_ignoresRem {f : Bytes → Dmx → Except Err Dmx} (hf : ∀ k, IgnoresRem (f k)) (ks : List Bytes) :
    IgnoresRem fun d => ks.foldlM (fun d k => f k d) d := by
  induction ks with
  | nil => exact ignoresRem_ok (f := id) fun _ _ => rfl
  | cons k ks ih =>
    simp only [List.foldlM_cons]
    exact (hf k).bind ih

theorem redispatchWith_ignoresRem {f : Bytes → Dmx → Except Err Dmx} (hf : ∀ k, IgnoresRem (f k)) :
    IgnoresRem (redispatchWith f) := fun r d =>
  foldlM_ignoresRem hf d.trk.fifo r { d with trk := { d.trk with fifo := [] } }

/-- The packets of a call ignore the remainder (R350). -/
theorem dispatchAll_ignoresRem (c : Config.Caps) (ks : List Bytes) : IgnoresRem (dispatchAll c ks) := by
  have parsed (k : Bytes) : IgnoresRem (dispatchParsed c k) :=
    dispatchWith_ignoresRem (ignoresRem_ok (f := id) fun _ _ => rfl) c k
  have known (k : Bytes) : IgnoresRem (dispatchKnown c k) :=
    dispatchWith_ignoresRem (redispatchWith_ignoresRem parsed) c k
  exact foldlM_ignoresRem (fun k => dispatchWith_ignoresRem (redispatchWith_ignoresRem known) c k) ks

/-! ### Whole packets (R350, R352) -/

/-- The whole packets of a byte sequence, and what is held back behind them. -/
def wholePackets (d : Bytes) : List Bytes := packets (d.length / 188) d
def restBytes (d : Bytes) : Bytes := d.drop (188 * (d.length / 188))

theorem packets_add (m n : Nat) (d : Bytes) : packets (m + n) d = packets m d ++ packets n (d.drop (188 * m)) := by
  induction m generalizing d with
  | zero => rw [Nat.zero_add]; rfl
  | succ m ih =>
    rw [Nat.succ_add, packets, ih, packets, List.drop_drop, List.cons_append, Nat.mul_succ, Nat.add_comm 188]

/-- The packets that the first bytes hold whole are those of these bytes. -/
theorem packets_append {n : Nat} {a : Bytes} (h : 188 * n ≤ a.length) (b : Bytes) :
    packets n (a ++ b) = packets n a := by
  induction n generalizing a with
  | zero => rfl
  | succ n ih =>
    rw [packets, packets, List.take_append_of_le_length (by omega), List.drop_append_of_le_length (by omega),
      ih (by rw [List.length_drop]; omega)]

theorem length_div_append (a b : Bytes) :
    (a ++ b).length / 188 = a.length / 188 + (restBytes a ++ b).length / 188 := by
  have hle := Nat.div_mul_le_self a.length 188
  rw [List.length_append, List.length_append, restBytes, List.length_drop]
  omega

theorem drop_restBytes (a b : Bytes) : (a ++ b).drop (188 * (a.length / 188)) = restBytes a ++ b :=
  List.drop_append_of_le_length (by rw [Nat.mul_comm]; exact Nat.div_mul_le_self _ _)

/-- A sequence cut in two: the packets of the first part, and those of its rest with the second. -/
theorem wholePackets_append (a b : Bytes) :
    wholePackets (a ++ b) = wholePackets a ++ wholePackets (restBytes a ++ b) := by
  have hle : 188 * (a.length / 188) ≤ a.length := by rw [Nat.mul_comm]; exact Nat.div_mul_le_self _ _
  rw [wholePackets, length_div_append, packets_add, packets_append hle, drop_restBytes]
  rfl

theorem restBytes_append (a b : Bytes) : restBytes (a ++ b) = restBytes (restBytes a ++ b) := by
  rw [restBytes, length_div_append, Nat.mul_add, ← List.drop_drop, drop_restBytes]
  rfl

theorem memRange_add {m : Memory} (hm : m.wf) (off n k : Nat) :
    memRange m off (n + k) = memRange m off n ++ memRange m (off + n) k := by
  rw [memRange_eq hm, memRange_eq hm, memRange_eq hm, ← List.map_append, List.range'_append_1]

/-! ### Calls (R405) -/

/-- What a call that does not fail did: it dispatched the whole packets of the remainder and the chunk. -/
theorem exec_tsDemux_chunk {off n : Nat} {contig : Bool} {s t : State} (hlen : off + n < 2 ^ 64)
    (run : exec (.tsDemux false contig) (withRegion off n s) = .next t) (ok : t.status.err = 0) :
    ∃ x, dispatchAll s.caps (wholePackets (s.trk.tsRem ++ memRange s.inMem off n))
        { trk := s.trk, out := Outputs.empty } = .ok x ∧
      t.trk = (x.withTsRem (restBytes (s.trk.tsRem ++ memRange s.inMem off n))).trk ∧ t.out = x.out ∧
      t.caps = s.caps ∧ t.inMem = s.inMem := by
  rcases finish_cases run with ⟨s', hok, rfl⟩ | ⟨e, -, rfl⟩
  · obtain ⟨_, -, hok⟩ := bind_ok.1 hok
    obtain ⟨_, -, hok⟩ := bind_ok.1 hok
    obtain ⟨r, hr, hok⟩ := bind_ok.1 hok
    obtain ⟨_, -, hok⟩ := bind_ok.1 hok
    obtain ⟨x, hx, hok⟩ := bind_ok.1 hok
    cases hok
    obtain ⟨hname, -⟩ := resolveRegion_ok.1 hr
    cases hname
    have hoff : (BitVec.ofNat 64 off).toNat = off := Nat.mod_eq_of_lt (by omega)
    have hn : (BitVec.ofNat 64 n).toNat = n := Nat.mod_eq_of_lt (by omega)
    have hinput : tsInput false (withRegion off n s) (regionBytes (withRegion off n s)
        { space := .inp, off := (withRegion off n s).arg0.toNat, len := (withRegion off n s).arg1.toNat }) =
        s.trk.tsRem ++ memRange s.inMem off n := by
      simp only [tsInput, withRegion, regionBytes, memRead, hoff, hn, Bool.false_eq_true, if_false]
    rw [hinput, preamble_caps, dmxOf_preamble] at hx
    refine ⟨x, hx, ?_, rfl, ?_, ?_⟩
    · rw [hinput]
      rfl
    · simp [withRegion]
    · simp [withRegion]
  · exact absurd ok (errByte_ne_zero _)

theorem withRegion_inv {s : State} (h : s.Inv) (off n : Nat) : (withRegion off n s).Inv := h.withArgs _ _ _ _

/-- The calls that consecutive chunks are fed to, against one dispatch of all their packets behind queues `o₀`. -/
theorem fed_tsDemux {off : Nat} {ns : List Nat} {s t : State} {o : Outputs} (hi : s.Inv)
    (hlen : off + ns.sum < 2 ^ 64) (h : Fed (fun k => .tsDemux false k) off ns s t o) {o₀ : Outputs} {y : Dmx}
    (hy : dispatchAll s.caps (wholePackets (s.trk.tsRem ++ memRange s.inMem off ns.sum))
      { trk := s.trk, out := o₀ } = .ok y) :
    y.out = o₀.append o ∧ t.trk = (y.withTsRem (restBytes (s.trk.tsRem ++ memRange s.inMem off ns.sum))).trk := by
  induction h generalizing o₀ y with
  | done off s =>
    have hshort : s.trk.tsRem.length / 188 = 0 := Nat.div_eq_of_lt hi.trk.tsRem
    have hbytes : s.trk.tsRem ++ memRange s.inMem off ([] : List Nat).sum = s.trk.tsRem := List.append_nil _
    rw [hbytes, wholePackets, hshort] at hy
    cases hy
    rw [hbytes, restBytes, hshort]
    exact ⟨(Outputs.append_empty _).symm, rfl⟩
  | chunk off n rest contig s t u o run ok more ih =>
    rw [List.sum_cons] at hlen hy ⊢
    obtain ⟨x, hx, htrk, hout, hcaps, hmem⟩ := exec_tsDemux_chunk (by omega) run ok
    rw [memRange_add hi.memWf, ← List.append_assoc] at hy ⊢
    generalize s.trk.tsRem ++ memRange s.inMem off n = a at *
    rw [wholePackets_append, dispatchAll, List.foldlM_append] at hy
    obtain ⟨y₁, hy₁, hy⟩ := bind_ok.1 hy
    have hstart : ({ trk := s.trk, out := o₀ } : Dmx) = Dmx.behind { trk := s.trk, out := Outputs.empty } o₀ := by
      rw [Dmx.behind, Outputs.append_empty]
    rw [hstart] at hy₁
    obtain rfl : y₁ = x.behind o₀ := shifts_dispatchAll s.caps _ o₀ _ x y₁ hx hy₁
    have hnext : ({ trk := t.trk, out := o₀.append t.out } : Dmx) = (x.behind o₀).withTsRem (restBytes a) := by
      rw [htrk, hout]
      rfl
    have hrem : t.trk.tsRem = restBytes a := by rw [htrk]; rfl
    have hrun : dispatchAll t.caps (wholePackets (t.trk.tsRem ++ memRange t.inMem (off + n) rest.sum))
        { trk := t.trk, out := o₀.append t.out } = .ok (y.withTsRem (restBytes a)) := by
      rw [hcaps, hmem, hrem, hnext, dispatchAll_ignoresRem, dispatchAll, hy]
      rfl
    obtain ⟨hout', htrk'⟩ := ih (tsDemux_inv (withRegion_inv hi off n) run) (by omega) hrun
    refine ⟨?_, ?_⟩
    · rw [← Outputs.append_assoc]
      exact hout'
    · rw [htrk', hrem, hmem, ← restBytes_append]
      rfl

/-- Settles O51: the one call dispatches the packets of all the chunks, and each call of a chunk its part of them. -/
theorem tsSplitInvariance : Obligations.TsSplitInvariance := by
  intro off ns contig s t u o hi hlen hfed run ok
  obtain ⟨x, hx, htrk, hout, -, -⟩ := exec_tsDemux_chunk hlen run ok
  obtain ⟨hout', htrk'⟩ := fed_tsDemux hi hlen hfed hx
  rw [Outputs.empty_append] at hout'
  exact ⟨hout.trans hout', htrk.trans htrk'.symm⟩

end Sys2Proof.Machine
end

section
/-! PROOFS. 46_ts_demux R353 to R368: packets before the streams are known. -/

namespace Sys2Proof.Machine

/-! ### Sections (R365) -/

/-- A number in two bytes, by what stands before them. -/
theorem byteAt_pair {b pre post : Bytes} {v i : Nat} (hb : b = pre ++ (beBytes 2 v ++ post)) (hi : pre.length = i) :
    byteAt b i = v / 256 % 256 ∧ byteAt b (i + 1) = v % 256 := by
  have hcut : b = (pre ++ [BitVec.ofNat 8 (v / 256)]) ++ (BitVec.ofNat 8 v :: post) := by
    rw [hb]
    simp [beBytes]
  refine ⟨?_, ?_⟩
  · rw [byteAt_of_eq (x := BitVec.ofNat 8 (v / 256)) hb hi, BitVec.toNat_ofNat]
  · rw [byteAt_of_eq hcut (by rw [List.length_append, hi]; rfl), BitVec.toNat_ofNat]

/-- The low bits of a number in two bytes: the fields of PIDs and of lengths. -/
theorem pair_field {v n : Nat} (hn : n ∣ 256) : v / 256 % 256 % n * 256 + v % 256 = v % (n * 256) := by
  rw [Nat.mod_mod_of_dvd _ hn, Nat.mul_comm n, Nat.mod_mul, Nat.mul_comm 256, Nat.add_comm]

section
variable {skipped content rest pl : Bytes} {tid : Byte} {flags : BitVec 4} {crc : BitVec 32}

/-- The bytes of a section in front of its content: the pointer and what it skips, the table id, the length. -/
def sectionHead (skipped : Bytes) (tid : Byte) (flags : BitVec 4) (len : Nat) : Bytes :=
  BitVec.ofNat 8 skipped.length :: (skipped ++ tid :: beBytes 2 (flags.toNat * 4096 + len + 4))

theorem length_sectionHead (skipped : Bytes) (tid : Byte) (flags : BitVec 4) (len : Nat) :
    (sectionHead skipped tid flags len).length = 4 + skipped.length := by
  simp [sectionHead]
  omega

/-- Content that ends with `body` stands in the section where the bytes in front of `body` end. -/
theorem sectionBytes_cut {header body : Bytes}
    (hpl : pl = sectionBytes skipped tid flags (header ++ body) crc rest) :
    pl = (sectionHead skipped tid flags (header ++ body).length ++ header) ++
      (body ++ (beBytes 4 crc.toNat ++ rest)) := by
  simp [hpl, sectionBytes, sectionHead]

theorem length_sectionBytes (hpl : pl = sectionBytes skipped tid flags content crc rest) :
    pl.length = 8 + skipped.length + content.length + rest.length := by
  rw [hpl]
  simp [sectionBytes]
  omega

/-- Where a written section starts, and where its content ends. -/
theorem psiSection_written (hpl : pl = sectionBytes skipped tid flags content crc rest) (hlen : pl.length ≤ 184) :
    psiSection pl tid.toNat = some (1 + skipped.length, 4 + skipped.length + content.length) := by
  have hsize := length_sectionBytes hpl
  have hpointer : byteAt pl 0 = skipped.length := by
    rw [byteAt_of_eq (i := 0) (pre := []) hpl rfl, BitVec.toNat_ofNat]
    omega
  have hcut : pl = (BitVec.ofNat 8 skipped.length :: skipped) ++ (tid :: (beBytes 2
      (flags.toNat * 4096 + content.length + 4) ++ (content ++ (beBytes 4 crc.toNat ++ rest)))) := by
    simp [hpl, sectionBytes]
  have htid : byteAt pl (1 + skipped.length) = tid.toNat := byteAt_of_eq hcut (Nat.add_comm _ _)
  obtain ⟨hhigh, hlow⟩ := byteAt_pair (i := 1 + skipped.length + 1) (hcut.trans (List.append_cons _ _ _))
    (by simp; omega)
  unfold psiSection
  rw [hpointer, if_neg (by omega)]
  dsimp only
  rw [htid, if_neg (by omega), hhigh, hlow, pair_field (by decide)]
  congr 2
  omega

end

/-! ### The program loop of a PAT (R366) -/

/-- The bytes of a program. -/
def programBytes (x : BitVec 16 × BitVec 13) : Bytes := beBytes 2 x.1.toNat ++ beBytes 2 (0xE000 + x.2.toNat)

theorem length_programs (xs : List (BitVec 16 × BitVec 13)) : (xs.flatMap programBytes).length = 4 * xs.length := by
  induction xs with
  | nil => rfl
  | cons x xs ih =>
    rw [List.flatMap_cons, List.length_append, ih, List.length_cons]
    simp [programBytes]
    omega

/-- The loop finds the first program whose number is not 0. -/
theorem patLoop_written {pl post : Bytes} (xs : List (BitVec 16 × BitVec 13)) {pre : Bytes} {fuel : Nat}
    (hpl : pl = pre ++ (xs.flatMap programBytes ++ post)) (hfuel : xs.length ≤ fuel) :
    patLoop pl (pre.length + 4 * xs.length) fuel pre.length =
      (xs.find? fun x => decide (x.1 ≠ 0)).map fun x => x.2.toNat := by
  induction xs generalizing pre fuel with
  | nil =>
    cases fuel with
    | zero => rfl
    | succ fuel => rw [patLoop, if_pos (by simp)]; rfl
  | cons x xs ih =>
    obtain ⟨fuel, rfl⟩ := Nat.exists_eq_succ_of_ne_zero (Nat.ne_of_gt (Nat.lt_of_lt_of_le (Nat.succ_pos _) hfuel))
    have hcut : pl = pre ++ (beBytes 2 x.1.toNat ++ (beBytes 2 (0xE000 + x.2.toNat) ++
        (xs.flatMap programBytes ++ post))) := by simp [hpl, programBytes]
    have hcut' : pl = (pre ++ beBytes 2 x.1.toNat) ++ (beBytes 2 (0xE000 + x.2.toNat) ++
        (xs.flatMap programBytes ++ post)) := by rw [hcut, List.append_assoc]
    have hnumber := x.1.isLt
    have hpid := x.2.isLt
    obtain ⟨hn, hn'⟩ := byteAt_pair hcut rfl
    obtain ⟨hp, hp'⟩ := byteAt_pair (i := pre.length + 2) hcut' (by simp)
    have hzero : byteAt pl pre.length * 256 + byteAt pl (pre.length + 1) ≠ 0 ↔ x.1 ≠ 0 := by
      rw [hn, hn', ← BitVec.toNat_inj.ne]
      change _ ↔ x.1.toNat ≠ 0
      omega
    have hvalue : byteAt pl (pre.length + 2) % 32 * 256 + byteAt pl (pre.length + 3) = x.2.toNat := by
      rw [hp, hp', pair_field (by decide)]
      omega
    rw [patLoop, if_neg (by rw [List.length_cons]; omega), hvalue, List.find?_cons]
    by_cases hx : x.1 ≠ 0
    · rw [if_pos (hzero.2 hx), decide_eq_true hx]
      rfl
    · rw [if_neg (hzero.not.2 hx), decide_eq_false hx]
      have hnext := ih (pre := pre ++ programBytes x) (by simp [hpl]) (Nat.le_of_succ_le_succ hfuel)
      have hlen : (pre ++ programBytes x).length = pre.length + 4 := by simp [programBytes]
      rw [hlen] at hnext
      rw [← hnext, List.length_cons]
      congr 1
      omega

/-- The PMT PID of a written PAT (R366). -/
theorem parsePat_written {pl skipped rest : Bytes} {flags : BitVec 4} {header : Vector Byte 5}
    {programs : List (BitVec 16 × BitVec 13)} {crc : BitVec 32}
    (hpl : pl = sectionBytes skipped 0x00 flags (patContent header programs) crc rest) (hlen : pl.length ≤ 184) :
    parsePat pl = (programs.find? fun x => decide (x.1 ≠ 0)).map fun x => x.2.toNat := by
  have hcut := sectionBytes_cut (header := header.toList) (body := programs.flatMap programBytes) hpl
  have hcontent : (patContent header programs).length = 5 + 4 * programs.length := by
    rw [patContent, List.length_append, Vector.length_toList]
    exact congrArg _ (length_programs programs)
  have hsize := length_sectionBytes hpl
  have hloop := patLoop_written (fuel := pl.length) programs hcut (by omega)
  have hstart : (sectionHead skipped 0x00 flags (header.toList ++ programs.flatMap programBytes).length
      ++ header.toList).length = 1 + skipped.length + 8 := by
    rw [List.length_append, length_sectionHead, Vector.length_toList]
    omega
  rw [hstart] at hloop
  have hsection := psiSection_written hpl hlen
  unfold parsePat
  rw [show (0x00 : Nat) = (0x00 : Byte).toNat from rfl, hsection]
  dsimp only
  rw [← hloop, hcontent]
  congr 1
  omega

/-! ### The stream loop of a PMT (R367) -/

/-- The bytes of a stream. -/
def EsCode.bytes (x : EsCode) : Bytes :=
  x.streamType :: (beBytes 2 (0xE000 + x.pid.toNat) ++ beBytes 2 (0xF000 + x.descriptors.length) ++ x.descriptors)

/-- What the loop takes from it. -/
def EsCode.stream (x : EsCode) : Nat × Nat := (x.streamType.toNat, x.pid.toNat)

theorem EsCode.length_bytes (x : EsCode) : x.bytes.length = 5 + x.descriptors.length := by
  simp [EsCode.bytes]
  omega

/-- The loop lists every stream, its descriptors passed over. -/
theorem pmtLoop_written {pl post : Bytes} (xs : List EsCode) {pre : Bytes} {fuel : Nat}
    (hpl : pl = pre ++ (xs.flatMap EsCode.bytes ++ post)) (hlen : pl.length ≤ 184) (hfuel : xs.length ≤ fuel) :
    pmtLoop pl (pre.length + (xs.flatMap EsCode.bytes).length) fuel pre.length = xs.map EsCode.stream := by
  induction xs generalizing pre fuel with
  | nil =>
    cases fuel with
    | zero => rfl
    | succ fuel => rw [pmtLoop, if_pos (by simp)]; rfl
  | cons x xs ih =>
    obtain ⟨fuel, rfl⟩ := Nat.exists_eq_succ_of_ne_zero (Nat.ne_of_gt (Nat.lt_of_lt_of_le (Nat.succ_pos _) hfuel))
    have hcut : pl = pre ++ (x.streamType :: (beBytes 2 (0xE000 + x.pid.toNat) ++
        (beBytes 2 (0xF000 + x.descriptors.length) ++ (x.descriptors ++ (xs.flatMap EsCode.bytes ++ post))))) := by
      simp [hpl, EsCode.bytes]
    have hpid := x.pid.isLt
    have hdesc : x.descriptors.length < 184 := by
      rw [hcut] at hlen
      simp at hlen
      omega
    obtain ⟨hp, hp'⟩ := byteAt_pair (i := pre.length + 1) (hcut.trans (List.append_cons _ _ _)) (by simp)
    obtain ⟨hd, hd'⟩ := byteAt_pair (i := pre.length + 3)
      (hcut.trans (List.append_assoc pre (x.streamType :: beBytes 2 (0xE000 + x.pid.toNat)) _).symm) (by simp)
    have hvalue : byteAt pl (pre.length + 1) % 32 * 256 + byteAt pl (pre.length + 2) = x.pid.toNat := by
      rw [hp, hp', pair_field (by decide)]
      omega
    have hskip : byteAt pl (pre.length + 3) % 16 * 256 + byteAt pl (pre.length + 4) = x.descriptors.length := by
      rw [hd, hd', pair_field (by decide)]
      omega
    have hnext := ih (pre := pre ++ x.bytes) (by simp [hpl]) (Nat.le_of_succ_le_succ hfuel)
    rw [List.length_append, x.length_bytes] at hnext
    rw [pmtLoop, List.flatMap_cons, List.length_append, x.length_bytes, if_neg (by omega), hvalue, hskip,
      byteAt_of_eq hcut rfl, List.map_cons, ← hnext, ← Nat.add_assoc, ← Nat.add_assoc]
    rfl

/-- The streams of a written PMT (R367). -/
theorem parsePmt_written {pl skipped rest : Bytes} {flags : BitVec 4} {header : Vector Byte 5} {pcr : BitVec 16}
    {descriptors : Bytes} {streams : List EsCode} {crc : BitVec 32}
    (hpl : pl = sectionBytes skipped 0x02 flags (pmtContent header pcr descriptors streams) crc rest)
    (hlen : pl.length ≤ 184) : parsePmt pl = some (streams.map EsCode.stream) := by
  have hcontent : pmtContent header pcr descriptors streams =
      (header.toList ++ beBytes 2 pcr.toNat ++ beBytes 2 (0xF000 + descriptors.length) ++ descriptors) ++
        streams.flatMap EsCode.bytes := rfl
  have hcontent' : pmtContent header pcr descriptors streams =
      (header.toList ++ beBytes 2 pcr.toNat) ++ (beBytes 2 (0xF000 + descriptors.length) ++
        (descriptors ++ streams.flatMap EsCode.bytes)) := by
    simp only [hcontent, List.append_assoc]
  have hsection := psiSection_written hpl hlen
  have hsize := length_sectionBytes hpl
  have hcontentLen : (pmtContent header pcr descriptors streams).length =
      9 + descriptors.length + (streams.flatMap EsCode.bytes).length := by
    rw [hcontent]
    simp
    omega
  have hcount : streams.length ≤ (streams.flatMap EsCode.bytes).length := by
    rw [List.length_flatMap]
    refine (Nat.le_of_eq (List.length_map _).symm).trans (List.length_le_sum_of_one_le _ ?_)
    intro n hn
    obtain ⟨x, -, rfl⟩ := List.mem_map.1 hn
    rw [x.length_bytes]
    omega
  have hcut := sectionBytes_cut (body := streams.flatMap EsCode.bytes) hpl
  have hcut' := sectionBytes_cut (hcontent' ▸ hpl)
  rw [List.append_assoc (beBytes 2 _)] at hcut'
  obtain ⟨hd, hd'⟩ := byteAt_pair (i := 1 + skipped.length + 10) hcut' (by
    rw [List.length_append, length_sectionHead]
    simp
    omega)
  have hloop := pmtLoop_written (fuel := pl.length) streams hcut hlen (by omega)
  have hstart : (sectionHead skipped 0x02 flags ((header.toList ++ beBytes 2 pcr.toNat ++
      beBytes 2 (0xF000 + descriptors.length) ++ descriptors) ++ streams.flatMap EsCode.bytes).length ++
      (header.toList ++ beBytes 2 pcr.toNat ++ beBytes 2 (0xF000 + descriptors.length) ++ descriptors)).length =
        1 + skipped.length + 12 + descriptors.length := by
    rw [List.length_append, length_sectionHead]
    simp
    omega
  rw [hstart] at hloop
  unfold parsePmt
  rw [show (0x02 : Nat) = (0x02 : Byte).toNat from rfl, hsection]
  dsimp only
  rw [if_neg (by omega), hd, hd', pair_field (by decide), ← hloop, hcontentLen]
  congr 2 <;> omega

end Sys2Proof.Machine
end

section
/-! PROOFS. 46_ts_demux R355 to R368: what a PAT, a PMT and an early packet do. -/

namespace Sys2Proof.Machine

/-! ### The streams of a PMT (R368) -/

/-- The track with the first video stream, when none is known. -/
def Track.withVideo (t : Track) (streams : List EsCode) : Track :=
  if t.vPid.known then t
  else match streams.find? (fun x => isVideoType x.streamType) with
    | none => t
    | some x => { t with vPid := { pid := x.pid, known := true }
                         vCodec := if x.streamType = 0x1B then .avc else .hevc }

/-- The track with the first audio stream, when none is known. -/
def Track.withAudio (t : Track) (streams : List EsCode) : Track :=
  if t.aPid.known then t
  else match streams.find? (fun x => isAudioType x.streamType) with
    | none => t
    | some x => { t with aPid := { pid := x.pid, known := true }
                         aCodec := if x.streamType = 0x0F then .aac else .mpeg }

theorem toNat_eq_iff_eq {n : Nat} {x : BitVec n} {v : Nat} (h : v < 2 ^ n) : x.toNat = v ↔ x = BitVec.ofNat n v := by
  rw [← BitVec.toNat_inj, BitVec.toNat_ofNat, Nat.mod_eq_of_lt h]

/-- One stream is the list of it alone: it counts for video or for audio, not for both. -/
theorem classify_stream (t : Track) (x : EsCode) :
    classify t x.stream =
      if isVideoType x.streamType then t.withVideo [x]
      else if isAudioType x.streamType then t.withAudio [x] else t := by
  have hpid : BitVec.ofNat 13 x.pid.toNat = x.pid := by rw [BitVec.ofNat_toNat, BitVec.setWidth_eq]
  have h1B : x.streamType.toNat = 0x1B ↔ x.streamType = 0x1B := toNat_eq_iff_eq (by decide)
  have h24 : x.streamType.toNat = 0x24 ↔ x.streamType = 0x24 := toNat_eq_iff_eq (by decide)
  have h0F : x.streamType.toNat = 0x0F ↔ x.streamType = 0x0F := toNat_eq_iff_eq (by decide)
  have h03 : x.streamType.toNat = 0x03 ↔ x.streamType = 0x03 := toNat_eq_iff_eq (by decide)
  have h04 : x.streamType.toNat = 0x04 ↔ x.streamType = 0x04 := toNat_eq_iff_eq (by decide)
  have hv : isVideoType x.streamType = true ↔ x.streamType = 0x1B ∨ x.streamType = 0x24 := by simp [isVideoType]
  have ha : isAudioType x.streamType = true ↔ x.streamType = 0x0F ∨ x.streamType = 0x03 ∨ x.streamType = 0x04 := by
    simp [isAudioType, or_assoc]
  have hboth : isVideoType x.streamType = true → isAudioType x.streamType = false := by
    rw [hv]
    rintro (h | h) <;> rw [h] <;> rfl
  unfold classify EsCode.stream
  dsimp only
  simp only [h1B, h24, h0F, h03, h04, hpid]
  cases hvideo : isVideoType x.streamType with
  | false =>
    have hnv : ¬ (x.streamType = 0x1B ∨ x.streamType = 0x24) := fun h => by simp [hv.2 h] at hvideo
    cases haudio : isAudioType x.streamType with
    | false =>
      have hna : ¬ (x.streamType = 0x0F ∨ x.streamType = 0x03 ∨ x.streamType = 0x04) := fun h => by
        simp [ha.2 h] at haudio
      rw [if_neg fun h => hnv h.1, if_neg fun h => hna h.1]
      rfl
    | true =>
      rw [if_neg fun h => hnv h.1]
      cases hk : t.aPid.known with
      | false => rw [if_pos ⟨ha.1 haudio, rfl⟩]; simp [Track.withAudio, hk, haudio]
      | true => rw [if_neg fun h => Bool.false_ne_true h.2]; simp [Track.withAudio, hk]
  | true =>
    have hna : ¬ (x.streamType = 0x0F ∨ x.streamType = 0x03 ∨ x.streamType = 0x04) := fun h =>
      Bool.false_ne_true ((hboth hvideo).symm.trans (ha.2 h))
    rw [if_neg (c := _ ∧ (!t.aPid.known) = true) fun h => hna h.1]
    cases hk : t.vPid.known with
    | false => rw [if_pos ⟨hv.1 hvideo, rfl⟩]; simp [Track.withVideo, hk, hvideo]
    | true => rw [if_neg fun h => Bool.false_ne_true h.2]; simp [Track.withVideo, hk]

/-- A stream in front of others. -/
theorem withVideo_cons (t : Track) (x : EsCode) (xs : List EsCode) :
    t.withVideo (x :: xs) = (if isVideoType x.streamType then t.withVideo [x] else t).withVideo xs := by
  unfold Track.withVideo
  cases hx : isVideoType x.streamType <;> cases hk : t.vPid.known <;> simp [hx, hk]

theorem withAudio_cons (t : Track) (x : EsCode) (xs : List EsCode) :
    t.withAudio (x :: xs) = (if isAudioType x.streamType then t.withAudio [x] else t).withAudio xs := by
  unfold Track.withAudio
  cases hx : isAudioType x.streamType <;> cases hk : t.aPid.known <;> simp [hx, hk]

theorem withVideo_withAudio (t : Track) (xs ys : List EsCode) :
    (t.withAudio xs).withVideo ys = (t.withVideo ys).withAudio xs := by
  unfold Track.withVideo Track.withAudio
  cases hv : t.vPid.known <;> cases ha : t.aPid.known <;>
    cases ys.find? (fun x => isVideoType x.streamType) <;>
    cases xs.find? (fun x => isAudioType x.streamType) <;> simp [hv, ha]

theorem classifyAll_streams (xs : List EsCode) (t : Track) :
    (xs.map EsCode.stream).foldl classify t = (t.withVideo xs).withAudio xs := by
  induction xs generalizing t with
  | nil => simp [Track.withVideo, Track.withAudio]
  | cons x xs ih =>
    rw [List.map_cons, List.foldl_cons, ih, classify_stream, withVideo_cons t x xs, withAudio_cons _ x xs]
    cases hv : isVideoType x.streamType with
    | true =>
      have ha : isAudioType x.streamType = false := by
        simp only [isVideoType, Bool.or_eq_true, decide_eq_true_eq] at hv
        rcases hv with h | h <;> rw [h] <;> rfl
      simp [ha]
    | false =>
      cases isAudioType x.streamType
      · rfl
      · simp [withVideo_withAudio]

/-- The streams of the first PMT, with neither kind known before. -/
theorem withPmt_eq {t : Track} (hv : t.vPid.known = false) (ha : t.aPid.known = false) (streams : List EsCode) :
    { (streams.map EsCode.stream).foldl classify t with
      pmtPid := { ((streams.map EsCode.stream).foldl classify t).pmtPid with parsed := true } } =
      t.withPmt streams := by
  rw [classifyAll_streams]
  unfold Track.withVideo Track.withAudio Track.withPmt
  rw [hv]
  cases streams.find? (fun x => isVideoType x.streamType) <;>
    cases streams.find? (fun x => isAudioType x.streamType) <;> simp [ha]

/-! ### Redispatch (R361, log 8) -/

/-- Two packet handlers that agree as long as a property lasts, and keep it. -/
theorem foldlM_congr {P : Dmx → Prop} {f g : Bytes → Dmx → Except Err Dmx} (hfg : ∀ k d, P d → f k d = g k d)
    (hf : ∀ k d d', P d → f k d = .ok d' → P d') (ks : List Bytes) {d : Dmx} (hd : P d) :
    ks.foldlM (fun d k => f k d) d = ks.foldlM (fun d k => g k d) d := by
  induction ks generalizing d with
  | nil => rfl
  | cons k ks ih =>
    rw [List.foldlM_cons, List.foldlM_cons, ← hfg k d hd]
    cases h : f k d with
    | error e => rfl
    | ok d' => exact ih (hf k d d' hd h)

/-- Once the PMT PID is known only a PMT redispatches, which is parsed then. -/
theorem dispatchWith_known {f g : Dmx → Except Err Dmx} (c : Config.Caps) (k : Bytes) {d : Dmx}
    (hk : d.trk.pmtPid.known = true)
    (hfg : ∀ e : Dmx, e.trk.pmtPid.known = true → e.trk.pmtPid.parsed = true → f e = g e) :
    dispatchWith f c k d = dispatchWith g c k d := by
  have hpat : (pktPusi k && !d.trk.pmtPid.known) ≠ true := by simp [hk]
  unfold dispatchWith
  dsimp only
  rw [if_neg hpat, if_neg hpat]
  cases parsePmt (pktPayload k) with
  | none => rfl
  | some streams =>
    dsimp only
    rw [hfg _ _ rfl]
    change (streams.foldl classify d.trk).pmtPid.known = true
    rw [(classifyAll_fixed streams d.trk).1]
    exact hk

theorem dispatchParsed_eq (c : Config.Caps) (k : Bytes) {d : Dmx} (hk : d.trk.pmtPid.known = true)
    (hp : d.trk.pmtPid.parsed = true) : dispatchParsed c k d = dispatchKnown c k d :=
  dispatchWith_parsed _ _ c k hk hp

/-- The layer of a known PMT PID is the dispatcher itself (log 8). -/
theorem dispatchKnown_eq (c : Config.Caps) (k : Bytes) {d : Dmx} (hk : d.trk.pmtPid.known = true) :
    dispatchKnown c k d = dispatch c k d := by
  refine dispatchWith_known c k hk fun e hek hep => ?_
  refine foldlM_congr (P := fun d => d.trk.pmtPid.known = true ∧ d.trk.pmtPid.parsed = true)
    (fun k d h => dispatchParsed_eq c k h.1 h.2) (fun k d d' h hd' => ?_) e.trk.fifo ⟨hek, hep⟩
  obtain ⟨hpmt, -, -⟩ := (dispatchParsed_pids c k d d' hd').parsed h.2 h.1
  rwa [hpmt]

/-- With a known PMT PID a redispatch is the dispatch of the FIFO's packets, in order (R361). -/
theorem redispatch_eq (c : Config.Caps) {d : Dmx} (hk : d.trk.pmtPid.known = true) :
    redispatchWith (dispatchKnown c) d = dispatchAll c d.trk.fifo { d with trk := { d.trk with fifo := [] } } :=
  foldlM_congr (P := fun d => d.trk.pmtPid.known = true) (fun k _ h => dispatchKnown_eq c k h)
    (fun k d d' h hd' => ((dispatchKnown_pids c k d d' hd').pmt h).1) d.trk.fifo
    (d := { d with trk := { d.trk with fifo := [] } }) hk

/-! ### The packets (R355, R360) -/

theorem TsPacketCode.length_payload {k : TsPacketCode} (hk : k.Valid) : k.body.payload.length ≤ 184 := by
  have hlen := hk.1
  simp only [TsPacketCode.bytes, List.length_append, List.length_cons, List.length_nil] at hlen
  cases hb : k.body with
  | plain p => simp only [hb, TsBody.bytes, TsBody.payload] at hlen ⊢; omega
  | field f => exact Nat.zero_le _
  | both f p =>
    simp only [hb, TsBody.bytes, TsBody.payload, List.length_cons, List.length_append] at hlen ⊢
    omega

/-- A packet that starts a section of the PAT, before the PMT PID is known. -/
theorem dispatch_pat (c : Config.Caps) {k : TsPacketCode} {d : Dmx} (hk : k.Valid) (hs : k.start = true)
    (hpid : k.pid = 0) (hknown : d.trk.pmtPid.known = false) :
    dispatch c k.bytes d =
      (parsePat k.body.payload).elim (.ok d) fun x => redispatchWith (dispatchKnown c) { d with trk := { d.trk with
        pmtPid := { pid := BitVec.ofNat 13 x, known := true, parsed := false } } } := by
  have hzero : k.pid.toNat = 0 := by rw [hpid]; rfl
  have hnull : (0 : Nat) ≠ 0x1FFF := by decide
  unfold dispatch dispatchWith
  simp only [packet_afc, packet_pid, packet_pusi, packet_payload hk, k.body.control_ne_zero, hzero, hnull, hs, hknown,
    Bool.not_false, Bool.and_true, if_true, if_false]
  cases parsePat k.body.payload <;> rfl

/-- A packet that starts a section of the PMT, before it is parsed. -/
theorem dispatch_pmt (c : Config.Caps) {k : TsPacketCode} {d : Dmx} (hk : k.Valid) (hs : k.start = true)
    (h0 : k.pid ≠ 0) (hnull : k.pid ≠ 0x1FFF) (hpmt : d.trk.pmtPid = { pid := k.pid, known := true, parsed := false }) :
    dispatch c k.bytes d =
      (parsePmt k.body.payload).elim (.ok d) fun streams => redispatchWith (dispatchKnown c) { d with
        trk := { streams.foldl classify d.trk with
          pmtPid := { (streams.foldl classify d.trk).pmtPid with parsed := true } } } := by
  have h0' : k.pid.toNat ≠ 0 := (toNat_eq_iff_eq (by decide)).not.2 h0
  have hnull' : k.pid.toNat ≠ 0x1FFF := (toNat_eq_iff_eq (by decide)).not.2 hnull
  unfold dispatch dispatchWith
  simp only [packet_afc, packet_pid, packet_pusi, packet_payload hk, k.body.control_ne_zero, h0', hnull', hs, hpmt,
    decide_true, Bool.not_false, Bool.and_true, if_true, if_false]
  cases parsePmt k.body.payload <;> rfl

/-- Any other packet, before the PMT is parsed. -/
theorem dispatch_early (c : Config.Caps) {k : TsPacketCode} {d : Dmx} (h0 : k.pid ≠ 0)
    (hparsed : d.trk.pmtPid.parsed = false) (hpmt : d.trk.pmtPid.known = true → k.pid ≠ d.trk.pmtPid.pid) :
    dispatch c k.bytes d = if k.pid = 0x1FFF then .ok d else .ok (fifoPush c k.bytes d) := by
  have h0' : k.pid.toNat ≠ 0 := (toNat_eq_iff_eq (by decide)).not.2 h0
  have hnull : k.pid.toNat = 0x1FFF ↔ k.pid = 0x1FFF := toNat_eq_iff_eq (by decide)
  have hpmt' : (d.trk.pmtPid.known && decide (k.pid.toNat = d.trk.pmtPid.pid.toNat)) ≠ true := by
    rw [ne_eq, Bool.and_eq_true, decide_eq_true_eq, BitVec.toNat_inj]
    exact fun h => hpmt h.1 h.2
  unfold dispatch dispatchWith
  simp only [packet_afc, packet_pid, k.body.control_ne_zero, h0', hnull, hpmt', hparsed, Bool.false_eq_true, if_false]

/-- Settles O47: a written PAT gives its first program, a written PMT its streams, and the redispatch that follows is
a dispatch of the FIFO's packets; any other packet joins the FIFO. -/
theorem patGivesPmtPid : Obligations.PatGivesPmtPid := by
  refine ⟨fun c k d skipped rest flags header programs crc hk hs hpid hknown hpl => ?_,
    fun c k d skipped rest flags header pcr descriptors streams crc hk hs h0 hnull hpmt hv ha hpl => ?_,
    fun c k d hk h0 hparsed => ⟨fun hnull => ?_, fun hnull hpmt => ?_⟩⟩
  · rw [dispatch_pat c hk hs hpid hknown, parsePat_written hpl (TsPacketCode.length_payload hk)]
    cases programs.find? (fun x => decide (x.1 ≠ 0)) with
    | none => rfl
    | some x =>
      have hvalue : BitVec.ofNat 13 x.2.toNat = x.2 := by rw [BitVec.ofNat_toNat, BitVec.setWidth_eq]
      dsimp only [Option.map_some, Option.elim_some]
      rw [redispatch_eq c rfl, hvalue]
  · rw [dispatch_pmt c hk hs h0 hnull hpmt, parsePmt_written hpl (TsPacketCode.length_payload hk), Option.elim_some]
    rw [withPmt_eq hv ha]
    refine (redispatch_eq c ?_).trans rfl
    change d.trk.pmtPid.known = true
    rw [hpmt]
  · by_cases hpmt : d.trk.pmtPid.known = true → k.pid ≠ d.trk.pmtPid.pid
    · rw [dispatch_early c h0 hparsed hpmt, if_pos hnull]
    · have hnull' : k.pid.toNat = 0x1FFF := by rw [hnull]; rfl
      simp only [dispatch, dispatchWith, packet_afc, packet_pid, k.body.control_ne_zero, hnull', if_true, if_false]
  · rw [dispatch_early c h0 hparsed hpmt, if_neg hnull]
    unfold fifoPush
    rfl

end Sys2Proof.Machine
end

section
/-! PROOFS. 46_ts_demux R375 to R379: a written PES packet and its timestamps. -/

namespace Sys2Proof.Machine

/-! ### The timestamp field (R377) -/

/-- A byte of a slice. -/
theorem byteAt_of_slice {p b : Bytes} {o n i : Nat} (h : slice p o n = b) (hi : i < n) :
    byteAt p (o + i) = byteAt b i := by
  subst h
  simp [byteAt, slice, List.getD_eq_getElem?_getD, List.getElem?_take_of_lt hi]

/-- A field over one whose bits are clear. -/
theorem or_eq_add_of_dvd {a b i : Nat} (ha : 2 ^ i ∣ a) (hb : b < 2 ^ i) : a ||| b = a + b := by
  obtain ⟨q, rfl⟩ := ha
  exact (Nat.two_pow_add_eq_or_of_lt hb q).symm

/-- The first byte holds three bits between the four bits before and its marker. -/
theorem and_stamp_high : ∀ prefix4 < 16, ∀ t < 8, (prefix4 * 16 + t * 2 + 1) &&& 0x0E = t * 2 := by decide

/-- The third byte holds seven bits before its marker. -/
theorem and_stamp_mid : ∀ t < 128, (t * 2 + 1) &&& 0xFE = t * 2 := by decide

/-- A written timestamp is read back. -/
theorem ts5_of_stampBytes {p : Bytes} {o v : Nat} (prefix4 : BitVec 4) (hv : v < 2 ^ 33)
    (h : slice p o 5 = stampBytes prefix4 v) : ts5 p o = v := by
  have hp := prefix4.isLt
  have h0 : byteAt p o = prefix4.toNat * 16 + v / 2 ^ 30 * 2 + 1 := by
    rw [← Nat.add_zero o, byteAt_of_slice h (by decide)]
    refine (BitVec.toNat_ofNat ..).trans (Nat.mod_eq_of_lt ?_)
    omega
  have h1 : byteAt p (o + 1) = v / 2 ^ 22 % 256 := by
    rw [byteAt_of_slice h (by decide)]
    exact (BitVec.toNat_ofNat ..).trans (Nat.mod_mod _ _)
  have h2 : byteAt p (o + 2) = v / 2 ^ 15 % 128 * 2 + 1 := by
    rw [byteAt_of_slice h (by decide)]
    refine (BitVec.toNat_ofNat ..).trans (Nat.mod_eq_of_lt ?_)
    omega
  have h3 : byteAt p (o + 3) = v / 2 ^ 7 % 256 := by
    rw [byteAt_of_slice h (by decide)]
    exact (BitVec.toNat_ofNat ..).trans (Nat.mod_mod _ _)
  have h4 : byteAt p (o + 4) = v % 128 * 2 + 1 := by
    rw [byteAt_of_slice h (by decide)]
    refine (BitVec.toNat_ofNat ..).trans (Nat.mod_eq_of_lt ?_)
    omega
  rw [ts5, h0, h1, h2, h3, h4, and_stamp_high _ hp _ (by omega), and_stamp_mid _ (by omega)]
  simp only [Nat.shiftLeft_eq, Nat.shiftRight_eq_div_pow]
  rw [or_eq_add_of_dvd (b := v / 2 ^ 22 % 256 * 2 ^ 22) (i := 30) (by omega) (by omega),
    or_eq_add_of_dvd (b := v / 2 ^ 15 % 128 * 2 * 2 ^ 14) (i := 22) (by omega) (by omega),
    or_eq_add_of_dvd (b := v / 2 ^ 7 % 256 * 2 ^ 7) (i := 15) (by omega) (by omega),
    or_eq_add_of_dvd (i := 7) (by omega) (by omega)]
  omega

/-- The clamp, in natural numbers (R376). -/
theorem clampPts_eq (pts dts : Nat) : clampPts pts dts = if dts + 5400000 < pts then dts else pts := by
  unfold clampPts
  split_ifs <;> omega

/-! ### The packet (R375) -/

@[simp] theorem length_stampBytes (prefix4 : BitVec 4) (v : Nat) : (stampBytes prefix4 v).length = 5 := rfl

/-- The header in front of the timestamps. -/
def PesCode.head (x : PesCode) : Bytes :=
  [0, 0, 1, x.streamId] ++ beBytes 2 x.lengthField.toNat
    ++ [ x.flags, BitVec.ofNat 8 (x.stamps.flags * 64 + x.otherFlags.toNat)
       , BitVec.ofNat 8 (x.stamps.bytes.length + x.stuffing.length) ]

theorem PesCode.bytes_eq (x : PesCode) : x.bytes = x.head ++ (x.stamps.bytes ++ (x.stuffing ++ x.payload)) := by
  simp [bytes, head]

@[simp] theorem PesCode.length_head (x : PesCode) : x.head.length = 9 := by simp [head]

theorem PesStamps.flags_lt (x : PesStamps) : x.flags < 4 := by
  cases x with
  | none forbidden => cases forbidden <;> decide
  | pts _ _ => exact (by decide : 2 < 4)
  | both _ _ _ _ => exact (by decide : 3 < 4)

/-- What the parser returns for the packet. -/
def PesCode.parsed (x : PesCode) : Pes :=
  match x.stamps.values with
  | none => { has := false, pts := 0, dts := 0, payload := x.payload }
  | some (pts, dts) => { has := true, pts, dts, payload := x.payload }

/-- A written packet is parsed to its fields. -/
theorem parsePes_written {x : PesCode} (hx : x.Valid) : parsePes x.bytes = some x.parsed := by
  have hflags := x.stamps.flags_lt
  have hother := x.otherFlags.isLt
  have hfl : byteAt x.bytes 7 / 64 = x.stamps.flags := by
    have hbyte : byteAt x.bytes 7 = x.stamps.flags * 64 + x.otherFlags.toNat := by
      refine (BitVec.toNat_ofNat ..).trans (Nat.mod_eq_of_lt ?_)
      omega
    omega
  have hhdl : byteAt x.bytes 8 = x.stamps.bytes.length + x.stuffing.length :=
    (BitVec.toNat_ofNat ..).trans (Nat.mod_eq_of_lt hx)
  have hlen : x.bytes.length = 9 + (x.stamps.bytes.length + x.stuffing.length) + x.payload.length := by
    rw [x.bytes_eq]
    simp
    omega
  have hpayload : x.bytes.drop (9 + (x.stamps.bytes.length + x.stuffing.length)) = x.payload := by
    rw [x.bytes_eq, ← List.append_assoc x.stamps.bytes, ← List.append_assoc x.head]
    exact List.drop_left' (by simp)
  have hstart : ¬ (x.bytes.length < 9 ∨ x.bytes.take 3 ≠ [0, 0, 1]) :=
    not_or.2 ⟨by omega, fun h => h rfl⟩
  unfold parsePes
  rw [if_neg hstart, hfl, hhdl]
  dsimp only
  rw [if_neg (by omega), hpayload]
  have hcut := x.bytes_eq
  unfold PesCode.parsed
  cases hs : x.stamps with
  | none forbidden =>
    rw [if_pos (by cases forbidden <;> decide)]
    rfl
  | pts a v =>
    rw [hs] at hcut
    have hv := ts5_of_stampBytes a v.isLt (slice_of_eq hcut x.length_head rfl)
    have hflag : (PesStamps.pts a v).flags = 2 := rfl
    rw [hv, hflag, if_neg (by decide), if_neg (by simp [PesStamps.bytes]), if_pos rfl]
    rfl
  | both a v b w =>
    rw [hs] at hcut
    have hlength : (PesStamps.both a v b w).bytes.length = 10 := rfl
    have hv := ts5_of_stampBytes a v.isLt (p := x.bytes) (o := 9)
      (slice_of_eq (hcut.trans (congrArg _ (List.append_assoc _ _ _))) x.length_head rfl)
    have hw := ts5_of_stampBytes b w.isLt (p := x.bytes) (o := 14)
      (slice_of_eq (pre := x.head ++ stampBytes a v.toNat) (post := x.stuffing ++ x.payload)
        (hcut.trans (by simp [PesStamps.bytes])) (by simp) rfl)
    rw [hv, hw, hlength, if_neg (by simp [PesStamps.flags]), if_neg (by omega), if_neg (by simp [PesStamps.flags]),
      if_neg (by omega), clampPts_eq]
    rfl

/-- Bytes that are no packet are not parsed. -/
theorem parsePes_bad {p : Bytes} (h : BadPes p) : parsePes p = none := by
  unfold parsePes
  dsimp only
  rcases h with h | h | h | ⟨hfl, hhdl⟩ | ⟨hfl, hhdl⟩
  · rw [if_pos (.inl h)]
  · rw [if_pos (.inr h)]
  · rw [if_pos h, ite_self]
  · rw [if_neg (show ¬ byteAt p 7 / 64 < 2 by omega), if_pos hhdl, ite_self, ite_self]
  · have hflags : byteAt p 7 < 256 := BitVec.isLt _
    rw [if_neg (show ¬ byteAt p 7 / 64 < 2 by omega), if_neg (show byteAt p 7 / 64 ≠ 2 by omega), if_pos hhdl,
      ite_self, ite_self, ite_self]

end Sys2Proof.Machine
end

section
/-! PROOFS. 46_ts_demux R395, R396: the frames of an audio PES. -/

namespace Sys2Proof.Machine

/-! ### The scan of written frames (R311, R325) -/

section
variable {η α : Type}

/-- The bytes and the samples of the frames that a scan found in the bytes. -/
def framesOf (pl : Bytes) (frames : List Frame) : List (Bytes × Nat) :=
  frames.map fun f => (slice pl f.off f.len, f.ns)

/-- The scan takes the bytes `b` for one frame and goes on behind them. -/
def ScansFrame (scan : (fuel o n : Nat) → Option η → Bytes → Scan η) (b : Bytes) (frame : Bytes × Nat) (h : η) : Prop :=
  1 ≤ b.length ∧ ∀ (fuel n : Nat) (first : Option η) (pre rest : Bytes), ∃ (f : Frame) (n' : Nat),
    (slice (pre ++ (b ++ rest)) f.off f.len, f.ns) = frame ∧
    scan (fuel + 1) pre.length n first (b ++ rest) =
      let t := scan fuel (pre ++ b).length n' (some (first.getD h)) rest
      { t with frames := f :: t.frames }

/-- The scan ends at the bytes `cut`, a broken frame unless there are none. -/
def ScansEnd (scan : (fuel o n : Nat) → Option η → Bytes → Scan η) (cut : Bytes) : Prop :=
  ∀ (fuel o n : Nat) (first : Option η), cut.length ≤ fuel →
    scan fuel o n first cut = { frames := [], broken := decide (cut ≠ []), first }

/-- A scan of written frames lists them, says whether the last is cut short, and keeps the first header. -/
theorem scan_written {scan : (fuel o n : Nat) → Option η → Bytes → Scan η} {bytes : α → Bytes}
    {frame : α → Bytes × Nat} {hdr : α → η} {xs : List α} {cut : Bytes}
    (hxs : ∀ x ∈ xs, ScansFrame scan (bytes x) (frame x) (hdr x)) (hcut : ScansEnd scan cut) {fuel : Nat}
    (hfuel : (xs.flatMap bytes ++ cut).length ≤ fuel) (pre : Bytes) (n : Nat) (first : Option η) :
    let x := scan fuel pre.length n first (xs.flatMap bytes ++ cut)
    framesOf (pre ++ (xs.flatMap bytes ++ cut)) x.frames = xs.map frame ∧ x.broken = decide (cut ≠ []) ∧
      x.first = first.or (xs.head?.map hdr) := by
  induction xs generalizing fuel pre n first with
  | nil =>
    rw [List.flatMap_nil, List.nil_append] at hfuel ⊢
    rw [hcut fuel _ _ _ hfuel]
    exact ⟨rfl, rfl, (Option.or_none).symm⟩
  | cons x xs ih =>
    obtain ⟨⟨hpos, hx⟩, hrest⟩ := List.forall_mem_cons.1 hxs
    rw [List.flatMap_cons, List.append_assoc] at hfuel ⊢
    rw [List.length_append] at hfuel
    obtain ⟨fuel, rfl⟩ : ∃ m, fuel = m + 1 := ⟨fuel - 1, by omega⟩
    obtain ⟨f, n', hf, hscan⟩ := hx fuel n first pre (xs.flatMap bytes ++ cut)
    obtain ⟨hframes, hbroken, hfirst⟩ := ih hrest (fuel := fuel) (by omega) (pre ++ bytes x) n'
      (some (first.getD (hdr x)))
    rw [List.append_assoc] at hframes
    rw [hscan]
    refine ⟨congrArg₂ List.cons hf hframes, hbroken, hfirst.trans ?_⟩
    cases first <;> rfl

end

/-! ### ADTS and MPEG audio frames -/

theorem byteAt_take {b : Bytes} {m i : Nat} (h : i < m) : byteAt (b.take m) i = byteAt b i := by
  simp [byteAt, List.getD_eq_getElem?_getD, List.getElem?_take_of_lt h]

theorem getD_take {b : Bytes} {m i : Nat} (h : i < m) : (b.take m).getD i 0 = b.getD i 0 := by
  simp [List.getD_eq_getElem?_getD, List.getElem?_take_of_lt h]

/-- An ADTS frame gives its payload. -/
theorem scansFrame_adts (pts0 : Int) (ts : Nat) {x : AdtsCode} (hx : x.Valid) :
    ScansFrame (adtsFrom pts0 ts) x.bytes (x.payload, 1024) x.hdr := by
  obtain ⟨header, hbytes, hlen⟩ : ∃ header, x.bytes = header ++ x.payload ∧ header.length = 7 + x.crc.length :=
    ⟨_, rfl, by simp; omega⟩
  refine ⟨by rw [x.length_bytes, AdtsCode.flen]; omega, fun fuel n first pre rest => ⟨{
    off := pre.length + (7 + x.crc.length), len := x.payload.length
    pts := pts0 + (n * 1024 * ts / aacRate (first.getD x.hdr).sfi : Nat), ns := 1024 }, n + 1, ?_, ?_⟩⟩
  · refine Prod.ext (slice_of_eq (pre := pre ++ header) (post := rest) ?_ ?_ rfl) rfl
    · rw [hbytes, List.append_assoc, List.append_assoc]
    · rw [List.length_append, hlen]
  · rw [adtsFrom_written_frame pts0 ts fuel pre.length n first hx rest, List.length_append, x.length_bytes]

/-- The scan of ADTS frames ends at a frame cut short. -/
theorem scansEnd_adts (pts0 : Int) (ts : Nat) {cut : Bytes}
    (hcut : CutFrame (fun b => ∃ y : AdtsCode, y.Valid ∧ b = y.bytes) cut) : ScansEnd (adtsFrom pts0 ts) cut := by
  intro fuel o n first hfuel
  rcases hcut with rfl | ⟨b, m, ⟨y, hy, rfl⟩, hm, hlt, rfl⟩
  · cases fuel <;> rfl
  · rw [y.length_bytes] at hlt
    have hlen : (y.bytes.take m).length = m := by rw [List.length_take, y.length_bytes]; omega
    have hsync : adtsSync ((y.bytes.take m).getD 0 0) ((y.bytes.take m).getD 1 0) = true := by
      rw [getD_take (by omega), getD_take (by omega), ← y.bytes.append_nil]
      exact y.adtsSync_bytes []
    have hhdr (h7 : 7 ≤ m) : adtsHdr (y.bytes.take m) = y.hdr := by
      rw [← AdtsCode.adtsHdr_bytes hy [], List.append_nil]
      simp only [adtsHdr, byteAt_take (show 1 < m by omega), byteAt_take (show 2 < m by omega),
        byteAt_take (show 3 < m by omega), byteAt_take (show 4 < m by omega), byteAt_take (show 5 < m by omega)]
    generalize y.bytes.take m = cut at *
    obtain ⟨fuel, rfl⟩ : ∃ k, fuel = k + 1 := ⟨fuel - 1, by omega⟩
    obtain _ | ⟨a, _ | ⟨c, rest⟩⟩ := cut
    · simp at hlen; omega
    · simp at hlen; omega
    · have hs : adtsSync a c = true := hsync
      rw [adtsFrom, if_neg (by simp [hs]), decide_eq_true (List.cons_ne_nil _ _)]
      by_cases h7 : 7 ≤ m
      · have hsfi : y.hdr.sfi ≤ 12 := Nat.le_of_lt_succ hy.1
        have hhl : y.hdr.hl ≤ y.hdr.flen := Nat.le_add_right _ _
        have hflen : y.hdr.flen = y.flen := rfl
        rw [if_neg (by omega), hhdr h7, if_neg (by omega), if_pos (by omega)]
      · rw [if_pos (by omega)]

/-- An MPEG audio frame gives its bytes. -/
theorem scansFrame_mpa (pts0 : Int) (ts : Nat) {x : MpaCode × Bytes} (hx : MpaFrameValid x) :
    ScansFrame (mpaFrom pts0 ts) (mpaFrameBytes x) (mpaFrameBytes x, x.1.samples) x.1.hdr := by
  have hlen := length_mpaFrameBytes hx
  refine ⟨by rw [hlen, ← hx.2]; omega, fun fuel n first pre rest => ⟨{
    off := pre.length, len := x.1.flen, pts := pts0 + (n * ts / (first.getD x.1.hdr).rate : Nat)
    ns := x.1.samples }, n + x.1.samples, Prod.ext (slice_of_eq rfl rfl hlen) rfl, ?_⟩⟩
  rw [mpaFrom_written_frame pts0 ts fuel pre.length n first hx rest, List.length_append, hlen]

/-- The scan of MPEG audio frames ends at a frame cut short. -/
theorem scansEnd_mpa (pts0 : Int) (ts : Nat) {cut : Bytes}
    (hcut : CutFrame (fun b => ∃ (y : MpaCode) (pl : Bytes), y.Valid ∧ 4 + pl.length = y.flen ∧ b = y.bytes ++ pl) cut) :
    ScansEnd (mpaFrom pts0 ts) cut := by
  intro fuel o n first hfuel
  rcases hcut with rfl | ⟨b, m, ⟨y, pl, hy, hpl, rfl⟩, hm, hlt, rfl⟩
  · cases fuel <;> rfl
  · have hwhole : (y.bytes ++ pl).length = y.flen := length_mpaFrameBytes (x := (y, pl)) ⟨hy, hpl⟩
    rw [hwhole] at hlt
    have hlen : ((y.bytes ++ pl).take m).length = m := by rw [List.length_take, hwhole]; omega
    have hsync : mpaSync (((y.bytes ++ pl).take m).getD 0 0) (((y.bytes ++ pl).take m).getD 1 0) = true := by
      rw [getD_take (by omega), getD_take (by omega)]
      exact MpaCode.mpaSync_bytes hy.1 pl
    have hhdr (h4 : 4 ≤ m) : mpaHdr ((y.bytes ++ pl).take m) = .ok y.hdr := by
      rw [List.take_append, List.take_of_length_le (show y.bytes.length ≤ m from h4)]
      exact MpaCode.mpaHdr_valid hy _
    generalize (y.bytes ++ pl).take m = cut at *
    obtain ⟨fuel, rfl⟩ : ∃ k, fuel = k + 1 := ⟨fuel - 1, by omega⟩
    obtain _ | ⟨a, _ | ⟨c, rest⟩⟩ := cut
    · simp at hlen; omega
    · simp at hlen; omega
    · have hs : mpaSync a c = true := hsync
      rw [mpaFrom, if_neg (by simp [hs]), decide_eq_true (List.cons_ne_nil _ _)]
      by_cases h4 : 4 ≤ m
      · have hflen : y.hdr.flen = y.flen := rfl
        rw [if_neg (by omega)]
        simp only [hhdr h4]
        rw [if_pos (by omega)]
      · rw [if_pos (by omega)]

/-! ### The frames in the queues (R391, R395) -/

/-- Frames that fit come out one behind the other. -/
theorem emitFrames_ok {c : Config.Caps} {pl : Bytes} (p0 : Int) (rate : Nat) (frames : List Frame) (n : Nat)
    {o : Outputs} (hfit : AudioFits c o (framesOf pl frames)) :
    emitFrames c p0 rate pl frames n o =
      .ok ({ o with asq := o.asq ++ audioTable p0 rate n o.sdata.length (framesOf pl frames)
                    sdata := o.sdata ++ (framesOf pl frames).flatMap (·.1) },
        n + ((framesOf pl frames).map (·.2)).sum) := by
  induction frames generalizing n o with
  | nil => simp [emitFrames, framesOf, audioTable]
  | cons f rest ih =>
    obtain ⟨hq, hs⟩ := hfit
    have hcons : framesOf pl (f :: rest) = (slice pl f.off f.len, f.ns) :: framesOf pl rest := rfl
    rw [hcons] at hq hs ⊢
    rw [List.length_cons] at hq
    rw [List.flatMap_cons, List.length_append] at hs
    refine bind_ok.2 ⟨_, emitAudio_ok.2 ⟨rfl, by omega, by dsimp only at hs; omega⟩, ?_⟩
    dsimp only at hs
    rw [ih _ ⟨by rw [List.length_append, List.length_singleton]; omega, by rw [List.length_append]; omega⟩]
    simp [audioTable, Nat.add_assoc]

/-- An audio PES whose frames are known. -/
theorem audioPes_of_scan {c : Config.Caps} {pts : Nat} {pl : Bytes} {d : Dmx} {frames : List Frame} {broken : Bool}
    {configure : Track → Track} (has : Bool) (hscan : scanAudio pl d.trk = (frames, broken, configure))
    {p0 : Option Int} (hp0 : p0 = if has then some (pts : Int) else d.trk.aNext.map (·.toInt))
    (hfit : p0 ≠ none → AudioFits c d.out (framesOf pl frames)) :
    audioPes c has pts pl d = .ok (audioPesResult p0 (framesOf pl frames) broken (noteAudio false configure d)) := by
  have hnote : noteAudio broken configure d =
      if broken then countABroken (noteAudio false configure d) else noteAudio false configure d := by
    unfold noteAudio
    rfl
  have hout : (noteAudio broken configure d).out = d.out := by
    unfold noteAudio
    split_ifs <;> rfl
  unfold audioPes audioPesResult
  rw [hscan, ← hp0]
  dsimp only
  rw [← hnote]
  unfold emitAudioPes
  cases p0 with
  | none => simp [framesOf]
  | some p0 =>
    refine bind_ok.2 ⟨_, emitFrames_ok p0 _ frames 0 (by rw [hout]; exact hfit (Option.some_ne_none _)), ?_⟩
    cases frames with
    | nil => rfl
    | cons f rest => simp [framesOf]; rfl

/-! ### The configuration (R396) -/

/-- The first ADTS frame configures the track. -/
theorem configureAdts_hdr (x : AdtsCode) (t : Track) : configureAdts x.hdr t = x.configured t := by
  have hchannels : chanMap x.channels.toNat = channelCount x.channels.toNat := chanMap_eq (x.channels.setWidth 4)
  have hprofile := x.profile.isLt
  have hrate := x.rateIndex.isLt
  have hch := x.channels.isLt
  have hasc : [BitVec.ofNat 8 (adtsAsc x.hdr).1, BitVec.ofNat 8 (adtsAsc x.hdr).2] =
      beBytes 2 ((x.profile.toNat + 1) * 2048 + x.rateIndex.toNat * 128 + x.channels.toNat * 8) := by
    simp only [adtsAsc, AdtsCode.hdr, beBytes, List.nil_append, List.cons_append, List.cons.injEq, and_true]
    refine ⟨BitVec.eq_of_toNat_eq ?_, BitVec.eq_of_toNat_eq ?_⟩ <;> simp only [BitVec.toNat_ofNat] <;> omega
  rw [configureAdts, hasc]
  simp only [AdtsCode.hdr, hchannels, aacRate_eq]
  rfl

/-- The first MPEG audio frame configures the track. -/
theorem configureMpa_hdr (x : MpaCode) (t : Track) : configureMpa x.hdr t = x.configured t := by
  have hregs := x.mpaAudRegs_hdr
  rw [MpaCode.configured, ← hregs]
  rfl

/-- An audio PES of written frames, the codec's scan and configuration given. -/
theorem audioPes_written {η α : Type} {scan : (fuel o n : Nat) → Option η → Bytes → Scan η} {bytes : α → Bytes}
    {frame : α → Bytes × Nat} {hdr : α → η} {configure : η → Track → Track} {configured : α → Track → Track}
    {c : Config.Caps} {pts : Nat} {xs : List α} {cut : Bytes} {d d' : Dmx} (has : Bool)
    (hxs : ∀ x ∈ xs, ScansFrame scan (bytes x) (frame x) (hdr x)) (hcut : ScansEnd scan cut)
    (hconfigure : ∀ x t, configure (hdr x) t = configured x t)
    (hscan : ∀ pl : Bytes, scanAudio pl d.trk = ((scan pl.length 0 0 none pl).frames,
      (scan pl.length 0 0 none pl).broken, (scan pl.length 0 0 none pl).first.elim id configure))
    (hd' : d' = { d with trk := xs.head?.elim d.trk fun x => if d.trk.aExists then d.trk else configured x d.trk })
    {p0 : Option Int} (hp0 : p0 = if has then some (pts : Int) else d.trk.aNext.map (·.toInt))
    (hfit : p0 ≠ none → AudioFits c d.out (xs.map frame)) :
    audioPes c has pts (xs.flatMap bytes ++ cut) d =
      .ok (audioPesResult p0 (xs.map frame) (decide (cut ≠ [])) d') := by
  obtain ⟨hframes, hbroken, hfirst⟩ := scan_written hxs hcut (Nat.le_refl _) [] 0 none
  rw [List.nil_append] at hframes
  rw [← hframes] at hfit ⊢
  have hnote : d' = noteAudio false ((none.or (xs.head?.map hdr)).elim id configure) d := by
    rw [hd', noteAudio]
    cases xs with
    | nil => cases d.trk.aExists <;> rfl
    | cons x xs =>
      have hx := hconfigure x d.trk
      cases d.trk.aExists <;> simp [hx]
  rw [audioPes_of_scan has (hscan _) hp0 hfit, hnote, ← hbroken, ← hfirst]
  rfl

/-- Settles O49: the timestamp field, the PES header, and the two scans of an audio payload. -/
theorem pesTimestamps : Obligations.PesTimestamps := by
  refine ⟨fun p o prefix4 v hv h => ts5_of_stampBytes prefix4 hv h, fun pts dts => ?_, fun c x d hx => ?_,
    fun c st p d hp => ?_, fun c has pts xs cut d d' p0 hcodec hxs hcut hd' _ hp0 hfit => ?_,
    fun c has pts xs cut d d' p0 hcodec hxs hcut hd' _ hp0 hfit => ?_⟩
  · rw [clampPts_eq]
    exact ⟨fun h => if_neg (Nat.not_lt.2 h), fun h => if_pos h⟩
  · simp only [flushPes, parsePes_written hx, PesCode.parsed]
    refine ⟨fun h => ?_, fun pts dts h => ?_⟩ <;> rw [h] <;> exact ⟨rfl, rfl⟩
  · rw [flushPes, parsePes_bad hp]
  · refine audioPes_written has (fun x hx => scansFrame_adts 0 0 (hxs x hx)) (scansEnd_adts 0 0 hcut) configureAdts_hdr
      (fun pl => ?_) (hd'.trans ?_) hp0 hfit
    · rw [scanAudio, if_pos hcodec]
      dsimp only [adtsFrames]
      cases (adtsFrom 0 0 pl.length 0 0 none pl).first <;> rfl
    · cases xs <;> rfl
  · refine audioPes_written (bytes := mpaFrameBytes) has (fun x hx => scansFrame_mpa 0 0 (hxs x hx))
      (scansEnd_mpa 0 0 hcut) (fun x => configureMpa_hdr x.1) (fun pl => ?_) (hd'.trans ?_) hp0 hfit
    · rw [scanAudio, if_neg (by rw [hcodec]; decide)]
      dsimp only [mpaFrames]
      cases (mpaFrom 0 0 pl.length 0 0 none pl).first <;> rfl
    · cases xs <;> rfl

end Sys2Proof.Machine
end

section
/-! PROOFS. 46_ts_demux R380 to R390: units open, join and close samples, and parameter sets are captured. -/

namespace Sys2Proof.Machine

/-! ### Units between start codes (42_nal R190, R191) -/

theorem annexbUnits_units (b : Bytes) (endDelim : Bool) :
    (annexbUnits b endDelim).units = unitsOf b.length endDelim (startCodes b) := by
  unfold annexbUnits
  dsimp only
  cases hcodes : startCodes b with
  | nil => rfl
  | cons x xs =>
    rw [List.getLast?_cons]
    rfl

/-- The zero byte before is not looked at when the bytes are not those of a 3-byte start code. -/
theorem startCodesFrom_lookback {z : Bool} {rest : Bytes} (i : Nat) (hr : AtStartCode rest)
    (hz : z = true → ¬ [0, 0, 1] <+: rest) : startCodesFrom z i rest = startCodesFrom false i rest := by
  cases z with
  | false => rfl
  | true =>
    obtain rfl | h | ⟨t, rfl⟩ := hr
    · rfl
    · exact absurd h (hz rfl)
    · rfl

/-- Bytes before a start code shift the start codes behind them. -/
theorem startCodesFrom_lead {lead rest : Bytes} (i : Nat) (hr : AtStartCode rest) (hl : NoStartCode lead rest) :
    startCodesFrom false i (lead ++ rest) = (startCodes rest).map fun x => { x with at_ := x.at_ + (i + lead.length) } := by
  obtain ⟨hnone, hlast⟩ := hl
  rw [startCodesFrom_append hr hnone, startCodesFrom_lookback _ hr, startCodes,
    ← startCodesFrom_shift _ _ (fun h => absurd h Bool.false_ne_true), Nat.zero_add]
  cases h : lead.getLast? with
  | none => exact nofun
  | some x => exact fun hx hcode => hlast hcode (h.trans (congrArg some (of_decide_eq_true hx)))

/-- A start code at the very start. -/
theorem startCodes_code {code : Bytes} (hcode : code = [0, 0, 1] ∨ code = [0, 0, 0, 1]) (b : Bytes) :
    startCodes (code ++ b) = { at_ := 0, len := code.length } :: startCodesFrom false code.length b := by
  obtain rfl | rfl := hcode <;> rfl

theorem startCodes_of_atStartCode {rest : Bytes} (hr : AtStartCode rest) :
    rest = [] ∨ ∃ len cs, startCodes rest = { at_ := 0, len } :: cs := by
  obtain rfl | ⟨t, rfl⟩ | ⟨t, rfl⟩ := hr
  · exact .inl rfl
  · exact .inr ⟨_, _, startCodes_code (.inl rfl) t⟩
  · exact .inr ⟨_, _, startCodes_code (.inr rfl) t⟩

/-- The units behind bytes without a start code. -/
theorem annexbUnits_lead {lead rest : Bytes} (hr : AtStartCode rest) (hl : NoStartCode lead rest) :
    (annexbUnits (lead ++ rest) true).units =
      (annexbUnits rest true).units.map fun x => { x with start := x.start + lead.length } := by
  have hcodes : startCodes (lead ++ rest) = (startCodes rest).map fun x => { x with at_ := x.at_ + lead.length } := by
    rw [startCodes, startCodesFrom_lead 0 hr hl, Nat.zero_add]
  rw [annexbUnits_units, annexbUnits_units, hcodes, ← unitsOf_shift, List.length_append, Nat.add_comm]

/-- A unit behind its start code, before the next one. -/
theorem annexbUnits_unit {code u rest : Bytes} (hcode : code = [0, 0, 1] ∨ code = [0, 0, 0, 1])
    (hr : AtStartCode rest) (hu : NoStartCode u rest) :
    (annexbUnits (code ++ u ++ rest) true).units =
      { start := code.length, len := u.length, pfx := code.length } ::
        (annexbUnits rest true).units.map fun x => { x with start := x.start + (code ++ u).length } := by
  have hcodes : startCodes (code ++ u ++ rest) = { at_ := 0, len := code.length } ::
      (startCodes rest).map fun x => { x with at_ := x.at_ + (code ++ u).length } := by
    rw [List.append_assoc, startCodes_code hcode, startCodesFrom_lead _ hr hu, List.length_append]
  have hlen : (code ++ u ++ rest).length = rest.length + (code ++ u).length := by
    rw [List.length_append, Nat.add_comm]
  rw [annexbUnits_units, annexbUnits_units, hcodes, ← unitsOf_shift, hlen]
  obtain rfl | ⟨len, cs, hrest⟩ := startCodes_of_atStartCode hr
  · simp [startCodes, startCodesFrom, unitsOf]
  · rw [hrest]
    simp [unitsOf]

/-! ### The units of a video PES (R380 to R383) -/

/-- Bytes before the first start code are dropped. -/
theorem videoPes_lead {c : Config.Caps} {has : Bool} {pts dts : Nat} {lead rest : Bytes} {d : Dmx}
    (hr : AtStartCode rest) (hl : NoStartCode lead rest) :
    videoPes c has pts dts (lead ++ rest) d = videoPes c has pts dts rest d := by
  unfold videoPes
  rw [annexbUnits_lead hr hl, videoUnits_shift]

theorem headerLen_eq {codec : VCodec} (hc : codec ≠ .none) : headerLen codec = nalHeaderLength codec := by
  cases codec with
  | none => exact absurd rfl hc
  | avc | hevc => rfl

theorem unitType_eq {codec : VCodec} (hc : codec ≠ .none) (u : Bytes) : unitType codec u = nalTypeOf codec u := by
  cases codec with
  | none => exact absurd rfl hc
  | avc | hevc => rfl

theorem isAud_eq {codec : VCodec} (hc : codec ≠ .none) (ty : Nat) : isAud codec ty = isDelimiterType codec ty := by
  cases codec with
  | none => exact absurd rfl hc
  | avc | hevc => rfl

theorem isKey_eq {codec : VCodec} (hc : codec ≠ .none) (ty : Nat) : isKey codec ty = isKeyType codec ty := by
  cases codec with
  | none => exact absurd rfl hc
  | avc => rfl
  | hevc => exact Bool.decide_and _ _

/-- Without a timestamp at hand the units are those of a PES that has none. -/
theorem videoUnits_untimed (c : Config.Caps) (has : Bool) (stamp stamp' : Stamp) (pl : Bytes) (us : List NalUnit)
    (d : Dmx) (first : Bool) :
    videoUnits c has stamp pl us false false d = videoUnits c false stamp' pl us false first d := by
  induction us generalizing d first with
  | nil => rfl
  | cons x us ih =>
    rw [videoUnits, videoUnits, Bool.false_and, Bool.and_false]
    by_cases hshort : x.len < headerLen d.trk.vCodec
    · rw [if_pos hshort, if_pos hshort]
      exact ih d first
    · rw [if_neg hshort, if_neg hshort]
      exact congrArg _ (funext fun d => ih d false)

/-- The first unit of a PES, with the PES's timestamps, and the units behind it. -/
theorem videoPes_unit {c : Config.Caps} {has : Bool} {pts dts : Nat} {code u rest : Bytes} {d : Dmx}
    (hc : d.trk.vCodec ≠ .none) (hcode : code = [0, 0, 1] ∨ code = [0, 0, 0, 1]) (hr : AtStartCode rest)
    (hu : NoStartCode u rest) :
    videoPes c has pts dts (code ++ u ++ rest) d =
      if u.length < nalHeaderLength d.trk.vCodec then videoPes c has pts dts rest d
      else
        let ty := nalTypeOf d.trk.vCodec u
        let opens := isDelimiterType d.trk.vCodec ty || has || d.trk.opened.isNone
        videoUnit c opens (if has then some { pts := BitVec.ofNat 64 pts, dts := BitVec.ofNat 64 dts } else none) ty u d
          >>= videoPes c false 0 0 rest := by
  have hslice : slice (code ++ u ++ rest) code.length u.length = u := slice_of_eq (List.append_assoc _ _ _) rfl rfl
  unfold videoPes
  rw [annexbUnits_unit hcode hr hu, videoUnits, hslice, headerLen_eq hc]
  dsimp only
  rw [videoUnits_shift, unitType_eq hc, opensSample, isAud_eq hc, Bool.true_and]
  refine congrArg _ (congrArg _ (funext fun d' => ?_))
  have hspent (b : Bool) : (has && !(isDelimiterType d.trk.vCodec (nalTypeOf d.trk.vCodec u) || has || b)) = false := by
    cases has <;> simp
  rw [hspent, videoUnits_shift]
  exact videoUnits_untimed c has _ _ rest _ d' true

/-! ### Opening and joining -/

/-- Capture does not see the open sample, nor change it. -/
theorem capture_withOpen (c : Config.Caps) (ty : Nat) (u : Bytes) (o : OpenSample) (d : Dmx) :
    capture c ty u (d.withOpen o) = (capture c ty u d).withOpen o := by
  refine (capture_withApart c ty u (some o) d.trk.held d).trans ?_
  rw [← capture_held_eq c ty u d]
  rfl

/-- A unit joins the open sample when it fits. -/
theorem appendUnit_withOpen {c : Config.Caps} {o : OpenSample} {u : Bytes} (key : Bool) (d : Dmx)
    (hfit : OpenFits c (o.units ++ [u])) :
    appendUnit c key u (d.withOpen o) = .ok (d.withOpen { o with key := o.key || key, units := o.units ++ [u] }) :=
  (appendUnit_ok rfl).2 ⟨by rw [unitsBytes_eq]; exact hfit.1, hfit.2, rfl⟩

/-- A unit that starts a sample, once the open one is closed. -/
theorem videoUnit_opens {c : Config.Caps} {d d' : Dmx} (stamp : Option Stamp) (ty : Nat) {u : Bytes}
    (hclose : closeOpen c d = .ok d') (hfit : OpenFits c [u]) :
    videoUnit c true stamp ty u d =
      .ok ((capture c ty u d').withOpen { stamp, key := isKey d.trk.vCodec ty, units := [u] }) := by
  have hcodec : d'.trk.vCodec = d.trk.vCodec := (closeOpen_vPid hclose).2
  refine bind_ok.2 ⟨d'.withOpen { stamp, key := false, units := [] }, bind_ok.2 ⟨d', hclose, rfl⟩, ?_⟩
  rw [capture_withOpen, appendUnit_withOpen _ _ hfit]
  simp [Dmx.withOpen, hcodec]

/-- A unit that joins the open sample. -/
theorem videoUnit_joins {c : Config.Caps} {d : Dmx} {o : OpenSample} (stamp : Option Stamp) (ty : Nat) {u : Bytes}
    (ho : d.trk.opened = some o) (hfit : OpenFits c (o.units ++ [u])) :
    videoUnit c false stamp ty u d =
      .ok ((capture c ty u d).withOpen
        { o with key := o.key || isKey d.trk.vCodec ty, units := o.units ++ [u] }) := by
  have hopen : d = d.withOpen o := by
    unfold Dmx.withOpen
    rw [← ho]
  refine bind_ok.2 ⟨d, rfl, ?_⟩
  conv_lhs => rw [hopen, capture_withOpen]
  exact appendUnit_withOpen _ _ hfit

/-! ### Closing (R389, R390) -/

/-- What closing a sample with timestamps gives. -/
theorem closeStamped_gives {c : Config.Caps} {stamp : Stamp} {o : OpenSample} {d d' : Dmx}
    (h : closeStamped c stamp o d = .ok d') :
    d'.trk.opened = d.trk.opened ∧ d'.trk.cnt.dropped = d.trk.cnt.dropped ∧ d'.trk.lastV = some stamp ∧
    (d.trk.vExists = false → d'.out = d.out ∧ d'.trk.cnt.missCfg = d.trk.cnt.missCfg + 1) ∧
    (d.trk.vExists = true → d'.trk.cnt.missCfg = d.trk.cnt.missCfg ∧
      d'.out.sdata = d.out.sdata ++ o.units.flatten ∧ d'.out.asq = d.out.asq ∧
      d'.out.vsq = d.out.vsq ++
        [{ pts := stamp.pts, dts := stamp.dts, firstUnit := BitVec.ofNat 32 d.out.vut.length
           nunits := BitVec.ofNat 32 o.units.length, key := o.key }] ∧
      d'.out.vut.length = d.out.vut.length + o.units.length) := by
  rcases closeStamped_ok h with ⟨hv, out, hout, rfl⟩ | ⟨hv, rfl⟩
  · obtain ⟨rfl, -, -⟩ := emitVideo_ok.1 hout
    refine ⟨rfl, rfl, rfl, fun hno => absurd (hno.symm.trans hv) Bool.false_ne_true,
      fun _ => ⟨rfl, rfl, rfl, rfl, ?_⟩⟩
    rw [← length_unitTable d.out.sdata.length o.units]
    exact List.length_append
  · exact ⟨rfl, rfl, rfl, fun _ => ⟨rfl, rfl⟩, fun hyes => absurd (hv.symm.trans hyes) Bool.false_ne_true⟩

/-- The working state with the sample taken out, and counted when it has no timestamp. -/
def Dmx.takeOpened (d : Dmx) (o : OpenSample) : Dmx :=
  let d₀ : Dmx := { d with trk := { d.trk with opened := none } }
  if o.lacks then countDropped 1 d₀ else d₀

theorem takeOpened_gives (d : Dmx) (o : OpenSample) :
    (d.takeOpened o).trk.opened = none ∧
    (d.takeOpened o).trk.cnt.dropped = d.trk.cnt.dropped + (if o.lacks then 1 else 0) ∧
    (d.takeOpened o).trk.lastV = d.trk.lastV ∧ (d.takeOpened o).trk.vExists = d.trk.vExists ∧
    (d.takeOpened o).trk.cnt.missCfg = d.trk.cnt.missCfg ∧ (d.takeOpened o).out = d.out := by
  unfold Dmx.takeOpened
  cases o.lacks with
  | false => exact ⟨rfl, (BitVec.add_zero _).symm, rfl, rfl, rfl, rfl⟩
  | true => exact ⟨rfl, rfl, rfl, rfl, rfl, rfl⟩

/-- What closing the open sample gives, by the timestamps it takes. -/
theorem closeOpen_gives {c : Config.Caps} {d d' : Dmx} {o : OpenSample} (ho : d.trk.opened = some o)
    (h : closeOpen c d = .ok d') :
    ((if o.lacks then d.trk.lastV else o.stamp) = none ∧ d' = d.takeOpened o ∧ d'.trk.lastV = none) ∨
      ∃ stamp, (if o.lacks then d.trk.lastV else o.stamp) = some stamp ∧
        closeStamped c stamp o (d.takeOpened o) = .ok d' := by
  rw [closeOpen_of_opened c ho] at h
  dsimp only at h
  split at h
  case h_2 stamp hs => exact .inr ⟨stamp, hs, h⟩
  case h_1 hs =>
    cases h
    refine .inl ⟨hs, rfl, ?_⟩
    obtain ⟨-, -, hlast, -⟩ := takeOpened_gives d o
    refine hlast.trans ?_
    cases hstamp : o.stamp with
    | none => simpa [OpenSample.lacks, hstamp] using hs
    | some stamp => simp [OpenSample.lacks, hstamp] at hs

/-- Settles O50: the units of a video PES one after the other, each opening or joining a sample, and what closing
and capture give. -/
theorem closingSamples : Obligations.ClosingSamples := by
  refine ⟨fun c d d' o ho h => ?_, fun c has pts dts lead rest d => videoPes_lead, fun c has pts dts d => rfl,
    fun c has pts dts code u rest d ty hc hcode hr hu hty => ⟨fun hshort => ?_, fun d' hlong hopens hclose hfit => ?_,
      fun o hlong haud hhas ho hfit => ?_⟩, fun c ty u d hc => ⟨fun hk => ?_, fun k hk => ⟨fun hheld => ?_,
      fun hheld hsps => ?_, fun hheld hsps => ?_⟩⟩⟩
  · obtain ⟨hopened, hdropped, -, hexists, hmiss, hout⟩ := takeOpened_gives d o
    obtain ⟨hnone, rfl, hlast⟩ | ⟨stamp, hstamp, hclose⟩ := closeOpen_gives ho h
    · rw [hnone]
      exact ⟨hopened, hdropped, hlast, fun _ => hout, fun hsome => absurd hlast hsome,
        fun stamp hsome => nomatch hlast.symm.trans hsome⟩
    · obtain ⟨hopened', hdropped', hlast, hearly, hemit⟩ := closeStamped_gives hclose
      rw [hexists, hout, hmiss] at hearly hemit
      refine ⟨hopened'.trans hopened, hdropped'.trans hdropped, hlast.trans hstamp.symm, fun hno => ?_,
        fun _ hno => (hearly hno).2, fun stamp' hsome hyes => ?_⟩
      · exact (hearly (hno.resolve_left fun hnone => nomatch hlast.symm.trans hnone)).1
      · cases hlast.symm.trans hsome
        exact hemit hyes
  · rw [videoPes_unit hc hcode hr hu, if_pos hshort]
  · have hopens' : (isDelimiterType d.trk.vCodec ty || has || d.trk.opened.isNone) = true := by
      simpa [or_assoc] using hopens
    rw [videoPes_unit hc hcode hr hu, if_neg (Nat.not_lt.2 hlong)]
    dsimp only
    rw [← hty, hopens', videoUnit_opens _ ty hclose hfit, isKey_eq hc]
    rfl
  · subst hhas
    rw [videoPes_unit hc hcode hr hu, if_neg (Nat.not_lt.2 hlong)]
    dsimp only
    rw [← hty, haud, ho, Option.isNone_some, Bool.or_self, Bool.or_self, videoUnit_joins _ ty ho hfit, isKey_eq hc]
    rfl
  · exact capture_none c u ((paramKind_eq hc ty).trans hk)
  · exact capture_held c u ((paramKind_eq hc ty).trans hk) hheld
  · rw [capture_new c u ((paramKind_eq hc ty).trans hk) hheld, captureNew, if_neg hsps]
    exact ⟨fun hfit => by rw [if_pos hfit], fun hfit => by rw [if_neg hfit]⟩
  · subst hsps
    rw [capture_new c u ((paramKind_eq hc ty).trans hk) hheld, captureNew, if_pos rfl]
    refine ⟨fun g hg => ?_, fun e he => by rw [he]⟩
    rw [hg]
    exact ⟨fun hfit => if_pos hfit, fun hfit => if_neg hfit⟩

end Sys2Proof.Machine
end

section
/-! PROOFS. 41_bitreader section 2, 60_exceptions R453 to R458: a stale slice, and the fault state. -/

namespace Sys2Proof.Machine

/-! ### A slice that no longer fits its space (41_bitreader section 2) -/

theorem brSlice_of_not_sliceIn {s : State} (h : ¬ SliceIn s) :
    brSlice s = .error { code := .regionOutOfBounds, info := s.br.off.toNat } := if_neg h

/-- A read or skip command reads its slice first (60_exceptions R453). -/
theorem exec_reader_error {i : Instr} {s : State} {e : Err} (hi : isReader i = true) (he : brSlice s = .error e) :
    exec i s = .next (errorPath (encode i) e s) := by
  cases i with
  | readBits _ | skipBits _ | readUe | skipUe | readSe | skipSe | skipScalingList _ =>
    exact congrArg (finish _ s) (bind_error.2 (.inl (bind_error.2 (.inl he))))
  | _ => cases hi

/-- Settles O27: the slice is checked before anything is read. -/
theorem staleSliceRefused : Obligations.StaleSliceRefused :=
  fun _ _ hi hs => exec_reader_error hi (brSlice_of_not_sliceIn hs)

/-! ### The track commands in the fault state (60_exceptions R458) -/

/-- The track commands check FAULT before anything else (R453). -/
theorem exec_faulted {i : Instr} {s : State} (hi : isTrackCommand i = true) (hf : s.status.fault = true) :
    exec i s = .next (errorPath (encode i) { code := .faulted, info := 0 } s) := by
  have hfault : checkFault s = .error { code := .faulted, info := 0 } :=
    check_error.2 ⟨by rw [hf]; rfl, rfl⟩
  cases i with
  | trackReset | tsDemux _ _ | tsFlush | flvDemux _ _ =>
    exact congrArg (finish _ s) (bind_error.2 (.inl hfault))
  | _ => cases hi

/-! ### The other commands do not see FAULT -/

/-- `STATUS.FAULT` set to a value. -/
def State.withFault (s : State) (b : Bool) : State := { s with status := { s.status with fault := b } }

theorem State.withFault_self (s : State) : s.withFault s.status.fault = s := rfl

/-- Two runs that fail alike, or leave states that differ in FAULT alone. -/
abbrev AlikeButFault (b : Bool) (r r' : Except Err State) : Prop := EndAlike (State.withFault · b) id r r'

/-- Two such runs of a command, the second in the fault state, end in states that differ in FAULT alone. -/
theorem AlikeButFault.next {i : Instr} {s t : State} {r r' : Except Err State} (hr : AlikeButFault true r r')
    (h : finish i s r = .next t) : finish i (s.withFault true) r' = .next (t.withFault true) := by
  rcases EndAlike.cases hr with ⟨e, rfl, rfl⟩ | ⟨s', s'', rfl, rfl, hs⟩
  · cases h
    rfl
  · cases h
    cases hs
    rfl

/-- A bit-reader primitive does not see FAULT. -/
theorem withReader_alikeButFault {α : Type} (p : BitP α) (s : State) (b : Bool)
    {f f' : α × State → Except Err State} (h : ∀ v s', AlikeButFault b (f (v, s')) (f' (v, s'.withFault b))) :
    AlikeButFault b (withReader p s >>= f) (withReader p (s.withFault b) >>= f') := by
  simp only [withReader, bind_assoc, pure_bind]
  exact .bind fun _ => .bind fun x => h x.1 _

/-- A command that is neither a track command nor RESET takes the same steps in the fault state (R458). -/
theorem exec_withFault {i : Instr} {s t : State} (hi : isTrackCommand i = false) (hn : i ≠ .reset)
    (h : exec i s = .next t) : exec i (s.withFault true) = .next (t.withFault true) := by
  cases i with
  | nop =>
    cases h
    rfl
  | reset => exact absurd rfl hn
  | trackReset | tsDemux _ _ | tsFlush | flvDemux _ _ => cases hi
  | brInit _ => exact AlikeButFault.next (.bind fun _ => .ok rfl) h
  | readBits _ | skipBits _ | readUe | skipUe | readSe | skipSe | skipScalingList _ =>
    exact AlikeButFault.next (withReader_alikeButFault _ s true fun _ _ => .ok rfl) h
  | splitAnnexb _ _ | splitLenpfx _ _ | epbRemove _ | avcSpsParse _ | hevcSpsParse _ | aacAscParse _
  | mpaHdrParse _ | adtsParse _ | mpaScan _ =>
    exact AlikeButFault.next (.bind fun _ => .bind fun _ => .ok rfl) h
  | avccParse _ | hvccParse _ =>
    exact AlikeButFault.next (.bind fun _ => .bind fun _ => .bind fun _ => .ok rfl) h

/-- Settles O12: the track commands check FAULT first, and no other command but RESET looks at it. -/
theorem faultStateRefusesTrackCommands : Obligations.FaultStateRefusesTrackCommands := by
  intro i s hf
  refine ⟨fun hi => exec_faulted hi hf, fun hi hn t h => ?_⟩
  have hs : (s.withFault false).withFault true = s := by
    rw [← s.withFault_self, hf]
    rfl
  rw [← hs]
  exact exec_withFault hi hn h

end Sys2Proof.Machine
end

section
/-! PROOFS. 47_flv_demux R411 to R413: a header that is no FLV header, and what a call holds back. -/

namespace Sys2Proof.Machine

/-! ### A header that is no FLV header (R411) -/

/-- Bytes that agree with the signature up to `k` and differ there have their first mismatch at `k`. -/
theorem firstMismatch_some {sig d : Bytes} {k : Nat} (hsig : k < sig.length) (hd : k < d.length)
    (hne : d[k]? ≠ sig[k]?) (heq : d.take k = sig.take k) (i : Nat) : firstMismatch i sig d = some (i + k) := by
  induction k generalizing sig d i with
  | zero =>
    obtain ⟨a, sig, rfl⟩ := List.exists_cons_of_length_pos hsig
    obtain ⟨b, d, rfl⟩ := List.exists_cons_of_length_pos hd
    exact if_neg fun h => hne (congrArg some h.symm)
  | succ k ih =>
    obtain ⟨a, sig, rfl⟩ := List.exists_cons_of_length_pos (Nat.zero_lt_of_lt hsig)
    obtain ⟨b, d, rfl⟩ := List.exists_cons_of_length_pos (Nat.zero_lt_of_lt hd)
    rw [List.take_succ_cons, List.take_succ_cons] at heq
    obtain ⟨hab, htake⟩ := List.cons_eq_cons.1 heq
    rw [firstMismatch, if_pos hab.symm,
      ih (Nat.lt_of_succ_lt_succ hsig) (Nat.lt_of_succ_lt_succ hd) hne htake, Nat.add_right_comm, Nat.add_assoc]

/-- The first byte that differs from the signature is fatal. -/
theorem validateFlv_signature {b : Bytes} {k : Nat} (hk : k < 4) (hb : k < b.length)
    (hne : b[k]? ≠ ([0x46, 0x4C, 0x56, 0x01] : Bytes)[k]?)
    (heq : b.take k = ([0x46, 0x4C, 0x56, 0x01] : Bytes).take k) :
    validateFlv b = .error { code := .fatalFormat, info := k } := by
  rw [validateFlv, firstMismatch_some (sig := flvSignature) hk hb hne heq, Nat.zero_add]

/-- Behind the signature, a header size below 9 is fatal. -/
theorem validateFlv_size {b : Bytes} (hsig : b.take 4 = [0x46, 0x4C, 0x56, 0x01]) (hb : 9 ≤ b.length)
    (hsize : beNat (slice b 5 4) < 9) : validateFlv b = .error { code := .fatalFormat, info := 5 } := by
  have hprefix : b.take flvSignature.length <+: flvSignature := by
    rw [show b.take flvSignature.length = flvSignature from hsig]
  rw [validateFlv, firstMismatch_none hprefix]
  refine check_error.2 ⟨?_, rfl⟩
  rw [Bool.or_eq_false_iff, decide_eq_false_iff_not, decide_eq_false_iff_not]
  exact ⟨Nat.not_lt.2 hb, Nat.not_le.2 hsize⟩

/-- While the header has not been seen, the call fails as the validation of its bytes does (R410, R411). -/
theorem exec_flvDemux_invalid {disc contig : Bool} {s : State} {r : Region} {b : Bytes} {e : Err}
    (hf : s.status.fault = false) (hm : s.mode = .none ∨ s.mode = .flv) (hr : RegionIs .inp s r)
    (hb : b = flvInput disc s (regionBytes s r)) (hseen : s.trk.flvHdr = false ∨ disc = true)
    (he : validateFlv b = .error e) :
    exec (.flvDemux disc contig) s = .next (errorPath (encode (.flvDemux disc contig)) e s) := by
  have hstart : validateStart (s.trk.flvHdr && !disc) b = .error e := by
    rw [validateStart, if_neg (by rcases hseen with h | h <;> simp [h]), he]
  subst hb
  refine congrArg (finish _ s) (a₂ := .error e) ?_
  refine bind_error.2 (.inr ⟨(), checkFault_ok.2 hf, bind_error.2 (.inr ⟨(), checkMode_ok.2 hm, ?_⟩)⟩)
  exact bind_error.2 (.inr ⟨r, resolveRegion_ok.2 hr, bind_error.2 (.inl hstart)⟩)

/-- Settles O53: the validation of the header comes before the preamble, and it fails at the byte named. -/
theorem flvBadHeaderIsFatal : Obligations.FlvBadHeaderIsFatal := by
  intro disc contig s r b hf hm hr hb hseen
  exact ⟨fun k hk hlen hne heq => exec_flvDemux_invalid hf hm hr hb hseen (validateFlv_signature hk hlen hne heq),
    fun hsig hlen hsize => exec_flvDemux_invalid hf hm hr hb hseen (validateFlv_size hsig hlen hsize)⟩

/-! ### What a tag does not look at (R415) -/

/-- The working state with another header flag and other bytes held back. -/
def Dmx.withFile (d : Dmx) (seen : Bool) (rem : Bytes) : Dmx :=
  { d with trk := { d.trk with flvHdr := seen, flvRem := rem } }

theorem Dmx.withFile_self (d : Dmx) : d.withFile d.trk.flvHdr d.trk.flvRem = d := rfl

section
variable (c : Config.Caps) (ts : Nat) (p : Bytes) (seen : Bool) (rem : Bytes) (d : Dmx)

theorem flvAudioConfig_withFile : flvAudioConfig p (d.withFile seen rem) = (flvAudioConfig p d).withFile seen rem := by
  have hexists : (d.withFile seen rem).trk.aExists = d.trk.aExists := rfl
  unfold flvAudioConfig
  rw [hexists]
  split
  · rfl
  · cases asc p with
    | error e => rfl
    | ok a => dsimp only; split <;> rfl

theorem flvVideoConfig_withFile (fam : VCodec) :
    flvVideoConfig c fam p (d.withFile seen rem) = (flvVideoConfig c fam p d).withFile seen rem := by
  have hexists : (d.withFile seen rem).trk.vExists = d.trk.vExists := rfl
  unfold flvVideoConfig
  rw [hexists]
  split
  · rfl
  · cases (if fam = .avc then avcc p else hvcc p) with
    | error e => rfl
    | ok x => dsimp only; split <;> rfl

/-- An emission sees the queues alone. -/
theorem emit_withFile (emitted : Except Err Outputs) :
    (emitted >>= fun out => pure { d.withFile seen rem with out }) =
      (emitted >>= fun out => pure { d with out }).map (·.withFile seen rem) := by
  cases emitted <;> rfl

theorem flvAudioFrame_withFile :
    flvAudioFrame c ts p (d.withFile seen rem) = (flvAudioFrame c ts p d).map (·.withFile seen rem) :=
  ite_eq_map_ite (emit_withFile seen rem d _) rfl

theorem flvVideoFrame_withFile (cts : Int) (ft : Nat) :
    flvVideoFrame c ts cts ft p (d.withFile seen rem) =
      (flvVideoFrame c ts cts ft p d).map (·.withFile seen rem) :=
  ite_eq_map_ite (ite_eq_map_ite rfl (emit_withFile seen rem d _)) rfl

theorem flvTag_withFile (t : Bytes) :
    flvTag c t (d.withFile seen rem) = (flvTag c t d).map (·.withFile seen rem) := by
  refine ite_eq_map_ite ?_ (ite_eq_map_ite ?_ rfl)
  · refine ite_eq_map_ite rfl (ite_eq_map_ite ?_ (ite_eq_map_ite ?_ rfl))
    · exact congrArg Except.ok (flvAudioConfig_withFile _ seen rem d)
    · exact flvAudioFrame_withFile c _ _ seen rem d
  · refine ite_eq_map_ite rfl (ite_eq_map_ite rfl (ite_eq_map_ite rfl (ite_eq_map_ite ?_ (ite_eq_map_ite ?_ rfl))))
    · exact congrArg Except.ok (flvVideoConfig_withFile c _ seen rem d _)
    · exact flvVideoFrame_withFile c _ _ seen rem d _ _

end

/-- So a tag keeps the header flag. -/
theorem flvTag_flvHdr {c : Config.Caps} {t : Bytes} {d d' : Dmx} (h : flvTag c t d = .ok d') :
    d'.trk.flvHdr = d.trk.flvHdr := by
  have hown := flvTag_withFile c d.trk.flvHdr d.trk.flvRem d t
  rw [d.withFile_self, h] at hown
  exact congrArg (·.trk.flvHdr) (Except.ok.inj hown)

/-! ### The tag scan, tag by tag (R413) -/

/-- The tag scan over all the bytes. -/
def flvScan (c : Config.Caps) (b : Bytes) (d : Dmx) : Except Err (Bytes × Dmx) := flvTags c b.length b d

/-- The length of the tag at the start of the bytes, with its trailer. -/
def tagLength (b : Bytes) : Nat := 11 + beAt b 1 3 + 4

/-- Induction along the tags of a byte sequence. -/
theorem tagScan_induction {P : Bytes → Prop} (held : ∀ b, PartialTag b → P b)
    (tag : ∀ b, ¬ PartialTag b → P (b.drop (tagLength b)) → P b) (b : Bytes) : P b := by
  induction hn : b.length using Nat.strong_induction_on generalizing b with
  | h n ih =>
    by_cases hb : PartialTag b
    · exact held b hb
    · have h11 : ¬ b.length < 11 := fun h => hb (.inl h)
      refine tag b hb (ih _ ?_ _ rfl)
      rw [List.length_drop, tagLength]
      omega

/-- Outside a partial tag, the bytes hold the first tag whole. -/
theorem tagLength_le {b : Bytes} (hb : ¬ PartialTag b) : tagLength b ≤ b.length :=
  Nat.not_lt.1 fun h => hb (.inr h)

theorem flvScan_partial (c : Config.Caps) {b : Bytes} (hb : PartialTag b) (d : Dmx) : flvScan c b d = .ok (b, d) :=
  flvTags_partial c b.length hb d

/-- A whole tag is handled, and the scan goes on behind its trailer. -/
theorem flvScan_tag (c : Config.Caps) {b : Bytes} (hb : ¬ PartialTag b) (d : Dmx) :
    flvScan c b d = flvTag c (b.take (11 + beAt b 1 3)) d >>= flvScan c (b.drop (tagLength b)) := by
  obtain ⟨h11, hsize⟩ := not_or.1 hb
  obtain ⟨n, hn⟩ := Nat.exists_eq_add_one.2 (show 0 < b.length by omega)
  rw [flvScan, hn, flvTags, if_neg h11]
  refine (if_neg hsize).trans (bind_congr fun d' => ?_)
  exact flvTags_fuel c (by rw [List.length_drop]; omega) (Nat.le_refl _) d'

/-- What the scan leaves: a partial tag at the end of the bytes, and the header flag. -/
theorem flvScan_ok {c : Config.Caps} {b rest : Bytes} {d x : Dmx} (h : flvScan c b d = .ok (rest, x)) :
    rest <:+ b ∧ PartialTag rest ∧ x.trk.flvHdr = d.trk.flvHdr := by
  induction b using tagScan_induction generalizing d with
  | held b hb =>
    rw [flvScan_partial c hb] at h
    cases h
    exact ⟨List.suffix_refl _, hb, rfl⟩
  | tag b hb ih =>
    rw [flvScan_tag c hb] at h
    obtain ⟨d', htag, h⟩ := bind_ok.1 h
    obtain ⟨hsuffix, hrest, hhdr⟩ := ih h
    exact ⟨hsuffix.trans (List.drop_suffix _ b), hrest, hhdr.trans (flvTag_flvHdr htag)⟩

/-! ### The bytes held back (R412, R413) -/

/-- Bytes that a call holds back whole: before the header those that do not hold it whole, then a partial tag. -/
def FlvHeld (seen : Bool) (b : Bytes) : Prop :=
  if seen then PartialTag b else b.length < 9 ∨ b.length < beAt b 5 4 + 4

theorem flvBody_held (c : Config.Caps) {b : Bytes} {d : Dmx} (hb : FlvHeld d.trk.flvHdr b) :
    flvBody c b d = .ok (b, d) := by
  cases hd : d.trk.flvHdr with
  | true =>
    rw [FlvHeld, hd, if_pos rfl] at hb
    rw [flvBody_of_seen c b hd]
    exact flvScan_partial c hb d
  | false =>
    rw [FlvHeld, hd, if_neg Bool.false_ne_true] at hb
    rw [flvBody, hd, if_neg Bool.false_ne_true]
    by_cases h9 : b.length < 9
    · rw [if_pos h9]
    · rw [if_neg h9, if_pos (hb.resolve_left h9)]

/-- The bytes from the first tag on, where the header is there whole or has been seen. -/
def flvTagBytes (seen : Bool) (b : Bytes) : Bytes := if seen then b else b.drop (beAt b 5 4 + 4)

theorem flvTagBytes_suffix (seen : Bool) (b : Bytes) : flvTagBytes seen b <:+ b := by
  cases seen
  · exact List.drop_suffix _ b
  · exact List.suffix_refl b

/-- A call that does not hold back all its bytes skips the header, if it is still to come, and scans the tags. -/
theorem flvBody_scans (c : Config.Caps) {b : Bytes} {d : Dmx} (hb : ¬ FlvHeld d.trk.flvHdr b) :
    flvBody c b d = flvScan c (flvTagBytes d.trk.flvHdr b) (d.withFile true d.trk.flvRem) := by
  cases hd : d.trk.flvHdr with
  | true =>
    have hself : d.withFile true d.trk.flvRem = d := by
      rw [← hd]
      rfl
    rw [flvBody_of_seen c b hd, hself]
    rfl
  | false =>
    rw [FlvHeld, hd, if_neg Bool.false_ne_true, not_or] at hb
    obtain ⟨h9, hsize⟩ := hb
    rw [flvBody, hd, if_neg Bool.false_ne_true, if_neg h9, if_neg hsize]
    exact flvTags_fuel c (by rw [List.length_drop]; omega) (Nat.le_refl _) _

/-- What a call holds back it would hold back again. -/
theorem flvBody_ok_held {c : Config.Caps} {b rest : Bytes} {d x : Dmx} (h : flvBody c b d = .ok (rest, x)) :
    rest <:+ b ∧ FlvHeld x.trk.flvHdr rest := by
  by_cases hb : FlvHeld d.trk.flvHdr b
  · rw [flvBody_held c hb] at h
    cases h
    exact ⟨List.suffix_refl _, hb⟩
  · rw [flvBody_scans c hb] at h
    obtain ⟨hsuffix, hrest, hhdr⟩ := flvScan_ok h
    rw [hhdr]
    exact ⟨hsuffix.trans (flvTagBytes_suffix _ b), hrest⟩

/-! ### The size of a partial tag (R440) -/

theorem beNat_lt (b : Bytes) : beNat b < 256 ^ b.length := by
  induction b using List.reverseRecOn with
  | nil => exact Nat.one_pos
  | append_singleton b x ih =>
    have hx := x.isLt
    rw [beNat_concat, List.length_append, List.length_singleton, Nat.pow_succ]
    omega

theorem PartialTag.length_lt {b : Bytes} (h : PartialTag b) : b.length < 2 ^ 24 + 14 := by
  have hsize : beNat (slice b 1 3) < 256 ^ 3 :=
    (beNat_lt _).trans_le (Nat.pow_le_pow_right (by decide) (List.length_take_le _ _))
  rcases h with h | h <;> omega

/-- Settles O54: with the header seen, what is held back is a partial tag, whose size field has three bytes. -/
theorem flvPartialTagFits : Obligations.FlvPartialTagFits := by
  intro c b rest d x h hseen
  obtain ⟨hsuffix, hheld⟩ := flvBody_ok_held h
  rw [hseen] at hheld
  have hpartial : PartialTag rest := hheld
  exact ⟨hsuffix, hpartial.length_lt, hpartial⟩

end Sys2Proof.Machine
end

section
/-! PROOFS. 47_flv_demux R412, R413, from which the spec draws R442: an FLV file cut at any bytes. -/

namespace Sys2Proof.Machine

/-! ### A byte sequence cut in two -/

/-- A field that the first part holds is read from it. -/
theorem beAt_append {a : Bytes} {i n : Nat} (h : i + n ≤ a.length) (b : Bytes) : beAt (a ++ b) i n = beAt a i n := by
  rw [beAt, beAt, slice, slice, List.drop_append_of_le_length (by omega),
    List.take_append_of_le_length (by rw [List.length_drop]; omega)]

/-- A first tag that is there whole has its size field there. -/
theorem tagSize_append {a : Bytes} (ha : ¬ PartialTag a) (b : Bytes) : beAt (a ++ b) 1 3 = beAt a 1 3 := by
  have h11 : ¬ a.length < 11 := fun h => ha (.inl h)
  exact beAt_append (by omega) b

theorem not_partialTag_append {a : Bytes} (ha : ¬ PartialTag a) (b : Bytes) : ¬ PartialTag (a ++ b) := by
  have hsize : beNat (slice (a ++ b) 1 3) = beNat (slice a 1 3) := tagSize_append ha b
  rw [PartialTag] at ha ⊢
  rw [hsize, List.length_append]
  omega

/-- Bytes that a call does not hold back whole it does not hold back with more behind them. -/
theorem not_flvHeld_append {seen : Bool} {a : Bytes} (ha : ¬ FlvHeld seen a) (b : Bytes) :
    ¬ FlvHeld seen (a ++ b) ∧ flvTagBytes seen (a ++ b) = flvTagBytes seen a ++ b := by
  cases seen with
  | true => exact ⟨not_partialTag_append ha b, rfl⟩
  | false =>
    have h9 : ¬ a.length < 9 := fun h => ha (.inl h)
    have hle : beAt a 5 4 + 4 ≤ a.length := Nat.not_lt.1 fun h => ha (.inr h)
    have hsize : beAt (a ++ b) 5 4 = beAt a 5 4 := beAt_append (by omega) b
    simp only [FlvHeld, flvTagBytes, hsize, Bool.false_eq_true, if_false, List.length_append]
    exact ⟨by omega, List.drop_append_of_le_length hle⟩

/-- The tags of a sequence cut in two: those of the first part, and those of its rest with the second. -/
theorem flvScan_append (c : Config.Caps) (a b : Bytes) (d : Dmx) :
    flvScan c (a ++ b) d = flvScan c a d >>= fun y => flvScan c (y.1 ++ b) y.2 := by
  induction a using tagScan_induction generalizing d with
  | held a ha =>
    rw [flvScan_partial c ha]
    rfl
  | tag a ha ih =>
    have hle : tagLength a ≤ a.length := tagLength_le ha
    have hlength : tagLength (a ++ b) = tagLength a := by rw [tagLength, tagSize_append ha, tagLength]
    rw [flvScan_tag c (not_partialTag_append ha b), flvScan_tag c ha, bind_assoc, tagSize_append ha, hlength,
      List.take_append_of_le_length ((Nat.le_add_right _ 4).trans hle), List.drop_append_of_le_length hle]
    exact bind_congr ih

/-- A call over a sequence cut in two: a call over the first part, then one over what it holds back and the second
(R412, R413). -/
theorem flvBody_append (c : Config.Caps) (a b : Bytes) (d : Dmx) :
    flvBody c (a ++ b) d = flvBody c a d >>= fun y => flvBody c (y.1 ++ b) y.2 := by
  by_cases ha : FlvHeld d.trk.flvHdr a
  · rw [flvBody_held c ha]
    rfl
  · obtain ⟨hwhole, hbytes⟩ := not_flvHeld_append ha b
    rw [flvBody_scans c ha, flvBody_scans c hwhole, hbytes, flvScan_append]
    cases hx : flvScan c (flvTagBytes d.trk.flvHdr a) (d.withFile true d.trk.flvRem) with
    | error e => rfl
    | ok y =>
      obtain ⟨-, -, hseen⟩ := flvScan_ok hx
      exact (flvBody_of_seen c (y.1 ++ b) hseen).symm

/-! ### A call behind the queues of an earlier one -/

theorem flvScan_behind {c : Config.Caps} {b : Bytes} {o : Outputs} {d : Dmx} {x y : Bytes × Dmx}
    (hx : flvScan c b d = .ok x) (hy : flvScan c b (d.behind o) = .ok y) : y = (x.1, x.2.behind o) := by
  induction b using tagScan_induction generalizing d with
  | held b hb =>
    rw [flvScan_partial c hb] at hx hy
    cases hx
    cases hy
    rfl
  | tag b hb ih =>
    rw [flvScan_tag c hb] at hx hy
    obtain ⟨d₁, htag₁, hx⟩ := bind_ok.1 hx
    obtain ⟨d₂, htag₂, hy⟩ := bind_ok.1 hy
    obtain rfl : d₂ = d₁.behind o := shifts_flvTag c _ o d d₁ d₂ htag₁ htag₂
    exact ih hx hy

theorem flvBody_behind {c : Config.Caps} {b : Bytes} {o : Outputs} {d : Dmx} {x y : Bytes × Dmx}
    (hx : flvBody c b d = .ok x) (hy : flvBody c b (d.behind o) = .ok y) : y = (x.1, x.2.behind o) := by
  by_cases hb : FlvHeld d.trk.flvHdr b
  · have hb' : FlvHeld (d.behind o).trk.flvHdr b := hb
    rw [flvBody_held c hb] at hx
    rw [flvBody_held c hb'] at hy
    cases hx
    cases hy
    rfl
  · have hb' : ¬ FlvHeld (d.behind o).trk.flvHdr b := hb
    rw [flvBody_scans c hb] at hx
    rw [flvBody_scans c hb'] at hy
    exact flvScan_behind hx hy

/-! ### The bytes held back are not looked at -/

/-- The working state with other bytes held back. -/
def Dmx.withFlvRem (d : Dmx) (rem : Bytes) : Dmx := d.withFile d.trk.flvHdr rem

theorem flvScan_withFile (c : Config.Caps) (b : Bytes) (seen : Bool) (rem : Bytes) (d : Dmx) :
    flvScan c b (d.withFile seen rem) = (flvScan c b d).map fun y => (y.1, y.2.withFile seen rem) := by
  induction b using tagScan_induction generalizing d with
  | held b hb =>
    rw [flvScan_partial c hb, flvScan_partial c hb]
    rfl
  | tag b hb ih =>
    rw [flvScan_tag c hb, flvScan_tag c hb, flvTag_withFile]
    cases flvTag c (b.take (11 + beAt b 1 3)) d with
    | error e => rfl
    | ok d' => exact ih d'

theorem flvBody_withFlvRem (c : Config.Caps) (b rem : Bytes) (d : Dmx) :
    flvBody c b (d.withFlvRem rem) = (flvBody c b d).map fun y => (y.1, y.2.withFlvRem rem) := by
  by_cases hb : FlvHeld d.trk.flvHdr b
  · have hb' : FlvHeld (d.withFlvRem rem).trk.flvHdr b := hb
    rw [flvBody_held c hb, flvBody_held c hb']
    rfl
  · have hb' : ¬ FlvHeld (d.withFlvRem rem).trk.flvHdr b := hb
    rw [flvBody_scans c hb, flvBody_scans c hb']
    have hscan := flvScan_withFile c (flvTagBytes d.trk.flvHdr b) true rem (d.withFile true d.trk.flvRem)
    refine Eq.trans hscan ?_
    cases hx : flvScan c (flvTagBytes d.trk.flvHdr b) (d.withFile true d.trk.flvRem) with
    | error e => rfl
    | ok y =>
      obtain ⟨-, -, hseen⟩ := flvScan_ok hx
      have hsame : y.2.withFlvRem rem = y.2.withFile true rem := by rw [Dmx.withFlvRem, hseen]; rfl
      exact congrArg (fun z => Except.ok (y.1, z)) hsame.symm

/-! ### Calls (R442) -/

/-- What a call that does not fail did: it handled the bytes held back and the chunk. -/
theorem exec_flvDemux_chunk {off n : Nat} {contig : Bool} {s t : State} (hlen : off + n < 2 ^ 64)
    (run : exec (.flvDemux false contig) (withRegion off n s) = .next t) (ok : t.status.err = 0) :
    ∃ rest x, flvBody s.caps (s.trk.flvRem ++ memRange s.inMem off n) { trk := s.trk, out := Outputs.empty } =
        .ok (rest, x) ∧
      t.trk = (x.withFlvRem rest).trk ∧ t.out = x.out ∧ t.caps = s.caps ∧ t.inMem = s.inMem := by
  rcases finish_cases run with ⟨s', hok, rfl⟩ | ⟨e, -, rfl⟩
  · obtain ⟨_, -, hok⟩ := bind_ok.1 hok
    obtain ⟨_, -, hok⟩ := bind_ok.1 hok
    obtain ⟨r, hr, hok⟩ := bind_ok.1 hok
    obtain ⟨_, -, hok⟩ := bind_ok.1 hok
    obtain ⟨⟨rest, x⟩, hx, hok⟩ := bind_ok.1 hok
    obtain ⟨_, -, hok⟩ := bind_ok.1 hok
    cases hok
    obtain ⟨hname, -⟩ := resolveRegion_ok.1 hr
    cases hname
    have hoff : (BitVec.ofNat 64 off).toNat = off := Nat.mod_eq_of_lt (by omega)
    have hn : (BitVec.ofNat 64 n).toNat = n := Nat.mod_eq_of_lt (by omega)
    have hinput : flvInput false (withRegion off n s) (regionBytes (withRegion off n s)
        { space := .inp, off := (withRegion off n s).arg0.toNat, len := (withRegion off n s).arg1.toNat }) =
        s.trk.flvRem ++ memRange s.inMem off n := by
      simp only [flvInput, withRegion, regionBytes, memRead, hoff, hn, Bool.false_eq_true, if_false]
    rw [hinput, preamble_caps, dmxOf_preamble] at hx
    refine ⟨rest, x, hx, rfl, rfl, ?_, ?_⟩
    · simp [withRegion]
    · simp [withRegion]
  · exact absurd ok (errByte_ne_zero _)

/-- The calls that consecutive chunks are fed to, against one call over all their bytes behind queues `o₀`. Without a
chunk, nothing that a call would handle may be held back. -/
theorem fed_flvDemux {off : Nat} {ns : List Nat} {s t : State} {o : Outputs} (hi : s.Inv)
    (hlen : off + ns.sum < 2 ^ 64) (h : Fed (fun k => .flvDemux false k) off ns s t o)
    (hheld : ns = [] → FlvHeld s.trk.flvHdr s.trk.flvRem) {o₀ : Outputs} {rest : Bytes} {y : Dmx}
    (hy : flvBody s.caps (s.trk.flvRem ++ memRange s.inMem off ns.sum) { trk := s.trk, out := o₀ } =
      .ok (rest, y)) :
    y.out = o₀.append o ∧ t.trk = (y.withFlvRem rest).trk := by
  induction h generalizing o₀ y with
  | done off s =>
    have hbytes : s.trk.flvRem ++ memRange s.inMem off ([] : List Nat).sum = s.trk.flvRem := List.append_nil _
    have hstart : FlvHeld ({ trk := s.trk, out := o₀ } : Dmx).trk.flvHdr s.trk.flvRem := hheld rfl
    rw [hbytes, flvBody_held _ hstart] at hy
    cases hy
    exact ⟨(Outputs.append_empty _).symm, rfl⟩
  | chunk off n ns contig s t u o run ok more ih =>
    rw [List.sum_cons] at hlen hy
    obtain ⟨held, x, hx, htrk, hout, hcaps, hmem⟩ := exec_flvDemux_chunk (by omega) run ok
    have hstart : ({ trk := s.trk, out := o₀ } : Dmx) = Dmx.behind { trk := s.trk, out := Outputs.empty } o₀ := by
      rw [Dmx.behind, Outputs.append_empty]
    rw [memRange_add hi.memWf, ← List.append_assoc, flvBody_append, hstart] at hy
    obtain ⟨z, hz, hy⟩ := bind_ok.1 hy
    obtain rfl : z = (held, x.behind o₀) := flvBody_behind hx hz
    have hnext : ({ trk := t.trk, out := o₀.append t.out } : Dmx) = (x.behind o₀).withFlvRem held := by
      rw [htrk, hout]
      rfl
    have hrem : t.trk.flvRem = held := by rw [htrk]; rfl
    have hrun : flvBody t.caps (t.trk.flvRem ++ memRange t.inMem (off + n) ns.sum)
        { trk := t.trk, out := o₀.append t.out } = .ok (rest, y.withFlvRem held) := by
      rw [hcaps, hmem, hrem, hnext, flvBody_withFlvRem, hy]
      rfl
    have hend : FlvHeld t.trk.flvHdr t.trk.flvRem := by
      rw [htrk]
      exact (flvBody_ok_held hx).2
    obtain ⟨hout', htrk'⟩ := ih (flvDemux_inv (withRegion_inv hi off n) run) (by omega) (fun _ => hend) hrun
    refine ⟨?_, htrk'⟩
    rw [← Outputs.append_assoc]
    exact hout'

/-- Settles O55: the one call handles the bytes of all the chunks, and each call of a chunk its part of them. -/
theorem flvSplitInvariance : Obligations.FlvSplitInvariance := by
  intro off ns contig s t u o hi hlen hne hfed run ok
  obtain ⟨rest, x, hx, htrk, hout, -, -⟩ := exec_flvDemux_chunk hlen run ok
  obtain ⟨hout', htrk'⟩ := fed_flvDemux hi hlen hfed (fun h => absurd h hne) hx
  rw [Outputs.empty_append] at hout'
  exact ⟨hout.trans hout', htrk.trans htrk'.symm⟩

end Sys2Proof.Machine
end

section
/-! PROOFS. 60_exceptions R450, R458: which commands can end with FATAL_FORMAT, and what sets and clears FAULT. -/

namespace Sys2Proof.Machine

/-! ### Computations that never fail with FATAL_FORMAT -/

/-- The computation fails, if it does, with another code. -/
def NotFatal {α : Type} (r : Except Err α) : Prop := ∀ e, r = .error e → e.code ≠ .fatalFormat

section
variable {α β : Type}

theorem notFatal_ok (a : α) : NotFatal (.ok a) := fun _ h => by cases h

theorem notFatal_error {e : Err} (h : e.code ≠ .fatalFormat) : NotFatal (.error e : Except Err α) := by
  rintro _ ⟨⟩
  exact h

theorem NotFatal.bind {x : Except Err α} {f : α → Except Err β} (hx : NotFatal x) (hf : ∀ a, NotFatal (f a)) :
    NotFatal (x >>= f) := by
  intro e h
  rcases bind_error.1 h with h | ⟨a, -, h⟩
  · exact hx e h
  · exact hf a e h

theorem notFatal_check {b : Bool} {code : ErrCode} {info : Nat} (h : code ≠ .fatalFormat) :
    NotFatal (check b code info) := by
  intro e he
  obtain ⟨-, rfl⟩ := check_error.1 he
  exact h

/-- CAPACITY_EXCEEDED is another code. -/
theorem FailsWith.notFatal {l : List Nat} {x : Except Err α} (h : FailsWith l x) : NotFatal x := by
  intro e he
  obtain ⟨hcode, -⟩ := h e he
  rw [hcode]
  exact ErrCode.noConfusion

end

/-- REGION_OUT_OF_BOUNDS is all that a region operand raises. -/
theorem resolveRegion_notFatal (sp : RegionSel) (s : State) : NotFatal (resolveRegion sp s) := by
  intro e he
  rw [resolveRegion_error he]
  exact ErrCode.noConfusion

theorem brSlice_notFatal (s : State) : NotFatal (brSlice s) := by
  unfold brSlice
  split
  · exact notFatal_ok _
  · exact notFatal_error ErrCode.noConfusion

theorem commitRecord_notFatal (r : Region) (x : RecordInfo) (s : State) : NotFatal (commitRecord r x s) :=
  (notFatal_check ErrCode.noConfusion).bind fun _ => notFatal_ok _

theorem commitScan_notFatal {η : Type} (r : Region) (x : Scan η) (regs : η → AudRegs) (s : State) :
    NotFatal (commitScan r x regs s) :=
  (notFatal_check ErrCode.noConfusion).bind fun _ => notFatal_ok _

/-! ### Bit-level parsers

A parser raises FATAL_FORMAT only where one of its steps does: the equivalences for the ways in which parsers are put
together lead to the primitives of 41_bitreader, which never do. -/

section
variable {α β : Type} {p : BitP α}

@[simp] theorem notFatal_pure (a : α) (c : Cursor) : NotFatal ((pure a : BitP α) c) := notFatal_ok (a, c)

@[simp] theorem notFatal_bind {f : α → BitP β} {c : Cursor} : NotFatal ((p >>= f) c) ↔
    NotFatal (p c) ∧ ∀ a c', p c = .ok (a, c') → NotFatal (f a c') := by
  have hseq (e : Err) : (p >>= f) c = .error e ↔
      p c = .error e ∨ ∃ x, p c = .ok x ∧ f x.1 x.2 = .error e := bind_error
  constructor
  · exact fun h => ⟨fun e he => h e ((hseq e).2 (.inl he)),
      fun a c' ha e he => h e ((hseq e).2 (.inr ⟨(a, c'), ha, he⟩))⟩
  · rintro ⟨hp, hf⟩ e he
    rcases (hseq e).1 he with he | ⟨⟨a, c'⟩, ha, he⟩
    · exact hp e he
    · exact hf a c' ha e he

@[simp] theorem notFatal_map {f : α → β} {c : Cursor} : NotFatal ((f <$> p) c) ↔ NotFatal (p c) := by
  rw [← bind_pure_comp, notFatal_bind]
  exact and_iff_left fun a c' _ => notFatal_pure (f a) c'

@[simp] theorem notFatal_ite {q : Prop} [Decidable q] {x y : BitP α} {c : Cursor} :
    NotFatal ((if q then x else y) c) ↔ (q → NotFatal (x c)) ∧ (¬ q → NotFatal (y c)) := by
  by_cases hq : q <;> simp [hq]

@[simp] theorem notFatal_codedIf {coded : Bool} {absent : α} {c : Cursor} :
    NotFatal (codedIf coded p absent c) ↔ (coded = true → NotFatal (p c)) := by
  rw [codedIf, notFatal_ite]
  exact and_iff_left fun _ => notFatal_pure absent c

@[simp] theorem notFatal_times {p : BitP Unit} (hp : ∀ c, NotFatal (p c)) (n : Nat) (c : Cursor) :
    NotFatal (times n p c) := by
  induction n generalizing c with
  | zero => exact notFatal_pure () c
  | succ n ih => exact notFatal_bind.2 ⟨hp c, fun _ c' _ => ih c'⟩

theorem parseBytes_notFatal (hp : ∀ c, NotFatal (p c)) (b : Bytes) : NotFatal (parseBytes p b) := by
  intro e he
  unfold parseBytes at he
  split at he
  · cases he
  · next e' h =>
    cases he
    exact hp _ _ h

theorem withReader_notFatal (hp : ∀ c, NotFatal (p c)) (s : State) : NotFatal (withReader p s) :=
  (brSlice_notFatal s).bind fun _ => (hp _).bind fun _ => notFatal_ok _

end

@[simp] theorem u_notFatal (n : Nat) (c : Cursor) : NotFatal (u n c) := by
  unfold u
  split
  · exact notFatal_error ErrCode.noConfusion
  · exact notFatal_ok _

@[simp] theorem skip_notFatal (n : Nat) (c : Cursor) : NotFatal (skip n c) := by
  unfold skip
  split
  · exact notFatal_error ErrCode.noConfusion
  · exact notFatal_ok _

@[simp] theorem demand_notFatal (ok : Bool) (info : Nat) (c : Cursor) : NotFatal (demand ok info c) := by
  cases ok
  · exact notFatal_error ErrCode.noConfusion
  · exact notFatal_ok _

theorem zeroRun_notFatal (c : Cursor) (start fuel p z : Nat) : NotFatal (zeroRun c start fuel p z) := by
  induction fuel generalizing p z with
  | zero => exact notFatal_error ErrCode.noConfusion
  | succ fuel ih =>
    unfold zeroRun
    split
    · exact notFatal_error ErrCode.noConfusion
    · split
      · exact notFatal_ok z
      · exact ih _ _

@[simp] theorem ue_notFatal (c : Cursor) : NotFatal (ue c) := by
  unfold ue
  split
  · next e h => exact notFatal_error (zeroRun_notFatal _ _ _ _ _ e h)
  · split
    · exact notFatal_error ErrCode.noConfusion
    · exact notFatal_ok _

@[simp] theorem se_notFatal (c : Cursor) : NotFatal (se c) := by simp [se]

@[simp] theorem scalingFrom_notFatal (n : Nat) (last next : Int) (c : Cursor) :
    NotFatal (scalingFrom n last next c) := by
  induction n generalizing last next c with
  | zero => exact notFatal_pure () c
  | succ n ih => simp [scalingFrom, ih]

@[simp] theorem scalingList_notFatal (size : Nat) (c : Cursor) : NotFatal (scalingList size c) :=
  scalingFrom_notFatal size 8 8 c

/-! ### AVC parameter sets (43_avc_paramsets) -/

@[simp] theorem vuiSar_notFatal (c : Cursor) : NotFatal (vuiSar c) := by simp [vuiSar]

@[simp] theorem avcScalingLists_notFatal (n i : Nat) (c : Cursor) : NotFatal (avcScalingLists n i c) := by
  induction n generalizing i c with
  | zero => exact notFatal_pure () c
  | succ n ih => simp [avcScalingLists, ih]

@[simp] theorem avcPicOrder_notFatal (c : Cursor) : NotFatal (avcPicOrder c) := by simp [avcPicOrder]

@[simp] theorem cropOffsets_notFatal (c : Cursor) : NotFatal (cropOffsets c) := by simp [cropOffsets]

theorem avcSps_notFatal (b : Bytes) : NotFatal (avcSps b) :=
  parseBytes_notFatal (fun c => by simp [avcSpsBits, avcChroma, positiveDims]) _

/-! ### HEVC parameter sets (44_hevc_paramsets) -/

@[simp] theorem subLayerFlags_notFatal (n : Nat) (c : Cursor) : NotFatal (subLayerFlags n c) := by
  induction n generalizing c with
  | zero => exact notFatal_pure [] c
  | succ n ih => simp [subLayerFlags, ih]

@[simp] theorem subLayerFields_notFatal (flags : List (Nat × Nat)) (c : Cursor) :
    NotFatal (subLayerFields flags c) := by
  induction flags generalizing c with
  | nil => exact notFatal_pure () c
  | cons flag flags ih => simp [subLayerFields, ih]

@[simp] theorem profileTierLevel_notFatal (msl : Nat) (c : Cursor) : NotFatal (profileTierLevel msl c) := by
  simp [profileTierLevel]

@[simp] theorem scalingListData_notFatal (c : Cursor) : NotFatal (scalingListData c) := by
  simp [scalingListData, scalingMatrix]

@[simp] theorem useDeltaFlags_notFatal (n : Nat) (c : Cursor) : NotFatal (useDeltaFlags n c) := by
  induction n generalizing c with
  | zero => exact notFatal_pure [] c
  | succ n ih => simp [useDeltaFlags, ih]

@[simp] theorem explicitPocs_notFatal (sign : Int) (n : Nat) (prev : Int) (c : Cursor) :
    NotFatal (explicitPocs sign n prev c) := by
  induction n generalizing prev c with
  | zero => exact notFatal_pure [] c
  | succ n ih => simp [explicitPocs, ih]

@[simp] theorem stRefPicSet_notFatal (prev : Option RefPicSet) (c : Cursor) : NotFatal (stRefPicSet prev c) := by
  cases prev <;> simp [stRefPicSet, explicitRps]

@[simp] theorem stRefPicSets_notFatal (n : Nat) (prev : Option RefPicSet) (c : Cursor) :
    NotFatal (stRefPicSets n prev c) := by
  induction n generalizing prev c with
  | zero => exact notFatal_pure () c
  | succ n ih => simp [stRefPicSets, ih]

theorem hevcSps_notFatal (b : Bytes) : NotFatal (hevcSps b) :=
  parseBytes_notFatal
    (fun c => by simp [hevcSpsBits, subLayerOrdering, hevcScaling, hevcPcm, longTermPics, positiveDims]) _

/-! ### Decoder configuration records -/

theorem recordEntries_notFatal (r : Bytes) (kind : Option PsKind) (n p : Nat) :
    NotFatal (recordEntries r kind n p) := by
  induction n generalizing p with
  | zero => exact notFatal_ok _
  | succ n ih =>
    refine (notFatal_check ErrCode.noConfusion).bind fun _ =>
      (notFatal_check ErrCode.noConfusion).bind fun _ => (ih _).bind fun _ => ?_
    cases kind <;> exact notFatal_ok _

theorem firstSps_notFatal {parse : Bytes → Except Err SpsInfo} (hp : ∀ b, NotFatal (parse b)) (r : Bytes)
    (ents : List RecordEntry) : NotFatal (firstSps parse r ents) := by
  unfold firstSps
  split
  · exact notFatal_error ErrCode.noConfusion
  · exact hp _

theorem avcc_notFatal (r : Bytes) : NotFatal (avcc r) :=
  (notFatal_check ErrCode.noConfusion).bind fun _ => (recordEntries_notFatal _ _ _ _).bind fun _ =>
    (notFatal_check ErrCode.noConfusion).bind fun _ => (recordEntries_notFatal _ _ _ _).bind fun _ =>
      (firstSps_notFatal avcSps_notFatal _ _).bind fun _ => notFatal_ok _

theorem hvccArrays_notFatal (r : Bytes) (n p : Nat) : NotFatal (hvccArrays r n p) := by
  induction n generalizing p with
  | zero => exact notFatal_ok _
  | succ n ih =>
    exact (notFatal_check ErrCode.noConfusion).bind fun _ => (recordEntries_notFatal _ _ _ _).bind fun _ =>
      (ih _).bind fun _ => notFatal_ok _

theorem hvcc_notFatal (r : Bytes) : NotFatal (hvcc r) :=
  (notFatal_check ErrCode.noConfusion).bind fun _ => (hvccArrays_notFatal _ _ _).bind fun _ =>
    (firstSps_notFatal hevcSps_notFatal _ _).bind fun _ => notFatal_ok _

/-! ### Audio headers (45_audio) -/

theorem asc_notFatal (b : Bytes) : NotFatal (asc b) :=
  parseBytes_notFatal (fun c => by simp [ascBits, ascObjectType, ascRate]) b

theorem mpaHdr_notFatal (b : Bytes) : NotFatal (mpaHdr b) :=
  (notFatal_check ErrCode.noConfusion).bind fun _ => (notFatal_check ErrCode.noConfusion).bind fun _ =>
    (notFatal_check ErrCode.noConfusion).bind fun _ => (notFatal_check ErrCode.noConfusion).bind fun _ =>
      (notFatal_check ErrCode.noConfusion).bind fun _ => notFatal_ok _

/-! ### The commands -/

/-- Every command but TS_DEMUX and FLV_DEMUX ends without FATAL_FORMAT (60_exceptions R450). -/
theorem exec_notFatal {i : Instr} {s t : State} (hn : i ≠ .nop) (hi : callMode i = none ∨ i = .tsFlush)
    (h : exec i s = .next t) : t.status.err ≠ errByte .fatalFormat := by
  suffices hr : ∃ r, NotFatal r ∧ exec i s = finish i s r by
    obtain ⟨r, hr, hexec⟩ := hr
    rcases finish_cases (hexec.symm.trans h) with ⟨s', -, rfl⟩ | ⟨e, he, rfl⟩
    · exact (errByte_ne_zero _).symm
    · exact fun hcode => hr e he (errByte_injective hcode)
  have hregion := fun sp => resolveRegion_notFatal sp s
  have hcheck (b : Bool) (n : Nat) : NotFatal (check b .capacityExceeded n) := notFatal_check ErrCode.noConfusion
  cases i with
  | nop => exact absurd rfl hn
  | tsDemux _ _ | flvDemux _ _ => rcases hi with hi | hi <;> cases hi
  | reset => exact ⟨_, notFatal_ok _, rfl⟩
  | trackReset => exact ⟨_, (notFatal_check ErrCode.noConfusion).bind fun _ => notFatal_ok _, rfl⟩
  | brInit sp => exact ⟨_, (hregion sp).bind fun _ => notFatal_ok _, rfl⟩
  | readBits _ => exact ⟨_, (withReader_notFatal (u_notFatal _) s).bind fun _ => notFatal_ok _, rfl⟩
  | skipBits _ => exact ⟨_, (withReader_notFatal (skip_notFatal _) s).bind fun _ => notFatal_ok _, rfl⟩
  | readUe | skipUe => exact ⟨_, (withReader_notFatal ue_notFatal s).bind fun _ => notFatal_ok _, rfl⟩
  | readSe | skipSe => exact ⟨_, (withReader_notFatal se_notFatal s).bind fun _ => notFatal_ok _, rfl⟩
  | skipScalingList _ =>
    exact ⟨_, (withReader_notFatal (scalingList_notFatal _) s).bind fun _ => notFatal_ok _, rfl⟩
  | splitAnnexb sp _ | splitLenpfx sp _ | epbRemove sp =>
    exact ⟨_, (hregion sp).bind fun _ => (hcheck _ _).bind fun _ => notFatal_ok _, rfl⟩
  | avcSpsParse sp => exact ⟨_, (hregion sp).bind fun _ => (avcSps_notFatal _).bind fun _ => notFatal_ok _, rfl⟩
  | hevcSpsParse sp => exact ⟨_, (hregion sp).bind fun _ => (hevcSps_notFatal _).bind fun _ => notFatal_ok _, rfl⟩
  | aacAscParse sp => exact ⟨_, (hregion sp).bind fun _ => (asc_notFatal _).bind fun _ => notFatal_ok _, rfl⟩
  | mpaHdrParse sp => exact ⟨_, (hregion sp).bind fun _ => (mpaHdr_notFatal _).bind fun _ => notFatal_ok _, rfl⟩
  | avccParse sp =>
    exact ⟨_, (hregion sp).bind fun _ => (avcc_notFatal _).bind fun x => commitRecord_notFatal _ x s, rfl⟩
  | hvccParse sp =>
    exact ⟨_, (hregion sp).bind fun _ => (hvcc_notFatal _).bind fun x => commitRecord_notFatal _ x s, rfl⟩
  | adtsParse sp | mpaScan sp => exact ⟨_, (hregion sp).bind fun _ => commitScan_notFatal _ _ _ s, rfl⟩
  | tsFlush =>
    exact ⟨_, (notFatal_check ErrCode.noConfusion).bind fun _ => (notFatal_check ErrCode.noConfusion).bind fun _ =>
      (drainPending_fails _ _ _).notFatal.bind fun _ => (drainPending_fails _ _ _).notFatal.bind fun _ =>
        (closeOpen_fails _ _).notFatal.bind fun _ => notFatal_ok _, rfl⟩

/-- Settles O11: a command that completes keeps FAULT, but RESET clears it; the error path, which RESET never takes,
sets it for FATAL_FORMAT; and only two commands raise that. -/
theorem faultIsSticky : Obligations.FaultIsSticky := by
  intro i s t h hn
  refine ⟨?_, fun hfatal => ?_⟩
  · rcases exec_effect h hn with ⟨s', he, rfl⟩ | ⟨e, rfl⟩
    · have hok : (0 : Byte) ≠ errByte .fatalFormat := (errByte_ne_zero _).symm
      rw [complete_status, he.fault, Bool.and_eq_true, and_comm, Bool.not_eq_true', decide_eq_false_iff_not]
      exact (or_iff_left hok).symm
    · have hreset : i ≠ .reset := by
        rintro rfl
        exact errByte_ne_zero e.code (congrArg (·.status.err) (Host.Outcome.next.inj h)).symm
      have hcode : errByte e.code = errByte .fatalFormat ↔ e.code = .fatalFormat :=
        ⟨errByte_injective, congrArg errByte⟩
      rw [errorPath_status, hcode, Bool.or_eq_true, decide_eq_true_eq, and_iff_right hreset]
  · constructor
    · rw [Option.isSome_iff_ne_none]
      exact fun hcall => exec_notFatal hn (.inl hcall) h hfatal
    · exact fun hflush => exec_notFatal hn (.inr hflush) h hfatal

end Sys2Proof.Machine
end
